-- ==== Sys2Proof/Word.lean ====
section
/-! DEFINITION. The widths the spec fixes (00_scope.md rule R7): a data byte, the 24-bit command word. -/

namespace Sys2Proof

/-- A data byte, a status code, the shift register, the data register (rule R7). -/
abbrev Byte := BitVec 8

/-- A command word `OP[23:16] A[15:8] B[7:0]` (30_encoding.md rule R91). -/
abbrev CmdWord := BitVec 24

/-- The five bits of `STAT[7:3]` (10_state.md rule R31). -/
abbrev CodeField := BitVec 5

end Sys2Proof
end

