-- ==== Sys2Proof/Config.lean ====
section
/-! DEFINITION. What an instance of the core fixes (00_scope.md rules R4, R8; 30_encoding.md rules R110, R111),
and the one free value whose value no rule gives. The parameters are plain data: `State` carries them in its field
`cfg`, which no step writes, so that a statement about every state is a statement about every choice of them. -/

namespace Sys2Proof

/-- `BACKEND`: the one bus back end of an instance (rule R4). -/
inductive Backend where
  | hw
  | bb
deriving DecidableEq, Repr

/-- `BUS_SPEED`: the "mode" of START's settling delay (rule R8). -/
inductive BusSpeed where
  | standard
  | fast
deriving DecidableEq, Repr

/-- The status codes `SC_*` (rule R110). -/
structure Codes where
  start : Byte
  repStart : Byte
  mtSlaAck : Byte
  mtSlaNack : Byte
  mtDataAck : Byte
  mtDataNack : Byte
  arbLost : Byte
  mrSlaAck : Byte
  mrSlaNack : Byte
  mrDataAck : Byte
  mrDataNack : Byte
  noInfo : Byte
  timeout : Byte
deriving DecidableEq, Repr

/-- The eleven codes a bus phase produces, from `SC_START` to `SC_MR_DATA_NACK` (rule R110). -/
def Codes.phaseCodes (c : Codes) : List Byte :=
  [c.start, c.repStart, c.mtSlaAck, c.mtSlaNack, c.mtDataAck, c.mtDataNack, c.arbLost, c.mrSlaAck, c.mrSlaNack,
    c.mrDataAck, c.mrDataNack]

/-- The constraints every choice of codes meets (rule R111): nonzero, bits 2:0 zero, the phase codes and `SC_NO_INFO`
pairwise distinct, `SC_TIMEOUT` none of the phase codes. -/
abbrev Codes.wf (c : Codes) : Prop :=
  (∀ x ∈ c.timeout :: c.noInfo :: c.phaseCodes, x ≠ 0#8 ∧ x &&& 0x07#8 = 0#8) ∧
    (c.noInfo :: c.phaseCodes).Nodup ∧ c.timeout ∉ c.phaseCodes

/-- The parameters of an instance (rule R8). The delays are in nanoseconds; no rule reads them but as the argument of
`Delay`, which changes no state (rules R9, R12). -/
structure Params where
  backend : Backend
  waitBudget : Nat
  wdTimeout : Nat
  busSpeed : BusSpeed
  tLow : Nat
  tHigh : Nat
  tSuStaStandard : Nat
  tSuStaFast : Nat
  tHdSta : Nat
  tSuSto : Nat
  tBuf : Nat
  codes : Codes
deriving DecidableEq, Repr

/-- `T_SU_STA[BUS_SPEED]`, START's "mode-dependent settling delay" (rule R8, 40_bus_driver.md rule R135). -/
def Params.tSuSta (p : Params) : Nat :=
  match p.busSpeed with
  | .standard => p.tSuStaStandard
  | .fast => p.tSuStaFast

/-- The domains of rule R8 and the constraints of rule R111. -/
abbrev Params.wf (p : Params) : Prop := 1 ≤ p.waitBudget ∧ 1 ≤ p.wdTimeout ∧ p.codes.wf

/-- The default codes of rule R110. -/
def Codes.default : Codes where
  start := 0x08
  repStart := 0x10
  mtSlaAck := 0x18
  mtSlaNack := 0x20
  mtDataAck := 0x28
  mtDataNack := 0x30
  arbLost := 0x38
  mrSlaAck := 0x40
  mrSlaNack := 0x48
  mrDataAck := 0x50
  mrDataNack := 0x58
  noInfo := 0xF8
  timeout := 0xF8

/-- The parameters of the one instance `State.reset` is (log entry 1). DESIGN CHOICE: the spec leaves `BACKEND`,
`WAIT_BUDGET`, `WD_TIMEOUT` and `BUS_SPEED` open; the delays and the codes are the spec's defaults. -/
def Params.default : Params where
  backend := .bb
  waitBudget := 4
  wdTimeout := 1
  busSpeed := .standard
  tLow := 4700
  tHigh := 4000
  tSuStaStandard := 4700
  tSuStaFast := 600
  tHdSta := 4000
  tSuSto := 4000
  tBuf := 4700
  codes := Codes.default

/-- FREE VALUE (log entry 9): the code field the status encoder writes where its table (41_engine_status.md rule R188)
has no row or says "any" (`PHASE = UNKNOWN`, rule R187). No body: nothing can be proved about it. -/
opaque Config.freeCode : Nat → CodeField

end Sys2Proof
end

