-- ==== Sys2Proof/Syntax.lean ====
section
/-! DEFINITION. The operations of the core (30_encoding.md rules R93, R100): twelve commands of the command port and
the four meanings of a received byte, one constructor for each row of the opcode table; the framer's cursor, which
selects among the last four; and the reasons a command word is refused for. -/

namespace Sys2Proof

/-- `TransactionMode` (rule R103). -/
inductive Mode where
  | write
  | read
deriving DecidableEq, Repr

/-- `CURSOR`, the framer's state (10_state.md rule R46); its two bits are `Cursor.bits`. -/
inductive Cursor where
  | awaitAddr
  | lenHi
  | lenLo
  | fwd
deriving DecidableEq, Repr

/-- One operation of the core. -/
inductive Instr where
  | bbConfigure
  | bbStart
  | bbStop
  | bbPutbyte (data : Byte)
  | bbGetbyte (last : Bool)
  | bbTransfer (cw : Byte)
  | sesConfigure (div bits : Byte)
  | sesStart (mode : Mode) (address : Byte)
  | sesWrite (data : Byte)
  | sesReadAck
  | sesReadNack
  | sesStop
  | rxAddr (b : Byte)
  | rxLenHi (b : Byte)
  | rxLenLo (b : Byte)
  | rxPayload (b : Byte)
deriving DecidableEq, Repr

/-- Why a command word is refused, in the order the reasons are checked (60_exceptions.md rule R275). The hardware
shows only `RESP_FLAGS.REFUSED`. -/
inductive RefuseReason where
  | reservedOp
  | reservedField
  | noBbDriver
  | frameInProgress
  | bbNotConfigured
  | badControlWord
deriving DecidableEq, Repr

/-- An operation as it reaches the core: a command word on the command port, or a byte on the serial receive port
while the cursor is at `c` (rules R92, R100). -/
inductive Wire where
  | command (w : CmdWord)
  | received (c : Cursor) (b : Byte)
deriving DecidableEq, Repr

end Sys2Proof
end

