-- ==== Sys2Proof/Decode.lean ====
section
/-! DEFINITION. From bits to an operation and back (30_encoding.md). The decoder is total: a command word gives an
operation, or one of the two refusals that decoding itself makes, `RESERVED_OP` and `RESERVED_FIELD` (rules R93 to
R95). A received byte always gives the operation its cursor selects (rule R100). The encoder follows the same
tables. -/

namespace Sys2Proof

/-- `OP = word[23:16]` (rule R91). -/
def opField (w : CmdWord) : Byte := w.extractLsb' 16 8

/-- `A = word[15:8]` (rule R91). -/
def aField (w : CmdWord) : Byte := w.extractLsb' 8 8

/-- `B = word[7:0]` (rule R91). -/
def bField (w : CmdWord) : Byte := w.extractLsb' 0 8

/-- The operation of a word whose reserved bits are zero, by the opcode map (rule R93): `reserved` says whether any bit
of a field the map marks "0" is set (rule R95). -/
def checkReserved (reserved : Bool) (i : Instr) : Except RefuseReason Instr :=
  if reserved then .error .reservedField else .ok i

/-- `mode` of `SES_START`: 0 Write, 1 Read (rules R98, R103). -/
def modeOfBit (b : Bool) : Mode := if b then .read else .write

/-- The direction bit of a mode (rule R103). -/
def Mode.bit : Mode → Bool
  | .write => false
  | .read => true

/-- The decoder of the command port: the opcode map (rule R93), then the refusals of rules R94 and R95 in that order. -/
def decodeCommand (w : CmdWord) : Except RefuseReason Instr :=
  let a := aField w
  let b := bField w
  let aTop := a &&& 0xFE#8
  match opField w with
  | 0x01#8 => checkReserved (a != 0#8 || b != 0#8) .bbConfigure
  | 0x02#8 => checkReserved (a != 0#8 || b != 0#8) .bbStart
  | 0x03#8 => checkReserved (a != 0#8 || b != 0#8) .bbStop
  | 0x04#8 => checkReserved (a != 0#8) (.bbPutbyte b)
  | 0x05#8 => checkReserved (aTop != 0#8 || b != 0#8) (.bbGetbyte (a.getLsbD 0))
  | 0x06#8 => checkReserved (a != 0#8) (.bbTransfer b)
  | 0x10#8 => checkReserved false (.sesConfigure a b)
  | 0x11#8 => checkReserved (aTop != 0#8) (.sesStart (modeOfBit (a.getLsbD 0)) b)
  | 0x12#8 => checkReserved (a != 0#8) (.sesWrite b)
  | 0x13#8 => checkReserved (a != 0#8 || b != 0#8) .sesReadAck
  | 0x14#8 => checkReserved (a != 0#8 || b != 0#8) .sesReadNack
  | 0x15#8 => checkReserved (a != 0#8 || b != 0#8) .sesStop
  | _ => .error .reservedOp

/-- The two bits that encode `CURSOR` (10_state.md rule R46). -/
def Cursor.bits : Cursor → BitVec 2
  | .awaitAddr => 0#2
  | .lenHi => 1#2
  | .lenLo => 2#2
  | .fwd => 3#2

/-- The cursor that two bits encode (rule R46). -/
def Cursor.ofBits (c : BitVec 2) : Cursor :=
  if c = 0#2 then .awaitAddr else if c = 1#2 then .lenHi else if c = 2#2 then .lenLo else .fwd

/-- The operation a received byte is: the framer's rule that `CURSOR` selects (rules R100, R101). -/
def decodeReceived (c : Cursor) (b : Byte) : Instr :=
  match c with
  | .awaitAddr => .rxAddr b
  | .lenHi => .rxLenHi b
  | .lenLo => .rxLenLo b
  | .fwd => .rxPayload b

/-- The decoder of both ports. -/
def decode : Wire → Except RefuseReason Instr
  | .command w => decodeCommand w
  | .received c b => .ok (decodeReceived c b)

/-- A command word from its three fields (rule R91). -/
def commandWord (op a b : Byte) : CmdWord := op ++ a ++ b

/-- A flag in bit 0 of an operand byte whose other bits are zero (rule R93). -/
def flagByte (f : Bool) : Byte := if f then 0x01#8 else 0x00#8

/-- The encoder: each operation's word by the opcode map (rules R93, R121), or its byte at the cursor that selects it
(rule R101). -/
def encode : Instr → Wire
  | .bbConfigure => .command (commandWord 0x01 0 0)
  | .bbStart => .command (commandWord 0x02 0 0)
  | .bbStop => .command (commandWord 0x03 0 0)
  | .bbPutbyte data => .command (commandWord 0x04 0 data)
  | .bbGetbyte last => .command (commandWord 0x05 (flagByte last) 0)
  | .bbTransfer cw => .command (commandWord 0x06 0 cw)
  | .sesConfigure div bits => .command (commandWord 0x10 div bits)
  | .sesStart mode address => .command (commandWord 0x11 (flagByte mode.bit) address)
  | .sesWrite data => .command (commandWord 0x12 0 data)
  | .sesReadAck => .command (commandWord 0x13 0 0)
  | .sesReadNack => .command (commandWord 0x14 0 0)
  | .sesStop => .command (commandWord 0x15 0 0)
  | .rxAddr b => .received .awaitAddr b
  | .rxLenHi b => .received .lenHi b
  | .rxLenLo b => .received .lenLo b
  | .rxPayload b => .received .fwd b

/-- The framer bytes of the pseudo-instruction `FRAME address, data...` (rules R101, R122): the address, the length
big-endian (20_memory.md rule R73), the data. -/
def frameBytes (address : Byte) (data : List Byte) : List Byte :=
  let n : BitVec 16 := BitVec.ofNat 16 data.length
  address :: n.extractLsb' 8 8 :: n.extractLsb' 0 8 :: data

/-- `N = cw[3:0]`, the number of bit cycles of a transfer (30_encoding.md rule R104). -/
def controlBits (cw : Byte) : BitVec 4 := cw.extractLsb' 0 4

/-- A legal control word: `1 ≤ N ≤ 8` and `cw[7:4] = 0` (rule R104). -/
def controlWordOk (cw : Byte) : Bool :=
  decide (1 ≤ (controlBits cw).toNat) && decide ((controlBits cw).toNat ≤ 8) && cw.extractLsb' 4 4 == 0#4

/-- What this decoder reads from a row of spec/opcode_table.json, its bits numbered as the table numbers them: a
24-bit row is a command word, an 8-bit row a received byte. The table selects among the four received-byte rows by
`CURSOR`, which is no bit of the byte; here the cursor is the reset one, `AWAIT_ADDR` (log entry 19). -/
def decodeTableWord (nbits w : Nat) : Option Instr :=
  if 2 ^ nbits ≤ w then none
  else if nbits = 24 then (decodeCommand (BitVec.ofNat 24 w)).toOption
  else if nbits = 8 then some (decodeReceived .awaitAddr (BitVec.ofNat 8 w))
  else none

end Sys2Proof
end

