-- ==== Sys2Proof/Machine/State.lean ====
section
/-! DEFINITION. The state of the core (10_state.md), as plain data: its registers by unit, the bus and its traces, the
ports; the parameters of the instance; and what the rest of the world does next. The machine right after power-on. -/

namespace Sys2Proof.Machine

/-- `PHASE`, the status encoder's record of the transaction (rule R40). -/
inductive Phase where
  | idle
  | started
  | mt
  | mr
  | unknown
deriving DecidableEq, Repr

/-- An engine command in `ECMD`; the value `NONE` is `none` of `Option EngineCmd` (rule R34). -/
inductive EngineCmd where
  | start
  | tx
  | rxAck
  | rxNack
deriving DecidableEq, Repr

/-- An event of `TRACE` (rule R52). `byte v nack`: eight data bits and the ninth bit, 0 ACK, 1 NACK. -/
inductive Event where
  | start
  | rstart
  | byte (v : Byte) (nack : Bool)
  | stop
  | lost
  | reset
deriving DecidableEq, Repr

/-- An entry of `LTRACE`: a pair `(SCL_line, SDA_line)` (rule R53), or `RESET_MARK` (70_reset_and_hazards.md rule
R301). -/
inductive LineEntry where
  | pair (scl sda : Bool)
  | resetMark
deriving DecidableEq, Repr

/-- `Env.txOutcome` (41_engine_status.md rule R172). -/
inductive TxOutcome where
  | ack
  | nack
  | lost
deriving DecidableEq, Repr

/-- What one step of the engine does while `PHASE = UNKNOWN` (rule R187): events emitted, values written where given,
commands cleared. Every component is a draw. -/
structure AnyDraw where
  events : List Event
  code : Option CodeField
  data : Option Byte
  int : Option Bool
  clearEcmd : Bool
  clearStop : Bool
deriving DecidableEq, Repr

/-- The draws of one step of the byte engine (rule R172): `Env.txOutcome`, `Env.rxByte`, and rule R187's values. The
step reads those its command calls for. -/
structure EngineDraw where
  tx : TxOutcome
  rx : Byte
  any : AnyDraw
deriving DecidableEq, Repr

/-- One move of an agent (rule R21). `seq` is the sequencer's turn; the others are the draws of the environment, the
byte engine, the deadline guard and the host (log entry 3). A move that is not enabled when its turn comes changes
nothing. -/
inductive Move where
  | seq
  /-- The environment starts or stops driving SCL low (rule R172). -/
  | envScl (low : Bool)
  /-- The environment starts or stops driving SDA low (rule R172). -/
  | envSda (low : Bool)
  /-- The byte engine takes its step (rule R174). -/
  | engine (d : EngineDraw)
  /-- The byte engine changes its own drives, of which the spec gives no waveform (rules R50, R51; log entry 11). -/
  | engineLines (sclLow sdaLow : Bool)
  /-- The deadline guard fires (43_framer.md rule R250). -/
  | guard
  /-- The host delivers a byte, a command word, or reads the response (60_exceptions.md rule R281). -/
  | hostByte (b : Byte)
  | hostCommand (w : CmdWord)
  | hostReads
  /-- No agent of the core's world: an observer notes the state, at the point it stands among the steps of the agents, and
  changes nothing of the machine (the model's own, log entry 28). -/
  | observe
deriving DecidableEq, Repr

/-- The bit-bang driver's registers (rules R22 to R29). -/
structure Driver where
  sr : Byte
  latch : Bool
  dirOut : Bool
  sdaForce : Bool
  sclLow : Bool
  bitcnt : BitVec 4
  tc : Bool
  bbCfg : Bool
deriving DecidableEq, Repr

/-- The session's registers: `CLKDIV` (rule R30), `STAT[1:0] = OPT` (rule R31), `WAITCNT` (rule R36). -/
structure Session where
  clkdiv : Byte
  opt : BitVec 2
  waitcnt : Nat
deriving DecidableEq, Repr

/-- The registers the byte engine or the bit-bang adapter shares with the session: `STAT[7:3] = CODE` (rule R31),
`DATA` (rule R32), `INT` (rule R33), `ECMD` (rule R34), `PEND_STOP` (rule R35), `PHASE` (rule R40); and the index of
the next free value of the status encoder (the model's own, log entry 9). -/
structure Engine where
  code : CodeField
  data : Byte
  int : Bool
  ecmd : Option EngineCmd
  pendStop : Bool
  phase : Phase
  freeIdx : Nat
deriving DecidableEq, Repr

/-- The framer's registers (rules R46 to R49). -/
structure Framer where
  cursor : Cursor
  remaining : BitVec 16
  lastSt : Byte
  wdArmed : Bool
deriving DecidableEq, Repr

/-- The two lines' other drivers and the traces (rules R50 to R53). `trace` holds the events emitted with
`BACKEND = HW`, `ltrace` the line pairs with `BACKEND = BB`; `State.busTrace` is `TRACE` for both. -/
structure Bus where
  envSclLow : Bool
  envSdaLow : Bool
  engSclLow : Bool
  engSdaLow : Bool
  trace : List Event
  ltrace : List LineEntry
deriving DecidableEq, Repr

/-- The command port, the response registers, `BUSY` and the serial receive port (rules R54 to R57); and the reason
of the last refusal, which the response shows only as `REFUSED` (60_exceptions.md rule R275; the model's own, log
entry 7). `stopIssued` says that the operation now running has issued a STOP to the byte engine, which comes after the
operation's end (20_memory.md rule R81; the model's own, log entry 29). -/
structure Port where
  cmd : CmdWord
  cmdValid : Bool
  respCode : Byte
  respFlags : BitVec 2
  respValid : Bool
  busy : Bool
  rxData : Byte
  rxValid : Bool
  refusal : Option RefuseReason
  stopIssued : Bool
deriving DecidableEq, Repr

/-- What an observer notes at one point of a run, between two steps of the agents: the registers but those no rule
reads, and the lines (the model's own, log entry 28). -/
structure Moment where
  drv : Driver
  ses : Session
  eng : Engine
  busy : Bool
  sclLine : Bool
  sdaLine : Bool
  envSdaLow : Bool
deriving DecidableEq, Repr

/-- The state of the core. `cfg` is the instance's parameters, which no step writes; `inputs` is what the other agents
do, in order, between the sequencer's turns (the model's own, log entry 3); `seen` is what an observer has noted, which
no step reads (the model's own, log entry 28). -/
structure State where
  cfg : Params
  drv : Driver
  ses : Session
  eng : Engine
  frm : Framer
  bus : Bus
  port : Port
  inputs : List Move
  seen : List Moment
deriving DecidableEq, Repr

/-- Why the machine stops. -/
inductive Fault where
  /-- Raised by `WaitSclHigh` (40_bus_driver.md rule R134) when SCL is held low and neither the environment nor the
  guard has a move left: the hang of 60_exceptions.md rule R284, which the spec asks a model to treat as a stuck state.
  It carries the state of the hang. Safe: the hardware does not go on either. -/
  | busHang (held : State)
deriving DecidableEq, Repr

/-- Why the model gives an instruction no meaning. -/
inductive Refusal where
  /-- Raised by an arm of `exec` whose instruction has no meaning yet; no arm is left. Safe. -/
  | notModelled (mnemonic : String)
deriving DecidableEq, Repr

/-- Bits 7:3 of a status code (rule R31). -/
def codeFieldOf (c : Byte) : CodeField := c.extractLsb' 3 5

/-- The state at power-on with the parameters `p`: the reset values of 70_reset_and_hazards.md rule R300, both traces
empty. The spec gives no value to `CMD` and `RX_DATA` and none to the lines' other drivers (log entries 2, 12). -/
def State.powerOn (p : Params) : State where
  cfg := p
  drv := { sr := 0xFF, latch := true, dirOut := false, sdaForce := false, sclLow := false, bitcnt := 0, tc := false,
           bbCfg := false }
  ses := { clkdiv := 0, opt := 0, waitcnt := 0 }
  eng := { code := codeFieldOf p.codes.noInfo, data := 0xFF, int := false, ecmd := none, pendStop := false,
           phase := .idle, freeIdx := 0 }
  frm := { cursor := .awaitAddr, remaining := 0, lastSt := 0, wdArmed := false }
  bus := { envSclLow := false, envSdaLow := false, engSclLow := false, engSdaLow := false, trace := [], ltrace := [] }
  port := { cmd := 0, cmdValid := false, respCode := 0, respFlags := 0, respValid := false, busy := false,
            rxData := 0, rxValid := false, refusal := none, stopIssued := false }
  inputs := []
  seen := []

/-- The machine right after reset: power-on of the instance `Params.default` (log entry 1). -/
def State.reset : State := State.powerOn Params.default

end Sys2Proof.Machine
end

