-- ==== Sys2Proof/Machine/Bus.lean ====
section
/-! DEFINITION. The two bus lines, the writes of the driver's registers as the lines see them, the traces, and the
parse from lines to bus events (10_state.md rules R50 to R53; 40_bus_driver.md rules R132, R133, R150). -/

namespace Sys2Proof.Machine

/-- `core_drives_SCL_low` (rule R50). -/
def State.coreSclLow (s : State) : Bool :=
  match s.cfg.backend with
  | .bb => s.drv.sclLow
  | .hw => s.bus.engSclLow

/-- `core_drives_SDA_low` (rules R50, R132). -/
def State.coreSdaLow (s : State) : Bool :=
  match s.cfg.backend with
  | .bb => s.drv.dirOut && (s.drv.sdaForce || !s.drv.latch)
  | .hw => s.bus.engSdaLow

/-- `SCL_line`: the wired-AND of every driver (rule R50). -/
def State.sclLine (s : State) : Bool := !(s.coreSclLow || s.bus.envSclLow)

/-- `SDA_line` (rule R50). -/
def State.sdaLine (s : State) : Bool := !(s.coreSdaLow || s.bus.envSdaLow)

/-- The pair `(SCL_line, SDA_line)` as `LTRACE` records it (rule R53). -/
def State.linePair (s : State) : LineEntry := .pair s.sclLine s.sdaLine

/-- A write that may move a line: with `BACKEND = BB` a change of the pair is appended to `LTRACE` (rules R53, R133). -/
def State.moveLines (f : State → State) (s : State) : State :=
  let t := f s
  if t.cfg.backend = .bb ∧ t.linePair ≠ s.linePair then
    { t with bus.ltrace := t.bus.ltrace ++ [t.linePair] }
  else t

/-- `SR <- v`: while `SCL_LOW = 1` the latch follows `SR[7]` (rules R23, R132). -/
def State.setSr (v : Byte) (s : State) : State :=
  s.moveLines fun t => { t with drv.sr := v, drv.latch := if t.drv.sclLow then v.msb else t.drv.latch }

/-- `SCL_LOW <- 0`: the latch holds (rule R132). -/
def State.releaseScl (s : State) : State := s.moveLines fun t => { t with drv.sclLow := false }

/-- `SCL_LOW <- 1`: SCL falls first, then the latch takes `SR[7]` and SDA follows (rules R132, R133). -/
def State.pullScl (s : State) : State :=
  (s.moveLines fun t => { t with drv.sclLow := true }).moveLines fun t => { t with drv.latch := t.drv.sr.msb }

/-- `LATCH <- b`, loaded directly (rule R137). -/
def State.setLatch (b : Bool) (s : State) : State := s.moveLines fun t => { t with drv.latch := b }

/-- `DIR_OUT <- b`. -/
def State.setDirOut (b : Bool) (s : State) : State := s.moveLines fun t => { t with drv.dirOut := b }

/-- `SDA_FORCE <- b`. -/
def State.setSdaForce (b : Bool) (s : State) : State := s.moveLines fun t => { t with drv.sdaForce := b }

/-- `emit e` by the byte engine (rule R52). -/
def State.emit (e : Event) (s : State) : State := { s with bus.trace := s.bus.trace ++ [e] }

/-- The byte engine stops driving: both its lines are released (rule R52 of `EV_LOST`, 41_engine_status.md rule R177;
70_reset_and_hazards.md rule R301). -/
def State.releaseEngine (s : State) : State := { s with bus.engSclLow := false, bus.engSdaLow := false }

/-- The memory of the parse (rule R150): the entry before, whether the bus is owned, the bits of the byte in progress,
the events so far. -/
structure ParseState where
  prev : LineEntry
  owned : Bool
  bits : List Bool
  events : List Event
deriving DecidableEq, Repr

/-- The parse before the first entry, whose `prev` is `(1,1)` (rule R150). -/
def ParseState.init : ParseState := { prev := .pair true true, owned := false, bits := [], events := [] }

/-- The byte of a list of bits, first bit most significant (20_memory.md rule R74). -/
def byteOfBits (bits : List Bool) : Byte := bits.foldl (fun v b => v.shiftConcat b) 0#8

/-- One more bit while the bus is owned: eight data bits and the acknowledge bit make an `EV_BYTE` (rule R150). -/
def ParseState.pushBit (p : ParseState) (sda : Bool) : ParseState :=
  let bits := p.bits ++ [sda]
  if bits.length = 9 then
    { p with bits := [], events := p.events ++ [.byte (byteOfBits (bits.take 8)) sda] }
  else { p with bits := bits }

/-- The parse reads one entry (rule R150). -/
def ParseState.entry (p : ParseState) (cur : LineEntry) : ParseState :=
  let q : ParseState :=
    match p.prev, cur with
    | _, .resetMark => { p with owned := false, bits := [], events := p.events ++ [.reset] }
    | .resetMark, .pair _ _ => p
    | .pair scl sda, .pair scl' sda' =>
      if scl && scl' && sda && !sda' then
        { p with owned := true, bits := [], events := p.events ++ [if p.owned then .rstart else .start] }
      else if scl && scl' && !sda && sda' then
        { p with owned := false, bits := [], events := p.events ++ [.stop] }
      else if !scl && scl' && p.owned then p.pushBit sda'
      else p
  { q with prev := cur }

/-- The parse of a line trace (rule R150). -/
def parseLines (l : List LineEntry) : ParseState := l.foldl ParseState.entry .init

/-- `TRACE` (rule R52): with `BACKEND = HW` the events the engine emitted, with `BACKEND = BB` the parse of `LTRACE`. -/
def State.busTrace (s : State) : List Event :=
  match s.cfg.backend with
  | .hw => s.bus.trace
  | .bb => (parseLines s.bus.ltrace).events

/-- `RX_READY = ¬BUSY` (rule R57). -/
def State.rxReady (s : State) : Bool := !s.port.busy

/-- The reset of a core that is running (70_reset_and_hazards.md rules R300, R301): every register takes its reset
value and both lines are released at once; no STOP is sent; the traces are kept and the reset is traced. The
environment, the rest of the world's moves, the parameters and what an observer noted are not the core's and stay. -/
def State.coreReset (s : State) : State :=
  let t : State :=
    { State.powerOn s.cfg with
      bus := s.releaseEngine.bus
      inputs := s.inputs
      seen := s.seen }
  match s.cfg.backend with
  | .hw => t.emit .reset
  | .bb => { t with bus.ltrace := t.bus.ltrace ++ [.resetMark, t.linePair] }

end Sys2Proof.Machine
end

