-- ==== Sys2Proof/Machine/Flags.lean ====
section
/-! DEFINITION. The status encoder (41_engine_status.md rules R180 to R188), the views of `STAT` (10_state.md rule
R31), the success classes of the session (30_encoding.md rule R112) and the response flags (rule R120). -/

namespace Sys2Proof.Machine

/-- What the status encoder is told (rules R181 to R186). `nack` is the acknowledge bit: 0 ACK, 1 NACK. -/
inductive BusEvent where
  | start
  | tx (v : Byte) (nack : Bool)
  | txLost
  | rx (nack : Bool)
  | stop
  | idleXfer
deriving DecidableEq, Repr

/-- The code of an address byte sent (rule R182). -/
def addressCode (c : Codes) (v : Byte) (nack : Bool) : Byte :=
  match v.getLsbD 0, nack with
  | false, false => c.mtSlaAck
  | false, true => c.mtSlaNack
  | true, false => c.mrSlaAck
  | true, true => c.mrSlaNack

/-- The phase an address byte opens (rule R182). -/
def addressPhase (v : Byte) : Phase := if v.getLsbD 0 then .mr else .mt

/-- The encoder's table (rule R188): the code and the next phase; none where the table has no row, or says "any". -/
def encoderTable (c : Codes) (p : Phase) (e : BusEvent) : Option (Byte × Phase) :=
  match p, e with
  | .unknown, _ => none
  | .idle, .start => some (c.start, .started)
  | .idle, .stop => some (c.noInfo, .idle)
  | .idle, .idleXfer => some (c.noInfo, .idle)
  | .idle, .tx _ _ => none
  | .idle, .txLost => none
  | .idle, .rx _ => none
  | _, .start => some (c.repStart, .started)
  | .started, .tx v nack => some (addressCode c v nack, addressPhase v)
  | _, .tx _ nack => some (if nack then c.mtDataNack else c.mtDataAck, .mt)
  | _, .txLost => some (c.arbLost, .idle)
  | _, .rx nack => some (if nack then c.mrDataNack else c.mrDataAck, .mr)
  | _, .stop => some (c.noInfo, .idle)
  | _, .idleXfer => none

/-- `Encode(e)` (rule R180): it writes `STAT[7:3]` and `PHASE`. Off the table the code is a free value and the phase
is kept (rule R187, log entry 9). -/
def State.encodeStatus (e : BusEvent) (s : State) : State :=
  match encoderTable s.cfg.codes s.eng.phase e with
  | some (code, next) => { s with eng.code := codeFieldOf code, eng.phase := next }
  | none => { s with eng.code := Config.freeCode s.eng.freeIdx, eng.freeIdx := s.eng.freeIdx + 1 }

/-- `STAT`: `CODE` in bits 7:3, bit 2 reads 0, `OPT` in bits 1:0 (rule R31). -/
def State.statReg (s : State) : Byte := s.eng.code ++ 0#1 ++ s.ses.opt

/-- `STAT & 0xF8`, the status the session sees (rules R31, R192). -/
def State.statusSeen (s : State) : Byte := s.statReg &&& 0xF8#8

/-- A START result that is success (rule R112). -/
def startOk (c : Codes) (st : Byte) : Bool := st == c.start || st == c.repStart

/-- A data-transmit result that is success (rule R112). -/
def dataOk (c : Codes) (st : Byte) : Bool := st == c.mtDataAck || st == c.mrDataAck

/-- The address result that is success in a mode (rule R112). -/
def addressAck (c : Codes) : Mode → Byte
  | .write => c.mtSlaAck
  | .read => c.mrSlaAck

/-- `RESP_FLAGS`: bit 0 `NOTCFG`, bit 1 `REFUSED` (10_state.md rule R55, rule R120). -/
def respFlagsOf (notcfg refused : Bool) : BitVec 2 := BitVec.ofBool refused ++ BitVec.ofBool notcfg

end Sys2Proof.Machine
end

