-- ==== Sys2Proof/Machine/Agents.lean ====
section
/-! DEFINITION. The agents other than the sequencer (10_state.md rule R21): the byte engine's step (41_engine_status.md
rules R173 to R179, R187), the bus environment (rule R172), the host (60_exceptions.md rule R281) and the deadline
guard (43_framer.md rule R250). -/

namespace Sys2Proof.Machine

/-- `PerformStart` (rule R176). -/
def State.performStart (s : State) : State :=
  let t := (s.emit (if s.eng.phase = .idle then .start else .rstart)).encodeStatus .start
  { t with eng.ecmd := none, eng.int := true }

/-- `PerformTx` with the outcome drawn (rule R177). With `LOST` "the engine released both lines mid-byte". -/
def State.performTx (o : TxOutcome) (s : State) : State :=
  let t :=
    match o with
    | .lost => (s.releaseEngine.emit .lost).encodeStatus .txLost
    | .ack => (s.emit (.byte s.eng.data false)).encodeStatus (.tx s.eng.data false)
    | .nack => (s.emit (.byte s.eng.data true)).encodeStatus (.tx s.eng.data true)
  { t with eng.ecmd := none, eng.int := true }

/-- `PerformRx(m)` with the byte drawn (rule R178). -/
def State.performRx (m : Bool) (v : Byte) (s : State) : State :=
  let t := (({ s with eng.data := v } : State).emit (.byte v m)).encodeStatus (.rx m)
  { t with eng.ecmd := none, eng.int := true }

/-- `PerformStop`: neither `INT` nor `ECMD` changes (rule R179). -/
def State.performStop (s : State) : State :=
  let t := (s.emit .stop).encodeStatus .stop
  { t with eng.pendStop := false }

/-- `EngineAny` with its draw (rule R187). Where an `EV_LOST` is among its events the engine has released both lines
(10_state.md rule R52; log entry 11). -/
def State.engineAny (d : AnyDraw) (s : State) : State :=
  { s with
    bus.trace := s.bus.trace ++ d.events
    bus.engSclLow := s.bus.engSclLow && !d.events.contains .lost
    bus.engSdaLow := s.bus.engSdaLow && !d.events.contains .lost
    eng.code := d.code.getD s.eng.code
    eng.data := d.data.getD s.eng.data
    eng.int := d.int.getD s.eng.int
    eng.ecmd := if d.clearEcmd then none else s.eng.ecmd
    eng.pendStop := if d.clearStop then false else s.eng.pendStop }

/-- When the engine's step is enabled (rules R170, R173, R174). While `PHASE = UNKNOWN` it may act "at any step"
(rule R187, log entry 10). -/
def State.engineEnabled (s : State) : Bool :=
  s.cfg.backend = .hw && s.ses.clkdiv != 0#8 &&
    (s.eng.phase = .unknown || s.eng.pendStop || s.eng.ecmd = some .start ||
      (s.eng.ecmd.isSome && s.eng.phase != .idle))

/-- `EngineStep`, enabled (rule R174): a pending STOP goes first. -/
def State.engineAct (d : EngineDraw) (s : State) : State :=
  if s.eng.phase = .unknown then s.engineAny d.any
  else if s.eng.pendStop then s.performStop
  else
    match s.eng.ecmd with
    | some .start => s.performStart
    | some .tx => s.performTx d.tx
    | some .rxAck => s.performRx false d.rx
    | some .rxNack => s.performRx true d.rx
    | none => s

/-- The pending STOP waits for the end of the operation that issued it: its `EV_STOP` appears in `TRACE` after that
operation has ended (20_memory.md rule R81, 42_session.md rule R218; log entry 29). While `PHASE = UNKNOWN` the engine's
step is `EngineAny`, which rule R187 lets come at any step. -/
def State.stopHeld (s : State) : Bool :=
  s.port.busy && s.port.stopIssued && s.eng.pendStop && s.eng.phase != .unknown

/-- The engine's step is enabled, and nothing holds it back. -/
def State.engineActs (s : State) : Bool := s.engineEnabled && !s.stopHeld

/-- The byte engine's move (rules R173 to R175). -/
def State.engineMove (d : EngineDraw) (s : State) : State := if s.engineActs then s.engineAct d else s

/-- The engine changes its own drives: any values, at any time it may act (rules R51, R173; log entry 11). -/
def State.engineLinesMove (sclLow sdaLow : Bool) (s : State) : State :=
  if s.cfg.backend = .hw ∧ s.ses.clkdiv ≠ 0#8 then { s with bus.engSclLow := sclLow, bus.engSdaLow := sdaLow } else s

/-- The environment moves SCL (rule R172). -/
def State.envSclMove (low : Bool) (s : State) : State := s.moveLines fun t => { t with bus.envSclLow := low }

/-- The environment moves SDA (rule R172). -/
def State.envSdaMove (low : Bool) (s : State) : State := s.moveLines fun t => { t with bus.envSdaLow := low }

/-- The guard fires, if armed (rule R250, 60_exceptions.md rule R276). -/
def State.guardMove (s : State) : State := if s.frm.wdArmed then s.coreReset else s

/-- The host delivers a byte, only while `RX_VALID = 0` and `RX_READY = 1` (60_exceptions.md rule R281). -/
def State.hostByteMove (b : Byte) (s : State) : State :=
  if !s.port.rxValid && s.rxReady then { s with port.rxData := b, port.rxValid := true } else s

/-- The host presents a command word, only while `CMD_VALID = 0` (rule R281). -/
def State.hostCommandMove (w : CmdWord) (s : State) : State :=
  if s.port.cmdValid then s else { s with port.cmd := w, port.cmdValid := true }

/-- The host reads the response and clears `RESP_VALID` (rule R281). -/
def State.hostReadsMove (s : State) : State := { s with port.respValid := false }

/-- The state as an observer notes it. -/
def State.moment (s : State) : Moment where
  drv := s.drv
  ses := s.ses
  eng := s.eng
  busy := s.port.busy
  sclLine := s.sclLine
  sdaLine := s.sdaLine
  envSdaLow := s.bus.envSdaLow

/-- An observer notes the state (log entry 28). -/
def State.observeMove (s : State) : State := { s with seen := s.seen ++ [s.moment] }

/-- One move of another agent. The sequencer's turn is no move of another agent. -/
def State.apply (m : Move) (s : State) : State :=
  match m with
  | .seq => s
  | .envScl low => s.envSclMove low
  | .envSda low => s.envSdaMove low
  | .engine d => s.engineMove d
  | .engineLines sclLow sdaLow => s.engineLinesMove sclLow sdaLow
  | .guard => s.guardMove
  | .hostByte b => s.hostByteMove b
  | .hostCommand w => s.hostCommandMove w
  | .hostReads => s.hostReadsMove
  | .observe => s.observeMove

end Sys2Proof.Machine
end

