-- ==== Sys2Proof/Machine/Operands.lean ====
section
/-! DEFINITION. The operand forms: the address byte, the named control words, the acknowledge bit and its levels, the
length bytes of a frame (30_encoding.md rules R98, R102 to R104; 40_bus_driver.md rules R140, R141). -/

namespace Sys2Proof.Machine

/-- `addrbyte = ((address << 1) mod 256) | rw`: bit 7 of the address is lost (rule R102). -/
def addressByte (address : Byte) (mode : Mode) : Byte := address.shiftConcat mode.bit

/-- `CW_8BIT = 0x08` (rule R104). -/
def cw8Bit : Byte := 0x08#8

/-- `CW_1BIT = 0x01` (rule R104). -/
def cw1Bit : Byte := 0x01#8

/-- The acknowledge bit of a 1-bit transfer's result is `r[0]` (rule R140). -/
def ackBit (r : Byte) : Bool := r.getLsbD 0

/-- `BB_PUTBYTE`'s result: 1 for ACK, the bit 0; 0 for NACK (rule R140). -/
def ackResult (r : Byte) : Byte := if ackBit r then 0#8 else 1#8

/-- The level `getByte` loads for the acknowledge bit: NACK 0xFF for the last byte, ACK 0x00 otherwise (rule R141). -/
def ackLevel (last : Bool) : Byte := if last then 0xFF#8 else 0x00#8

/-- `zext_16(b) << 8`: the high byte of a length (43_framer.md rule R241). -/
def lengthHigh (b : Byte) : BitVec 16 := b.setWidth 16 <<< 8

/-- `r | zext_16(b)`: the low byte joins the high one (43_framer.md rule R242). -/
def lengthJoin (r : BitVec 16) (b : Byte) : BitVec 16 := r ||| b.setWidth 16

end Sys2Proof.Machine
end

