-- ==== Sys2Proof/Machine/Ops.lean ====
section
/-! DEFINITION. How the sequencer runs an operation (00_scope.md rule R12; 60_exceptions.md rules R276, R280, R282,
R284): an operation is a program of lines; before each line the other agents move; a wait holds the sequencer until its
condition is true; the guard's reset cuts the operation off; an operation of the command port ends with its
response. The core has no exception to take (rule R270): its only transfer of control is the guard's reset. -/

namespace Sys2Proof.Machine

/-- Why an operation ended before its last line. -/
inductive Stop where
  /-- The guard fired: the core was reset (rule R276). -/
  | cut
  /-- A wait is never lifted (rule R284). -/
  | hang
deriving DecidableEq, Repr

/-- An operation of the sequencer, or a part of one, with its result. -/
abbrev Op (α : Type) := EStateM Stop State α

/-- Whether the move is the guard's reset in this state (43_framer.md rule R250). -/
def fires (m : Move) (s : State) : Bool := m = .guard && s.frm.wdArmed

/-- `wait until C` over the moves to come (rule R12): the other agents move until the sequencer's turn; at its turn it
goes on if `C` holds. When no move is left the sequencer has every turn: it goes on, or it hangs. -/
def holdOn (C : State → Bool) : List Move → State → EStateM.Result Stop State Unit
  | [], s => if C s then .ok () { s with inputs := [] } else .error .hang { s with inputs := [] }
  | m :: rest, s =>
    if m = .seq then
      if C s then .ok () { s with inputs := rest } else holdOn C rest s
    else if fires m s then .error .cut { s.coreReset with inputs := rest }
    else holdOn C rest (s.apply m)

/-- `wait until C` (rule R12). -/
def holdUntil (C : State → Bool) : Op Unit := fun s => holdOn C s.inputs s

/-- The point before a line of an operation, where the other agents may move (rule R282; log entry 4). -/
def tick : Op Unit := holdUntil fun _ => true

/-- The state the sequencer sees. -/
def peek : Op State := fun s => .ok s s

/-- A line that writes. -/
def line (f : State → State) : Op Unit := do
  tick
  modify f

/-- A line that reads. -/
def readLine {α : Type} (f : State → α) : Op α := do
  tick
  let s ← peek
  pure (f s)

/-- `Delay(T)`: no state changes (rules R12, 40_bus_driver.md R135, 70_reset_and_hazards.md R316). -/
def delay (_t : Nat) : Op Unit := tick

/-- `WaitSclHigh()` (40_bus_driver.md rule R134). -/
def waitSclHigh : Op Unit := holdUntil State.sclLine

/-- `BUSY <- 1`: the sequencer runs an operation, which has issued no STOP yet (60_exceptions.md rule R280). -/
abbrev State.running (s : State) : State := { s with port.busy := true, port.stopIssued := false }

/-- `BUSY <- 0`: no operation runs that has issued a STOP. -/
abbrev State.idle (s : State) : State := { s with port.busy := false, port.stopIssued := false }

/-- The response registers as an operation of the command port leaves them, and `BUSY <- 0` (30_encoding.md rule
R120, 60_exceptions.md rule R280). -/
def State.respond (code : Byte) (notcfg : Bool) (refusal : Option RefuseReason) (s : State) : State :=
  { s with
    port.respCode := code
    port.respFlags := respFlagsOf notcfg refusal.isSome
    port.respValid := true
    port.refusal := refusal
    port.busy := false
    port.stopIssued := false }

/-- The end of an operation of the command port that was run (rule R120). -/
def respond (code : Byte) (notcfg : Bool) : Op Unit := line (State.respond code notcfg none)

/-- `refuse(reason)`: no effect but the response (60_exceptions.md rule R275, 00_scope.md rule R12). -/
def refuse (reason : RefuseReason) : Op Unit := line (State.respond 0#8 false (some reason))

/-- The end of a received-byte operation: no response is written (10_state.md rule R55), `BUSY <- 0`. -/
def endReceived : Op Unit := line State.idle

/-- What the end of an operation is to the machine: a cut operation leaves the reset core; a hang is a stop. -/
def outcomeOf : EStateM.Result Stop State Unit → Host.Outcome State Fault Refusal
  | .ok _ t => .next t
  | .error .cut t => .next t
  | .error .hang t => .fault (.busHang t)

/-- The sequencer runs an operation: `BUSY <- 1`, then its lines (60_exceptions.md rule R280). -/
def runOp (body : Op Unit) (s : State) : Host.Outcome State Fault Refusal :=
  outcomeOf (body s.running)

/-- A bit-bang command (30_encoding.md rules R96, R97; 40_bus_driver.md rule R131): the refusals in the order of
60_exceptions.md rule R275, then the body, whose value is the response code. `legal` says that the operand is a legal
one (rule R104). -/
def bbCommand (needsConfig legal : Bool) (body : Op Byte) : Op Unit := do
  let s ← peek
  if s.cfg.backend = .hw then refuse .noBbDriver
  else if s.frm.cursor ≠ .awaitAddr then refuse .frameInProgress
  else if needsConfig && !s.drv.bbCfg then refuse .bbNotConfigured
  else if !legal then refuse .badControlWord
  else do
    let code ← body
    respond code false

/-- A session command other than `SES_CONFIGURE` (rule R97); `NOTCFG` says that the session was not configured when
the operation began (rules R120, R210). -/
def sesCommand (body : Op Byte) : Op Unit := do
  let s ← peek
  if s.frm.cursor ≠ .awaitAddr then refuse .frameInProgress
  else do
    let code ← body
    respond code (s.ses.clkdiv = 0#8)

end Sys2Proof.Machine
end

