-- ==== Sys2Proof/Machine/BusDriver.lean ====
section
/-! DEFINITION. The Bus Signal Driver (40_bus_driver.md): the bit cycle, the bodies of its six operations line by line
as the rules' pseudocode has them, and the meanings of the six `BB_*` commands. -/

namespace Sys2Proof.Machine

/-- `BitCycle()` (rule R136). -/
def bitCycle : Op Unit := do
  let p ← peek
  delay p.cfg.tLow
  line State.releaseScl
  waitSclHigh
  let sample ← readLine State.sdaLine
  line fun s => s.setSr (s.drv.sr.shiftConcat sample)
  delay p.cfg.tHigh
  line State.pullScl
  line fun s => { s with drv.bitcnt := s.drv.bitcnt - 1 }

/-- `if BITCNT = 0: TC <- 1` (rule R142). -/
def State.checkComplete (s : State) : State := if s.drv.bitcnt = 0 then { s with drv.tc := true } else s

/-- `while TC = 0` of `transfer` (rule R142), at most as many times as there are bits to move. -/
def transferLoop : Nat → Op Unit
  | 0 => pure ()
  | n + 1 => do
    let s ← peek
    if s.drv.tc then pure ()
    else do
      bitCycle
      line State.checkComplete
      transferLoop n

/-- `transfer(cw)`, for a legal control word (rule R142). -/
def transfer (cw : Byte) : Op Byte := do
  let p ← peek
  line fun s => { s with drv.bitcnt := controlBits cw }
  line fun s => { s with drv.tc := false }
  transferLoop (controlBits cw).toNat
  delay p.cfg.tLow
  let result ← readLine fun s => s.drv.sr
  line (State.setSr 0xFF#8)
  line (State.setDirOut true)
  pure result

/-- `configure()` (rule R137). -/
def configureBody : Op Unit := do
  line State.releaseScl
  line (State.setSr 0xFF#8)
  line (State.setLatch true)
  line (State.setSdaForce false)
  line (State.setDirOut true)
  line fun s => { s with drv.tc := false }
  line fun s => { s with drv.bitcnt := 0 }
  line fun s => { s with drv.bbCfg := true }

/-- `start()` (rule R138). -/
def startBody : Op Unit := do
  let p ← peek
  line State.releaseScl
  waitSclHigh
  delay p.cfg.tSuSta
  line (State.setSdaForce true)
  delay p.cfg.tHdSta
  line State.pullScl
  line (State.setSdaForce false)

/-- `stop()` (rule R139). -/
def stopBody : Op Unit := do
  let p ← peek
  line (State.setSdaForce true)
  line State.releaseScl
  waitSclHigh
  delay p.cfg.tSuSto
  line (State.setSdaForce false)
  delay p.cfg.tBuf

/-- `putByte(data)` (rule R140). -/
def putByteBody (data : Byte) : Op Byte := do
  line State.pullScl
  line (State.setDirOut true)
  line (State.setSr data)
  let _ ← transfer cw8Bit
  line (State.setDirOut false)
  let r ← transfer cw1Bit
  pure (ackResult r)

/-- `getByte(last)` (rule R141). -/
def getByteBody (last : Bool) : Op Byte := do
  line (State.setDirOut false)
  let b ← transfer cw8Bit
  line (State.setSr (ackLevel last))
  let _ ← transfer cw1Bit
  pure b

/-- `BB_CONFIGURE` (rule R137). -/
def execBbConfigure (s : State) : Host.Outcome State Fault Refusal :=
  runOp (bbCommand false true (do configureBody; pure 0#8)) s

/-- `BB_START` (rule R138). -/
def execBbStart (s : State) : Host.Outcome State Fault Refusal :=
  runOp (bbCommand true true (do startBody; pure 0#8)) s

/-- `BB_STOP` (rule R139). -/
def execBbStop (s : State) : Host.Outcome State Fault Refusal :=
  runOp (bbCommand true true (do stopBody; pure 0#8)) s

/-- `BB_PUTBYTE data` (rule R140). -/
def execBbPutbyte (data : Byte) (s : State) : Host.Outcome State Fault Refusal :=
  runOp (bbCommand true true (putByteBody data)) s

/-- `BB_GETBYTE last` (rule R141). -/
def execBbGetbyte (last : Bool) (s : State) : Host.Outcome State Fault Refusal :=
  runOp (bbCommand true true (getByteBody last)) s

/-- `BB_TRANSFER cw` (rule R142): an illegal control word is the last refusal checked (30_encoding.md rule R104). -/
def execBbTransfer (cw : Byte) (s : State) : Host.Outcome State Fault Refusal :=
  runOp (bbCommand true (controlWordOk cw) (transfer cw)) s

end Sys2Proof.Machine
end

