-- ==== Sys2Proof/Machine/BackEnd.lean ====
section
/-! DEFINITION. The session's interface to the bus back end (41_engine_status.md rules R171, R190 to R200): issuing a
command to the byte engine and waiting for it, and the adapter over the bit-bang driver. -/

namespace Sys2Proof.Machine

/-- `if ECMD ≠ NONE: PHASE <- UNKNOWN` (rule R171). -/
def State.noteInFlight (s : State) : State := if s.eng.ecmd.isSome then { s with eng.phase := .unknown } else s

/-- `EngineIssue(cmd)` for a START, transmit or receive command (rule R171). -/
def engineIssue (cmd : EngineCmd) : Op Unit := do
  line State.noteInFlight
  line fun s => { s with eng.int := false }
  line fun s => { s with eng.ecmd := some cmd }

/-- `EngineIssue(E_STOP)` (rule R171): `INT` untouched. The engine performs the STOP once the operation has ended
(20_memory.md rule R81; log entry 29). -/
def engineIssueStop : Op Unit := do
  line State.noteInFlight
  line fun s => { s with eng.pendStop := true, port.stopIssued := true }

/-- The busy-wait: `while INT = 0 ∧ WAITCNT < WAIT_BUDGET: WAITCNT <- WAITCNT + 1`, each test a poll before which the
engine may step (rule R190). The argument bounds the tests, one more than the budget. -/
def pollInt : Nat → Op Unit
  | 0 => pure ()
  | n + 1 => do
    let s ← readLine id
    if s.eng.int = false ∧ s.ses.waitcnt < s.cfg.waitBudget then do
      modify fun s => { s with ses.waitcnt := s.ses.waitcnt + 1 }
      pollInt n
    else pure ()

/-- `Timeout()` (rule R193): a command that had no step is dropped, any other stays in flight. -/
def State.timeOut (s : State) : State :=
  match s.eng.phase, s.eng.ecmd with
  | .idle, some .tx => { s with eng.ecmd := none }
  | .idle, some .rxAck => { s with eng.ecmd := none }
  | .idle, some .rxNack => { s with eng.ecmd := none }
  | _, _ => s

/-- `EngineDo(cmd)` with `BACKEND = HW` (rules R190, R192, R193). -/
def engineDoHw (cmd : EngineCmd) : Op Byte := do
  engineIssue cmd
  line fun s => { s with ses.waitcnt := 0 }
  let p ← peek
  pollInt (p.cfg.waitBudget + 1)
  let s ← readLine id
  if s.eng.int then pure s.statusSeen
  else do
    line State.timeOut
    pure p.cfg.codes.timeout

/-- Adapter START (rule R196). -/
def adapterStart : Op Unit := do
  startBody
  line (State.encodeStatus .start)

/-- Adapter TX of the byte in `DATA` (rule R197). -/
def adapterTx : Op Unit := do
  let s ← peek
  if s.eng.phase = .idle then line (State.encodeStatus .idleXfer)
  else do
    let ack ← putByteBody s.eng.data
    line (State.encodeStatus (.tx s.eng.data (ack != 1#8)))

/-- Adapter RX with the acknowledge bit `m` (rule R198). -/
def adapterRx (m : Bool) : Op Unit := do
  let s ← peek
  if s.eng.phase = .idle then line (State.encodeStatus .idleXfer)
  else do
    let b ← getByteBody m
    line fun s => { s with eng.data := b }
    line (State.encodeStatus (.rx m))

/-- Adapter STOP (rule R199). -/
def adapterStop : Op Unit := do
  stopBody
  line (State.encodeStatus .stop)

/-- The adapter operation of an engine command (rule R191). -/
def adapterOp : EngineCmd → Op Unit
  | .start => adapterStart
  | .tx => adapterTx
  | .rxAck => adapterRx false
  | .rxNack => adapterRx true

/-- `EngineDo(cmd)` (rules R190, R191). -/
def engineDo (cmd : EngineCmd) : Op Byte := do
  let p ← peek
  match p.cfg.backend with
  | .hw => engineDoHw cmd
  | .bb => do
    adapterOp cmd
    readLine State.statusSeen

/-- `EngineStop()` (rule R194). -/
def engineStop : Op Unit := do
  let p ← peek
  match p.cfg.backend with
  | .hw => engineIssueStop
  | .bb => adapterStop

end Sys2Proof.Machine
end

