-- ==== Sys2Proof/Machine/Session.lean ====
section
/-! DEFINITION. The I2C Master Session (42_session.md): the bodies of its six operations, which the framer calls too,
and the meanings of the six `SES_*` commands. -/

namespace Sys2Proof.Machine

/-- `SES_CONFIGURE div, bits` (rule R211). -/
def configureSession (div bits : Byte) : Op Byte := do
  let s ← peek
  if s.ses.clkdiv ≠ 0#8 then pure 0#8
  else do
    line fun s => { s with ses.clkdiv := div }
    line fun s => { s with ses.opt := s.ses.opt ||| bits.extractLsb' 0 2 }
    if s.cfg.backend = .bb ∧ div ≠ 0#8 then configureBody else pure ()
    pure 1#8

/-- `SES_WRITE data` (rule R214). -/
def writeSession (data : Byte) : Op Byte := do
  let s ← peek
  if s.ses.clkdiv = 0#8 then pure 0#8
  else do
    line fun s => { s with eng.data := data }
    let st ← engineDo .tx
    pure (if dataOk s.cfg.codes st then 0#8 else st)

/-- `SES_START address, mode` (rule R212). -/
def startSession (address : Byte) (mode : Mode) : Op Byte := do
  let s ← peek
  if s.ses.clkdiv = 0#8 then pure 0#8
  else do
    let st ← engineDo .start
    if startOk s.cfg.codes st then do
      let r ← writeSession (addressByte address mode)
      pure (if r = 0#8 ∨ r = addressAck s.cfg.codes mode then 0#8 else r)
    else pure st

/-- `SES_READ_ACK` and `SES_READ_NACK`, by the engine command they issue: the status is not inspected (rules R216,
R217). The engine may perform a receive that timed out before `DATA` is read, and the read then returns the new byte
(DESIGN CHOICE, log entry 30). -/
def readSession (cmd : EngineCmd) : Op Byte := do
  let s ← peek
  if s.ses.clkdiv = 0#8 then pure 0#8
  else do
    let _ ← engineDo cmd
    readLine fun s => s.eng.data

/-- `SES_STOP` (rule R218). -/
def stopSession : Op Byte := do
  let s ← peek
  if s.ses.clkdiv = 0#8 then pure 0#8
  else do
    engineStop
    pure 0#8

/-- `SES_CONFIGURE div, bits` (rule R211), accepted in every `CURSOR` state (30_encoding.md rule R97). -/
def execSesConfigure (div bits : Byte) (s : State) : Host.Outcome State Fault Refusal :=
  runOp (do let code ← configureSession div bits; respond code false) s

/-- `SES_START address, mode` (rule R212). -/
def execSesStart (mode : Mode) (address : Byte) (s : State) : Host.Outcome State Fault Refusal :=
  runOp (sesCommand (startSession address mode)) s

/-- `SES_WRITE data` (rule R214). -/
def execSesWrite (data : Byte) (s : State) : Host.Outcome State Fault Refusal :=
  runOp (sesCommand (writeSession data)) s

/-- `SES_READ_ACK` (rule R216). -/
def execSesReadAck (s : State) : Host.Outcome State Fault Refusal := runOp (sesCommand (readSession .rxAck)) s

/-- `SES_READ_NACK` (rule R217). -/
def execSesReadNack (s : State) : Host.Outcome State Fault Refusal := runOp (sesCommand (readSession .rxNack)) s

/-- `SES_STOP` (rule R218). -/
def execSesStop (s : State) : Host.Outcome State Fault Refusal := runOp (sesCommand stopSession) s

end Sys2Proof.Machine
end

