-- ==== Sys2Proof/Machine/Framer.lean ====
section
/-! DEFINITION. The serial command framer (43_framer.md): the meaning of a received byte in each `CURSOR` state, and
the closing of a frame. -/

namespace Sys2Proof.Machine

/-- `CloseFrame()` (rule R244): the result of `SES_STOP` is not stored. -/
def closeFrame : Op Unit := do
  let _ ← stopSession
  line fun s => { s with frm.wdArmed := false }
  line fun s => { s with frm.cursor := .awaitAddr }

/-- `RX b` with `CURSOR = AWAIT_ADDR` (rule R240). -/
def execRxAddr (b : Byte) (s : State) : Host.Outcome State Fault Refusal :=
  runOp (do
    line fun s => { s with frm.remaining := 0 }
    let st ← startSession b .write
    line fun s => { s with frm.lastSt := st }
    line fun s => { s with frm.cursor := .lenHi }
    endReceived) s

/-- `RX b` with `CURSOR = LEN_HI` (rule R241). -/
def execRxLenHi (b : Byte) (s : State) : Host.Outcome State Fault Refusal :=
  runOp (do
    line fun s => { s with frm.remaining := lengthHigh b }
    line fun s => { s with frm.cursor := .lenLo }
    endReceived) s

/-- `RX b` with `CURSOR = LEN_LO` (rules R242, R246): a zero length closes the frame. -/
def execRxLenLo (b : Byte) (s : State) : Host.Outcome State Fault Refusal :=
  runOp (do
    line fun s => { s with frm.remaining := lengthJoin s.frm.remaining b }
    line fun s => { s with frm.wdArmed := true }
    let t ← peek
    if t.frm.remaining = 0 then closeFrame else line fun s => { s with frm.cursor := .fwd }
    endReceived) s

/-- `RX b` with `CURSOR = FWD` (rules R243, R245). -/
def execRxPayload (b : Byte) (s : State) : Host.Outcome State Fault Refusal :=
  runOp (do
    let st ← writeSession b
    line fun s => { s with frm.lastSt := st }
    line fun s => { s with frm.wdArmed := true }
    line fun s => { s with frm.remaining := s.frm.remaining - 1 }
    let t ← peek
    if t.frm.remaining = 0 then closeFrame else pure ()
    endReceived) s

end Sys2Proof.Machine
end

