-- ==== Sys2Proof/Machine/Dispatch.lean ====
section
/-! DEFINITION. The meaning of every operation, one arm for each row of the opcode table. -/

namespace Sys2Proof.Machine

def exec (i : Instr) (s : State) : Host.Outcome State Fault Refusal :=
  match i with
  | .bbConfigure => Sys2Proof.Machine.execBbConfigure s
  | .bbStart => Sys2Proof.Machine.execBbStart s
  | .bbStop => Sys2Proof.Machine.execBbStop s
  | .bbPutbyte data => Sys2Proof.Machine.execBbPutbyte data s
  | .bbGetbyte last => Sys2Proof.Machine.execBbGetbyte last s
  | .bbTransfer cw => Sys2Proof.Machine.execBbTransfer cw s
  | .sesConfigure div bits => Sys2Proof.Machine.execSesConfigure div bits s
  | .sesStart mode address => Sys2Proof.Machine.execSesStart mode address s
  | .sesWrite data => Sys2Proof.Machine.execSesWrite data s
  | .sesReadAck => Sys2Proof.Machine.execSesReadAck s
  | .sesReadNack => Sys2Proof.Machine.execSesReadNack s
  | .sesStop => Sys2Proof.Machine.execSesStop s
  | .rxAddr b => Sys2Proof.Machine.execRxAddr b s
  | .rxLenHi b => Sys2Proof.Machine.execRxLenHi b s
  | .rxLenLo b => Sys2Proof.Machine.execRxLenLo b s
  | .rxPayload b => Sys2Proof.Machine.execRxPayload b s

end Sys2Proof.Machine
end

