-- ==== Sys2Proof/Machine/Sequencer.lean ====
section
/-! DEFINITION. How the sequencer picks its next operation (60_exceptions.md rules R280, R285), and how an operation is
placed on the ports. -/

namespace Sys2Proof.Machine

/-- The sequencer takes the received byte and runs the framer's rule (rule R280). -/
def takeByte (s : State) : Host.Outcome State Fault Refusal :=
  exec (decodeReceived s.frm.cursor s.port.rxData) { s with port.rxValid := false }

/-- The sequencer takes the command word, decodes it and runs it, or refuses it (rules R92, R280; 60_exceptions.md rule
R275). -/
def takeCommand (s : State) : Host.Outcome State Fault Refusal :=
  match decodeCommand s.port.cmd with
  | .ok i => exec i { s with port.cmdValid := false }
  | .error reason => runOp (refuse reason) { s with port.cmdValid := false }

/-- The sequencer's turn (rule R280): while `BUSY = 1` it starts nothing; a received byte goes before a command word;
with neither it waits. -/
def sequencerTurn (s : State) : Host.Outcome State Fault Refusal :=
  if s.port.busy then .next s
  else if s.port.rxValid then takeByte s
  else if s.port.cmdValid then takeCommand s
  else .next s

/-- Whose turn it is: the agent of the next move; the sequencer's when no move is left (rule R285, log entry 3). -/
def machineTurn (s : State) : Host.Outcome State Fault Refusal :=
  match s.inputs with
  | [] => sequencerTurn s
  | m :: rest =>
    if m = .seq then sequencerTurn { s with inputs := rest }
    else .next (({ s with inputs := rest } : State).apply m)

/-- A command word on the command port, no received byte before it, the sequencer idle and next (rule R280). -/
def placeCommand (w : CmdWord) (s : State) : State :=
  { s with port.cmd := w, port.cmdValid := true, port.rxValid := false, port.busy := false, inputs := .seq :: s.inputs }

/-- A byte on the serial receive port, the sequencer idle and next (rule R280). -/
def placeByte (b : Byte) (s : State) : State :=
  { s with port.rxData := b, port.rxValid := true, port.busy := false, inputs := .seq :: s.inputs }

end Sys2Proof.Machine
end

