-- ==== Sys2Proof/Machine/Step.lean ====
section
/-! DEFINITION. One step of the machine: one move of another agent, or one whole operation of the sequencer, inside
which the other agents move (log entry 5). -/

namespace Sys2Proof.Machine

/-- One step. -/
def step (s : State) : Host.Outcome State Fault Refusal := machineTurn s

/-- The state with an operation of the opcode table placed so that the very next step runs it: a 24-bit row on the
command port, an 8-bit row on the serial receive port (log entry 19). -/
def State.withFetchWord (s : State) (nbits w : Nat) : State :=
  if nbits = 8 then placeByte (BitVec.ofNat 8 w) s else placeCommand (BitVec.ofNat 24 w) s

end Sys2Proof.Machine
end

