-- ==== Sys2Proof/Safety.lean ====
section
/-! DEFINITION. The terms in which statements about the core are made: the spec's named premises on the other agents,
the conditions under which an operation runs, the invariants of the spec's rules, the shapes of the moves to come. -/

namespace Sys2Proof.Machine

/-- The deadline guard does not fire: it has no move among those to come (43_framer.md rules R248, R250). -/
abbrev GuardSilent (s : State) : Prop := Move.guard ∉ s.inputs

/-- Whether a move is the byte engine's step. -/
def Move.isEngine : Move → Bool
  | .engine _ => true
  | _ => false

/-- The byte engine takes no step among the moves to come: an unresponsive bus (60_exceptions.md rule R274). -/
abbrev EngineSilent (s : State) : Prop := s.inputs.all (fun m => !m.isEngine) = true

/-- Whether the environment drives SCL low once every move to come is made. -/
def sclHeldAfter (low : Bool) : List Move → Bool
  | [] => low
  | .envScl b :: rest => sclHeldAfter b rest
  | _ :: rest => sclHeldAfter low rest

/-- A condition on the environment under which every `WaitSclHigh` is lifted, the bit-bang half of the premise
`BusResponsive` of 41_engine_status.md rule R172: its last word on SCL is a release, so that no wait outlasts the moves to
come. The premise itself is `BusResponsiveIn` for an operation, `BusResponsiveRun` for a run (log entry 26). -/
abbrev BusResponsive (s : State) : Prop := sclHeldAfter s.bus.envSclLow s.inputs = false

/-- `E_STOP` is enabled (30_encoding.md rule R105, rule R174). -/
def State.stopEnabled (s : State) : Bool := s.ses.clkdiv != 0#8 && s.eng.pendStop

/-- The command in `ECMD` has a step of the engine (rule R174). Behind a pending STOP only a START has one, because the
STOP leaves `PHASE = IDLE` (rules R175, R179, R185). -/
def State.commandEnabled (s : State) : Bool :=
  s.ses.clkdiv != 0#8 &&
    (s.eng.ecmd = some .start || (s.eng.ecmd.isSome && s.eng.phase != .idle && !s.eng.pendStop))

/-- How many steps the engine has to take for the enabled commands: one for a STOP, one for the command in `ECMD`. -/
def State.stepsDue (s : State) : Nat := s.stopEnabled.toNat + s.commandEnabled.toNat

/-- Over the moves to come in a busy-wait: the engine takes the steps due, each while `WAITCNT` is still below
`WAIT_BUDGET`. `left` is how far below it is; each turn of the sequencer is one poll (rules R174, R190). A reset by the
`armed` guard meanwhile drops what was due (70_reset_and_hazards.md rule R301); that the premise is then met is DESIGN
CHOICE, log entry 31. While `PHASE = UNKNOWN` the engine's step is `EngineAny` (rule R187), and the spec does not say
whether such a step performs the enabled command: that every engine move counts as performing it, whatever its draw, is
DESIGN CHOICE, log entry 32. -/
def answersWithin (armed : Bool) : Nat → Nat → List Move → Bool
  | 0, _, _ => true
  | _ + 1, _, [] => false
  | due + 1, left, m :: rest =>
    match m with
    | .engine _ => decide (0 < left) && answersWithin armed due left rest
    | .seq => answersWithin armed (due + 1) (left - 1) rest
    | .guard => (armed && decide (0 < left)) || answersWithin armed (due + 1) left rest
    | _ => answersWithin armed (due + 1) left rest

/-- The busy-wait that begins in this state is answered: the engine performs every enabled command, a pending STOP and
the command in `ECMD`, before `WAITCNT` reaches `WAIT_BUDGET` (rule R172). -/
def State.waitAnswered (s : State) : Bool :=
  answersWithin s.frm.wdArmed s.stepsDue (s.cfg.waitBudget - s.ses.waitcnt) s.inputs

/-- The busy-wait of `EngineDo(cmd)` is answered: the one that begins where the command is issued and `WAITCNT` cleared
(rule R190). -/
def doAnswered (cmd : EngineCmd) (s : State) : Bool :=
  match (do engineIssue cmd; line fun s => { s with ses.waitcnt := 0 } : Op Unit) s with
  | .ok _ t => t.waitAnswered
  | .error _ _ => true

/-- The busy-wait of `SES_WRITE data` is answered (42_session.md rule R214). -/
def writeAnswered (data : Byte) (s : State) : Bool :=
  s.ses.clkdiv = 0#8 ||
    match line (fun s => { s with eng.data := data }) s with
    | .ok _ t => doAnswered .tx t
    | .error _ _ => true

/-- Both busy-waits of `SES_START address, mode` are answered, the second begun only after a START that succeeded
(42_session.md rule R212). -/
def startAnswered (address : Byte) (mode : Mode) (s : State) : Bool :=
  s.ses.clkdiv = 0#8 ||
    (doAnswered .start s &&
      match engineDo .start s with
      | .ok st t => !startOk s.cfg.codes st || writeAnswered (addressByte address mode) t
      | .error _ _ => true)

/-- The busy-waits of a session command are answered; one that is refused during a frame begins none (30_encoding.md
rule R97). -/
def sesAnswered (s : State) (answered : Bool) : Bool := s.frm.cursor != .awaitAddr || answered

/-- Every busy-wait of the operation, run in this state, is answered. -/
def waitsAnswered (i : Instr) (s : State) : Bool :=
  let s := s.running
  match i with
  | .sesStart mode address => sesAnswered s (startAnswered address mode s)
  | .sesWrite data => sesAnswered s (writeAnswered data s)
  | .sesReadAck => sesAnswered s (s.ses.clkdiv = 0#8 || doAnswered .rxAck s)
  | .sesReadNack => sesAnswered s (s.ses.clkdiv = 0#8 || doAnswered .rxNack s)
  | .rxAddr b =>
    match line (fun s => { s with frm.remaining := 0 }) s with
    | .ok _ t => startAnswered b .write t
    | .error _ _ => true
  | .rxPayload b => writeAnswered b s
  | .bbConfigure | .bbStart | .bbStop | .bbPutbyte _ | .bbGetbyte _ | .bbTransfer _ | .sesConfigure _ _ | .sesStop
  | .rxLenHi _ | .rxLenLo _ => true

/-- Between operations: for every enabled command the engine has a step among the moves that are then to come, which no
poll counts but those of a later busy-wait; or a reset drops it (rules R171, R179, R194; 20_memory.md rule R81). While
`PHASE = UNKNOWN` every engine move counts as such a step (DESIGN CHOICE, log entry 32). -/
def State.answeredLater (s : State) : Bool :=
  decide (s.stepsDue ≤ s.inputs.countP Move.isEngine) || (s.frm.wdArmed && s.inputs.contains .guard)

/-- What the operation leaves enabled when it ends, as the STOP of `SES_STOP` or of a closed frame, is performed. -/
def leftAnswered (i : Instr) (s : State) : Bool :=
  match exec i s with
  | .next t => t.answeredLater
  | .fault _ => true
  | .refused _ => true

/-- The second half of the premise `BusResponsive` (41_engine_status.md rule R172), the byte engine's, for an operation:
the engine performs every enabled command, in a busy-wait before `WAITCNT` reaches `WAIT_BUDGET`, a STOP that no wait
follows at some later step. -/
abbrev EngineResponsive (i : Instr) (s : State) : Prop := waitsAnswered i s = true ∧ leftAnswered i s = true

/-- The first half of the premise `BusResponsive` (rule R172), the bit-bang one, for an operation: every `WaitSclHigh` it
comes to is lifted, so that it does not hang (60_exceptions.md rule R284). `BusResponsive` gives it
(`waitsLifted_of_busResponsive`). A wait that the guard's reset cuts off counts as lifted, whatever holds SCL then, which
the spec leaves open (DESIGN CHOICE, log entry 31). -/
def waitsLifted (i : Instr) (s : State) : Bool :=
  match exec i s with
  | .next _ => true
  | .fault (.busHang _) => false
  | .refused _ => true

/-- The premise `BusResponsive` of rule R172 for an operation run in this state, on either back end. -/
abbrev BusResponsiveIn (i : Instr) (s : State) : Prop :=
  match s.cfg.backend with
  | .bb => waitsLifted i s = true
  | .hw => EngineResponsive i s

/-- A run of the machine in which the guard may not stay silent for ever: the premise `WatchdogFair` (43_framer.md rule
R250). No suffix of the run keeps the guard armed with the same count of bytes to come. -/
def WatchdogFair (run : Nat → State) : Prop :=
  ∀ n, ¬ ∀ m, n ≤ m → (run m).frm.wdArmed = true ∧ (run m).frm.remaining = (run n).frm.remaining

/-- A bit-bang command is not refused before its operand is looked at (60_exceptions.md rule R275, orders 3 to 5). -/
abbrev DriverReady (s : State) : Prop :=
  s.cfg.backend = .bb ∧ s.frm.cursor = .awaitAddr ∧ s.drv.bbCfg = true

/-- A session command acts on the bus: no frame is in progress and the session is configured (30_encoding.md rule R97,
42_session.md rule R210). -/
abbrev SessionReady (s : State) : Prop := s.frm.cursor = .awaitAddr ∧ s.ses.clkdiv ≠ 0#8

/-- The byte engine is configured and free: no command in flight, no STOP pending, `PHASE` known. -/
abbrev EngineFree (s : State) : Prop :=
  s.cfg.backend = .hw ∧ s.ses.clkdiv ≠ 0#8 ∧ s.eng.ecmd = none ∧ s.eng.pendStop = false ∧ s.eng.phase ≠ .unknown

/-- A byte sent now is a data byte: an address byte was sent (41_engine_status.md rule R183). -/
abbrev InData (s : State) : Prop := s.eng.phase = .mt ∨ s.eng.phase = .mr

/-- `k` turns of the sequencer: `k` lines of its operation with no other agent moving before them. -/
def turns (k : Nat) : List Move := List.replicate k .seq

/-- A slave that answers the acknowledge bit: it moves SDA before the bit's transfer begins and releases it after the
bit's cycle, the core holding SCL low both times: eleven lines (40_bus_driver.md rules R136, R140, R142). -/
def slaveAck (low : Bool) : List Move := .envSda low :: (turns 11 ++ [.envSda false])

/-- The byte engine takes its step at the first poll after `k` polls that found `INT = 0` (41_engine_status.md rule
R190). -/
def polled (k : Nat) (d : EngineDraw) : List Move := turns k ++ [.engine d]

/-- A slave that sends the bits given, one in each bit cycle of a transfer, moving SDA while SCL is low: before each of
a cycle's nine lines (40_bus_driver.md rules R136, R142). -/
def slaveBits : List Bool → List Move
  | [] => []
  | b :: rest => .envSda (!b) :: (turns 9 ++ slaveBits rest)

/-- The bits of a byte, most significant first (20_memory.md rule R74). -/
def bitsOf (v : Byte) : List Bool :=
  [v.getLsbD 7, v.getLsbD 6, v.getLsbD 5, v.getLsbD 4, v.getLsbD 3, v.getLsbD 2, v.getLsbD 1, v.getLsbD 0]

/-! ## Runs -/

/-- `n` steps of the machine. -/
def runSteps : Nat → State → Host.Outcome State Fault Refusal
  | 0, s => .next s
  | n + 1, s =>
    match step s with
    | .next t => runSteps n t
    | .fault r => .fault r
    | .refused r => .refused r

/-- The operation that the next step runs, and the state it runs in: the sequencer's turn with a byte or a decodable word
offered (60_exceptions.md rule R280). -/
def nextOperation (s : State) : Option (Instr × State) :=
  let s : State := { s with inputs := s.inputs.tail }
  if s.port.busy then none
  else if s.port.rxValid then some (decodeReceived s.frm.cursor s.port.rxData, { s with port.rxValid := false })
  else if s.port.cmdValid then
    (decodeCommand s.port.cmd).toOption.map fun i => (i, { s with port.cmdValid := false })
  else none

/-- The premise `BusResponsive` (41_engine_status.md rule R172) of the machine's run from this state: it holds for every
operation the run comes to, and of what is enabled between them. -/
def BusResponsiveRun (s : State) : Prop :=
  ∀ n t, runSteps n s = .next t →
    (t.cfg.backend = .hw → t.answeredLater = true) ∧
      (t.inputs.head?.getD .seq = .seq → ∀ i u, nextOperation t = some (i, u) → BusResponsiveIn i u)

/-- An observer before each of the moves, and after the last. -/
def observed : List Move → List Move
  | [] => [.observe]
  | m :: rest => .observe :: m :: observed rest

/-- The machine's run from this state at the grain of the agents' steps, the lines of the operations among them
(10_state.md rule R21, 60_exceptions.md rule R282): what an observer notes before each move to come and each of `k` more
turns of the sequencer, over `n` steps of the machine. -/
def lineRun (n k : Nat) (s : State) : List Moment :=
  match runSteps n { s with inputs := observed (s.inputs ++ turns k), seen := [] } with
  | .next t => t.seen
  | .fault (.busHang t) => t.seen
  | .refused _ => []

/-- The core samples SDA: the acknowledge bit of a byte it sends, the data bits of a byte it receives. With
`BACKEND = BB` that is `DIR_OUT = 0` inside an operation of the configured driver (40_bus_driver.md rules R140, R141,
R147; log entry 25). -/
def Moment.sampling (m : Moment) : Bool := m.busy && m.drv.bbCfg && !m.drv.dirOut

/-- No slave holds SDA low but in a bit the core samples (41_engine_status.md rule R172). With `BACKEND = HW` there is no
model of the bits (10_state.md rule R51), and their outcome is drawn. -/
def Moment.sdaWellBehaved (backend : Backend) (m : Moment) : Bool := backend = .hw || !m.envSdaLow || m.sampling

/-- From each moment to the next the environment changes SDA only where SCL is low (rule R172). -/
def sdaMovesWhileSclLow : List Moment → Bool
  | m :: m' :: rest => (m.envSdaLow == m'.envSdaLow || !m.sclLine) && sdaMovesWhileSclLow (m' :: rest)
  | _ => true

/-- A byte is lost (rule R172). -/
def Move.isLost : Move → Bool
  | .engine d => d.tx = .lost
  | _ => false

/-- The premise `WellBehavedSlaves` (rule R172) of the machine's run from this state: at every point of the run SDA is
held low only where the core samples, so that a slave releases it before the core drives it again; SDA changes only while
SCL is low; and no byte sent is lost. -/
def WellBehavedSlaves (s : State) : Prop :=
  (∀ n k, (lineRun n k s).all (Moment.sdaWellBehaved s.cfg.backend) = true ∧
    sdaMovesWhileSclLow (lineRun n k s) = true) ∧
  s.inputs.all (fun m => !m.isLost) = true

/-! ## The terms of the statements -/

/-- The driver after `BB_CONFIGURE` (40_bus_driver.md rule R137). -/
def Driver.configured : Driver :=
  { sr := 0xFF, latch := true, dirOut := true, sdaForce := false, sclLow := false, bitcnt := 0, tc := false,
    bbCfg := true }

/-- The driver after a transfer (40_bus_driver.md rules R142, R147): the core holds SCL low with SDA released. -/
def Driver.afterTransfer (d : Driver) : Driver :=
  { d with sr := 0xFF, latch := true, dirOut := true, sclLow := true, bitcnt := 0, tc := true }

/-- The registers no agent but the sequencer writes, and the parameters, are the same. -/
abbrev SameSequencerState (s t : State) : Prop := t.cfg = s.cfg ∧ t.drv = s.drv ∧ t.ses = s.ses ∧ t.frm = s.frm

/-- The response of an operation of the command port that was run (30_encoding.md rule R120). -/
abbrev Responded (code : Byte) (flags : BitVec 2) (t : State) : Prop :=
  t.port.respCode = code ∧ t.port.respFlags = flags ∧ t.port.respValid = true ∧ t.port.refusal = none ∧
    t.port.busy = false

/-- The ports keep what the host put there, over an operation (10_state.md rules R54, R56, R57; 60_exceptions.md rules R281,
R290): the receive port is as it was, because the host delivers no byte while `BUSY = 1`; a command word that waits still
waits, and where no word waited there is one only if the host presented it. -/
abbrev PortsKept (s t : State) : Prop :=
  t.port.rxData = s.port.rxData ∧ t.port.rxValid = s.port.rxValid ∧
    (s.port.cmdValid = true → t.port.cmdValid = true ∧ t.port.cmd = s.port.cmd) ∧
    (s.inputs = [] → t.port.cmdValid = s.port.cmdValid ∧ t.port.cmd = s.port.cmd)

/-- The command is refused: the reason is kept, and no state but the response changes (60_exceptions.md rule R275,
30_encoding.md rule R120). Where another agent moves before the response is written, the registers that only the
sequencer writes are the same and the ports keep what the host put there; where none does, everything is the same. -/
def RefusedWith (reason : RefuseReason) (s : State) (o : Host.Outcome State Fault Refusal) : Prop :=
  ∃ t, o = .next t ∧ t.port.respCode = 0#8 ∧ t.port.respFlags = 2#2 ∧ t.port.respValid = true ∧
    t.port.refusal = some reason ∧ t.port.busy = false ∧ SameSequencerState s t ∧ PortsKept s t ∧
    (s.inputs = [] → t = s.respond 0#8 false (some reason))

/-- No response register is written by the core (10_state.md rule R55): where the host reads the old response meanwhile it
clears `RESP_VALID` (60_exceptions.md rule R281), and nothing sets it. -/
abbrev SameResponse (s t : State) : Prop :=
  t.port.respCode = s.port.respCode ∧ t.port.respFlags = s.port.respFlags ∧ t.port.refusal = s.port.refusal ∧
    (t.port.respValid = true → s.port.respValid = true) ∧ (s.inputs = [] → t.port.respValid = s.port.respValid)

/-- The engine's registers and the events it emitted are the same. -/
abbrev SameEngine (s t : State) : Prop := t.eng = s.eng ∧ t.bus.trace = s.bus.trace

/-- An operation of the bit-bang driver ran: its registers are `d`, and no other register of the core changed
(40_bus_driver.md rules R137 to R142). -/
abbrev DriverRan (s : State) (d : Driver) (t : State) : Prop :=
  t.drv = d ∧ t.cfg = s.cfg ∧ t.ses = s.ses ∧ t.frm = s.frm ∧ SameEngine s t ∧ s.bus.ltrace <+: t.bus.ltrace

/-- What every session operation leaves (42_session.md rules R212 to R218): the parameters, the framer, `CLKDIV` and
`OPT`; the unit the instance does not have; and with `BACKEND = BB` the poll counter. -/
abbrev SessionKept (s t : State) : Prop :=
  t.cfg = s.cfg ∧ t.ses.clkdiv = s.ses.clkdiv ∧ t.ses.opt = s.ses.opt ∧
    (s.cfg.backend = .hw → t.drv = s.drv ∧ t.bus.ltrace = s.bus.ltrace) ∧
    (s.cfg.backend = .bb →
      t.eng.int = s.eng.int ∧ t.eng.ecmd = s.eng.ecmd ∧ t.eng.pendStop = s.eng.pendStop ∧
        t.ses.waitcnt = s.ses.waitcnt ∧ t.bus.trace = s.bus.trace)

/-- The sequencer is idle and a command word waits, no received byte before it (60_exceptions.md rule R280). -/
abbrev OffersCommand (w : CmdWord) (s : State) : Prop :=
  s.port.busy = false ∧ s.port.rxValid = false ∧ s.port.cmdValid = true ∧ s.port.cmd = w

/-- The sequencer is idle and a received byte waits (60_exceptions.md rule R280). -/
abbrev OffersByte (b : Byte) (s : State) : Prop :=
  s.port.busy = false ∧ s.port.rxValid = true ∧ s.port.rxData = b

/-- The bits of a command word that its opcode's row of the map marks "0" (30_encoding.md rules R93, R95); none where
the opcode is reserved (rule R94). -/
def reservedBits (op : Byte) : Option CmdWord :=
  if op = 0x01 ∨ op = 0x02 ∨ op = 0x03 ∨ op = 0x13 ∨ op = 0x14 ∨ op = 0x15 then some 0x00FFFF
  else if op = 0x04 ∨ op = 0x06 ∨ op = 0x12 then some 0x00FF00
  else if op = 0x05 then some 0x00FEFF
  else if op = 0x10 then some 0x000000
  else if op = 0x11 then some 0x00FE00
  else none

/-- The reason a command word is refused for, the first that applies (60_exceptions.md rules R275, R285). -/
def refusalOf (w : CmdWord) (s : State) : Option RefuseReason :=
  let op := opField w
  match reservedBits op with
  | none => some .reservedOp
  | some mask =>
    if w &&& mask ≠ 0 then some .reservedField
    else if op.toNat ≤ 6 ∧ s.cfg.backend = .hw then some .noBbDriver
    else if op ≠ 0x10 ∧ s.frm.cursor ≠ .awaitAddr then some .frameInProgress
    else if 2 ≤ op.toNat ∧ op.toNat ≤ 6 ∧ s.drv.bbCfg = false then some .bbNotConfigured
    else if op = 0x06 ∧ controlWordOk (bField w) = false then some .badControlWord
    else none

/-- The core after a reset by the guard, whatever it did before: the reset of a state whose guard was armed. -/
def WasReset (s t : State) : Prop :=
  ∃ u : State, u.frm.wdArmed = true ∧ u.cfg = s.cfg ∧ t = { u.coreReset with inputs := t.inputs }

/-- The five invariants of the framer (43_framer.md rule R247). -/
abbrev FramerInv (s : State) : Prop :=
  (s.frm.cursor = .fwd → 1 ≤ s.frm.remaining.toNat ∧ s.frm.remaining.toNat ≤ 65535) ∧
    (s.frm.cursor = .fwd → s.frm.wdArmed = true) ∧
    (s.frm.cursor ≠ .fwd → s.frm.wdArmed = false) ∧
    (s.frm.cursor = .awaitAddr → s.frm.remaining = 0) ∧
    (s.frm.cursor = .lenLo → s.frm.remaining.extractLsb' 0 8 = 0#8)

/-- What every operation of the bit-bang driver leaves (40_bus_driver.md rule R147), and `BB_CFG = 1` once the session
is configured (41_engine_status.md rule R200). -/
abbrev DriverInv (s : State) : Prop :=
  s.cfg.backend = .bb →
    s.drv.sr = 0xFF#8 ∧ s.drv.latch = true ∧ s.drv.sdaForce = false ∧ s.drv.bitcnt = 0 ∧
      (s.drv.bbCfg = true → s.drv.dirOut = true) ∧
      (s.drv.bbCfg = false → s.drv.dirOut = false ∧ s.drv.sclLow = false ∧ s.drv.tc = false) ∧
      (s.ses.clkdiv ≠ 0#8 → s.drv.bbCfg = true)

/-- The unit an instance does not have keeps its reset values and leaves no trace (10_state.md sections 2, 3; rules R52,
R53). -/
abbrev AbsentUnitInv (s : State) : Prop :=
  (s.cfg.backend = .hw → s.drv = (State.powerOn s.cfg).drv ∧ s.bus.ltrace = []) ∧
    (s.cfg.backend = .bb →
      s.eng.int = false ∧ s.eng.ecmd = none ∧ s.eng.pendStop = false ∧ s.eng.phase ≠ .unknown ∧ s.ses.waitcnt = 0 ∧
        s.bus.trace = [])

/-- An unconfigured core does no bus work (41_engine_status.md rule R173), the poll counter keeps its bound (10_state.md
rule R36), and between operations the sequencer is idle (rule R56). -/
abbrev SessionInv (s : State) : Prop :=
  (s.ses.clkdiv = 0#8 → s.eng.ecmd = none ∧ s.eng.pendStop = false ∧ s.eng.phase = .idle) ∧
    s.ses.waitcnt ≤ s.cfg.waitBudget ∧ s.port.busy = false

/-- Whether a move is a delivery of the host: a byte or a command word (60_exceptions.md rule R281). -/
def Move.isDelivery : Move → Bool
  | .hostByte _ => true
  | .hostCommand _ => true
  | _ => false

/-- The core is quiescent, and the host has nothing more to deliver (70_reset_and_hazards.md rule R319). -/
abbrev Quiescent (s : State) : Prop :=
  s.port.busy = false ∧ s.port.rxValid = false ∧ s.port.cmdValid = false ∧
    (s.cfg.backend = .hw → s.eng.pendStop = false ∧ s.eng.ecmd = none) ∧
    s.inputs.all (fun m => !m.isDelivery) = true

/-- The run from `s` ends after `n` steps in `t`, the first quiescent state: before the host's last delivery no state
is quiescent, so that it is the first one after it (rule R319). -/
def RunEnds (n : Nat) (s t : State) : Prop :=
  runSteps n s = .next t ∧ Quiescent t ∧ ∀ m u, m < n → runSteps m s = .next u → ¬ Quiescent u

/-- The launch premise `CleanEntry` (70_reset_and_hazards.md rule R318): the state the reset leaves, both traces
empty. -/
abbrev State.cleanEntry (p : Params) : State := State.powerOn p

/-- The launch premise `Configured(div, bits)` (rule R318), for `div ≠ 0`: `CleanEntry` and one accepted
`SES_CONFIGURE div, bits`. `CMD` keeps the word that was taken, which no rule reads (log entry 2). -/
def State.configured (p : Params) (div bits : Byte) : State :=
  let s := State.cleanEntry p
  { s with
    ses := { s.ses with clkdiv := div, opt := bits.extractLsb' 0 2 }
    drv := match p.backend with
      | .bb => Driver.configured
      | .hw => s.drv
    port := { s.port with cmd := commandWord 0x10 div bits, respCode := 1, respValid := true } }

/-- The parse of the lines stands at the lines' present value (10_state.md rule R53). -/
abbrev LinesTraced (s : State) : Prop := s.cfg.backend = .bb → (parseLines s.bus.ltrace).prev = s.linePair

/-- The bus as the parse sees it: the core owns it and no byte is in progress (40_bus_driver.md rule R150). -/
abbrev BusOwned (s : State) : Prop :=
  (parseLines s.bus.ltrace).owned = true ∧ (parseLines s.bus.ltrace).bits = []

/-- The driver at rest between its operations (40_bus_driver.md rule R147): with SCL held low, or with the bus free. -/
abbrev DriverAtRest (sclLow : Bool) (s : State) : Prop :=
  s.drv.sr = 0xFF#8 ∧ s.drv.latch = true ∧ s.drv.sdaForce = false ∧ s.drv.dirOut = true ∧ s.drv.sclLow = sclLow

/-- No slave drives a line. -/
abbrev SlavesReleased (s : State) : Prop := s.bus.envSclLow = false ∧ s.bus.envSdaLow = false

/-- The state without what no rule reads: `LAST_ST` (10_state.md rule R48), and the traces (rules R52, R53). -/
def State.forgetLastSt (s : State) : State := { s with frm.lastSt := 0 }

/-- See `State.forgetLastSt`. -/
def State.forgetTraces (s : State) : State := { s with bus.trace := [], bus.ltrace := [] }

/-- An outcome seen through a view of the state. -/
def viewOutcome (f : State → State) : Host.Outcome State Fault Refusal → Host.Outcome State Fault Refusal
  | .next t => .next (f t)
  | .fault (.busHang t) => .fault (.busHang (f t))
  | .refused r => .refused r

/-- The bytes a framer takes one after the other, each with the moves the other agents make while it runs. -/
def runReceived : List (Instr × List Move) → State → Host.Outcome State Fault Refusal
  | [], s => .next s
  | (i, moves) :: rest, s =>
    match exec i { s with inputs := moves } with
    | .next t => runReceived rest t
    | .fault r => .fault r
    | .refused r => .refused r

end Sys2Proof.Machine
end

