-- ==== Sys2Proof/Certificates/Slice0/Obligations.lean ====
section
/-! DEFINITION. The statements about the core, from the numbered rules of the spec. The premises and the shapes of the
moves to come are named in Safety.lean. A hypothesis `s.inputs = ...` fixes when the other agents move; `rest` is
arbitrary but for what the other hypotheses say of it. -/

open Sys2Proof Sys2Proof.Machine

/-! ## Encoding -/

/-- Words written out from the opcode map and the assembly syntax (30_encoding.md rules R93, R98, R121) decode to the
operations they stand for. -/
def Obligations.SpecWordsDecode : Prop :=
  decodeCommand 0x010000 = .ok .bbConfigure ∧ decodeCommand 0x0400A5 = .ok (.bbPutbyte 0xA5) ∧
    decodeCommand 0x050100 = .ok (.bbGetbyte true) ∧ decodeCommand 0x060008 = .ok (.bbTransfer 0x08) ∧
    decodeCommand 0x104803 = .ok (.sesConfigure 0x48 0x03) ∧ decodeCommand 0x110150 = .ok (.sesStart .read 0x50) ∧
    decodeCommand 0x1100D0 = .ok (.sesStart .write 0xD0) ∧ decodeCommand 0x1200AA = .ok (.sesWrite 0xAA) ∧
    decodeCommand 0x150000 = .ok .sesStop ∧ decodeReceived .awaitAddr 0x50 = .rxAddr 0x50 ∧
    decodeReceived .fwd 0xBB = .rxPayload 0xBB

/-- Decoding and encoding agree on every operation and every word (30_encoding.md rules R91, R93, R95, R98, R100): a
word, or a byte at a cursor, decodes to an operation exactly when it is that operation's encoding. -/
def Obligations.DecodesExactlyTheEncodings : Prop :=
  ∀ (w : Wire) (i : Instr), decode w = .ok i ↔ encode i = w

/-- The address byte (30_encoding.md rules R102, R103): the low seven bits of the address above the direction bit, which
is 0 for Write and 1 for Read; bit 7 of the address is lost. -/
def Obligations.AddressByteLayout : Prop :=
  ∀ (address : Byte) (mode : Mode),
    let rw : Bool := decide (mode = .read)
    addressByte address mode = (address <<< 1) ||| (if rw then 1#8 else 0#8) ∧
      (addressByte address mode).extractLsb' 1 7 = address.extractLsb' 0 7 ∧
      (addressByte address mode).getLsbD 0 = rw

/-- The two refusals of the decoder (30_encoding.md rules R94, R95): an opcode outside the map, and a nonzero bit in a
field the map marks "0". A word so refused has no effect but its response. -/
def Obligations.UndecodableWordsAreRefused : Prop :=
  ∀ w : CmdWord,
    (decodeCommand w = .error .reservedOp ↔
      (opField w).toNat = 0 ∨ (7 ≤ (opField w).toNat ∧ (opField w).toNat ≤ 0x0F) ∨ 0x16 ≤ (opField w).toNat) ∧
    (decodeCommand w = .error .reservedField ↔ ∃ mask, reservedBits (opField w) = some mask ∧ w &&& mask ≠ 0) ∧
    ∀ (s : State) (reason : RefuseReason), OffersCommand w s → GuardSilent s → decodeCommand w = .error reason →
      RefusedWith reason { s with port.cmdValid := false } (sequencerTurn s)

/-! ## The sequencer -/

/-- A step runs the decoded command (60_exceptions.md rule R280, 30_encoding.md rule R92): when the sequencer's turn
comes and the word offered is the encoding of an operation, the step is the operation's execution with the word taken
from the port. -/
def Obligations.StepRunsTheDecodedCommand : Prop :=
  ∀ (i : Instr) (w : CmdWord) (s : State) (rest : List Move), encode i = .command w → OffersCommand w s →
    s.inputs = [] ∧ rest = [] ∨ s.inputs = .seq :: rest →
      step s = exec i { s with port.cmdValid := false, inputs := rest }

/-- A step runs a received byte, before any command word (60_exceptions.md rules R280, R285): the cursor alone chooses
the operation, and the byte is never decoded as a command word (30_encoding.md rule R100). -/
def Obligations.StepRunsTheReceivedByte : Prop :=
  ∀ (b : Byte) (s : State) (rest : List Move), OffersByte b s →
    s.inputs = [] ∧ rest = [] ∨ s.inputs = .seq :: rest →
      step s =
        exec
          (match s.frm.cursor with
            | .awaitAddr => .rxAddr b
            | .lenHi => .rxLenHi b
            | .lenLo => .rxLenLo b
            | .fwd => .rxPayload b)
          { s with port.rxValid := false, inputs := rest }

/-- A step is one move of another agent, or the sequencer's turn (10_state.md rule R21, 60_exceptions.md rules R280,
R281), which is its turn whatever is offered: a word that is refused, or nothing. While `BUSY = 1`, or with nothing
offered, the sequencer starts nothing. The host delivers as its duties allow. The model's own: the order of the moves is
its field `inputs`, and with none left the sequencer has every turn (log entries 3, 21); a delivery against the duties,
to which rule R281 gives no behaviour, changes nothing (log entry 14). -/
def Obligations.StepIsOneMove : Prop :=
  (∀ s : State, s.inputs = [] → step s = sequencerTurn s) ∧
  (∀ (s : State) (rest : List Move), s.inputs = .seq :: rest → step s = sequencerTurn { s with inputs := rest }) ∧
  (∀ (s : State) (m : Move) (rest : List Move), s.inputs = m :: rest → m ≠ .seq →
    step s = .next (({ s with inputs := rest } : State).apply m)) ∧
  (∀ s : State, s.port.busy = true ∨ (s.port.rxValid = false ∧ s.port.cmdValid = false) →
    sequencerTurn s = .next s) ∧
  (∀ (s : State) (b : Byte), s.port.rxValid = true ∨ s.port.busy = true → s.apply (.hostByte b) = s) ∧
  (∀ (s : State) (b : Byte), s.port.rxValid = false → s.port.busy = false →
    s.apply (.hostByte b) = { s with port.rxData := b, port.rxValid := true }) ∧
  (∀ (s : State) (w : CmdWord), s.apply (.hostCommand w) =
    if s.port.cmdValid then s else { s with port.cmd := w, port.cmdValid := true }) ∧
  (∀ s : State, s.apply .hostReads = { s with port.respValid := false })

/-- Refusals (60_exceptions.md rule R275): a command word is refused exactly when one of the six conditions holds, with
the first reason in the order of the rule and no effect but the response; every other word runs to a response that says
it was not refused; a received byte is never refused and writes no response. The ports keep what the host put there, but
for the word or the byte taken (10_state.md rules R54, R57). -/
def Obligations.RefusalsAreExactlyTheSixReasons : Prop :=
  (∀ (w : CmdWord) (s : State), OffersCommand w s → GuardSilent s →
    (∀ reason, refusalOf w s = some reason →
      RefusedWith reason { s with port.cmdValid := false } (sequencerTurn s)) ∧
    (refusalOf w s = none → (s.cfg.backend = .bb → BusResponsive s) →
      ∃ t, sequencerTurn s = .next t ∧ t.port.refusal = none ∧ t.port.respFlags.getLsbD 1 = false ∧
        t.port.respValid = true ∧ t.port.busy = false ∧ PortsKept { s with port.cmdValid := false } t)) ∧
  (∀ (b : Byte) (s : State), OffersByte b s → GuardSilent s → (s.cfg.backend = .bb → BusResponsive s) →
    ∃ t, sequencerTurn s = .next t ∧ SameResponse s t ∧ t.port.busy = false ∧
      PortsKept { s with port.rxValid := false } t)

/-! ## Reset and the deadline guard -/

/-- Reset values (70_reset_and_hazards.md rule R300), at power-on with any parameters and after the guard's reset of any
state; the traces are empty at power-on and kept by the guard's reset. The rule gives `CMD` and `RX_DATA` no value. -/
def Obligations.ResetValues : Prop :=
  (∀ (t s : State) (p : Params), t = State.powerOn p ∨ (t = s.coreReset ∧ p = s.cfg) →
    t.cfg = p ∧
    t.drv = { sr := 0xFF, latch := true, dirOut := false, sdaForce := false, sclLow := false, bitcnt := 0, tc := false,
              bbCfg := false } ∧
    t.ses = { clkdiv := 0, opt := 0, waitcnt := 0 } ∧
    t.statReg = (p.codes.noInfo &&& 0xF8#8) ∧ t.eng.data = 0xFF ∧ t.eng.int = false ∧ t.eng.ecmd = none ∧
    t.eng.pendStop = false ∧ t.eng.phase = .idle ∧
    t.frm = { cursor := .awaitAddr, remaining := 0, lastSt := 0, wdArmed := false } ∧
    t.port.cmdValid = false ∧ t.port.respCode = 0 ∧ t.port.respFlags = 0 ∧ t.port.respValid = false ∧
    t.port.busy = false ∧ t.port.rxValid = false) ∧
  (∀ p : Params, (State.powerOn p).bus.trace = [] ∧ (State.powerOn p).bus.ltrace = [] ∧
    (State.powerOn p).busTrace = []) ∧
  (∀ s : State, s.frm.wdArmed = true → s.apply .guard = s.coreReset ∧ s.busTrace <+: s.coreReset.busTrace ∧
    s.bus.trace <+: s.coreReset.bus.trace ∧ s.bus.ltrace <+: s.coreReset.bus.ltrace)

/-- What a reset of a running core does to the bus (70_reset_and_hazards.md rule R301): the core drives neither line,
no STOP but `EV_RESET` is appended to `TRACE`, and with `BACKEND = BB` the mark and the lines' pair are appended to
`LTRACE`. That the environment's drives stay over the reset is the model's choice (log entry 12). -/
def Obligations.ResetReleasesTheBus : Prop :=
  ∀ s : State,
    s.coreReset.coreSclLow = false ∧ s.coreReset.coreSdaLow = false ∧
      s.coreReset.bus.envSclLow = s.bus.envSclLow ∧ s.coreReset.bus.envSdaLow = s.bus.envSdaLow ∧
      s.coreReset.eng.pendStop = false ∧ s.coreReset.busTrace = s.busTrace ++ [.reset] ∧
      (s.cfg.backend = .bb →
        s.coreReset.bus.ltrace = s.bus.ltrace ++ [.resetMark, .pair s.coreReset.sclLine s.coreReset.sdaLine])

/-- The deadline guard (43_framer.md rule R250, 60_exceptions.md rule R276): armed, it cuts off whatever operation is
running, before its first line or while any wait holds it, and leaves the reset core, without a response; disarmed, it
does nothing. -/
def Obligations.GuardCutsEveryOperation : Prop :=
  (∀ (i : Instr) (s : State) (rest : List Move), s.frm.wdArmed = true → s.inputs = .guard :: rest →
    exec i s = .next { s.coreReset with inputs := rest } ∧ s.coreReset.port.respValid = false) ∧
  (∀ (C : State → Bool) (s : State) (rest : List Move), s.frm.wdArmed = true →
    holdOn C (.guard :: rest) s = .error .cut { s.coreReset with inputs := rest }) ∧
  (∀ (s : State) (rest : List Move), s.frm.wdArmed = false → s.inputs = .guard :: rest →
    step s = .next { s with inputs := rest }) ∧
  (∀ (C : State → Bool) (s : State) (rest : List Move), s.frm.wdArmed = false →
    holdOn C (.guard :: rest) s = holdOn C rest s)

/-! ## The bus lines -/

/-- The lines (10_state.md rule R50): each is the wired-AND of every driver; with `BACKEND = BB` the core drives SCL low
iff `SCL_LOW = 1`, and SDA iff `DIR_OUT = 1` and `SDA_FORCE = 1` or `LATCH = 0`; with `BACKEND = HW` as the engine
does. -/
def Obligations.LinesAreWiredAnd : Prop :=
  ∀ s : State,
    (s.sclLine = true ↔
      ¬ (s.bus.envSclLow = true ∨ (s.cfg.backend = .bb ∧ s.drv.sclLow = true) ∨
        (s.cfg.backend = .hw ∧ s.bus.engSclLow = true))) ∧
    (s.sdaLine = true ↔
      ¬ (s.bus.envSdaLow = true ∨
        (s.cfg.backend = .bb ∧ s.drv.dirOut = true ∧ (s.drv.sdaForce = true ∨ s.drv.latch = false)) ∨
        (s.cfg.backend = .hw ∧ s.bus.engSdaLow = true)))

/-- The latch (40_bus_driver.md rule R132, 10_state.md rule R23): while SCL is driven low every write of `SR`, and the
write that drives SCL low, set `LATCH <- SR[7]`; while SCL is released the latch holds, and a shift of `SR` never moves
SDA. -/
def Obligations.LatchIsTransparentWhileSclIsLow : Prop :=
  ∀ (s : State) (v : Byte),
    (s.drv.sclLow = true → (s.setSr v).drv.latch = v.getLsbD 7) ∧
    (s.drv.sclLow = false → (s.setSr v).drv.latch = s.drv.latch ∧ (s.setSr v).sdaLine = s.sdaLine) ∧
    (s.setSr v).drv.sr = v ∧
    s.pullScl.drv.latch = s.drv.sr.getLsbD 7 ∧ s.pullScl.drv.sclLow = true ∧
    s.releaseScl.drv.latch = s.drv.latch ∧ s.releaseScl.drv.sclLow = false

/-- `LTRACE` (40_bus_driver.md rule R133): every write of the driver and every move of the environment appends the new
pair iff a line changed; the write that drives SCL low appends `(0, old SDA)` and then `(0, new SDA)`. -/
def Obligations.LtraceRecordsEveryChange : Prop :=
  ∀ s : State, s.cfg.backend = .bb →
    (∀ f : State → State,
      (∃ v, f = State.setSr v) ∨ f = State.releaseScl ∨ (∃ b, f = State.setLatch b) ∨ (∃ b, f = State.setDirOut b) ∨
        (∃ b, f = State.setSdaForce b) ∨ (∃ b, f = State.apply (.envScl b)) ∨ (∃ b, f = State.apply (.envSda b)) →
      (f s).bus.ltrace =
        s.bus.ltrace ++
          if (f s).sclLine = s.sclLine ∧ (f s).sdaLine = s.sdaLine then []
          else [.pair (f s).sclLine (f s).sdaLine]) ∧
    s.pullScl.bus.ltrace =
      s.bus.ltrace ++ (if s.sclLine then [.pair false s.sdaLine] else []) ++
        (if s.pullScl.sdaLine = s.sdaLine then [] else [.pair false s.pullScl.sdaLine])

/-- The parse of `LTRACE` stands at the present pair of the lines (10_state.md rule R53): every step keeps it, whatever
moves the lines. -/
def Obligations.LtraceEndsAtTheLines : Prop :=
  ∀ s t : State, LinesTraced s → step s = .next t → LinesTraced t

/-! ## The bit-bang driver -/

/-- The bit cycle (40_bus_driver.md rule R136): the sample enters `SR[0]`, the latch takes the new `SR[7]` at the falling
edge, `BITCNT` goes down by one, and nothing else of the core changes. Where the core drives 0 it samples 0; with no
other agent moving, and with the environment moving SDA just before the sample, the sample is the wired-AND. The
last clause counts the model's lines before the sample (log entries 4, 25). -/
def Obligations.BitCycleMovesOneBit : Prop :=
  ∀ s : State, s.cfg.backend = .bb → GuardSilent s → BusResponsive s →
    ∃ (sample : Bool) (t : State), bitCycle s = .ok () t ∧
      DriverRan s
        { s.drv with sr := s.drv.sr.shiftConcat sample, latch := s.drv.sr.getLsbD 6, sclLow := true,
                     bitcnt := s.drv.bitcnt - 1 } t ∧
      (s.coreSdaLow = true → sample = false) ∧
      (s.inputs = [] → sample = !(s.coreSdaLow || s.bus.envSdaLow)) ∧
      (∀ low rest, s.bus.envSclLow = false → s.inputs = turns 3 ++ .envSda low :: .seq :: rest →
        sample = !(s.coreSdaLow || low))

/-- `BB_CONFIGURE` (40_bus_driver.md rule R137) completes with 0 in every state of the driver, configured or not, and
leaves it as the rule says. -/
def Obligations.BbConfigureCompletes : Prop :=
  ∀ s : State, s.cfg.backend = .bb → s.frm.cursor = .awaitAddr → GuardSilent s →
    ∃ t, exec .bbConfigure s = .next t ∧ Responded 0#8 0#2 t ∧
      DriverRan s
        { sr := 0xFF, latch := true, dirOut := true, sdaForce := false, sclLow := false, bitcnt := 0, tc := false,
          bbCfg := true } t

/-- `BB_START` and `BB_STOP` (40_bus_driver.md rules R138, R139) complete with 0 once SCL rises: START leaves SCL low
with the latch loaded from `SR[7]`, STOP leaves SCL released; no flag is written. -/
def Obligations.BbStartAndStopComplete : Prop :=
  ∀ s : State, DriverReady s → GuardSilent s → BusResponsive s →
    (∃ t, exec .bbStart s = .next t ∧ Responded 0#8 0#2 t ∧
      DriverRan s { s.drv with sclLow := true, latch := s.drv.sr.getLsbD 7, sdaForce := false } t) ∧
    (∃ t, exec .bbStop s = .next t ∧ Responded 0#8 0#2 t ∧
      DriverRan s { s.drv with sclLow := false, sdaForce := false } t)

/-- `BB_PUTBYTE` (40_bus_driver.md rule R140) completes for every byte, with 1 or 0, and leaves `SR = 0xFF`,
`DIR_OUT = 1`, SCL low and SDA released. The result is 1 iff the acknowledge bit sampled is 0, said of three
schedules: nobody moves; a slave moves SDA just before the acknowledge bit's transfer; and it does, and then stretches
the clock of that bit, for any time. The last two count the model's lines (log entry 4). -/
def Obligations.BbPutbyteReturnsTheAcknowledge : Prop :=
  ∀ (data : Byte) (s : State), DriverReady s → GuardSilent s → BusResponsive s →
    ∃ code t, exec (.bbPutbyte data) s = .next t ∧ (code = 0#8 ∨ code = 1#8) ∧ Responded code 0#2 t ∧
      DriverRan s
        { s.drv with sr := 0xFF, latch := true, dirOut := true, sclLow := true, bitcnt := 0, tc := true } t ∧
      (s.inputs = [] → code = if s.bus.envSdaLow then 1#8 else 0#8) ∧
      (∀ low rest, s.bus.envSclLow = false → s.inputs = turns 82 ++ .envSda low :: (turns 11 ++ rest) →
        code = if low then 1#8 else 0#8) ∧
      (∀ low k rest, s.bus.envSclLow = false →
        s.inputs = turns 82 ++ .envSda low :: .envScl true :: (turns (4 + k) ++ .envScl false :: (turns 2 ++ rest)) →
        code = if low then 1#8 else 0#8)

/-- `BB_GETBYTE` (40_bus_driver.md rule R141) completes for either acknowledge level and leaves the driver as every
transfer does. The result is the byte the slave sends, one bit in each cycle, most significant first; 0xFF where no
slave drives SDA. The clause of the slave's byte counts the model's lines (log entry 4). -/
def Obligations.BbGetbyteReturnsTheByte : Prop :=
  ∀ (last : Bool) (s : State), DriverReady s → GuardSilent s → BusResponsive s →
    ∃ code t, exec (.bbGetbyte last) s = .next t ∧ Responded code 0#2 t ∧
      DriverRan s
        { s.drv with sr := 0xFF, latch := true, dirOut := true, sclLow := true, bitcnt := 0, tc := true } t ∧
      (s.inputs = [] → code = if s.bus.envSdaLow then 0x00#8 else 0xFF#8) ∧
      (∀ v rest, s.bus.envSclLow = false → s.inputs = turns 3 ++ slaveBits (bitsOf v) ++ rest → code = v)

/-- `BB_TRANSFER` (40_bus_driver.md rule R142) completes for every legal control word: the result is the old low bits
shifted up with `N` samples below them, first sample highest, so for `N = 8` the samples alone; `TC = 1`, `BITCNT = 0`,
`SR = 0xFF`, `DIR_OUT = 1` at the end. Sample `i` is the wired-AND of what the core drives, with `DIR_OUT = 1` the bits
of the old `SR` from bit 7 down, the first one from the latch, and of what the environment drives: the same in every
bit, if nobody moves; the bit the slave sends, if it sends one in each cycle, so that a driver at rest samples the
slave's bits. The slave's schedule counts the model's lines (log entry 4). -/
def Obligations.BbTransferShiftsTheSamples : Prop :=
  ∀ (cw : Byte) (s : State), DriverReady s → controlWordOk cw = true → GuardSilent s → BusResponsive s →
    let bits : Nat := (controlBits cw).toNat
    let coreLow (i : Nat) : Bool :=
      s.drv.dirOut && (s.drv.sdaForce || !(if i = 0 then s.drv.latch else s.drv.sr.getLsbD (7 - i)))
    ∃ (samples : List Bool) (code : Byte) (t : State), exec (.bbTransfer cw) s = .next t ∧ Responded code 0#2 t ∧
      samples.length = bits ∧
      code = (s.drv.sr <<< samples.length) ||| byteOfBits samples ∧
      DriverRan s
        { s.drv with sr := 0xFF, latch := true, dirOut := true, sclLow := true, bitcnt := 0, tc := true } t ∧
      (s.inputs = [] → samples = (List.range bits).map fun i => !(coreLow i || s.bus.envSdaLow)) ∧
      (∀ sent rest, sent.length = bits → s.bus.envSclLow = false → s.inputs = turns 2 ++ slaveBits sent ++ rest →
        samples = (List.range bits).map (fun i => !coreLow i && sent.getD i false) ∧
          (DriverInv s → samples = sent))

/-- START on the lines (40_bus_driver.md rules R138, R143), no slave driving: from the free bus it appends `(1,0)`,
`(0,0)`, `(0,1)` to `LTRACE`, from a held SCL `(1,1)` before them; the parse gives `EV_START`, or `EV_RSTART` where the
bus is owned. -/
def Obligations.StartOnTheLines : Prop :=
  ∀ s : State, DriverReady s → s.inputs = [] → SlavesReleased s → LinesTraced s →
    (DriverAtRest false s →
      ∃ t, exec .bbStart s = .next t ∧
        t.bus.ltrace = s.bus.ltrace ++ [.pair true false, .pair false false, .pair false true] ∧
        t.busTrace = s.busTrace ++ [if (parseLines s.bus.ltrace).owned then .rstart else .start] ∧ BusOwned t) ∧
    (DriverAtRest true s →
      ∃ t, exec .bbStart s = .next t ∧
        t.bus.ltrace =
          s.bus.ltrace ++ [.pair true true, .pair true false, .pair false false, .pair false true] ∧
        (BusOwned s → t.busTrace = s.busTrace ++ [.rstart] ∧ BusOwned t))

/-- STOP on the lines (40_bus_driver.md rules R139, R144), no slave driving: after a byte it appends `(0,0)`, `(1,0)`,
`(1,1)` to `LTRACE` and the parse gives `EV_STOP`; on the free bus it appends `(1,0)`, `(1,1)` and the parse gives
`EV_START`, `EV_STOP`. -/
def Obligations.StopOnTheLines : Prop :=
  ∀ s : State, DriverReady s → s.inputs = [] → SlavesReleased s → LinesTraced s →
    (DriverAtRest true s → BusOwned s →
      ∃ t, exec .bbStop s = .next t ∧
        t.bus.ltrace = s.bus.ltrace ++ [.pair false false, .pair true false, .pair true true] ∧
        t.busTrace = s.busTrace ++ [.stop]) ∧
    (DriverAtRest false s → (parseLines s.bus.ltrace).owned = false →
      ∃ t, exec .bbStop s = .next t ∧
        t.bus.ltrace = s.bus.ltrace ++ [.pair true false, .pair true true] ∧
        t.busTrace = s.busTrace ++ [.start, .stop])

/-- A byte sent on the lines (40_bus_driver.md rules R140, R150, R151): on an owned bus `BB_PUTBYTE v`, the slave driving
the acknowledge bit alone, is traced as `EV_BYTE(v, a)`, most significant bit first, and leaves the bus owned. The
slave's schedule counts the model's lines (log entry 4). -/
def Obligations.PutbyteOnTheLines : Prop :=
  ∀ (v : Byte) (low : Bool) (s : State), DriverReady s → SlavesReleased s → LinesTraced s → BusOwned s →
    DriverAtRest true s → s.inputs = turns 82 ++ slaveAck low →
    ∃ t, exec (.bbPutbyte v) s = .next t ∧ t.port.respCode = (if low then 1#8 else 0#8) ∧
      t.busTrace = s.busTrace ++ [.byte v (!low)] ∧ BusOwned t ∧ SlavesReleased t

/-- A byte received on the lines (40_bus_driver.md rules R141, R150, R151): on an owned bus `BB_GETBYTE last`, the slave
driving `v` in the data bits, returns `v` and is traced as `EV_BYTE(v, last)`. The slave's schedule counts the model's lines
(log entry 4). -/
def Obligations.GetbyteOnTheLines : Prop :=
  ∀ (v : Byte) (last : Bool) (s : State), DriverReady s → SlavesReleased s → LinesTraced s → BusOwned s →
    DriverAtRest true s → s.inputs = turns 3 ++ slaveBits (bitsOf v) ++ [.envSda false] →
    ∃ t, exec (.bbGetbyte last) s = .next t ∧ t.port.respCode = v ∧ t.busTrace = s.busTrace ++ [.byte v last] ∧
      BusOwned t ∧ SlavesReleased t

/-! ## The status encoder and the byte engine -/

/-- The status encoder's table (41_engine_status.md rules R180, R188): for each phase and event of a row, `STAT[7:3]`
takes the code's bits 7:3 and `PHASE` the next phase, and nothing else is written. In `UNKNOWN` the phase stays (rule R187);
that the code is then the model's free value, and its counter, is the model's choice (log entry 9). -/
def Obligations.StatusEncoderTable : Prop :=
  ∀ (s : State) (v : Byte) (nack : Bool),
    let c := s.cfg.codes
    let p := s.eng.phase
    let open_ := p = .started ∨ p = .mt ∨ p = .mr
    let writes (e : BusEvent) (code : Byte) (next : Phase) : Prop :=
      s.encodeStatus e = { s with eng.code := code.extractLsb' 3 5, eng.phase := next }
    (p = .idle → writes .start c.start .started) ∧
    (open_ → writes .start c.repStart .started) ∧
    (p = .started → v.getLsbD 0 = false → writes (.tx v nack) (if nack then c.mtSlaNack else c.mtSlaAck) .mt) ∧
    (p = .started → v.getLsbD 0 = true → writes (.tx v nack) (if nack then c.mrSlaNack else c.mrSlaAck) .mr) ∧
    (p = .mt ∨ p = .mr → writes (.tx v nack) (if nack then c.mtDataNack else c.mtDataAck) .mt) ∧
    (open_ → writes .txLost c.arbLost .idle) ∧
    (open_ → writes (.rx nack) (if nack then c.mrDataNack else c.mrDataAck) .mr) ∧
    (p ≠ .unknown → writes .stop c.noInfo .idle) ∧
    (p = .idle → writes .idleXfer c.noInfo .idle) ∧
    (p = .unknown → ∀ e, ∃ code n,
      s.encodeStatus e = { s with eng.code := code, eng.freeIdx := n })

/-- The engine's step (41_engine_status.md rules R174, R176 to R179), `PHASE` known: a pending STOP goes first and
touches neither `INT` nor `ECMD` (while the operation that issued it runs, see `EngineHasNoStep`; log entry 29);
otherwise the command in flight is performed with the draws, its event emitted and its outcome encoded, `ECMD <- NONE`,
`INT <- 1`; a byte that is lost releases both lines of the engine. -/
def Obligations.EngineStepPerforms : Prop :=
  ∀ (s : State) (d : EngineDraw), s.cfg.backend = .hw → s.ses.clkdiv ≠ 0#8 → s.eng.phase ≠ .unknown →
    (s.eng.pendStop = true → s.port.busy = false ∨ s.port.stopIssued = false →
      s.apply (.engine d) =
        { s with bus.trace := s.bus.trace ++ [.stop], eng.pendStop := false, eng.phase := .idle,
                 eng.code := s.cfg.codes.noInfo.extractLsb' 3 5 }) ∧
    (s.eng.pendStop = false →
      let done (e : Event) (b : BusEvent) (data : Byte) : Prop :=
        let t : State := { s with bus.trace := s.bus.trace ++ [e], eng.data := data }
        s.apply (.engine d) = { t.encodeStatus b with eng.ecmd := none, eng.int := true }
      (s.eng.ecmd = some .start →
        done (if s.eng.phase = .idle then .start else .rstart) .start s.eng.data) ∧
      (s.eng.phase ≠ .idle → s.eng.ecmd = some .tx → d.tx = .ack →
        done (.byte s.eng.data false) (.tx s.eng.data false) s.eng.data) ∧
      (s.eng.phase ≠ .idle → s.eng.ecmd = some .tx → d.tx = .nack →
        done (.byte s.eng.data true) (.tx s.eng.data true) s.eng.data) ∧
      (s.eng.phase ≠ .idle → s.eng.ecmd = some .tx → d.tx = .lost →
        let t : State :=
          { s with bus := { s.bus with trace := s.bus.trace ++ [.lost], engSclLow := false, engSdaLow := false } }
        s.apply (.engine d) = { t.encodeStatus .txLost with eng.ecmd := none, eng.int := true }) ∧
      (s.eng.phase ≠ .idle → s.eng.ecmd = some .rxAck → done (.byte d.rx false) (.rx false) d.rx) ∧
      (s.eng.phase ≠ .idle → s.eng.ecmd = some .rxNack → done (.byte d.rx true) (.rx true) d.rx))

/-- Where the engine has no step (41_engine_status.md rules R173, R174, R175): while `CLKDIV = 0`; with nothing to do; and
for a transmit or receive command outside a transaction. With `BACKEND = BB` there is no engine (rule R170). And a pending
STOP waits while the operation that issued it runs (20_memory.md rule R81, in the model's field `stopIssued`, log entry
29). -/
def Obligations.EngineHasNoStep : Prop :=
  ∀ (s : State) (d : EngineDraw),
    (s.cfg.backend = .bb ∨ s.ses.clkdiv = 0#8 ∨
      (s.eng.phase ≠ .unknown ∧ s.eng.pendStop = false ∧
        (s.eng.ecmd = none ∨ (s.eng.phase = .idle ∧ s.eng.ecmd ≠ some .start))) ∨
      (s.eng.phase ≠ .unknown ∧ s.eng.pendStop = true ∧ s.port.busy = true ∧ s.port.stopIssued = true)) →
    s.apply (.engine d) = s

/-- `PHASE = UNKNOWN` is kept until reset (41_engine_status.md rule R187): after a step from it the phase is still
`UNKNOWN`, or the guard reset the core. -/
def Obligations.UnknownPhaseLastsUntilReset : Prop :=
  ∀ s t : State, s.eng.phase = .unknown → step s = .next t → t.eng.phase = .unknown ∨ WasReset s t

/-- Issuing a command (41_engine_status.md rule R171), no engine step meanwhile: a command issued while another is in
flight makes `PHASE = UNKNOWN`; `INT <- 0` and `ECMD` takes the command; a STOP leaves both alone. -/
def Obligations.IssuingACommand : Prop :=
  ∀ (cmd : EngineCmd) (s : State), GuardSilent s → EngineSilent s →
    let phase : Phase := if s.eng.ecmd = none then s.eng.phase else .unknown
    (∃ t, engineIssue cmd s = .ok () t ∧ SameSequencerState s t ∧
      t.eng = { s.eng with phase := phase, int := false, ecmd := some cmd }) ∧
    (∃ t, engineIssueStop s = .ok () t ∧ SameSequencerState s t ∧
      t.eng = { s.eng with phase := phase, pendStop := true })

/-- The bounded wait (41_engine_status.md rules R190, R193; 42_session.md rules R212, R214, R216): on an engine that takes
no step, `SES_WRITE` and `SES_START` return `SC_TIMEOUT` after exactly `WAIT_BUDGET` polls, `SES_START` without sending
the address byte, and the reads return the old `DATA`. A transmit or receive outside a transaction is dropped; any
other command stays in flight. No event is emitted and `STAT` is not written. -/
def Obligations.SilentEngineTimesOut : Prop :=
  ∀ (data address : Byte) (mode : Mode) (s : State), s.cfg.backend = .hw → SessionReady s → GuardSilent s →
    EngineSilent s → s.cfg.codes.wf → s.eng.ecmd = none → s.eng.phase ≠ .unknown →
    let after (cmd : EngineCmd) (t : State) (code data : Byte) : Prop :=
      Responded code 0#2 t ∧ t.ses = { s.ses with waitcnt := s.cfg.waitBudget } ∧ t.bus.trace = s.bus.trace ∧
        t.frm = s.frm ∧ t.drv = s.drv ∧
        t.eng = { s.eng with
          data := data, int := false,
          ecmd := if s.eng.phase = .idle ∧ cmd ≠ .start then none else some cmd }
    (∃ t, exec (.sesWrite data) s = .next t ∧ after .tx t s.cfg.codes.timeout data) ∧
    (∃ t, exec (.sesStart mode address) s = .next t ∧ after .start t s.cfg.codes.timeout s.eng.data) ∧
    (∃ t, exec .sesReadAck s = .next t ∧ after .rxAck t s.eng.data s.eng.data) ∧
    (∃ t, exec .sesReadNack s = .next t ∧ after .rxNack t s.eng.data s.eng.data)

/-! ## The session -/

/-- `SES_CONFIGURE` (42_session.md rule R211) completes in every state of the framer, both back ends. Unconfigured: it
returns 1, writes `CLKDIV` and ors `bits[1:0]` into `OPT`, and with `BACKEND = BB` and a nonzero divisor configures the
driver. Configured: it returns 0 and changes nothing. -/
def Obligations.SesConfigureOnce : Prop :=
  ∀ (div bits : Byte) (s : State), GuardSilent s →
    (s.ses.clkdiv = 0#8 →
      ∃ t, exec (.sesConfigure div bits) s = .next t ∧ Responded 1#8 0#2 t ∧ t.cfg = s.cfg ∧ t.frm = s.frm ∧
        t.ses = { s.ses with clkdiv := div, opt := s.ses.opt ||| bits.extractLsb' 0 2 } ∧
        t.drv =
          (if s.cfg.backend = .bb ∧ div ≠ 0#8 then
            { sr := 0xFF, latch := true, dirOut := true, sdaForce := false, sclLow := false, bitcnt := 0, tc := false,
              bbCfg := true }
          else s.drv) ∧
        (EngineSilent s → SameEngine s t)) ∧
    (s.ses.clkdiv ≠ 0#8 →
      ∃ t, exec (.sesConfigure div bits) s = .next t ∧ Responded 0#8 0#2 t ∧ SameSequencerState s t ∧
        (EngineSilent s → SameEngine s t))

/-- Configuration is one-time (42_session.md rule R220): once nonzero, `CLKDIV` keeps its value and `OPT` its bits over
every step until the guard resets the core. -/
def Obligations.ConfigurationIsKeptUntilReset : Prop :=
  ∀ s t : State, s.ses.clkdiv ≠ 0#8 → step s = .next t →
    (t.ses.clkdiv = s.ses.clkdiv ∧ t.ses.opt = s.ses.opt) ∨ WasReset s t

/-- An unconfigured session (42_session.md rule R210, 30_encoding.md rule R120): its five other commands complete, do
nothing, return 0 and set `NOTCFG`. -/
def Obligations.UnconfiguredSessionDoesNothing : Prop :=
  ∀ (i : Instr) (s : State),
    ((∃ mode address, i = .sesStart mode address) ∨ (∃ data, i = .sesWrite data) ∨ i = .sesReadAck ∨
      i = .sesReadNack ∨ i = .sesStop) →
    s.ses.clkdiv = 0#8 → s.frm.cursor = .awaitAddr → GuardSilent s →
      ∃ t, exec i s = .next t ∧ Responded 0#8 1#2 t ∧ SameSequencerState s t ∧ SameEngine s t ∧
        (s.inputs = [] → t.bus = s.bus)

/-- The session's commands complete (42_session.md rules R212 to R218) on a configured session for all operands and
phases: with `BACKEND = HW` whatever the engine does, with `BACKEND = BB` once SCL rises. The frame: the framer, the
configuration and the unit the instance lacks are unchanged; `SES_STOP` returns 0. -/
def Obligations.SessionCommandsComplete : Prop :=
  ∀ (i : Instr) (s : State),
    ((∃ mode address, i = .sesStart mode address) ∨ (∃ data, i = .sesWrite data) ∨ i = .sesReadAck ∨
      i = .sesReadNack ∨ i = .sesStop) →
    SessionReady s → GuardSilent s → (s.cfg.backend = .bb → BusResponsive s) →
      ∃ code t, exec i s = .next t ∧ Responded code 0#2 t ∧ t.frm = s.frm ∧ SessionKept s t ∧
        (i = .sesStop → code = 0#8)

/-- `SES_WRITE` with `BACKEND = HW` (42_session.md rules R214, R215; 41_engine_status.md rules R177, R182, R183), the
engine answering within the budget: in a data phase 0 for ACK, `SC_MT_DATA_NACK` for NACK; as the first byte after a
START the address code, nonzero; `SC_ARB_LOST` for a lost byte. The byte is traced, and `DATA`, `STAT`, `PHASE`, `INT`
and `WAITCNT` are as the rules say. The premise counts the model's lines before the first poll (log entry 4); with
`PHASE = IDLE` the byte has no step and times out (`SilentEngineTimesOut`). -/
def Obligations.SesWriteOnTheEngine : Prop :=
  ∀ (data : Byte) (k : Nat) (d : EngineDraw) (rest : List Move) (s : State), SessionReady s → EngineFree s →
    GuardSilent s → s.cfg.codes.wf → k ≤ s.cfg.waitBudget → s.inputs = turns 5 ++ polled k d ++ rest →
    s.eng.phase ≠ .idle →
      let c := s.cfg.codes
      let nack : Bool := decide (d.tx = .nack)
      let address : Byte := if data.getLsbD 0 then (if nack then c.mrSlaNack else c.mrSlaAck)
        else (if nack then c.mtSlaNack else c.mtSlaAck)
      let code : Byte :=
        if d.tx = .lost then c.arbLost
        else if s.eng.phase = .started then address
        else if nack then c.mtDataNack else 0#8
      let stat : Byte :=
        if d.tx = .lost then c.arbLost
        else if s.eng.phase = .started then address
        else if nack then c.mtDataNack else c.mtDataAck
      let phase : Phase :=
        if d.tx = .lost then .idle
        else if s.eng.phase = .started ∧ data.getLsbD 0 = true then .mr else .mt
      ∃ t, exec (.sesWrite data) s = .next t ∧ Responded code 0#2 t ∧ t.frm = s.frm ∧ t.drv = s.drv ∧
        t.ses = { s.ses with waitcnt := k } ∧
        t.eng = { s.eng with data := data, code := stat.extractLsb' 3 5, phase := phase, int := true } ∧
        t.bus.trace = s.bus.trace ++ [if d.tx = .lost then .lost else .byte data nack]

/-- `SES_START` with `BACKEND = HW` (42_session.md rules R212, R213), the engine answering both commands within the
budget: 0 for an acknowledged address, otherwise the address code or `SC_ARB_LOST` unchanged, no STOP issued. `TRACE`
gains `EV_START` on a free bus and `EV_RSTART` on an owned one, then the address byte. Behind a pending STOP (20_memory.md
rule R81, 41_engine_status.md rule R179), which the engine performs at any point before its step for the START, `TRACE`
gains `EV_STOP` first, and the START is one on a free bus. The premises count the model's lines (log entry 4). -/
def Obligations.SesStartOnTheEngine : Prop :=
  ∀ (mode : Mode) (address : Byte) (k' : Nat) (d' : EngineDraw) (rest : List Move) (s : State),
    SessionReady s → GuardSilent s → s.cfg.codes.wf → k' ≤ s.cfg.waitBudget →
      let c := s.cfg.codes
      let lost : Bool := decide (d'.tx = .lost)
      let nack : Bool := decide (d'.tx = .nack)
      let code : Byte :=
        if lost then c.arbLost
        else if nack then (if mode = .read then c.mrSlaNack else c.mtSlaNack) else 0#8
      let started (events : List Event) (t : State) : Prop :=
        exec (.sesStart mode address) s = .next t ∧ Responded code 0#2 t ∧ t.frm = s.frm ∧ t.drv = s.drv ∧
          t.ses = { s.ses with waitcnt := k' } ∧ t.eng.data = addressByte address mode ∧ t.eng.ecmd = none ∧
          t.eng.pendStop = false ∧ t.eng.phase = (if lost then .idle else if mode = .read then .mr else .mt) ∧
          t.bus.trace = s.bus.trace ++ events ++ [if lost then .lost else .byte (addressByte address mode) nack]
      (∀ k d, EngineFree s → k ≤ s.cfg.waitBudget →
        s.inputs = turns 4 ++ polled k d ++ turns 7 ++ polled k' d' ++ rest →
        ∃ t, started [if s.eng.phase = .idle then .start else .rstart] t) ∧
      (∀ m n stop d, s.cfg.backend = .hw → s.eng.ecmd = none → s.eng.pendStop = true → s.eng.phase ≠ .unknown →
        4 ≤ m + n → m + n ≤ 4 + s.cfg.waitBudget →
        s.inputs = polled m stop ++ polled n d ++ turns 7 ++ polled k' d' ++ rest →
        ∃ t, started [.stop, .start] t)

/-- `SES_READ_ACK` and `SES_READ_NACK` with `BACKEND = HW` (42_session.md rules R216, R217; 41_engine_status.md rules
R178, R184), the engine answering within the budget: the byte received is returned and traced with its acknowledge
bit. The premise counts the model's lines before the first poll (log entry 4). -/
def Obligations.SesReadOnTheEngine : Prop :=
  ∀ (nack : Bool) (k : Nat) (d : EngineDraw) (rest : List Move) (s : State), SessionReady s → EngineFree s →
    GuardSilent s → k ≤ s.cfg.waitBudget → s.inputs = turns 4 ++ polled k d ++ rest → s.eng.phase ≠ .idle →
      let stat : Byte := if nack then s.cfg.codes.mrDataNack else s.cfg.codes.mrDataAck
      ∃ t, exec (if nack then .sesReadNack else .sesReadAck) s = .next t ∧ Responded d.rx 0#2 t ∧ t.frm = s.frm ∧
        t.drv = s.drv ∧ t.ses = { s.ses with waitcnt := k } ∧
        t.eng = { s.eng with data := d.rx, code := stat.extractLsb' 3 5, phase := .mr, int := true } ∧
        t.bus.trace = s.bus.trace ++ [.byte d.rx nack]

/-- `SES_STOP` with `BACKEND = HW` (42_session.md rule R218, 41_engine_status.md rules R171, R179, 20_memory.md rule R81): it
returns at once with the STOP pending, whatever the engine would do meanwhile; with no earlier STOP pending nothing is
traced until it has ended; the engine's next step puts the STOP on the bus. How the STOP waits for the end is log entry 29,
DEDUCED from rule R81. -/
def Obligations.SesStopOnTheEngineIsPending : Prop :=
  ∀ (d : EngineDraw) (s : State), SessionReady s → s.cfg.backend = .hw → GuardSilent s → s.eng.ecmd = none →
    s.eng.phase ≠ .unknown →
      ∃ t, exec .sesStop s = .next t ∧ Responded 0#8 0#2 t ∧ SameSequencerState s t ∧ t.eng.pendStop = true ∧
        (t.apply (.engine d)).bus.trace = t.bus.trace ++ [.stop] ∧ (t.apply (.engine d)).eng.phase = .idle ∧
        (EngineSilent s ∨ s.eng.pendStop = false →
          t.eng = { s.eng with pendStop := true } ∧ t.bus.trace = s.bus.trace)

/-- `SES_WRITE` with `BACKEND = BB` (42_session.md rule R214, 41_engine_status.md rules R191, R197): in a transaction it
sends the byte through the driver and returns 0 in a data phase, the address code as the first byte, or the NACK code;
with no transaction open it returns `SC_NO_INFO` at once and moves no line. On traced lines, slaves driving the acknowledge
bit alone, the byte on the owned bus is traced as `EV_BYTE` with its acknowledge (40_bus_driver.md rules R150, R151). The
schedule of the slave's acknowledge counts the model's lines (log entry 4). -/
def Obligations.SesWriteOnTheDriver : Prop :=
  ∀ (data : Byte) (s : State), SessionReady s → s.cfg.backend = .bb → GuardSilent s → s.cfg.codes.wf →
    let c := s.cfg.codes
    (∀ low rest, s.bus.envSclLow = false → s.inputs = turns 83 ++ .envSda low :: (turns 11 ++ rest) →
      s.eng.phase ≠ .idle → s.eng.phase ≠ .unknown →
      let address : Byte := if data.getLsbD 0 then (if low then c.mrSlaAck else c.mrSlaNack)
        else (if low then c.mtSlaAck else c.mtSlaNack)
      ∃ t, exec (.sesWrite data) s = .next t ∧
        Responded (if s.eng.phase = .started then address else if low then 0#8 else c.mtDataNack) 0#2 t ∧
        t.frm = s.frm ∧ t.ses = s.ses ∧ t.drv = s.drv.afterTransfer ∧
        t.eng = { s.eng with
          data := data
          code := (if s.eng.phase = .started then address else if low then c.mtDataAck else c.mtDataNack).extractLsb' 3 5
          phase := if s.eng.phase = .started ∧ data.getLsbD 0 = true then .mr else .mt } ∧
        (SlavesReleased s → LinesTraced s → BusOwned s → DriverAtRest true s → rest = [.envSda false] →
          t.busTrace = s.busTrace ++ [.byte data (!low)] ∧ BusOwned t ∧ SlavesReleased t)) ∧
    (s.eng.phase = .idle →
      ∃ t, exec (.sesWrite data) s = .next t ∧ Responded c.noInfo 0#2 t ∧ SameSequencerState s t ∧
        t.eng = { s.eng with data := data, code := c.noInfo.extractLsb' 3 5 } ∧ (s.inputs = [] → t.bus = s.bus))

/-- `SES_START` with `BACKEND = BB` (42_session.md rule R212, 41_engine_status.md rules R196, R197): START through the
driver, then the address byte; 0 for ACK, the address NACK code otherwise. On traced lines, slaves driving the acknowledge
bit alone, `TRACE` gains `EV_START`, or `EV_RSTART` where the bus is owned, and the address byte with its acknowledge
(40_bus_driver.md rules R143, R150, R151). The schedule of the slave's acknowledge counts the model's lines (log
entry 4). -/
def Obligations.SesStartOnTheDriver : Prop :=
  ∀ (mode : Mode) (address : Byte) (low : Bool) (rest : List Move) (s : State), SessionReady s →
    s.cfg.backend = .bb → GuardSilent s → s.cfg.codes.wf → s.eng.phase ≠ .unknown → s.bus.envSclLow = false →
    s.inputs = turns 92 ++ .envSda low :: (turns 11 ++ rest) →
      let c := s.cfg.codes
      let nackCode : Byte := if mode = .read then c.mrSlaNack else c.mtSlaNack
      let ackCode : Byte := if mode = .read then c.mrSlaAck else c.mtSlaAck
      ∃ t, exec (.sesStart mode address) s = .next t ∧ Responded (if low then 0#8 else nackCode) 0#2 t ∧
        t.frm = s.frm ∧ t.ses = s.ses ∧
        t.drv = ({ s.drv with sdaForce := false } : Driver).afterTransfer ∧
        t.eng = { s.eng with
          data := addressByte address mode
          code := (if low then ackCode else nackCode).extractLsb' 3 5
          phase := if mode = .read then .mr else .mt } ∧
        (SlavesReleased s → LinesTraced s → rest = [.envSda false] →
          let byte : Event := .byte (addressByte address mode) (!low)
          (DriverAtRest false s →
            t.busTrace = s.busTrace ++ [if (parseLines s.bus.ltrace).owned then .rstart else .start, byte] ∧
              BusOwned t ∧ SlavesReleased t) ∧
          (DriverAtRest true s → BusOwned s →
            t.busTrace = s.busTrace ++ [.rstart, byte] ∧ BusOwned t ∧ SlavesReleased t))

/-- `SES_READ_ACK`, `SES_READ_NACK` and `SES_STOP` with `BACKEND = BB` (42_session.md rules R216 to R218;
41_engine_status.md rules R198, R199): in a transaction a read returns the byte the slave sends; with none open it
receives nothing and returns the old `DATA`. The STOP is synchronous: `STAT` and `PHASE` are written at once. On traced
lines, slaves driving the data bits alone, a read on the owned bus is traced as `EV_BYTE(v, 0)` for `SES_READ_ACK` and
`EV_BYTE(v, 1)` for `SES_READ_NACK`; the STOP as `EV_STOP`, on the free bus as `EV_START`, `EV_STOP` (40_bus_driver.md rules
R144, R150, R151). The schedule of the slave's bits counts the model's lines (log entry 4). -/
def Obligations.SesReadAndStopOnTheDriver : Prop :=
  ∀ (nack : Bool) (s : State), SessionReady s → s.cfg.backend = .bb → GuardSilent s → s.eng.phase ≠ .unknown →
    let c := s.cfg.codes
    let read : Instr := if nack then .sesReadNack else .sesReadAck
    (∀ v rest, s.bus.envSclLow = false → s.inputs = turns 3 ++ slaveBits (bitsOf v) ++ rest → s.eng.phase ≠ .idle →
      BusResponsive s →
      ∃ t, exec read s = .next t ∧ Responded v 0#2 t ∧ t.frm = s.frm ∧ t.ses = s.ses ∧ t.drv = s.drv.afterTransfer ∧
        t.eng = { s.eng with
          data := v, code := (if nack then c.mrDataNack else c.mrDataAck).extractLsb' 3 5, phase := .mr } ∧
        (SlavesReleased s → LinesTraced s → BusOwned s → DriverAtRest true s → rest = [.envSda false] →
          t.busTrace = s.busTrace ++ [.byte v nack] ∧ BusOwned t ∧ SlavesReleased t)) ∧
    (s.eng.phase = .idle →
      ∃ t, exec read s = .next t ∧ Responded s.eng.data 0#2 t ∧ SameSequencerState s t ∧
        t.eng = { s.eng with code := c.noInfo.extractLsb' 3 5 } ∧ (s.inputs = [] → t.bus = s.bus)) ∧
    (BusResponsive s →
      ∃ t, exec .sesStop s = .next t ∧ Responded 0#8 0#2 t ∧ t.frm = s.frm ∧ t.ses = s.ses ∧
        t.drv = { s.drv with sclLow := false, sdaForce := false } ∧
        t.eng = { s.eng with code := c.noInfo.extractLsb' 3 5, phase := .idle } ∧
        (SlavesReleased s → LinesTraced s → s.inputs = [] →
          (DriverAtRest true s → BusOwned s → t.busTrace = s.busTrace ++ [.stop]) ∧
          (DriverAtRest false s → (parseLines s.bus.ltrace).owned = false →
            t.busTrace = s.busTrace ++ [.start, .stop])))

/-! ## The framer -/

/-- The address byte of a frame (43_framer.md rule R240) completes on either back end, configured or not: `REMAINING` is
cleared, the cursor moves on, the guard is not armed, no response is written. `LAST_ST` takes what `SES_START` with mode
Write returns for the same byte, the response it gives on the command port, whatever moves come: the same moves, one of
the model's lines later (log entry 4), so that the outcomes of `SES_START` on the engine and on the driver are those
`LAST_ST` keeps. -/
def Obligations.RxAddressStartsAFrame : Prop :=
  ∀ (b : Byte) (s : State), GuardSilent s → (s.cfg.backend = .bb → BusResponsive s) →
    (∃ st t, exec (.rxAddr b) s = .next t ∧
      t.frm = { s.frm with remaining := 0, lastSt := st, cursor := .lenHi } ∧ SessionKept s t ∧ SameResponse s t ∧
      t.port.busy = false ∧ (s.ses.clkdiv = 0#8 → st = 0#8 ∧ t.drv = s.drv ∧ SameEngine s t)) ∧
    (∀ rest, s.inputs = [] ∧ rest = [] ∨ s.inputs = .seq :: rest → s.frm.cursor = .awaitAddr →
      ∃ t u, exec (.rxAddr b) s = .next t ∧ exec (.sesStart .write b) { s with inputs := rest } = .next u ∧
        t.frm.lastSt = u.port.respCode ∧ (rest = [] → t.eng = u.eng ∧ t.drv = u.drv ∧ t.bus = u.bus))

/-- The length bytes of a frame (43_framer.md rules R241, R242): the high byte goes to `REMAINING[15:8]`; the low byte is
or-ed in, so that the length is `lengthHigh * 256 + lengthLow`, and arms the guard. A zero length closes the frame with
a STOP, pending with `BACKEND = HW`, through the driver with `BACKEND = BB`; any other goes on to the payload with no
bus activity. That the STOP is still pending when the byte has ended, whatever steps the engine takes, is the model's
reading: log entry 29, DEDUCED from 20_memory.md rule R81 and 70_reset_and_hazards.md rule R311, where 43_framer.md rule
R248 says only that `EV_STOP` may follow the byte and 60_exceptions.md rule R280 lets the engine's steps come between. -/
def Obligations.RxLengthBytes : Prop :=
  ∀ (b : Byte) (s : State), GuardSilent s →
    (∃ t, exec (.rxLenHi b) s = .next t ∧
      t.frm = { s.frm with remaining := BitVec.ofNat 16 (b.toNat * 256), cursor := .lenLo } ∧
      t.drv = s.drv ∧ t.ses = s.ses ∧ (EngineSilent s → SameEngine s t) ∧ SameResponse s t ∧ t.port.busy = false) ∧
    let length : BitVec 16 := s.frm.remaining ||| b.setWidth 16
    (s.frm.remaining.extractLsb' 0 8 = 0#8 → length.toNat = s.frm.remaining.toNat + b.toNat) ∧
    (length ≠ 0#16 →
      ∃ t, exec (.rxLenLo b) s = .next t ∧
        t.frm = { s.frm with remaining := length, wdArmed := true, cursor := .fwd } ∧
        t.drv = s.drv ∧ t.ses = s.ses ∧ (EngineSilent s → SameEngine s t) ∧ SameResponse s t ∧
        t.port.busy = false) ∧
    (length = 0#16 → (s.cfg.backend = .bb → BusResponsive s) →
      ∃ t, exec (.rxLenLo b) s = .next t ∧
        t.frm = { s.frm with remaining := 0, wdArmed := false, cursor := .awaitAddr } ∧ SessionKept s t ∧
        SameResponse s t ∧ t.port.busy = false ∧
        (s.cfg.backend = .hw → s.ses.clkdiv ≠ 0#8 → EngineSilent s ∨ t.eng.phase ≠ .unknown →
          t.eng.pendStop = true) ∧
        (s.cfg.backend = .bb → s.ses.clkdiv ≠ 0#8 → s.eng.phase ≠ .unknown →
          t.eng.phase = .idle ∧ t.drv = { s.drv with sclLow := false, sdaForce := false }))

/-- A payload byte (43_framer.md rules R243, R244, R245) completes whatever the slave answers: `REMAINING` goes down by
one, the guard is armed; the last byte closes the frame: STOP issued, pending with `BACKEND = HW`, through the driver with
`BACKEND = BB`, guard disarmed, cursor back. `LAST_ST` takes what `SES_WRITE` returns for the same byte and the same
moves. That the closing STOP is still pending when the byte has ended, whatever steps the engine takes, is the model's
reading: log entry 29, DEDUCED from 20_memory.md rule R81 and 70_reset_and_hazards.md rule R311, where rule R248 says
only that `EV_STOP` may follow the byte and 60_exceptions.md rule R280 lets the engine's steps come between. -/
def Obligations.RxPayloadForwardsAByte : Prop :=
  ∀ (b : Byte) (s : State), GuardSilent s → (s.cfg.backend = .bb → BusResponsive s) →
    (∃ st t, exec (.rxPayload b) s = .next t ∧ SessionKept s t ∧ SameResponse s t ∧ t.port.busy = false ∧
      (s.ses.clkdiv = 0#8 → st = 0#8 ∧ t.drv = s.drv ∧ SameEngine s t) ∧
      (s.frm.remaining ≠ 1#16 →
        t.frm = { s.frm with lastSt := st, wdArmed := true, remaining := s.frm.remaining - 1 }) ∧
      (s.frm.remaining = 1#16 →
        t.frm = { lastSt := st, wdArmed := false, remaining := 0, cursor := .awaitAddr } ∧
        (s.cfg.backend = .hw → s.ses.clkdiv ≠ 0#8 → EngineSilent s ∨ t.eng.phase ≠ .unknown →
          t.eng.pendStop = true) ∧
        (s.cfg.backend = .bb → s.ses.clkdiv ≠ 0#8 → s.eng.phase ≠ .unknown →
          t.eng.phase = .idle ∧
            t.drv =
              { (if s.eng.phase = .idle then s.drv else s.drv.afterTransfer) with
                sclLow := false, sdaForce := false }))) ∧
    (∃ t u, exec (.rxPayload b) s = .next t ∧
      exec (.sesWrite b) { s with frm.cursor := .awaitAddr } = .next u ∧
      t.frm.lastSt = u.port.respCode ∧
      (s.inputs = [] → s.frm.remaining ≠ 1#16 → t.eng = u.eng ∧ t.drv = u.drv ∧ t.bus = u.bus))

/-- A frame ends with its last byte and not before (43_framer.md rules R243, R249): from the forwarding state with
`REMAINING` bytes to come, fewer bytes leave the framer forwarding with the guard armed and the rest still to come, and
exactly as many close the frame; whatever the bytes, the bus's answers and the other agents' moves, the guard silent
and, with `BACKEND = BB`, SCL not held by the environment. -/
def Obligations.FrameEndsAfterItsLength : Prop :=
  ∀ (payload : List (Byte × List Move)) (s : State), s.frm.cursor = .fwd → s.frm.wdArmed = true →
    1 ≤ payload.length → payload.length ≤ s.frm.remaining.toNat →
    (∀ x ∈ payload, Move.guard ∉ x.2) →
    (s.cfg.backend = .bb → s.bus.envSclLow = false ∧ ∀ x ∈ payload, ∀ low, Move.envScl low ∉ x.2) →
    ∃ t, runReceived (payload.map fun x => (.rxPayload x.1, x.2)) s = .next t ∧
      (payload.length < s.frm.remaining.toNat →
        t.frm.cursor = .fwd ∧ t.frm.wdArmed = true ∧ t.frm.remaining.toNat = s.frm.remaining.toNat - payload.length) ∧
      (payload.length = s.frm.remaining.toNat →
        t.frm.cursor = .awaitAddr ∧ t.frm.wdArmed = false ∧ t.frm.remaining = 0)

/-- A valid frame gives one transaction (43_framer.md rule R248) with `BACKEND = HW`: configured, the bus free, the
engine answering each command within the budget, no byte lost, the guard silent, `TRACE` gains exactly `EV_START`, the
address byte, the payload bytes in order, and, with the engine's next step, `EV_STOP`; whatever the slave
acknowledges; a frame of length 0 gives START, the address byte and STOP (rule R246). The premise counts the model's
lines (log entry 4). -/
def Obligations.FrameIsOneTransactionOnTheEngine : Prop :=
  ∀ (address : Byte) (payload : List (Byte × Nat × EngineDraw)) (k k' : Nat) (d d' stop : EngineDraw) (s : State),
    EngineFree s → s.eng.phase = .idle → s.frm.cursor = .awaitAddr → s.frm.wdArmed = false → s.cfg.codes.wf →
    payload.length ≤ 65535 → k ≤ s.cfg.waitBudget → k' ≤ s.cfg.waitBudget → d'.tx ≠ .lost →
    (∀ x ∈ payload, x.2.1 ≤ s.cfg.waitBudget ∧ x.2.2.tx ≠ .lost) →
      let length : BitVec 16 := BitVec.ofNat 16 payload.length
      let answer (v : Byte) (x : EngineDraw) : Event := .byte v (decide (x.tx = .nack))
      ∃ t,
        runReceived
            ((.rxAddr address, turns 5 ++ polled k d ++ turns 7 ++ polled k' d') ::
              (.rxLenHi (length.extractLsb' 8 8), []) :: (.rxLenLo (length.extractLsb' 0 8), []) ::
              payload.map fun x => (.rxPayload x.1, turns 5 ++ polled x.2.1 x.2.2)) s = .next t ∧
          t.frm.cursor = .awaitAddr ∧ t.frm.wdArmed = false ∧ t.frm.remaining = 0 ∧
          t.busTrace =
            s.busTrace ++ [.start, answer (address <<< 1) d'] ++ payload.map (fun x => answer x.1 x.2.2) ∧
          (t.apply (.engine stop)).busTrace = t.busTrace ++ [.stop]

/-- A valid frame gives one transaction (43_framer.md rule R248) with `BACKEND = BB`: configured, the bus free, slaves
that drive SDA in the acknowledge bits alone, `TRACE`, the parse of the lines, gains exactly `EV_START`, the address
byte, the payload bytes in order and `EV_STOP`; whatever the slaves acknowledge; a frame of length 0
gives START, the address byte and STOP (rule R246). The slaves' schedule counts the model's lines (log entry 4). -/
def Obligations.FrameIsOneTransactionOnTheDriver : Prop :=
  ∀ (address : Byte) (ack : Bool) (payload : List (Byte × Bool)) (s : State),
    s.cfg.backend = .bb → s.ses.clkdiv ≠ 0#8 → s.eng.phase = .idle → s.frm.cursor = .awaitAddr →
    s.frm.wdArmed = false → s.cfg.codes.wf → DriverAtRest false s → SlavesReleased s → LinesTraced s →
    (parseLines s.bus.ltrace).owned = false → payload.length ≤ 65535 →
      let length : BitVec 16 := BitVec.ofNat 16 payload.length
      ∃ t,
        runReceived
            ((.rxAddr address, turns 93 ++ slaveAck ack) :: (.rxLenHi (length.extractLsb' 8 8), []) ::
              (.rxLenLo (length.extractLsb' 0 8), []) ::
              payload.map fun x => (.rxPayload x.1, turns 83 ++ slaveAck x.2)) s = .next t ∧
          t.frm.cursor = .awaitAddr ∧ t.frm.wdArmed = false ∧ t.frm.remaining = 0 ∧ t.eng.phase = .idle ∧
          t.busTrace =
            s.busTrace ++ [.start, .byte (address <<< 1) (!ack)] ++ payload.map (fun x => .byte x.1 (!x.2)) ++ [.stop]

/-! ## Invariants -/

/-- The framer's invariants (43_framer.md rule R247) are kept by every step. -/
def Obligations.StepKeepsTheFramerInvariants : Prop :=
  ∀ s t : State, FramerInv s → step s = .next t → FramerInv t

/-- The driver's resting state (40_bus_driver.md rule R147) and `BB_CFG = 1` once the session is configured
(41_engine_status.md rule R200) are kept by every step. -/
def Obligations.StepKeepsTheDriverAtRest : Prop :=
  ∀ s t : State, DriverInv s → step s = .next t → DriverInv t

/-- The unit an instance does not have keeps its reset values and leaves no trace (10_state.md rules R33 to R36, R52, R53;
40_bus_driver.md, header), over every step. -/
def Obligations.AbsentUnitStaysAtReset : Prop :=
  ∀ s t : State, AbsentUnitInv s → step s = .next t → AbsentUnitInv t

/-- Every step keeps: no engine command, no pending STOP and `PHASE = IDLE` while unconfigured (41_engine_status.md rule
R173), `WAITCNT ≤ WAIT_BUDGET` (10_state.md rule R36), the sequencer idle between operations (rule R56, log entry 5). -/
def Obligations.StepKeepsTheSessionInvariants : Prop :=
  ∀ s t : State, SessionInv s → step s = .next t → SessionInv t

/-- The reset state of every instance meets all the invariants (70_reset_and_hazards.md rule R300). That the parse of the
empty `LTRACE` stands at the lines there rests on the model's choice that the environment drives neither line at
power-on (log entry 12). -/
def Obligations.ResetMeetsTheInvariants : Prop :=
  ∀ p : Params, FramerInv (State.powerOn p) ∧ DriverInv (State.powerOn p) ∧ AbsentUnitInv (State.powerOn p) ∧
    SessionInv (State.powerOn p) ∧ LinesTraced (State.powerOn p) ∧ Quiescent (State.powerOn p)

/-- The parameters never change and both traces only grow, over resets too (10_state.md rules R52, R53; 00_scope.md rule
R8). -/
def Obligations.TracesOnlyGrow : Prop :=
  ∀ s t : State, step s = .next t → t.cfg = s.cfg ∧ s.bus.trace <+: t.bus.trace ∧ s.bus.ltrace <+: t.bus.ltrace

/-! ## Whole-machine rules -/

/-- `LAST_ST` is never read (10_state.md rule R48, 43_framer.md rule R245): two states that differ in it alone step to
outcomes that differ in it alone. -/
def Obligations.LastStatusIsNeverRead : Prop :=
  ∀ (s : State) (v : Byte),
    viewOutcome State.forgetLastSt (step { s with frm.lastSt := v }) = viewOutcome State.forgetLastSt (step s)

/-- The traces are observations that no rule reads (10_state.md rules R52, R53): two states that differ in them alone step
to outcomes that differ in them alone. -/
def Obligations.TracesAreNeverRead : Prop :=
  ∀ (s : State) (trace : List Event) (ltrace : List LineEntry),
    viewOutcome State.forgetTraces (step { s with bus.trace := trace, bus.ltrace := ltrace }) =
      viewOutcome State.forgetTraces (step s)

/-- Only a clock held low can stop the machine (60_exceptions.md rule R284): every step of every state answers a next
state, except in the bit-bang driver's wait for SCL with the line low to the end; then the sequencer is busy and no
move is left. With `BACKEND = HW` nothing hangs. -/
def Obligations.OnlyAHeldClockStopsTheMachine : Prop :=
  ∀ s : State,
    (∃ t, step s = .next t) ∨
      (∃ t, step s = .fault (.busHang t) ∧ s.cfg.backend = .bb ∧ t.cfg = s.cfg ∧ t.port.busy = true ∧
        t.sclLine = false ∧ t.bus.envSclLow = true ∧ t.inputs = [])

/-- A hang lasts (60_exceptions.md rule R284): with SCL held low by the environment for good, `BB_START`, `BB_STOP`,
`BB_PUTBYTE`, `BB_GETBYTE` and a legal `BB_TRANSFER` stop in the wait with `BUSY = 1`, and no later turn of the
sequencer starts an operation. -/
def Obligations.HeldClockHangsTheDriver : Prop :=
  ∀ (i : Instr) (s : State),
    (i = .bbStart ∨ i = .bbStop ∨ (∃ data, i = .bbPutbyte data) ∨ (∃ last, i = .bbGetbyte last) ∨
      (∃ cw, controlWordOk cw = true ∧ i = .bbTransfer cw)) →
    DriverReady s → s.bus.envSclLow = true → s.inputs = [] →
      ∃ t, exec i s = .fault (.busHang t) ∧ t.port.busy = true ∧ t.rxReady = false ∧ t.sclLine = false ∧
        t.port.respValid = s.port.respValid ∧ step t = .next t

/-- On a responsive engine no wait times out (41_engine_status.md rules R172, R190): under the byte engine's half of the
premise `BusResponsive`, `SES_START`, free or behind a pending STOP, and in a transaction `SES_WRITE` and the reads
complete with `WAITCNT` short of `WAIT_BUDGET`, nothing left in flight or pending, `PHASE` known, and a result that is
not `SC_TIMEOUT`. And `SES_STOP` responds, and the run goes on, with nothing more offered or delivered, to its end
(70_reset_and_hazards.md rule R319), where the STOP is performed: `PHASE = IDLE`, and `TRACE` has gained `EV_STOP`
alone. -/
def Obligations.ResponsiveEngineNeverTimesOut : Prop :=
  (∀ (i : Instr) (s : State), SessionReady s → s.cfg.backend = .hw → s.cfg.wf → GuardSilent s → s.eng.ecmd = none →
    s.eng.phase ≠ .unknown → EngineResponsive i s →
    ((∃ mode address, i = .sesStart mode address) ∨
      (s.eng.pendStop = false ∧ s.eng.phase ≠ .idle ∧
        ((∃ data, i = .sesWrite data) ∨ i = .sesReadAck ∨ i = .sesReadNack))) →
      ∃ code t, exec i s = .next t ∧ Responded code 0#2 t ∧ t.ses.waitcnt < s.cfg.waitBudget ∧ t.eng.ecmd = none ∧
        t.eng.pendStop = false ∧ t.eng.phase ≠ .unknown ∧
        (i ≠ .sesReadAck → i ≠ .sesReadNack → code ≠ s.cfg.codes.timeout)) ∧
  (∀ s : State, SessionReady s → s.cfg.backend = .hw → GuardSilent s → s.eng.ecmd = none → s.eng.pendStop = false →
    s.eng.phase ≠ .unknown → s.port.rxValid = false → s.port.cmdValid = false →
    s.inputs.all (fun m => !m.isDelivery) = true → EngineResponsive .sesStop s →
      ∃ t n u, exec .sesStop s = .next t ∧ Responded 0#8 0#2 t ∧ RunEnds n t u ∧ u.eng.phase = .idle ∧
        u.bus.trace = s.bus.trace ++ [.stop])

/-- The launch states and the end of a run (70_reset_and_hazards.md rules R318, R319): from `CleanEntry`, the run in which
the host delivers `SES_CONFIGURE div, bits` with `div ≠ 0` and nothing else ends with that operation, in
`Configured(div, bits)`: `CLKDIV = div`, `OPT = bits[1:0]`, `RESP_CODE = 1`, `RESP_VALID = 1`, with `BACKEND = BB` the
driver configured, and every other register as the reset left it. `CMD`, to which the rule gives no value, keeps the word
(log entry 2). -/
def Obligations.ConfiguredEndsTheFirstRun : Prop :=
  ∀ (p : Params) (div bits : Byte), div ≠ 0#8 →
    let s := State.cleanEntry p
    let w := commandWord 0x10 div bits
    RunEnds 2 { s with inputs := [.hostCommand w] } (State.configured p div bits) ∧
      State.configured p div bits =
        { s with
          ses.clkdiv := div
          ses.opt := bits.extractLsb' 0 2
          port.respCode := 1
          port.respValid := true
          port.cmd := w
          drv :=
            if p.backend = .bb then
              { sr := 0xFF, latch := true, dirOut := true, sdaForce := false, sclLow := false, bitcnt := 0,
                tc := false, bbCfg := true }
            else s.drv }
end

