-- ==== Sys2Proof/Laws/State.lean ====
section
/-! SUPPORT. What each update of the state does to each part of it: one lemma for each part and update, so that no
later proof unfolds a record update. -/

namespace Sys2Proof.Machine

variable (s : State)

/-! ## Line moves: a move of the lines only adds entries to `LTRACE`. -/

section
variable (f : State → State)

@[simp] theorem moveLines_cfg : (s.moveLines f).cfg = (f s).cfg := by
  simp only [State.moveLines]; split <;> rfl
@[simp] theorem moveLines_drv : (s.moveLines f).drv = (f s).drv := by
  simp only [State.moveLines]; split <;> rfl
@[simp] theorem moveLines_ses : (s.moveLines f).ses = (f s).ses := by
  simp only [State.moveLines]; split <;> rfl
@[simp] theorem moveLines_eng : (s.moveLines f).eng = (f s).eng := by
  simp only [State.moveLines]; split <;> rfl
@[simp] theorem moveLines_frm : (s.moveLines f).frm = (f s).frm := by
  simp only [State.moveLines]; split <;> rfl
@[simp] theorem moveLines_port : (s.moveLines f).port = (f s).port := by
  simp only [State.moveLines]; split <;> rfl
@[simp] theorem moveLines_inputs : (s.moveLines f).inputs = (f s).inputs := by
  simp only [State.moveLines]; split <;> rfl
@[simp] theorem moveLines_seen : (s.moveLines f).seen = (f s).seen := by
  simp only [State.moveLines]; split <;> rfl
@[simp] theorem moveLines_envSclLow : (s.moveLines f).bus.envSclLow = (f s).bus.envSclLow := by
  simp only [State.moveLines]; split <;> rfl
@[simp] theorem moveLines_envSdaLow : (s.moveLines f).bus.envSdaLow = (f s).bus.envSdaLow := by
  simp only [State.moveLines]; split <;> rfl
@[simp] theorem moveLines_engSclLow : (s.moveLines f).bus.engSclLow = (f s).bus.engSclLow := by
  simp only [State.moveLines]; split <;> rfl
@[simp] theorem moveLines_engSdaLow : (s.moveLines f).bus.engSdaLow = (f s).bus.engSdaLow := by
  simp only [State.moveLines]; split <;> rfl
@[simp] theorem moveLines_trace : (s.moveLines f).bus.trace = (f s).bus.trace := by
  simp only [State.moveLines]; split <;> rfl

/-- With `BACKEND = HW` no line pair is recorded (10_state.md rule R53). -/
theorem moveLines_ltrace_hw (h : (f s).cfg.backend = .hw) : (s.moveLines f).bus.ltrace = (f s).bus.ltrace := by
  simp [State.moveLines, h]

/-- With `BACKEND = BB` the new pair is recorded if it differs from the old one (40_bus_driver.md rule R133). -/
theorem moveLines_ltrace_bb (h : (f s).cfg.backend = .bb) :
    (s.moveLines f).bus.ltrace =
      if (f s).linePair = s.linePair then (f s).bus.ltrace else (f s).bus.ltrace ++ [(f s).linePair] := by
  simp only [State.moveLines, h]; split <;> simp_all

@[simp] theorem moveLines_sclLine : (s.moveLines f).sclLine = (f s).sclLine := by
  simp [State.sclLine, State.coreSclLow]
@[simp] theorem moveLines_sdaLine : (s.moveLines f).sdaLine = (f s).sdaLine := by
  simp [State.sdaLine, State.coreSdaLow]
@[simp] theorem moveLines_coreSclLow : (s.moveLines f).coreSclLow = (f s).coreSclLow := by
  simp [State.coreSclLow]
@[simp] theorem moveLines_coreSdaLow : (s.moveLines f).coreSdaLow = (f s).coreSdaLow := by
  simp [State.coreSdaLow]
@[simp] theorem moveLines_linePair : (s.moveLines f).linePair = (f s).linePair := by
  simp [State.linePair, State.sclLine, State.sdaLine, State.coreSclLow, State.coreSdaLow]

end

/-! ## The writes of the driver's registers. -/

@[simp] theorem setSr_drv (v : Byte) : (State.setSr v s).drv = { s.drv with sr := v, latch := if s.drv.sclLow then v.msb else s.drv.latch } := by
  simp [State.setSr]
@[simp] theorem setSr_cfg (v : Byte) : (State.setSr v s).cfg = s.cfg := by
  simp [State.setSr]
@[simp] theorem setSr_ses (v : Byte) : (State.setSr v s).ses = s.ses := by
  simp [State.setSr]
@[simp] theorem setSr_eng (v : Byte) : (State.setSr v s).eng = s.eng := by
  simp [State.setSr]
@[simp] theorem setSr_frm (v : Byte) : (State.setSr v s).frm = s.frm := by
  simp [State.setSr]
@[simp] theorem setSr_port (v : Byte) : (State.setSr v s).port = s.port := by
  simp [State.setSr]
@[simp] theorem setSr_inputs (v : Byte) : (State.setSr v s).inputs = s.inputs := by
  simp [State.setSr]
@[simp] theorem setSr_seen (v : Byte) : (State.setSr v s).seen = s.seen := by
  simp [State.setSr]
@[simp] theorem setSr_envSclLow (v : Byte) : (State.setSr v s).bus.envSclLow = s.bus.envSclLow := by
  simp [State.setSr]
@[simp] theorem setSr_envSdaLow (v : Byte) : (State.setSr v s).bus.envSdaLow = s.bus.envSdaLow := by
  simp [State.setSr]
@[simp] theorem setSr_engSclLow (v : Byte) : (State.setSr v s).bus.engSclLow = s.bus.engSclLow := by
  simp [State.setSr]
@[simp] theorem setSr_engSdaLow (v : Byte) : (State.setSr v s).bus.engSdaLow = s.bus.engSdaLow := by
  simp [State.setSr]
@[simp] theorem setSr_trace (v : Byte) : (State.setSr v s).bus.trace = s.bus.trace := by
  simp [State.setSr]
@[simp] theorem releaseScl_drv : (State.releaseScl s).drv = { s.drv with sclLow := false } := by
  simp [State.releaseScl]
@[simp] theorem releaseScl_cfg : (State.releaseScl s).cfg = s.cfg := by
  simp [State.releaseScl]
@[simp] theorem releaseScl_ses : (State.releaseScl s).ses = s.ses := by
  simp [State.releaseScl]
@[simp] theorem releaseScl_eng : (State.releaseScl s).eng = s.eng := by
  simp [State.releaseScl]
@[simp] theorem releaseScl_frm : (State.releaseScl s).frm = s.frm := by
  simp [State.releaseScl]
@[simp] theorem releaseScl_port : (State.releaseScl s).port = s.port := by
  simp [State.releaseScl]
@[simp] theorem releaseScl_inputs : (State.releaseScl s).inputs = s.inputs := by
  simp [State.releaseScl]
@[simp] theorem releaseScl_seen : (State.releaseScl s).seen = s.seen := by
  simp [State.releaseScl]
@[simp] theorem releaseScl_envSclLow : (State.releaseScl s).bus.envSclLow = s.bus.envSclLow := by
  simp [State.releaseScl]
@[simp] theorem releaseScl_envSdaLow : (State.releaseScl s).bus.envSdaLow = s.bus.envSdaLow := by
  simp [State.releaseScl]
@[simp] theorem releaseScl_engSclLow : (State.releaseScl s).bus.engSclLow = s.bus.engSclLow := by
  simp [State.releaseScl]
@[simp] theorem releaseScl_engSdaLow : (State.releaseScl s).bus.engSdaLow = s.bus.engSdaLow := by
  simp [State.releaseScl]
@[simp] theorem releaseScl_trace : (State.releaseScl s).bus.trace = s.bus.trace := by
  simp [State.releaseScl]
@[simp] theorem pullScl_drv : (State.pullScl s).drv = { s.drv with sclLow := true, latch := s.drv.sr.msb } := by
  simp [State.pullScl]
@[simp] theorem pullScl_cfg : (State.pullScl s).cfg = s.cfg := by
  simp [State.pullScl]
@[simp] theorem pullScl_ses : (State.pullScl s).ses = s.ses := by
  simp [State.pullScl]
@[simp] theorem pullScl_eng : (State.pullScl s).eng = s.eng := by
  simp [State.pullScl]
@[simp] theorem pullScl_frm : (State.pullScl s).frm = s.frm := by
  simp [State.pullScl]
@[simp] theorem pullScl_port : (State.pullScl s).port = s.port := by
  simp [State.pullScl]
@[simp] theorem pullScl_inputs : (State.pullScl s).inputs = s.inputs := by
  simp [State.pullScl]
@[simp] theorem pullScl_seen : (State.pullScl s).seen = s.seen := by
  simp [State.pullScl]
@[simp] theorem pullScl_envSclLow : (State.pullScl s).bus.envSclLow = s.bus.envSclLow := by
  simp [State.pullScl]
@[simp] theorem pullScl_envSdaLow : (State.pullScl s).bus.envSdaLow = s.bus.envSdaLow := by
  simp [State.pullScl]
@[simp] theorem pullScl_engSclLow : (State.pullScl s).bus.engSclLow = s.bus.engSclLow := by
  simp [State.pullScl]
@[simp] theorem pullScl_engSdaLow : (State.pullScl s).bus.engSdaLow = s.bus.engSdaLow := by
  simp [State.pullScl]
@[simp] theorem pullScl_trace : (State.pullScl s).bus.trace = s.bus.trace := by
  simp [State.pullScl]
@[simp] theorem setLatch_drv (b : Bool) : (State.setLatch b s).drv = { s.drv with latch := b } := by
  simp [State.setLatch]
@[simp] theorem setLatch_cfg (b : Bool) : (State.setLatch b s).cfg = s.cfg := by
  simp [State.setLatch]
@[simp] theorem setLatch_ses (b : Bool) : (State.setLatch b s).ses = s.ses := by
  simp [State.setLatch]
@[simp] theorem setLatch_eng (b : Bool) : (State.setLatch b s).eng = s.eng := by
  simp [State.setLatch]
@[simp] theorem setLatch_frm (b : Bool) : (State.setLatch b s).frm = s.frm := by
  simp [State.setLatch]
@[simp] theorem setLatch_port (b : Bool) : (State.setLatch b s).port = s.port := by
  simp [State.setLatch]
@[simp] theorem setLatch_inputs (b : Bool) : (State.setLatch b s).inputs = s.inputs := by
  simp [State.setLatch]
@[simp] theorem setLatch_seen (b : Bool) : (State.setLatch b s).seen = s.seen := by
  simp [State.setLatch]
@[simp] theorem setLatch_envSclLow (b : Bool) : (State.setLatch b s).bus.envSclLow = s.bus.envSclLow := by
  simp [State.setLatch]
@[simp] theorem setLatch_envSdaLow (b : Bool) : (State.setLatch b s).bus.envSdaLow = s.bus.envSdaLow := by
  simp [State.setLatch]
@[simp] theorem setLatch_engSclLow (b : Bool) : (State.setLatch b s).bus.engSclLow = s.bus.engSclLow := by
  simp [State.setLatch]
@[simp] theorem setLatch_engSdaLow (b : Bool) : (State.setLatch b s).bus.engSdaLow = s.bus.engSdaLow := by
  simp [State.setLatch]
@[simp] theorem setLatch_trace (b : Bool) : (State.setLatch b s).bus.trace = s.bus.trace := by
  simp [State.setLatch]
@[simp] theorem setDirOut_drv (b : Bool) : (State.setDirOut b s).drv = { s.drv with dirOut := b } := by
  simp [State.setDirOut]
@[simp] theorem setDirOut_cfg (b : Bool) : (State.setDirOut b s).cfg = s.cfg := by
  simp [State.setDirOut]
@[simp] theorem setDirOut_ses (b : Bool) : (State.setDirOut b s).ses = s.ses := by
  simp [State.setDirOut]
@[simp] theorem setDirOut_eng (b : Bool) : (State.setDirOut b s).eng = s.eng := by
  simp [State.setDirOut]
@[simp] theorem setDirOut_frm (b : Bool) : (State.setDirOut b s).frm = s.frm := by
  simp [State.setDirOut]
@[simp] theorem setDirOut_port (b : Bool) : (State.setDirOut b s).port = s.port := by
  simp [State.setDirOut]
@[simp] theorem setDirOut_inputs (b : Bool) : (State.setDirOut b s).inputs = s.inputs := by
  simp [State.setDirOut]
@[simp] theorem setDirOut_seen (b : Bool) : (State.setDirOut b s).seen = s.seen := by
  simp [State.setDirOut]
@[simp] theorem setDirOut_envSclLow (b : Bool) : (State.setDirOut b s).bus.envSclLow = s.bus.envSclLow := by
  simp [State.setDirOut]
@[simp] theorem setDirOut_envSdaLow (b : Bool) : (State.setDirOut b s).bus.envSdaLow = s.bus.envSdaLow := by
  simp [State.setDirOut]
@[simp] theorem setDirOut_engSclLow (b : Bool) : (State.setDirOut b s).bus.engSclLow = s.bus.engSclLow := by
  simp [State.setDirOut]
@[simp] theorem setDirOut_engSdaLow (b : Bool) : (State.setDirOut b s).bus.engSdaLow = s.bus.engSdaLow := by
  simp [State.setDirOut]
@[simp] theorem setDirOut_trace (b : Bool) : (State.setDirOut b s).bus.trace = s.bus.trace := by
  simp [State.setDirOut]
@[simp] theorem setSdaForce_drv (b : Bool) : (State.setSdaForce b s).drv = { s.drv with sdaForce := b } := by
  simp [State.setSdaForce]
@[simp] theorem setSdaForce_cfg (b : Bool) : (State.setSdaForce b s).cfg = s.cfg := by
  simp [State.setSdaForce]
@[simp] theorem setSdaForce_ses (b : Bool) : (State.setSdaForce b s).ses = s.ses := by
  simp [State.setSdaForce]
@[simp] theorem setSdaForce_eng (b : Bool) : (State.setSdaForce b s).eng = s.eng := by
  simp [State.setSdaForce]
@[simp] theorem setSdaForce_frm (b : Bool) : (State.setSdaForce b s).frm = s.frm := by
  simp [State.setSdaForce]
@[simp] theorem setSdaForce_port (b : Bool) : (State.setSdaForce b s).port = s.port := by
  simp [State.setSdaForce]
@[simp] theorem setSdaForce_inputs (b : Bool) : (State.setSdaForce b s).inputs = s.inputs := by
  simp [State.setSdaForce]
@[simp] theorem setSdaForce_seen (b : Bool) : (State.setSdaForce b s).seen = s.seen := by
  simp [State.setSdaForce]
@[simp] theorem setSdaForce_envSclLow (b : Bool) : (State.setSdaForce b s).bus.envSclLow = s.bus.envSclLow := by
  simp [State.setSdaForce]
@[simp] theorem setSdaForce_envSdaLow (b : Bool) : (State.setSdaForce b s).bus.envSdaLow = s.bus.envSdaLow := by
  simp [State.setSdaForce]
@[simp] theorem setSdaForce_engSclLow (b : Bool) : (State.setSdaForce b s).bus.engSclLow = s.bus.engSclLow := by
  simp [State.setSdaForce]
@[simp] theorem setSdaForce_engSdaLow (b : Bool) : (State.setSdaForce b s).bus.engSdaLow = s.bus.engSdaLow := by
  simp [State.setSdaForce]
@[simp] theorem setSdaForce_trace (b : Bool) : (State.setSdaForce b s).bus.trace = s.bus.trace := by
  simp [State.setSdaForce]

/-! ## The status encoder and the trace of the byte engine. -/

@[simp] theorem encodeStatus_cfg (e : BusEvent) : (State.encodeStatus e s).cfg = s.cfg := by
  simp only [State.encodeStatus]; split <;> rfl
@[simp] theorem encodeStatus_drv (e : BusEvent) : (State.encodeStatus e s).drv = s.drv := by
  simp only [State.encodeStatus]; split <;> rfl
@[simp] theorem encodeStatus_ses (e : BusEvent) : (State.encodeStatus e s).ses = s.ses := by
  simp only [State.encodeStatus]; split <;> rfl
@[simp] theorem encodeStatus_frm (e : BusEvent) : (State.encodeStatus e s).frm = s.frm := by
  simp only [State.encodeStatus]; split <;> rfl
@[simp] theorem encodeStatus_bus (e : BusEvent) : (State.encodeStatus e s).bus = s.bus := by
  simp only [State.encodeStatus]; split <;> rfl
@[simp] theorem encodeStatus_port (e : BusEvent) : (State.encodeStatus e s).port = s.port := by
  simp only [State.encodeStatus]; split <;> rfl
@[simp] theorem encodeStatus_inputs (e : BusEvent) : (State.encodeStatus e s).inputs = s.inputs := by
  simp only [State.encodeStatus]; split <;> rfl
@[simp] theorem encodeStatus_seen (e : BusEvent) : (State.encodeStatus e s).seen = s.seen := by
  simp only [State.encodeStatus]; split <;> rfl
@[simp] theorem encodeStatus_data (e : BusEvent) : (State.encodeStatus e s).eng.data = s.eng.data := by
  simp only [State.encodeStatus]; split <;> rfl
@[simp] theorem encodeStatus_int (e : BusEvent) : (State.encodeStatus e s).eng.int = s.eng.int := by
  simp only [State.encodeStatus]; split <;> rfl
@[simp] theorem encodeStatus_ecmd (e : BusEvent) : (State.encodeStatus e s).eng.ecmd = s.eng.ecmd := by
  simp only [State.encodeStatus]; split <;> rfl
@[simp] theorem encodeStatus_pendStop (e : BusEvent) : (State.encodeStatus e s).eng.pendStop = s.eng.pendStop := by
  simp only [State.encodeStatus]; split <;> rfl

/-- On the table the encoder writes the table's code and phase (41_engine_status.md rules R180, R188). -/
theorem encodeStatus_of_table {e : BusEvent} {code : Byte} {next : Phase}
    (h : encoderTable s.cfg.codes s.eng.phase e = some (code, next)) :
    State.encodeStatus e s = { s with eng.code := codeFieldOf code, eng.phase := next } := by
  simp [State.encodeStatus, h]

/-- While `PHASE = UNKNOWN` the encoder leaves it so (rule R187). -/
theorem encodeStatus_unknown (e : BusEvent) (h : s.eng.phase = .unknown) :
    (State.encodeStatus e s).eng.phase = .unknown := by
  simp [State.encodeStatus, h, encoderTable]

@[simp] theorem emit_cfg (e : Event) : (State.emit e s).cfg = s.cfg := rfl
@[simp] theorem emit_drv (e : Event) : (State.emit e s).drv = s.drv := rfl
@[simp] theorem emit_ses (e : Event) : (State.emit e s).ses = s.ses := rfl
@[simp] theorem emit_eng (e : Event) : (State.emit e s).eng = s.eng := rfl
@[simp] theorem emit_frm (e : Event) : (State.emit e s).frm = s.frm := rfl
@[simp] theorem emit_port (e : Event) : (State.emit e s).port = s.port := rfl
@[simp] theorem emit_inputs (e : Event) : (State.emit e s).inputs = s.inputs := rfl
@[simp] theorem emit_seen (e : Event) : (State.emit e s).seen = s.seen := rfl
@[simp] theorem emit_envSclLow (e : Event) : (State.emit e s).bus.envSclLow = s.bus.envSclLow := rfl
@[simp] theorem emit_envSdaLow (e : Event) : (State.emit e s).bus.envSdaLow = s.bus.envSdaLow := rfl
@[simp] theorem emit_engSclLow (e : Event) : (State.emit e s).bus.engSclLow = s.bus.engSclLow := rfl
@[simp] theorem emit_engSdaLow (e : Event) : (State.emit e s).bus.engSdaLow = s.bus.engSdaLow := rfl
@[simp] theorem emit_ltrace (e : Event) : (State.emit e s).bus.ltrace = s.bus.ltrace := rfl
@[simp] theorem emit_trace (e : Event) : (State.emit e s).bus.trace = s.bus.trace ++ [e] := rfl

/-! ## The byte engine releases its lines. -/

@[simp] theorem releaseEngine_cfg : s.releaseEngine.cfg = s.cfg := rfl
@[simp] theorem releaseEngine_drv : s.releaseEngine.drv = s.drv := rfl
@[simp] theorem releaseEngine_ses : s.releaseEngine.ses = s.ses := rfl
@[simp] theorem releaseEngine_eng : s.releaseEngine.eng = s.eng := rfl
@[simp] theorem releaseEngine_frm : s.releaseEngine.frm = s.frm := rfl
@[simp] theorem releaseEngine_port : s.releaseEngine.port = s.port := rfl
@[simp] theorem releaseEngine_inputs : s.releaseEngine.inputs = s.inputs := rfl
@[simp] theorem releaseEngine_seen : s.releaseEngine.seen = s.seen := rfl
@[simp] theorem releaseEngine_envSclLow : s.releaseEngine.bus.envSclLow = s.bus.envSclLow := rfl
@[simp] theorem releaseEngine_envSdaLow : s.releaseEngine.bus.envSdaLow = s.bus.envSdaLow := rfl
@[simp] theorem releaseEngine_trace : s.releaseEngine.bus.trace = s.bus.trace := rfl
@[simp] theorem releaseEngine_ltrace : s.releaseEngine.bus.ltrace = s.bus.ltrace := rfl
@[simp] theorem releaseEngine_engSclLow : s.releaseEngine.bus.engSclLow = false := rfl
@[simp] theorem releaseEngine_engSdaLow : s.releaseEngine.bus.engSdaLow = false := rfl

/-! ## The response, and the notes of the engine interface. -/

@[simp] theorem respond_cfg (code : Byte) (n : Bool) (r : Option RefuseReason) :
    (State.respond code n r s).cfg = s.cfg := rfl
@[simp] theorem respond_drv (code : Byte) (n : Bool) (r : Option RefuseReason) :
    (State.respond code n r s).drv = s.drv := rfl
@[simp] theorem respond_ses (code : Byte) (n : Bool) (r : Option RefuseReason) :
    (State.respond code n r s).ses = s.ses := rfl
@[simp] theorem respond_eng (code : Byte) (n : Bool) (r : Option RefuseReason) :
    (State.respond code n r s).eng = s.eng := rfl
@[simp] theorem respond_frm (code : Byte) (n : Bool) (r : Option RefuseReason) :
    (State.respond code n r s).frm = s.frm := rfl
@[simp] theorem respond_bus (code : Byte) (n : Bool) (r : Option RefuseReason) :
    (State.respond code n r s).bus = s.bus := rfl
@[simp] theorem respond_inputs (code : Byte) (n : Bool) (r : Option RefuseReason) :
    (State.respond code n r s).inputs = s.inputs := rfl
@[simp] theorem respond_seen (code : Byte) (n : Bool) (r : Option RefuseReason) :
    (State.respond code n r s).seen = s.seen := rfl
@[simp] theorem noteInFlight_cfg : s.noteInFlight.cfg = s.cfg := by
  simp only [State.noteInFlight]; split <;> rfl
@[simp] theorem noteInFlight_drv : s.noteInFlight.drv = s.drv := by
  simp only [State.noteInFlight]; split <;> rfl
@[simp] theorem noteInFlight_ses : s.noteInFlight.ses = s.ses := by
  simp only [State.noteInFlight]; split <;> rfl
@[simp] theorem noteInFlight_frm : s.noteInFlight.frm = s.frm := by
  simp only [State.noteInFlight]; split <;> rfl
@[simp] theorem noteInFlight_bus : s.noteInFlight.bus = s.bus := by
  simp only [State.noteInFlight]; split <;> rfl
@[simp] theorem noteInFlight_port : s.noteInFlight.port = s.port := by
  simp only [State.noteInFlight]; split <;> rfl
@[simp] theorem noteInFlight_inputs : s.noteInFlight.inputs = s.inputs := by
  simp only [State.noteInFlight]; split <;> rfl
@[simp] theorem noteInFlight_seen : s.noteInFlight.seen = s.seen := by
  simp only [State.noteInFlight]; split <;> rfl
@[simp] theorem timeOut_cfg : s.timeOut.cfg = s.cfg := by
  simp only [State.timeOut]; split <;> rfl
@[simp] theorem timeOut_drv : s.timeOut.drv = s.drv := by
  simp only [State.timeOut]; split <;> rfl
@[simp] theorem timeOut_ses : s.timeOut.ses = s.ses := by
  simp only [State.timeOut]; split <;> rfl
@[simp] theorem timeOut_frm : s.timeOut.frm = s.frm := by
  simp only [State.timeOut]; split <;> rfl
@[simp] theorem timeOut_bus : s.timeOut.bus = s.bus := by
  simp only [State.timeOut]; split <;> rfl
@[simp] theorem timeOut_port : s.timeOut.port = s.port := by
  simp only [State.timeOut]; split <;> rfl
@[simp] theorem timeOut_inputs : s.timeOut.inputs = s.inputs := by
  simp only [State.timeOut]; split <;> rfl
@[simp] theorem timeOut_seen : s.timeOut.seen = s.seen := by
  simp only [State.timeOut]; split <;> rfl
@[simp] theorem checkComplete_cfg : s.checkComplete.cfg = s.cfg := by
  simp only [State.checkComplete]; split <;> rfl
@[simp] theorem checkComplete_ses : s.checkComplete.ses = s.ses := by
  simp only [State.checkComplete]; split <;> rfl
@[simp] theorem checkComplete_eng : s.checkComplete.eng = s.eng := by
  simp only [State.checkComplete]; split <;> rfl
@[simp] theorem checkComplete_frm : s.checkComplete.frm = s.frm := by
  simp only [State.checkComplete]; split <;> rfl
@[simp] theorem checkComplete_bus : s.checkComplete.bus = s.bus := by
  simp only [State.checkComplete]; split <;> rfl
@[simp] theorem checkComplete_port : s.checkComplete.port = s.port := by
  simp only [State.checkComplete]; split <;> rfl
@[simp] theorem checkComplete_inputs : s.checkComplete.inputs = s.inputs := by
  simp only [State.checkComplete]; split <;> rfl
@[simp] theorem checkComplete_seen : s.checkComplete.seen = s.seen := by
  simp only [State.checkComplete]; split <;> rfl

/-! ## The reset (70_reset_and_hazards.md rules R300, R301). -/

@[simp] theorem coreReset_drv : s.coreReset.drv = (State.powerOn s.cfg).drv := by
  simp only [State.coreReset]; split <;> rfl
@[simp] theorem coreReset_ses : s.coreReset.ses = (State.powerOn s.cfg).ses := by
  simp only [State.coreReset]; split <;> rfl
@[simp] theorem coreReset_eng : s.coreReset.eng = (State.powerOn s.cfg).eng := by
  simp only [State.coreReset]; split <;> rfl
@[simp] theorem coreReset_frm : s.coreReset.frm = (State.powerOn s.cfg).frm := by
  simp only [State.coreReset]; split <;> rfl
@[simp] theorem coreReset_port : s.coreReset.port = (State.powerOn s.cfg).port := by
  simp only [State.coreReset]; split <;> rfl
@[simp] theorem coreReset_cfg : s.coreReset.cfg = s.cfg := by
  simp only [State.coreReset]; split <;> rfl
@[simp] theorem coreReset_inputs : s.coreReset.inputs = s.inputs := by
  simp only [State.coreReset]; split <;> rfl
@[simp] theorem coreReset_seen : s.coreReset.seen = s.seen := by
  simp only [State.coreReset]; split <;> rfl
@[simp] theorem coreReset_envSclLow : s.coreReset.bus.envSclLow = s.bus.envSclLow := by
  simp only [State.coreReset]; split <;> rfl
@[simp] theorem coreReset_envSdaLow : s.coreReset.bus.envSdaLow = s.bus.envSdaLow := by
  simp only [State.coreReset]; split <;> rfl
@[simp] theorem coreReset_engSclLow : s.coreReset.bus.engSclLow = false := by
  simp only [State.coreReset]; split <;> rfl
@[simp] theorem coreReset_engSdaLow : s.coreReset.bus.engSdaLow = false := by
  simp only [State.coreReset]; split <;> rfl
@[simp] theorem powerOn_cfg (p : Params) : (State.powerOn p).cfg = p := rfl

/-- A running core's reset reads only its parameters, its bus, the moves to come and what was seen. -/
theorem coreReset_congr {s t : State} (hc : s.cfg = t.cfg) (hb : s.bus = t.bus) (hi : s.inputs = t.inputs)
    (hs : s.seen = t.seen) : s.coreReset = t.coreReset := by
  simp [State.coreReset, State.releaseEngine, hc, hb, hi, hs]

end Sys2Proof.Machine
end

