-- ==== Sys2Proof/Laws/Ops.lean ====
section
/-! SUPPORT. What the other agents can do between two lines of an operation, said once (`Between`), and how an
operation's end follows from the ends of its lines (`Ends`): later proofs cite these and do not unfold `holdOn` or the
moves. -/

namespace Sys2Proof.Machine

/-! ## The moves of the other agents -/

/-- What a move of another agent that is not the guard's reset leaves of the state, the moves to come aside. -/
structure Moved (s t : State) : Prop where
  cfg : t.cfg = s.cfg
  drv : t.drv = s.drv
  ses : t.ses = s.ses
  frm : t.frm = s.frm
  respCode : t.port.respCode = s.port.respCode
  respFlags : t.port.respFlags = s.port.respFlags
  refusal : t.port.refusal = s.port.refusal
  busy : t.port.busy = s.port.busy
  issued : t.port.stopIssued = s.port.stopIssued
  engOfStill : s.engineActs = false → t.eng = s.eng ∧ t.bus.trace = s.bus.trace
  ltraceOfHw : s.cfg.backend = .hw → t.bus.ltrace = s.bus.ltrace
  phaseUnknown : t.eng.phase = .unknown ↔ s.eng.phase = .unknown
  tracePrefix : s.bus.trace <+: t.bus.trace
  ltracePrefix : s.bus.ltrace <+: t.bus.ltrace

theorem Moved.refl (s : State) : Moved s s where
  cfg := rfl
  drv := rfl
  ses := rfl
  frm := rfl
  respCode := rfl
  respFlags := rfl
  refusal := rfl
  busy := rfl
  issued := rfl
  engOfStill := fun _ => ⟨rfl, rfl⟩
  ltraceOfHw := fun _ => rfl
  phaseUnknown := Iff.rfl
  tracePrefix := List.prefix_refl _
  ltracePrefix := List.prefix_refl _

/-- Whether the engine acts reads the parameters, `CLKDIV`, the engine's registers (rule R174) and whether the operation
that runs has issued the STOP. -/
theorem engineActs_congr {s t : State} (hc : t.cfg = s.cfg) (hs : t.ses = s.ses) (he : t.eng = s.eng)
    (hb : t.port.busy = s.port.busy) (hi : t.port.stopIssued = s.port.stopIssued) : t.engineActs = s.engineActs := by
  simp [State.engineActs, State.stopHeld, State.engineEnabled, hc, hs, he, hb, hi]

theorem engineActs_disabled {s : State} (h : s.engineEnabled = false) : s.engineActs = false := by
  simp [State.engineActs, h]

theorem Moved.engOfDisabled {s t : State} (h : Moved s t) (e : s.engineEnabled = false) :
    t.eng = s.eng ∧ t.bus.trace = s.bus.trace := h.engOfStill (engineActs_disabled e)

/-- The STOP that the operation now running has issued stays pending (20_memory.md rule R81). -/
theorem Moved.engOfHeld {s t : State} (h : Moved s t) (e : s.stopHeld = true) :
    t.eng = s.eng ∧ t.bus.trace = s.bus.trace := h.engOfStill (by simp [State.engineActs, e])

theorem Moved.trans {s t u : State} (h : Moved s t) (k : Moved t u) : Moved s u where
  cfg := k.cfg.trans h.cfg
  drv := k.drv.trans h.drv
  ses := k.ses.trans h.ses
  frm := k.frm.trans h.frm
  respCode := k.respCode.trans h.respCode
  respFlags := k.respFlags.trans h.respFlags
  refusal := k.refusal.trans h.refusal
  busy := k.busy.trans h.busy
  issued := k.issued.trans h.issued
  engOfStill := fun b =>
    have h' := h.engOfStill b
    have k' := k.engOfStill ((engineActs_congr h.cfg h.ses h'.1 h.busy h.issued).trans b)
    ⟨k'.1.trans h'.1, k'.2.trans h'.2⟩
  ltraceOfHw := fun b => (k.ltraceOfHw (h.cfg ▸ b)).trans (h.ltraceOfHw b)
  phaseUnknown := k.phaseUnknown.trans h.phaseUnknown
  tracePrefix := h.tracePrefix.trans k.tracePrefix
  ltracePrefix := h.ltracePrefix.trans k.ltracePrefix

/-- With `BACKEND = BB` there is no byte engine (41_engine_status.md rule R170). -/
theorem engineEnabled_bb {s : State} (h : s.cfg.backend = .bb) : s.engineEnabled = false := by
  simp [State.engineEnabled, h]

/-- While `CLKDIV = 0` the engine takes no step (rule R173). -/
theorem engineEnabled_unconfigured {s : State} (h : s.ses.clkdiv = 0#8) : s.engineEnabled = false := by
  simp [State.engineEnabled, h]

/-- A free engine takes no step (rule R174). -/
theorem engineEnabled_free {s : State} (hc : s.eng.ecmd = none) (hs : s.eng.pendStop = false)
    (hp : s.eng.phase ≠ .unknown) : s.engineEnabled = false := by
  simp [State.engineEnabled, hc, hs, hp]

theorem Moved.engOfBb {s t : State} (h : Moved s t) (b : s.cfg.backend = .bb) :
    t.eng = s.eng ∧ t.bus.trace = s.bus.trace := h.engOfDisabled (engineEnabled_bb b)

theorem Moved.engOfUnconfigured {s t : State} (h : Moved s t) (b : s.ses.clkdiv = 0#8) :
    t.eng = s.eng ∧ t.bus.trace = s.bus.trace := h.engOfDisabled (engineEnabled_unconfigured b)

/-- A write that moves the lines keeps `LTRACE` as a beginning of the new one. -/
theorem moveLines_ltracePrefix (s : State) (f : State → State) (h : (f s).bus.ltrace = s.bus.ltrace) :
    s.bus.ltrace <+: (s.moveLines f).bus.ltrace := by
  simp only [State.moveLines]
  split <;> simp [h]

/-- The phase and the code the engine's step can leave: with `PHASE` known the encoder stays on its table. -/
theorem engineAct_phase_known {s : State} (d : EngineDraw) (he : s.engineEnabled = true)
    (hp : s.eng.phase ≠ .unknown) : (s.engineAct d).eng.phase ≠ .unknown := by
  rcases hph : s.eng.phase with _ | _ | _ | _ | _
  all_goals first
    | exact absurd hph hp
    | (rcases hc : s.eng.ecmd with _ | c
       · simp_all [State.engineEnabled, State.engineAct, State.performStop, State.encodeStatus, encoderTable]
       · rcases c with _ | _ | _ | _ <;> rcases hs : s.eng.pendStop with _ | _ <;> rcases hd : d.tx with _ | _ | _ <;>
           simp_all [State.engineEnabled, State.engineAct, State.performStop, State.performStart, State.performTx,
             State.performRx, State.encodeStatus, encoderTable, State.emit, addressPhase] <;>
           split <;> simp)

/-- The engine's step, enabled, leaves everything but its own registers and the trace. -/
theorem engineAct_moved {s : State} (d : EngineDraw) (ha : s.engineActs = true) : Moved s (s.engineAct d) := by
  have he : s.engineEnabled = true := by
    simp only [State.engineActs, Bool.and_eq_true] at ha
    exact ha.1
  have hrest : (s.engineAct d).cfg = s.cfg ∧ (s.engineAct d).drv = s.drv ∧ (s.engineAct d).ses = s.ses ∧
      (s.engineAct d).frm = s.frm ∧ (s.engineAct d).port = s.port ∧
      (s.engineAct d).bus.ltrace = s.bus.ltrace ∧ s.bus.trace <+: (s.engineAct d).bus.trace := by
    simp only [State.engineAct]
    split
    · simp [State.engineAny]
    · split
      · simp [State.performStop]
      · split <;> simp [State.performStart, State.performTx, State.performRx] <;> split <;> simp
  obtain ⟨h1, h2, h3, h4, h5, h6, h7⟩ := hrest
  exact {
    cfg := h1, drv := h2, ses := h3, frm := h4
    respCode := by rw [h5]
    respFlags := by rw [h5]
    refusal := by rw [h5]
    busy := by rw [h5]
    issued := by rw [h5]
    engOfStill := fun h => by simp [ha] at h
    ltraceOfHw := fun _ => h6
    phaseUnknown := by
      by_cases hp : s.eng.phase = .unknown
      · simp [State.engineAct, hp, State.engineAny]
      · exact ⟨fun h => absurd h (engineAct_phase_known d he hp), fun h => absurd h hp⟩
    tracePrefix := h7
    ltracePrefix := by simp [h6] }

/-- What one move of another agent can do, the guard's reset apart. -/
theorem apply_moved {m : Move} {s : State} (h : fires m s = false) : Moved s (s.apply m) := by
  cases m with
  | seq => exact Moved.refl s
  | envScl low =>
    constructor <;> simp [State.apply, State.envSclMove]
    · exact fun hb => moveLines_ltrace_hw s _ hb
    · exact moveLines_ltracePrefix s _ rfl
  | envSda low =>
    constructor <;> simp [State.apply, State.envSdaMove]
    · exact fun hb => moveLines_ltrace_hw s _ hb
    · exact moveLines_ltracePrefix s _ rfl
  | engine d =>
    simp only [State.apply, State.engineMove]
    split
    · exact engineAct_moved d ‹_›
    · exact Moved.refl s
  | engineLines a b =>
    simp only [State.apply, State.engineLinesMove]
    split
    · constructor <;> simp
    · exact Moved.refl s
  | guard =>
    have : s.frm.wdArmed = false := by simpa [fires] using h
    simpa [State.apply, State.guardMove, this] using Moved.refl s
  | hostByte b =>
    simp only [State.apply, State.hostByteMove]
    split
    · constructor <;> simp
    · exact Moved.refl s
  | hostCommand w =>
    simp only [State.apply, State.hostCommandMove]
    split
    · exact Moved.refl s
    · constructor <;> simp
  | hostReads => constructor <;> simp [State.apply, State.hostReadsMove]
  | observe => constructor <;> simp [State.apply, State.observeMove]

/-- Only the environment drives its side of SCL. -/
theorem apply_sclHeldAfter (m : Move) (rest : List Move) {s : State} :
    sclHeldAfter (s.apply m).bus.envSclLow rest = sclHeldAfter s.bus.envSclLow (m :: rest) := by
  cases m with
  | envScl low => simp [State.apply, State.envSclMove, sclHeldAfter]
  | envSda low => simp [State.apply, State.envSdaMove, sclHeldAfter]
  | engine d =>
    have : (s.engineAct d).bus.envSclLow = s.bus.envSclLow := by
      simp only [State.engineAct]
      split
      · rfl
      · split
        · simp [State.performStop]
        · split <;> simp [State.performStart, State.performTx, State.performRx] <;> split <;> simp
    simp only [State.apply, State.engineMove, sclHeldAfter]
    split <;> simp [this]
  | guard => simp only [State.apply, State.guardMove, sclHeldAfter]; split <;> simp
  | seq => simp [State.apply, sclHeldAfter]
  | engineLines a b => simp only [State.apply, State.engineLinesMove, sclHeldAfter]; split <;> rfl
  | hostByte b => simp only [State.apply, State.hostByteMove, sclHeldAfter]; split <;> rfl
  | hostCommand w => simp only [State.apply, State.hostCommandMove, sclHeldAfter]; split <;> rfl
  | hostReads => rfl
  | observe => rfl

/-! ## Between two lines -/

/-- What the host can have done at the ports over the moves `l` (60_exceptions.md rule R281). -/
structure HostMoved (l : List Move) (s t : State) : Prop where
  busy : t.port.busy = s.port.busy
  response : t.port.respValid = true → s.port.respValid = true
  byte : s.port.busy = true → t.port.rxData = s.port.rxData ∧ t.port.rxValid = s.port.rxValid
  word : s.port.cmdValid = true → t.port.cmdValid = true ∧ t.port.cmd = s.port.cmd
  alone : l = [] → (t.port.respValid, t.port.cmdValid, t.port.cmd) = (s.port.respValid, s.port.cmdValid, s.port.cmd)

theorem HostMoved.of_port {l : List Move} {s t : State} (h : t.port = s.port) : HostMoved l s t :=
  ⟨by rw [h], fun e => by rwa [h] at e, fun _ => by rw [h]; exact ⟨rfl, rfl⟩, fun e => by rw [h]; exact ⟨e, rfl⟩,
    fun _ => by rw [h]⟩

theorem HostMoved.trans {l l' : List Move} {s t u : State} (h : HostMoved l s t) (k : HostMoved l' t u)
    (hl : l = [] → l' = []) : HostMoved l s u where
  busy := k.busy.trans h.busy
  response e := h.response (k.response e)
  byte b :=
    have h' := h.byte b
    have k' := k.byte (h.busy.trans b)
    ⟨k'.1.trans h'.1, k'.2.trans h'.2⟩
  word v :=
    have h' := h.word v
    have k' := k.word h'.1
    ⟨k'.1, k'.2.trans h'.2⟩
  alone e := (k.alone (hl e)).trans (h.alone e)

/-- One move that is not the guard's reset. -/
theorem apply_host {m : Move} (rest : List Move) {s : State} (h : fires m s = false) :
    HostMoved (m :: rest) s (s.apply m) := by
  cases m with
  | hostByte b =>
    simp only [State.apply, State.hostByteMove]
    split
    · rename_i c
      refine ⟨rfl, id, fun e => ?_, fun e => ⟨e, rfl⟩, nofun⟩
      simp [State.rxReady, e] at c
    · exact .of_port rfl
  | hostCommand w =>
    simp only [State.apply, State.hostCommandMove]
    split
    · exact .of_port rfl
    · exact ⟨rfl, id, fun _ => ⟨rfl, rfl⟩, fun e => absurd e (by assumption), nofun⟩
  | hostReads => exact ⟨rfl, nofun, fun _ => ⟨rfl, rfl⟩, fun e => ⟨e, rfl⟩, nofun⟩
  | guard =>
    have : s.frm.wdArmed = false := by simpa [fires] using h
    exact .of_port (by simp [State.apply, State.guardMove, this])
  | engine d =>
    refine .of_port ?_
    simp only [State.apply, State.engineMove]
    split
    · simp only [State.engineAct]
      split
      · rfl
      · split
        · simp [State.performStop]
        · split <;> simp [State.performStart, State.performTx, State.performRx] <;> split <;> simp
    · rfl
  | seq => exact .of_port rfl
  | envScl b => exact .of_port (by simp [State.apply, State.envSclMove])
  | envSda b => exact .of_port (by simp [State.apply, State.envSdaMove])
  | engineLines a b =>
    refine .of_port ?_
    simp only [State.apply, State.engineLinesMove]
    split <;> rfl
  | observe => exact .of_port rfl

/-- What the other agents can have done when the sequencer goes on, the guard silent. -/
structure Between (s t : State) : Prop extends Moved s t where
  suffix : t.inputs <:+ s.inputs
  held : sclHeldAfter t.bus.envSclLow t.inputs = sclHeldAfter s.bus.envSclLow s.inputs
  silent : EngineSilent s → t.eng = s.eng ∧ t.bus.trace = s.bus.trace
  host : HostMoved s.inputs s t

theorem Between.engineSilent {s t : State} (h : Between s t) (g : EngineSilent s) : EngineSilent t := by
  simp only [EngineSilent, List.all_eq_true] at *
  exact fun m hm => g m (h.suffix.subset hm)

theorem Between.guardSilent {s t : State} (h : Between s t) (g : GuardSilent s) : GuardSilent t :=
  fun m => g (h.suffix.subset m)

theorem Between.busResponsive {s t : State} (h : Between s t) (r : BusResponsive s) : BusResponsive t :=
  h.held.trans r

/-- `Moved` does not look at the moves to come. -/
theorem Moved.withInputs {s t : State} (h : Moved s t) (l : List Move) : Moved s { t with inputs := l } :=
  { cfg := h.cfg, drv := h.drv, ses := h.ses, frm := h.frm, respCode := h.respCode, respFlags := h.respFlags,
    refusal := h.refusal, busy := h.busy, issued := h.issued, engOfStill := h.engOfStill, ltraceOfHw := h.ltraceOfHw,
    phaseUnknown := h.phaseUnknown, tracePrefix := h.tracePrefix, ltracePrefix := h.ltracePrefix }

/-- Only the byte engine's own step writes its registers and emits events. -/
theorem apply_eng {m : Move} {s : State} (h : fires m s = false) (hm : m.isEngine = false) :
    (s.apply m).eng = s.eng ∧ (s.apply m).bus.trace = s.bus.trace := by
  cases m with
  | engine d => simp [Move.isEngine] at hm
  | guard =>
    have : s.frm.wdArmed = false := by simpa [fires] using h
    simp [State.apply, State.guardMove, this]
  | seq => simp [State.apply]
  | envScl b => simp [State.apply, State.envSclMove]
  | envSda b => simp [State.apply, State.envSdaMove]
  | engineLines a b => simp only [State.apply, State.engineLinesMove]; split <;> simp
  | hostByte b => simp only [State.apply, State.hostByteMove]; split <;> simp
  | hostCommand w => simp only [State.apply, State.hostCommandMove]; split <;> simp
  | hostReads => simp [State.apply, State.hostReadsMove]
  | observe => simp [State.apply, State.observeMove]

/-- A condition that does not look at the moves to come. -/
def IgnoresInputs (C : State → Bool) : Prop := ∀ (s : State) (l : List Move), C { s with inputs := l } = C s

/-- Everything a hold can do: it goes on with its condition true; it hangs with no move left and its condition false;
or the armed guard fires. -/
theorem holdOn_cases {C : State → Bool} (hC : IgnoresInputs C) (l : List Move) (s : State) :
    ∃ t, t.inputs <:+ l ∧
      ((Moved s t ∧ HostMoved l s t ∧ sclHeldAfter t.bus.envSclLow t.inputs = sclHeldAfter s.bus.envSclLow l ∧
          (l.all (fun m => !m.isEngine) = true → t.eng = s.eng ∧ t.bus.trace = s.bus.trace) ∧
          ((holdOn C l s = .ok () t ∧ C t = true) ∨ (holdOn C l s = .error .hang t ∧ t.inputs = [] ∧ C t = false))) ∨
        (holdOn C l s = .error .cut t ∧ Move.guard ∈ l ∧
          ∃ u, Moved s u ∧ u.frm.wdArmed = true ∧ t = { u.coreReset with inputs := t.inputs })) := by
  induction l generalizing s with
  | nil =>
    refine ⟨{ s with inputs := [] }, List.suffix_refl _,
      .inl ⟨(Moved.refl s).withInputs [], .of_port rfl, rfl, fun _ => ⟨rfl, rfl⟩, ?_⟩⟩
    by_cases hc : C s = true
    · exact .inl ⟨by simp [holdOn, hc], by rw [hC, hc]⟩
    · exact .inr ⟨by simp [holdOn, hc], rfl, by rw [hC]; simpa using hc⟩
  | cons m rest ih =>
    simp only [holdOn]
    by_cases hm : m = .seq
    · subst hm
      by_cases hc : C s = true
      · refine ⟨{ s with inputs := rest }, List.suffix_cons _ _, 
          .inl ⟨(Moved.refl s).withInputs rest, .of_port rfl, rfl, fun _ => ⟨rfl, rfl⟩, ?_⟩⟩
        exact .inl ⟨by simp [hc], by rw [hC, hc]⟩
      · obtain ⟨t, h2, h⟩ := ih s
        refine ⟨t, h2.trans (List.suffix_cons _ _), ?_⟩
        rcases h with ⟨h1, hh, h3, h5, h4⟩ | ⟨h1, h3, h4⟩
        · exact .inl ⟨h1, { hh with alone := nofun }, h3, fun e => h5 (by simpa [Move.isEngine] using e), by simpa [hc] using h4⟩
        · exact .inr ⟨by simpa [hc] using h1, List.mem_cons_of_mem _ h3, h4⟩
    · by_cases hf : fires m s = true
      · simp only [fires, Bool.and_eq_true, decide_eq_true_eq] at hf
        refine ⟨{ s.coreReset with inputs := rest }, List.suffix_cons _ _, .inr ⟨?_, ?_, s, Moved.refl s, hf.2, rfl⟩⟩
        · simp [fires, hf.1, hf.2]
        · simp [hf.1]
      · simp only [Bool.not_eq_true] at hf
        obtain ⟨t, h2, h⟩ := ih (s.apply m)
        refine ⟨t, h2.trans (List.suffix_cons _ _), ?_⟩
        rcases h with ⟨h1, hh, h3, h5, h4⟩ | ⟨h1, h3, u, h5, h6, h7⟩
        · refine .inl ⟨(apply_moved hf).trans h1, (apply_host rest hf).trans hh nofun, by rw [h3, apply_sclHeldAfter], fun e => ?_, by simpa [hm, hf] using h4⟩
          simp only [List.all_cons, Bool.and_eq_true, Bool.not_eq_true'] at e
          have k := apply_eng hf e.1
          have k' := h5 e.2
          exact ⟨k'.1.trans k.1, k'.2.trans k.2⟩
        · exact .inr ⟨by simpa [hm, hf] using h1, List.mem_cons_of_mem _ h3, u, (apply_moved hf).trans h5, h6, h7⟩

/-! ## How an operation ends -/

/-- How an operation that does not reach its last line leaves the machine, seen from its state `s`: the guard fired and
the core was reset; or, with `BACKEND = BB`, the environment holds SCL low to the end. -/
def StoppedFrom (s : State) : Stop → State → Prop
  | .cut, t =>
    Move.guard ∈ s.inputs ∧ t.inputs <:+ s.inputs ∧
      ∃ u : State, u.cfg = s.cfg ∧ u.frm.wdArmed = true ∧ s.bus.trace <+: u.bus.trace ∧
        s.bus.ltrace <+: u.bus.ltrace ∧ t = { u.coreReset with inputs := t.inputs }
  | .hang, t =>
    s.cfg.backend = .bb ∧ t.inputs = [] ∧ t.sclLine = false ∧ t.port.busy = s.port.busy ∧ ¬ BusResponsive s

/-- An operation from `s` ends in `Q`, or stops as `StoppedFrom` says. -/
def Ends {α : Type} (x : Op α) (s : State) (Q : α → State → Prop) : Prop :=
  match x s with
  | .ok a t => Q a t
  | .error e t => StoppedFrom s e t

/-- The relation that lets a later part of an operation stop as the whole stops. -/
structure Later (s t : State) : Prop where
  cfg : t.cfg = s.cfg
  busy : t.port.busy = s.port.busy
  suffix : t.inputs <:+ s.inputs
  held : sclHeldAfter t.bus.envSclLow t.inputs = sclHeldAfter s.bus.envSclLow s.inputs
  tracePrefix : s.bus.trace <+: t.bus.trace
  ltracePrefix : s.bus.ltrace <+: t.bus.ltrace
  host : HostMoved s.inputs s t

theorem Later.refl (s : State) : Later s s :=
  ⟨rfl, rfl, List.suffix_refl _, rfl, List.prefix_refl _, List.prefix_refl _, .of_port rfl⟩

/-- Moves to come that are none stay none. -/
theorem suffix_nil {l l' : List Move} (h : l' <:+ l) (e : l = []) : l' = [] := by
  subst e
  exact List.suffix_nil.mp h

theorem Later.trans {s t u : State} (h : Later s t) (k : Later t u) : Later s u :=
  ⟨k.cfg.trans h.cfg, k.busy.trans h.busy, k.suffix.trans h.suffix, k.held.trans h.held,
    h.tracePrefix.trans k.tracePrefix, h.ltracePrefix.trans k.ltracePrefix,
    h.host.trans k.host (suffix_nil h.suffix)⟩

theorem Between.later {s t : State} (h : Between s t) : Later s t :=
  ⟨h.cfg, h.busy, h.suffix, h.held, h.tracePrefix, h.ltracePrefix, h.host⟩

theorem StoppedFrom.of_later {s t u : State} {e : Stop} (h : Later s t) (k : StoppedFrom t e u) :
    StoppedFrom s e u := by
  cases e with
  | cut =>
    obtain ⟨k1, k2, v, k3, k4, k5, k6, k7⟩ := k
    exact ⟨h.suffix.subset k1, k2.trans h.suffix, v, k3.trans h.cfg, k4, h.tracePrefix.trans k5,
      h.ltracePrefix.trans k6, k7⟩
  | hang =>
    obtain ⟨k1, k2, k3, k4, k5⟩ := k
    exact ⟨h.cfg ▸ k1, k2, k3, k4.trans h.busy, fun r => k5 (h.held.trans r)⟩

/-- With the guard silent and the bus responsive an operation that `Ends` in `Q` reaches its end. -/
theorem Ends.completes {α : Type} {x : Op α} {s : State} {Q : α → State → Prop} (h : Ends x s Q)
    (g : GuardSilent s) (r : s.cfg.backend = .bb → BusResponsive s) : ∃ a t, x s = .ok a t ∧ Q a t := by
  unfold Ends at h
  split at h
  · exact ⟨_, _, by assumption, h⟩
  · rename_i e t _
    cases e with
    | cut => exact absurd h.1 g
    | hang => exact absurd (r h.1) h.2.2.2.2

theorem Ends.mono {α : Type} {x : Op α} {s : State} {Q R : α → State → Prop} (h : Ends x s Q)
    (i : ∀ a t, Q a t → R a t) : Ends x s R := by
  unfold Ends at *
  cases hx : x s with
  | ok a t => rw [hx] at h; exact i a t h
  | error e t => rw [hx] at h; exact h

/-- What a sequence of two parts does. -/
theorem op_bind {α β : Type} (x : Op α) (f : α → Op β) (s : State) :
    (x >>= f) s =
      match x s with
      | .ok a t => f a t
      | .error e t => .error e t := by
  show EStateM.bind x f s = _
  unfold EStateM.bind
  cases x s <;> rfl

theorem Ends.bind {α β : Type} {x : Op α} {f : α → Op β} {s : State} {Q : β → State → Prop}
    (h : Ends x s fun a t => Later s t ∧ Ends (f a) t Q) : Ends (x >>= f) s Q := by
  unfold Ends at *
  rw [op_bind]
  cases hx : x s with
  | ok a t =>
    rw [hx] at h
    obtain ⟨l, h⟩ := h
    cases hy : f a t with
    | ok b u => rw [hy] at h; simpa only [hy] using h
    | error e u => rw [hy] at h; simpa only [hy] using h.of_later l
  | error e t => rw [hx] at h; exact h

theorem Ends.pure {α : Type} {a : α} {s : State} {Q : α → State → Prop} (h : Q a s) :
    Ends (Pure.pure a : Op α) s Q := h

theorem Ends.peek {s : State} {Q : State → State → Prop} (h : Q s s) : Ends Machine.peek s Q := h

theorem Ends.modify {f : State → State} {s : State} {Q : Unit → State → Prop} (h : Q () (f s)) :
    Ends (modify f : Op Unit) s Q := h

/-- A hold ends with its condition true, or stops. `hS` says what a hold that is not lifted is. -/
theorem Ends.hold {C : State → Bool} (hC : IgnoresInputs C) {s : State} {Q : Unit → State → Prop}
    (h : ∀ t, Between s t → C t = true → Q () t)
    (hS : ∀ t, Between s t → t.inputs = [] → C t = false → StoppedFrom s .hang t) : Ends (holdUntil C) s Q := by
  unfold Ends holdUntil
  obtain ⟨t, h2, hc⟩ := holdOn_cases hC s.inputs s
  rcases hc with ⟨h1, hh, h3, h5, h4 | h4⟩ | ⟨h1, h3, u, h4, h5, h6⟩
  · rw [h4.1]
    exact h t ⟨h1, h2, h3, h5, hh⟩ h4.2
  · rw [h4.1]
    exact hS t ⟨h1, h2, h3, h5, hh⟩ h4.2.1 h4.2.2
  · rw [h1]
    exact ⟨h3, h2, u, h4.cfg, h5, h4.tracePrefix, h4.ltracePrefix, h6⟩

theorem Ends.tick {s : State} {Q : Unit → State → Prop} (h : ∀ t, Between s t → Q () t) :
    Ends Machine.tick s Q :=
  Ends.hold (fun _ _ => rfl) (fun t b _ => h t b) (fun _ _ _ c => by simp at c)

theorem Ends.delay {n : Nat} {s : State} {Q : Unit → State → Prop} (h : ∀ t, Between s t → Q () t) :
    Ends (Machine.delay n) s Q := Ends.tick h

theorem Ends.line {f : State → State} {s : State} {Q : Unit → State → Prop}
    (h : ∀ t, Between s t → Q () (f t)) : Ends (Machine.line f) s Q :=
  Ends.bind (Ends.tick fun t b => ⟨b.later, Ends.modify (h t b)⟩)

theorem Ends.readLine {α : Type} {f : State → α} {s : State} {Q : α → State → Prop}
    (h : ∀ t, Between s t → Q (f t) t) : Ends (Machine.readLine f) s Q :=
  Ends.bind (Ends.tick fun t b => ⟨b.later, h t b⟩)

/-- `WaitSclHigh` once the core has released SCL (40_bus_driver.md rule R134). -/
theorem Ends.waitSclHigh {s : State} {Q : Unit → State → Prop} (hb : s.cfg.backend = .bb)
    (hr : s.drv.sclLow = false) (h : ∀ t, Between s t → t.sclLine = true → Q () t) :
    Ends Machine.waitSclHigh s Q := by
  refine Ends.hold (fun _ _ => rfl) h fun t b hi hc => ⟨hb, hi, hc, b.busy, ?_⟩
  have hd : t.drv.sclLow = false := by rw [b.drv, hr]
  have he : t.bus.envSclLow = true := by
    have hb' : t.cfg.backend = .bb := by rw [b.cfg, hb]
    simpa [State.sclLine, State.coreSclLow, hb', hd] using hc
  intro r
  have := b.held.trans r
  simp [hi, sclHeldAfter, he] at this

/-- What running an operation is to the machine. -/
theorem runOp_ends {body : Op Unit} {s : State} {Q : State → Prop}
    (h : Ends body s.running fun _ t => Q t) :
    (∃ t, runOp body s = .next t ∧ Q t) ∨
      (∃ t, runOp body s = .next t ∧ StoppedFrom s.running .cut t) ∨
      (∃ t, runOp body s = .fault (.busHang t) ∧ StoppedFrom s.running .hang t) := by
  unfold Ends at h
  unfold runOp outcomeOf
  split at h
  · rename_i t hx
    exact .inl ⟨t, by simp [hx], h⟩
  · rename_i e t hx
    cases e with
    | cut => exact .inr (.inl ⟨t, by simp [hx], h⟩)
    | hang => exact .inr (.inr ⟨t, by simp [hx], h⟩)

/-- With the guard silent and the bus responsive, running an operation completes. -/
theorem runOp_completes {body : Op Unit} {s : State} {Q : State → Prop}
    (h : Ends body s.running fun _ t => Q t) (g : GuardSilent s)
    (r : s.cfg.backend = .bb → BusResponsive s) : ∃ t, runOp body s = .next t ∧ Q t := by
  obtain ⟨a, t, hx, hq⟩ := h.completes g r
  exact ⟨t, by simp [runOp, outcomeOf, hx], hq⟩

end Sys2Proof.Machine
end

