-- ==== Sys2Proof/Laws/BusDriver.lean ====
section
/-! SUPPORT. Everything the bodies of the bit-bang driver can do (40_bus_driver.md rules R136 to R142), one lemma for
each: they end with the driver's registers as the rule says and with nothing else written, or they stop as
`StoppedFrom` says. -/

namespace Sys2Proof.Machine

/-! ## Writing the driver's registers -/

/-- From `s`, with the driver's registers now `d` and nothing else written, the other agents having moved. -/
abbrev Wrote (s : State) (d : Driver) (t : State) : Prop := Between { s with drv := d } t

theorem Between.withDrv {s t : State} (h : Between s t) (d : Driver) :
    Between { s with drv := d } { t with drv := d } :=
  { cfg := h.cfg, drv := rfl, ses := h.ses, frm := h.frm, respCode := h.respCode, respFlags := h.respFlags,
    refusal := h.refusal, busy := h.busy, issued := h.issued, engOfStill := h.engOfStill, ltraceOfHw := h.ltraceOfHw,
    phaseUnknown := h.phaseUnknown, tracePrefix := h.tracePrefix, ltracePrefix := h.ltracePrefix, suffix := h.suffix,
    held := h.held, silent := h.silent, host := { h.host with } }

theorem Between.trans {s t u : State} (h : Between s t) (k : Between t u) : Between s u :=
  { Moved.trans h.toMoved k.toMoved with
    suffix := k.suffix.trans h.suffix
    held := k.held.trans h.held
    host := h.host.trans k.host (suffix_nil h.suffix)
    silent := fun e =>
      have h' := h.silent e
      have k' := k.silent (h.engineSilent e)
      ⟨k'.1.trans h'.1, k'.2.trans h'.2⟩ }

theorem Between.refl (s : State) : Between s s :=
  { Moved.refl s with suffix := List.suffix_refl _, held := rfl, silent := fun _ => ⟨rfl, rfl⟩, host := .of_port rfl }

theorem Wrote.refl (s : State) : Wrote s s.drv s := Between.refl s

theorem Wrote.trans {s t u : State} {d e : Driver} (h : Wrote s d t) (k : Wrote t e u) : Wrote s e u :=
  (h.withDrv e).trans k

theorem Wrote.later {s t : State} {d : Driver} (h : Wrote s d t) : Later s t :=
  ⟨h.cfg, h.busy, h.suffix, h.held, h.tracePrefix, h.ltracePrefix, { h.host with }⟩

/-- A line that writes the driver's registers, and with them only the lines. -/
structure DriverWrite (f : State → State) (F : Driver → Driver) : Prop where
  drv : ∀ s, (f s).drv = F s.drv
  cfg : ∀ s, (f s).cfg = s.cfg
  ses : ∀ s, (f s).ses = s.ses
  eng : ∀ s, (f s).eng = s.eng
  frm : ∀ s, (f s).frm = s.frm
  port : ∀ s, (f s).port = s.port
  inputs : ∀ s, (f s).inputs = s.inputs
  env : ∀ s, (f s).bus.envSclLow = s.bus.envSclLow
  trace : ∀ s, (f s).bus.trace = s.bus.trace
  ltraceHw : ∀ s, s.cfg.backend = .hw → (f s).bus.ltrace = s.bus.ltrace
  ltrace : ∀ s, s.bus.ltrace <+: (f s).bus.ltrace

theorem DriverWrite.between {f : State → State} {F : Driver → Driver} (w : DriverWrite f F) {s t : State}
    (h : Between s t) : Wrote s (F s.drv) (f t) where
  cfg := (w.cfg t).trans h.cfg
  drv := by rw [w.drv, h.drv]
  ses := (w.ses t).trans h.ses
  frm := (w.frm t).trans h.frm
  respCode := by rw [w.port]; exact h.respCode
  respFlags := by rw [w.port]; exact h.respFlags
  refusal := by rw [w.port]; exact h.refusal
  busy := by rw [w.port]; exact h.busy
  issued := by rw [w.port]; exact h.issued
  engOfStill := fun b => by rw [w.eng, w.trace]; exact h.engOfStill b
  ltraceOfHw := fun b => by rw [w.ltraceHw t (by rw [h.cfg]; exact b)]; exact h.ltraceOfHw b
  phaseUnknown := by rw [w.eng]; exact h.phaseUnknown
  tracePrefix := by rw [w.trace]; exact h.tracePrefix
  ltracePrefix := h.ltracePrefix.trans (w.ltrace t)
  suffix := by rw [w.inputs]; exact h.suffix
  held := by rw [w.inputs, w.env]; exact h.held
  silent := fun e => by rw [w.eng, w.trace]; exact h.silent e
  host := { h.host.trans (l' := []) (.of_port (w.port t)) (fun _ => rfl) with }

/-- A write of the driver's registers through `moveLines`. -/
theorem DriverWrite.moveLines (F : Driver → Driver) :
    DriverWrite (fun s => s.moveLines fun t => { t with drv := F t.drv }) F := by
  constructor <;> intro s <;> try simp
  · exact fun h => moveLines_ltrace_hw s _ h
  · exact moveLines_ltracePrefix s _ rfl

theorem DriverWrite.comp {f g : State → State} {F G : Driver → Driver} (u : DriverWrite f F) (v : DriverWrite g G) :
    DriverWrite (fun s => g (f s)) (fun d => G (F d)) where
  drv s := by rw [v.drv, u.drv]
  cfg s := by rw [v.cfg, u.cfg]
  ses s := by rw [v.ses, u.ses]
  eng s := by rw [v.eng, u.eng]
  frm s := by rw [v.frm, u.frm]
  port s := by rw [v.port, u.port]
  inputs s := by rw [v.inputs, u.inputs]
  env s := by rw [v.env, u.env]
  trace s := by rw [v.trace, u.trace]
  ltraceHw s h := by rw [v.ltraceHw _ (by rw [u.cfg]; exact h), u.ltraceHw s h]
  ltrace s := (u.ltrace s).trans (v.ltrace _)

theorem setSr_write (v : Byte) :
    DriverWrite (State.setSr v) fun d => { d with sr := v, latch := if d.sclLow then v.msb else d.latch } :=
  DriverWrite.moveLines fun d => { d with sr := v, latch := if d.sclLow then v.msb else d.latch }

theorem releaseScl_write : DriverWrite State.releaseScl fun d => { d with sclLow := false } :=
  DriverWrite.moveLines fun d => { d with sclLow := false }

theorem pullScl_write : DriverWrite State.pullScl fun d => { d with sclLow := true, latch := d.sr.msb } :=
  (DriverWrite.moveLines fun d => { d with sclLow := true }).comp
    (DriverWrite.moveLines fun d => { d with latch := d.sr.msb })

theorem setLatch_write (b : Bool) : DriverWrite (State.setLatch b) fun d => { d with latch := b } :=
  DriverWrite.moveLines fun d => { d with latch := b }

theorem setDirOut_write (b : Bool) : DriverWrite (State.setDirOut b) fun d => { d with dirOut := b } :=
  DriverWrite.moveLines fun d => { d with dirOut := b }

theorem setSdaForce_write (b : Bool) : DriverWrite (State.setSdaForce b) fun d => { d with sdaForce := b } :=
  DriverWrite.moveLines fun d => { d with sdaForce := b }

/-- A write of a driver register that no line sees. -/
theorem plain_write (F : Driver → Driver) : DriverWrite (fun s => { s with drv := F s.drv }) F := by
  constructor <;> intro s <;> simp

theorem checkComplete_write :
    DriverWrite State.checkComplete fun d => if d.bitcnt = 0 then { d with tc := true } else d := by
  constructor <;> intro s <;> simp only [State.checkComplete] <;> split <;> simp_all

theorem shiftSr_write (b : Bool) :
    DriverWrite (fun s => s.setSr (s.drv.sr.shiftConcat b)) fun d =>
      { d with sr := d.sr.shiftConcat b, latch := if d.sclLow then (d.sr.shiftConcat b).msb else d.latch } :=
  DriverWrite.moveLines fun d =>
    { d with sr := d.sr.shiftConcat b, latch := if d.sclLow then (d.sr.shiftConcat b).msb else d.latch }

/-! ## One line after another -/

section
variable {α β : Type} {s u : State} {d : Driver} {Q : β → State → Prop}

theorem Ends.thenWrite {f : State → State} {F : Driver → Driver} {k : Unit → Op β} (w : DriverWrite f F)
    (b : Wrote s d u) (h : ∀ t, Wrote s (F d) t → Ends (k ()) t Q) : Ends (Machine.line f >>= k) u Q :=
  Ends.bind (Ends.line fun t c => by
    have e : u.drv = d := b.drv
    have r := w.between c
    rw [e] at r
    exact ⟨r.later, h _ (b.trans r)⟩)

theorem Ends.thenDelay {n : Nat} {k : Unit → Op β} (b : Wrote s d u)
    (h : ∀ t, Wrote s d t → Ends (k ()) t Q) : Ends (Machine.delay n >>= k) u Q :=
  Ends.bind (Ends.delay fun t c => by
    have e : u.drv = d := b.drv
    have r : Wrote u d t := by rw [← e]; exact c
    exact ⟨c.later, h t (b.trans r)⟩)

theorem Ends.thenWait {k : Unit → Op β} (b : Wrote s d u) (hb : s.cfg.backend = .bb) (hd : d.sclLow = false)
    (h : ∀ t, Wrote s d t → t.sclLine = true → Ends (k ()) t Q) : Ends (Machine.waitSclHigh >>= k) u Q := by
  have e : u.drv = d := b.drv
  have eb : u.cfg.backend = .bb := by rw [b.cfg]; exact hb
  refine Ends.bind (Ends.waitSclHigh eb (by rw [e]; exact hd) fun t c hc => ⟨c.later, h t (b.trans ?_) hc⟩)
  rw [← e]
  exact c

theorem Ends.thenRead {f : State → α} {k : α → Op β} (b : Wrote s d u)
    (h : ∀ t, Wrote s d t → Ends (k (f t)) t Q) : Ends (Machine.readLine f >>= k) u Q :=
  Ends.bind (Ends.readLine fun t c => by
    have e : u.drv = d := b.drv
    have r : Wrote u d t := by rw [← e]; exact c
    exact ⟨c.later, h t (b.trans r)⟩)

theorem Ends.thenPeek {k : State → Op β} (h : Ends (k u) u Q) : Ends (Machine.peek >>= k) u Q :=
  Ends.bind (Ends.peek ⟨Later.refl u, h⟩)

/-- A part whose whole effect is known, then the rest. -/
theorem Ends.thenPart {x : Op α} {k : α → Op β} {P : α → Driver → Prop} (b : Wrote s d u)
    (hx : Ends x u fun a t => ∃ e, P a e ∧ Wrote u e t)
    (h : ∀ a e t, P a e → Wrote s e t → Ends (k a) t Q) : Ends (x >>= k) u Q :=
  Ends.bind (hx.mono fun a t ⟨e, p, w⟩ => ⟨w.later, h a e t p (b.trans w)⟩)

end

/-! ## The bodies -/

/-- Whether the core drives SDA low (10_state.md rule R50). -/
def Driver.drivesSda (d : Driver) : Bool := d.dirOut && (d.sdaForce || !d.latch)

/-- The driver after a bit cycle that sampled `b` (rule R136). -/
def Driver.cycled (d : Driver) (b : Bool) : Driver :=
  { d with sr := d.sr.shiftConcat b, latch := (d.sr.shiftConcat b).msb, sclLow := true, bitcnt := d.bitcnt - 1 }

/-- Everything a bit cycle can do (rule R136): where the core drives 0 it samples 0. -/
theorem bitCycle_ends {s : State} (hb : s.cfg.backend = .bb) :
    Ends bitCycle s fun _ t => ∃ b, (s.drv.drivesSda = true → b = false) ∧ Wrote s (s.drv.cycled b) t := by
  unfold bitCycle
  refine Ends.thenPeek (Ends.thenDelay (Wrote.refl s) fun t1 b1 => ?_)
  refine Ends.thenWrite releaseScl_write b1 fun t2 b2 => ?_
  refine Ends.thenWait b2 hb rfl fun t3 b3 _ => ?_
  refine Ends.thenRead b3 fun t4 b4 => ?_
  refine Ends.thenWrite (shiftSr_write _) b4 fun t5 b5 => ?_
  refine Ends.thenDelay b5 fun t6 b6 => ?_
  refine Ends.thenWrite pullScl_write b6 fun t7 b7 => ?_
  refine Ends.line fun t8 c => ⟨t4.sdaLine, ?_, ?_⟩
  · intro hd
    have e : t4.drv = { s.drv with sclLow := false } := b4.drv
    have eb : t4.cfg.backend = .bb := by rw [b4.cfg]; exact hb
    simp only [Driver.drivesSda] at hd
    simp [State.sdaLine, State.coreSdaLow, eb, e, hd]
  · have e : t7.drv = _ := b7.drv
    have r := (plain_write fun d => { d with bitcnt := d.bitcnt - 1 }).between c
    rw [e] at r
    exact b7.trans r

/-- The driver after a transfer's bit cycles, `bits` sampled (rule R142). -/
def Driver.shifted (d : Driver) (bits : List Bool) : Driver :=
  { d with
    sr := bits.foldl (fun v b => v.shiftConcat b) d.sr
    latch := (bits.foldl (fun v b => v.shiftConcat b) d.sr).msb
    sclLow := true
    bitcnt := 0
    tc := true }

theorem transferLoop_ends (n : Nat) {s : State} (hb : s.cfg.backend = .bb) (hn : s.drv.bitcnt.toNat = n + 1)
    (htc : s.drv.tc = false) :
    Ends (transferLoop (n + 1)) s fun _ t => ∃ bits, bits.length = n + 1 ∧ Wrote s (s.drv.shifted bits) t := by
  induction n generalizing s with
  | zero =>
    unfold transferLoop
    refine Ends.thenPeek ?_
    simp only [htc, Bool.false_eq_true, if_false]
    refine Ends.bind ((bitCycle_ends hb).mono fun _ t ⟨b, _, w⟩ => ⟨w.later, ?_⟩)
    refine Ends.thenWrite checkComplete_write w fun u w' => ?_
    unfold transferLoop
    refine Ends.pure ⟨[b], rfl, ?_⟩
    have hz : (s.drv.cycled b).bitcnt = 0 := by
      simp only [Driver.cycled]
      apply BitVec.eq_of_toNat_eq
      simp [BitVec.toNat_sub, hn]
    simp only [hz, if_true] at w'
    simpa [Driver.shifted, Driver.cycled, hz] using w'
  | succ n ih =>
    rw [transferLoop]
    refine Ends.thenPeek ?_
    simp only [htc, Bool.false_eq_true, if_false]
    refine Ends.bind ((bitCycle_ends hb).mono fun _ t ⟨b, _, w⟩ => ⟨w.later, ?_⟩)
    refine Ends.thenWrite checkComplete_write w fun u w' => ?_
    have hlt := s.drv.bitcnt.isLt
    have hc : (s.drv.cycled b).bitcnt.toNat = n + 1 := by
      have h1 : (1 : BitVec 4).toNat = 1 := rfl
      simp only [Driver.cycled, BitVec.toNat_sub, hn, h1]
      omega
    have hz : ¬ (s.drv.cycled b).bitcnt = 0 := by
      intro e
      rw [e] at hc
      simp at hc
    simp only [hz, if_false] at w'
    have e : u.drv = s.drv.cycled b := w'.drv
    have eb : u.cfg.backend = .bb := by rw [w'.cfg]; exact hb
    refine (ih eb (by rw [e]; exact hc) (by rw [e]; simpa [Driver.cycled] using htc)).mono fun _ v ⟨bits, hl, w''⟩ => ?_
    refine ⟨b :: bits, by simp [hl], w'.trans ?_⟩
    rw [e] at w''
    simpa [Driver.shifted, Driver.cycled] using w''

/-- Everything `transfer` can do, for a legal control word (rule R142): it returns the old low bits shifted up with the
`N` samples below them, and releases SDA. -/
theorem transfer_ends {cw : Byte} {s : State} (hb : s.cfg.backend = .bb) (hc : controlWordOk cw = true) :
    Ends (transfer cw) s fun r t =>
      (∃ bits : List Bool, bits.length = (controlBits cw).toNat ∧
        r = bits.foldl (fun v b => v.shiftConcat b) s.drv.sr) ∧ Wrote s s.drv.afterTransfer t := by
  have hn : 1 ≤ (controlBits cw).toNat := by
    simp [controlWordOk] at hc
    exact hc.1.1
  obtain ⟨n, hn⟩ : ∃ n, (controlBits cw).toNat = n + 1 := ⟨(controlBits cw).toNat - 1, by omega⟩
  unfold transfer
  refine Ends.thenPeek (Ends.thenWrite (plain_write fun d => { d with bitcnt := controlBits cw }) (Wrote.refl s)
    fun t1 b1 => ?_)
  refine Ends.thenWrite (plain_write fun d => { d with tc := false }) b1 fun t2 b2 => ?_
  rw [hn]
  have e2 : t2.drv = { s.drv with bitcnt := controlBits cw, tc := false } := b2.drv
  refine Ends.bind ((transferLoop_ends n (by rw [b2.cfg]; exact hb) (by rw [e2]; exact hn) (by rw [e2])).mono
    fun _ t3 ⟨bits, hl, w⟩ => ⟨w.later, ?_⟩)
  have b3 : Wrote s _ t3 := b2.trans w
  refine Ends.thenDelay b3 fun t4 b4 => ?_
  refine Ends.thenRead b4 fun t5 b5 => ?_
  refine Ends.thenWrite (setSr_write 0xFF#8) b5 fun t6 b6 => ?_
  refine Ends.thenWrite (setDirOut_write true) b6 fun t7 b7 => ?_
  refine Ends.pure ⟨⟨bits, hl, ?_⟩, ?_⟩
  · have e5 : t5.drv = _ := b5.drv
    rw [e5, e2]
    rfl
  · rw [e2] at b7
    exact b7

/-- Everything `configure()` can do (rule R137). It does not wait. -/
theorem configureBody_ends (s : State) : Ends configureBody s fun _ t => Wrote s Driver.configured t := by
  unfold configureBody
  refine Ends.thenWrite releaseScl_write (Wrote.refl s) fun t1 b1 => ?_
  refine Ends.thenWrite (setSr_write 0xFF#8) b1 fun t2 b2 => ?_
  refine Ends.thenWrite (setLatch_write true) b2 fun t3 b3 => ?_
  refine Ends.thenWrite (setSdaForce_write false) b3 fun t4 b4 => ?_
  refine Ends.thenWrite (setDirOut_write true) b4 fun t5 b5 => ?_
  refine Ends.thenWrite (plain_write fun d => { d with tc := false }) b5 fun t6 b6 => ?_
  refine Ends.thenWrite (plain_write fun d => { d with bitcnt := 0 }) b6 fun t7 b7 => ?_
  refine Ends.line fun t8 c => ?_
  have e : t7.drv = _ := b7.drv
  have r := (plain_write fun d => { d with bbCfg := true }).between c
  rw [e] at r
  exact b7.trans r

/-- Everything `start()` can do (rule R138). -/
theorem startBody_ends {s : State} (hb : s.cfg.backend = .bb) :
    Ends startBody s fun _ t =>
      Wrote s { s.drv with sclLow := true, latch := s.drv.sr.msb, sdaForce := false } t := by
  unfold startBody
  refine Ends.thenPeek (Ends.thenWrite releaseScl_write (Wrote.refl s) fun t1 b1 => ?_)
  refine Ends.thenWait b1 hb rfl fun t2 b2 _ => ?_
  refine Ends.thenDelay b2 fun t3 b3 => ?_
  refine Ends.thenWrite (setSdaForce_write true) b3 fun t4 b4 => ?_
  refine Ends.thenDelay b4 fun t5 b5 => ?_
  refine Ends.thenWrite pullScl_write b5 fun t6 b6 => ?_
  refine Ends.line fun t7 c => ?_
  have e : t6.drv = _ := b6.drv
  have r := (setSdaForce_write false).between c
  rw [e] at r
  exact b6.trans r

/-- Everything `stop()` can do (rule R139). -/
theorem stopBody_ends {s : State} (hb : s.cfg.backend = .bb) :
    Ends stopBody s fun _ t => Wrote s { s.drv with sclLow := false, sdaForce := false } t := by
  unfold stopBody
  refine Ends.thenPeek (Ends.thenWrite (setSdaForce_write true) (Wrote.refl s) fun t1 b1 => ?_)
  refine Ends.thenWrite releaseScl_write b1 fun t2 b2 => ?_
  refine Ends.thenWait b2 hb rfl fun t3 b3 _ => ?_
  refine Ends.thenDelay b3 fun t4 b4 => ?_
  refine Ends.thenWrite (setSdaForce_write false) b4 fun t5 b5 => ?_
  refine Ends.delay fun t6 c => ?_
  have e : t5.drv = { s.drv with sclLow := false, sdaForce := false } := b5.drv
  refine b5.trans (?_ : Wrote t5 _ t6)
  rw [← e]
  exact c

/-- The named control words are legal (30_encoding.md rule R104). -/
theorem controlWordOk_named : controlWordOk cw8Bit = true ∧ controlWordOk cw1Bit = true := by decide

/-- Everything `putByte(data)` can do (rule R140): 1 for an acknowledge bit 0, 0 for 1. -/
theorem putByteBody_ends (data : Byte) {s : State} (hb : s.cfg.backend = .bb) :
    Ends (putByteBody data) s fun r t => (r = 0#8 ∨ r = 1#8) ∧ Wrote s s.drv.afterTransfer t := by
  unfold putByteBody
  refine Ends.thenWrite pullScl_write (Wrote.refl s) fun t1 b1 => ?_
  refine Ends.thenWrite (setDirOut_write true) b1 fun t2 b2 => ?_
  refine Ends.thenWrite (setSr_write data) b2 fun t3 b3 => ?_
  refine Ends.bind ((transfer_ends (by rw [b3.cfg]; exact hb) controlWordOk_named.1).mono
    fun _ t4 ⟨_, w⟩ => ⟨w.later, ?_⟩)
  have b4 : Wrote s _ t4 := b3.trans w
  refine Ends.thenWrite (setDirOut_write false) b4 fun t5 b5 => ?_
  refine Ends.bind ((transfer_ends (by rw [b5.cfg]; exact hb) controlWordOk_named.2).mono
    fun r t6 ⟨_, w'⟩ => ⟨w'.later, Ends.pure ⟨?_, ?_⟩⟩)
  · simp only [ackResult]
    split <;> simp
  · have e3 : t3.drv = _ := b3.drv
    have e5 : t5.drv = _ := b5.drv
    have b6 : Wrote s _ t6 := b5.trans w'
    rw [e5, e3] at b6
    exact b6

/-- Everything `getByte(last)` can do (rule R141): the byte is the eight samples, the first in bit 7. -/
theorem getByteBody_ends (last : Bool) {s : State} (hb : s.cfg.backend = .bb) :
    Ends (getByteBody last) s fun r t =>
      (∃ bits : List Bool, bits.length = 8 ∧ r = bits.foldl (fun v b => v.shiftConcat b) s.drv.sr) ∧
        Wrote s s.drv.afterTransfer t := by
  unfold getByteBody
  refine Ends.thenWrite (setDirOut_write false) (Wrote.refl s) fun t1 b1 => ?_
  refine Ends.bind ((transfer_ends (by rw [b1.cfg]; exact hb) controlWordOk_named.1).mono
    fun r t2 ⟨⟨bits, hl, hr⟩, w⟩ => ⟨w.later, ?_⟩)
  have e1 : t1.drv = _ := b1.drv
  have b2 : Wrote s _ t2 := b1.trans w
  refine Ends.thenWrite (setSr_write (ackLevel last)) b2 fun t3 b3 => ?_
  refine Ends.bind ((transfer_ends (by rw [b3.cfg]; exact hb) controlWordOk_named.2).mono
    fun _ t4 ⟨_, w'⟩ => ⟨w'.later, Ends.pure ⟨⟨bits, ?_, ?_⟩, ?_⟩⟩)
  · rw [hl]
    decide
  · rw [hr, e1]
  · have e3 : t3.drv = _ := b3.drv
    have b4 : Wrote s _ t4 := b3.trans w'
    rw [e3, e1] at b4
    exact b4

end Sys2Proof.Machine
end

