-- ==== Sys2Proof/Laws/Decode.lean ====
section
/-! SUPPORT. The fields of a command word and the word of three fields are inverse to each other; what the decoder does
with a word given by its fields; a decoded word is the encoding of what it decodes to. -/

namespace Sys2Proof

/-- The three fields of a word of three fields. -/
theorem fields_commandWord (op a b : Byte) :
    opField (commandWord op a b) = op ∧ aField (commandWord op a b) = a ∧ bField (commandWord op a b) = b := by
  refine ⟨?_, ?_, ?_⟩ <;>
  · apply BitVec.eq_of_getLsbD_eq
    intro i hi
    have h1 : ¬ 16 + i < 8 := by omega
    have h2 : ¬ 16 + i - 8 < 8 := by omega
    have h3 : ¬ 8 + i < 8 := by omega
    have h4 : 16 + i - 8 - 8 = i := by omega
    simp only [commandWord, opField, aField, bField, BitVec.getLsbD_append, BitVec.getLsbD_extractLsb', hi, h1, h2, h3,
      h4, decide_true, Bool.true_and, if_true, if_false, Nat.zero_add, Nat.add_sub_cancel_left]

@[simp] theorem opField_commandWord (op a b : Byte) : opField (commandWord op a b) = op := (fields_commandWord op a b).1

@[simp] theorem aField_commandWord (op a b : Byte) : aField (commandWord op a b) = a := (fields_commandWord op a b).2.1

@[simp] theorem bField_commandWord (op a b : Byte) : bField (commandWord op a b) = b := (fields_commandWord op a b).2.2

/-- A word is the word of its three fields. -/
theorem commandWord_fields (w : CmdWord) : commandWord (opField w) (aField w) (bField w) = w := by
  apply BitVec.eq_of_getLsbD_eq
  intro i hi
  simp only [commandWord, opField, aField, bField, BitVec.getLsbD_append, BitVec.getLsbD_extractLsb']
  by_cases h1 : i < 8
  · simp [h1]
  · by_cases h2 : i < 16
    · have h3 : i - 8 < 8 := by omega
      have h4 : 8 + (i - 8) = i := by omega
      simp [h1, h3, h4]
    · have h3 : ¬ i - 8 < 8 := by omega
      have h4 : i - 8 - 8 < 8 := by omega
      have h5 : 16 + (i - 8 - 8) = i := by omega
      simp [h1, h3, h4, h5]

/-- An operand byte whose bits 7:1 are zero is its bit 0. -/
theorem flagByte_bit0 (a : Byte) (h : a &&& 0xFE#8 = 0#8) : flagByte (a.getLsbD 0) = a := by
  revert a; decide

theorem flagByte_bit (f : Bool) : (flagByte f)[0] = f := by cases f <;> rfl

theorem flagByte_top (f : Bool) : flagByte f &&& 0xFE#8 = 0#8 := by cases f <;> rfl

@[simp] theorem bit_modeOfBit (b : Bool) : (modeOfBit b).bit = b := by cases b <;> rfl

@[simp] theorem modeOfBit_bit (m : Mode) : modeOfBit m.bit = m := by cases m <;> rfl

@[simp] theorem checkReserved_ok {reserved : Bool} {i j : Instr} :
    checkReserved reserved i = .ok j ↔ reserved = false ∧ i = j := by
  cases reserved <;> simp [checkReserved]

@[simp] theorem checkReserved_error {reserved : Bool} {i : Instr} {r : RefuseReason} :
    checkReserved reserved i = .error r ↔ reserved = true ∧ r = .reservedField := by
  cases reserved <;> simp [checkReserved, eq_comm]

/-- What a word decodes to is encoded by that word. -/
theorem encode_of_decodeCommand (w : CmdWord) (i : Instr) (h : decodeCommand w = .ok i) : encode i = .command w := by
  rw [← commandWord_fields w]
  generalize hop : opField w = op
  generalize ha : aField w = a
  generalize hb : bField w = b
  simp only [decodeCommand, hop, ha, hb] at h
  split at h
  case h_13 => simp at h
  all_goals
    obtain ⟨hr, rfl⟩ := checkReserved_ok.mp h
    simp only [Bool.or_eq_false_iff, bne_eq_false_iff_eq] at hr
    simp only [encode, bit_modeOfBit]
    first
      | rfl
      | (rw [hr.1, hr.2]; rfl)
      | (rw [flagByte_bit0 a hr.1, hr.2]; rfl)
      | (rw [flagByte_bit0 a hr]; rfl)
      | (rw [hr]; rfl)

@[simp] theorem Cursor.ofBits_bits (c : Cursor) : Cursor.ofBits c.bits = c := by cases c <;> rfl

@[simp] theorem Cursor.bits_ofBits (c : BitVec 2) : (Cursor.ofBits c).bits = c := by revert c; decide

/-- What a byte decodes to at a cursor is encoded by that byte at that cursor. -/
theorem encode_decodeReceived (c : Cursor) (b : Byte) : encode (decodeReceived c b) = .received c b := by
  cases c <;> rfl

end Sys2Proof
end

