-- ==== Sys2Proof/Laws/Session.lean ====
section
/-! SUPPORT. What the session's operations leave alone whatever the other agents do meanwhile (41_engine_status.md
rules R190 to R199, 42_session.md): the relation `SessionRan`, and that every body of the session ends in it. -/

namespace Sys2Proof.Machine

/-- The driver between operations once it is configured (40_bus_driver.md rule R147). -/
abbrev Driver.Rest (d : Driver) : Prop :=
  d.sr = 0xFF#8 ∧ d.latch = true ∧ d.sdaForce = false ∧ d.bitcnt = 0 ∧ d.dirOut = true ∧ d.bbCfg = true

/-- What a part of a session operation keeps. -/
structure SessionRan (s t : State) : Prop where
  later : Later s t
  frm : t.frm = s.frm
  clkdiv : t.ses.clkdiv = s.ses.clkdiv
  opt : t.ses.opt = s.ses.opt
  respCode : t.port.respCode = s.port.respCode
  respFlags : t.port.respFlags = s.port.respFlags
  refusal : t.port.refusal = s.port.refusal
  hw : s.cfg.backend = .hw → t.drv = s.drv ∧ t.bus.ltrace = s.bus.ltrace
  bb : s.cfg.backend = .bb →
    t.eng.int = s.eng.int ∧ t.eng.ecmd = s.eng.ecmd ∧ t.eng.pendStop = s.eng.pendStop ∧
      t.ses.waitcnt = s.ses.waitcnt ∧ t.bus.trace = s.bus.trace
  bbPhase : s.cfg.backend = .bb → s.eng.phase ≠ .unknown → t.eng.phase ≠ .unknown
  bbRest : s.cfg.backend = .bb → s.drv.Rest → t.drv.Rest
  unknown : s.eng.phase = .unknown → t.eng.phase = .unknown
  wait : s.ses.waitcnt ≤ s.cfg.waitBudget → t.ses.waitcnt ≤ s.cfg.waitBudget

theorem SessionRan.refl (s : State) : SessionRan s s :=
  ⟨Later.refl s, rfl, rfl, rfl, rfl, rfl, rfl, fun _ => ⟨rfl, rfl⟩, fun _ => ⟨rfl, rfl, rfl, rfl, rfl⟩,
    fun _ h => h, fun _ h => h, fun h => h, fun h => h⟩

theorem SessionRan.trans {s t u : State} (h : SessionRan s t) (k : SessionRan t u) : SessionRan s u where
  later := h.later.trans k.later
  frm := k.frm.trans h.frm
  clkdiv := k.clkdiv.trans h.clkdiv
  opt := k.opt.trans h.opt
  respCode := k.respCode.trans h.respCode
  respFlags := k.respFlags.trans h.respFlags
  refusal := k.refusal.trans h.refusal
  hw b :=
    have k' := k.hw (h.later.cfg ▸ b)
    have h' := h.hw b
    ⟨k'.1.trans h'.1, k'.2.trans h'.2⟩
  bb b :=
    have ⟨k1, k2, k3, k4, k5⟩ := k.bb (h.later.cfg ▸ b)
    have ⟨h1, h2, h3, h4, h5⟩ := h.bb b
    ⟨k1.trans h1, k2.trans h2, k3.trans h3, k4.trans h4, k5.trans h5⟩
  bbPhase b p := k.bbPhase (h.later.cfg ▸ b) (h.bbPhase b p)
  bbRest b p := k.bbRest (h.later.cfg ▸ b) (h.bbRest b p)
  unknown p := k.unknown (h.unknown p)
  wait p := by
    have := k.wait (by rw [h.later.cfg]; exact h.wait p)
    rwa [h.later.cfg] at this

theorem Between.ran {s t : State} (h : Between s t) : SessionRan s t where
  later := h.later
  frm := h.frm
  clkdiv := by rw [h.ses]
  opt := by rw [h.ses]
  respCode := h.respCode
  respFlags := h.respFlags
  refusal := h.refusal
  hw b := ⟨h.drv, h.ltraceOfHw b⟩
  bb b := by
    have e := h.engOfBb b
    rw [e.1, h.ses]
    exact ⟨rfl, rfl, rfl, rfl, e.2⟩
  bbPhase b p := by rw [(h.engOfBb b).1]; exact p
  bbRest _ p := by rw [h.drv]; exact p
  unknown p := h.phaseUnknown.mpr p
  wait p := by rw [h.ses]; exact p

/-- A part of the driver's work, with `BACKEND = BB`. -/
theorem Wrote.ran {s t : State} {d : Driver} (h : Wrote s d t) (hb : s.cfg.backend = .bb)
    (r : s.drv.Rest → d.Rest) : SessionRan s t where
  later := h.later
  frm := h.frm
  clkdiv := by rw [h.ses]
  opt := by rw [h.ses]
  respCode := h.respCode
  respFlags := h.respFlags
  refusal := h.refusal
  hw b := by simp [hb] at b
  bb b := by
    have e := h.engOfBb b
    rw [e.1, h.ses]
    exact ⟨rfl, rfl, rfl, rfl, e.2⟩
  bbPhase b p := by rw [(h.engOfBb b).1]; exact p
  bbRest _ p := by rw [h.drv]; exact r p
  unknown p := h.phaseUnknown.mpr p
  wait p := by rw [h.ses]; exact p

/-- A write of the session's or the engine's registers with `BACKEND = HW`. -/
theorem ran_of_hw_write {s t : State} (hb : s.cfg.backend = .hw) (hl : Later s t) (hd : t.drv = s.drv)
    (hf : t.frm = s.frm) (hp : t.port = s.port) (hbus : t.bus.ltrace = s.bus.ltrace)
    (hs : t.ses.clkdiv = s.ses.clkdiv ∧ t.ses.opt = s.ses.opt)
    (hu : s.eng.phase = .unknown → t.eng.phase = .unknown)
    (hw : s.ses.waitcnt ≤ s.cfg.waitBudget → t.ses.waitcnt ≤ s.cfg.waitBudget) : SessionRan s t :=
  { later := hl, frm := hf, clkdiv := hs.1, opt := hs.2, respCode := by rw [hp], respFlags := by rw [hp],
    refusal := by rw [hp], hw := fun _ => ⟨hd, hbus⟩, bb := fun b => by simp [hb] at b,
    bbPhase := fun b => by simp [hb] at b, bbRest := fun b => by simp [hb] at b, unknown := hu, wait := hw }

/-- A write of registers only, at one point. -/
theorem later_of_registers {s t : State} (hc : t.cfg = s.cfg) (hp : t.port = s.port) (hb : t.bus = s.bus)
    (hi : t.inputs = s.inputs) : Later s t :=
  ⟨hc, by rw [hp], by rw [hi], by rw [hi, hb], by rw [hb], by rw [hb], .of_port hp⟩

section
variable {α : Type} {s u : State} {Q : α → State → Prop}

/-- One part of a session operation, then the rest. -/
theorem Ends.thenRan {β : Type} {x : Op β} {k : β → Op α} (b : SessionRan s u)
    (hx : Ends x u fun _ t => SessionRan u t) (h : ∀ a t, SessionRan s t → Ends (k a) t Q) :
    Ends (x >>= k) u Q :=
  Ends.bind (hx.mono fun a t r => ⟨r.later, h a t (b.trans r)⟩)

theorem Ends.ranLine {f : State → State} (w : ∀ t, Between s t → SessionRan t (f t)) :
    Ends (Machine.line f) s fun _ t => SessionRan s t :=
  Ends.line fun t b => b.ran.trans (w t b)

end

/-- The mark that the operation has issued a STOP, with a write of the engine's registers. -/
theorem stopIssued_later (b : Bool) (e : Engine) {s : State} : Later s { s with port.stopIssued := b, eng := e } :=
  ⟨rfl, rfl, List.suffix_refl _, rfl, List.prefix_refl _, List.prefix_refl _,
    ⟨rfl, id, fun _ => ⟨rfl, rfl⟩, fun e => ⟨e, rfl⟩, fun _ => rfl⟩⟩

theorem stopIssued_ran (b : Bool) {s : State} : SessionRan s { s with port.stopIssued := b } :=
  { SessionRan.refl s with later := stopIssued_later b s.eng }

/-- `EngineIssue` (41_engine_status.md rule R171). -/
theorem noteInFlight_ran {s : State} (hb : s.cfg.backend = .hw) : SessionRan s s.noteInFlight := by
  refine ran_of_hw_write hb (later_of_registers ?_ ?_ ?_ ?_) ?_ ?_ ?_ ?_ ⟨?_, ?_⟩ ?_ ?_ <;> try simp
  simp only [State.noteInFlight]
  split <;> simp

theorem timeOut_ran {s : State} (hb : s.cfg.backend = .hw) : SessionRan s s.timeOut := by
  refine ran_of_hw_write hb (later_of_registers ?_ ?_ ?_ ?_) ?_ ?_ ?_ ?_ ⟨?_, ?_⟩ ?_ ?_ <;> try simp
  simp only [State.timeOut]
  split <;> simp

theorem engine_write_ran {s : State} (hb : s.cfg.backend = .hw) (f : Engine → Engine)
    (hf : (f s.eng).phase = s.eng.phase) : SessionRan s { s with eng := f s.eng } := by
  refine ran_of_hw_write hb (later_of_registers ?_ ?_ ?_ ?_) ?_ ?_ ?_ ?_ ⟨?_, ?_⟩ ?_ ?_ <;> try simp
  rw [hf]
  exact fun h => h

theorem waitcnt_write_ran {s : State} (hb : s.cfg.backend = .hw) (n : Nat) (hn : n ≤ s.cfg.waitBudget) :
    SessionRan s { s with ses.waitcnt := n } := by
  refine ran_of_hw_write hb (later_of_registers ?_ ?_ ?_ ?_) ?_ ?_ ?_ ?_ ⟨?_, ?_⟩ ?_ ?_ <;> try simp
  exact fun _ => hn

theorem engineIssue_ran (cmd : EngineCmd) {s : State} (hb : s.cfg.backend = .hw) :
    Ends (engineIssue cmd) s fun _ t => SessionRan s t := by
  unfold engineIssue
  refine Ends.thenRan (SessionRan.refl s) (Ends.ranLine fun t b => noteInFlight_ran (by rw [b.cfg]; exact hb))
    fun _ t1 r1 => ?_
  refine Ends.thenRan r1 (Ends.ranLine fun t b => ?_) fun _ t2 r2 => ?_
  · exact engine_write_ran (by rw [b.cfg, r1.later.cfg]; exact hb) (fun e => { e with int := false }) rfl
  · refine (Ends.ranLine fun t b => ?_).mono fun _ t r => r2.trans r
    exact engine_write_ran (by rw [b.cfg, r2.later.cfg]; exact hb) (fun e => { e with ecmd := some cmd }) rfl

theorem pollInt_ran (n : Nat) {s : State} (hb : s.cfg.backend = .hw) :
    Ends (pollInt n) s fun _ t => SessionRan s t := by
  induction n generalizing s with
  | zero => exact Ends.pure (SessionRan.refl s)
  | succ n ih =>
    unfold pollInt
    refine Ends.bind (Ends.readLine fun t b => ⟨b.later, ?_⟩)
    simp only [id]
    split
    · rename_i h
      have hb' : t.cfg.backend = .hw := by rw [b.cfg]; exact hb
      have w := waitcnt_write_ran hb' (t.ses.waitcnt + 1) h.2
      refine Ends.bind (Ends.modify ⟨w.later, ?_⟩)
      exact (ih (by rw [w.later.cfg]; exact hb')).mono fun _ v r => (b.ran.trans w).trans r
    · exact Ends.pure b.ran

theorem engineDoHw_ran (cmd : EngineCmd) {s : State} (hb : s.cfg.backend = .hw) :
    Ends (engineDoHw cmd) s fun _ t => SessionRan s t := by
  unfold engineDoHw
  refine Ends.thenRan (SessionRan.refl s) (engineIssue_ran cmd hb) fun _ t1 r1 => ?_
  have hb1 : t1.cfg.backend = .hw := by rw [r1.later.cfg]; exact hb
  refine Ends.thenRan r1 (Ends.ranLine fun t b => waitcnt_write_ran (by rw [b.cfg]; exact hb1) 0 (Nat.zero_le _))
    fun _ t2 r2 => ?_
  have hb2 : t2.cfg.backend = .hw := by rw [r2.later.cfg]; exact hb
  refine Ends.thenPeek ?_
  refine Ends.thenRan r2 (pollInt_ran _ hb2) fun _ t3 r3 => ?_
  have hb3 : t3.cfg.backend = .hw := by rw [r3.later.cfg]; exact hb
  refine Ends.bind (Ends.readLine fun t4 b4 => ⟨b4.later, ?_⟩)
  have r4 := r3.trans b4.ran
  simp only [id]
  split
  · exact Ends.pure r4
  · refine Ends.thenRan r4 (Ends.ranLine fun t b => timeOut_ran ?_) fun _ t5 r5 => Ends.pure r5
    rw [b.cfg, r4.later.cfg]
    exact hb

/-- The encoder at a line of the adapter (rules R180, R196 to R199). -/
theorem encode_ran {e : BusEvent} {s : State} (hb : s.cfg.backend = .bb)
    (ht : s.eng.phase ≠ .unknown → ∃ c p, encoderTable s.cfg.codes s.eng.phase e = some (c, p) ∧ p ≠ .unknown) :
    SessionRan s (s.encodeStatus e) where
  later := later_of_registers (by simp) (by simp) (by simp) (by simp)
  frm := by simp
  clkdiv := by simp
  opt := by simp
  respCode := by simp
  respFlags := by simp
  refusal := by simp
  hw b := by simp [hb] at b
  bb _ := by simp
  bbPhase _ p := by
    obtain ⟨c, q, h, hq⟩ := ht p
    rw [encodeStatus_of_table s h]
    exact hq
  bbRest _ p := by simpa using p
  unknown p := encodeStatus_unknown s e p
  wait p := by simpa using p

theorem table_start (c : Codes) (p : Phase) (h : p ≠ .unknown) :
    ∃ x q, encoderTable c p .start = some (x, q) ∧ q ≠ .unknown := by
  cases p <;> simp_all [encoderTable]

theorem table_stop (c : Codes) (p : Phase) (h : p ≠ .unknown) :
    ∃ x q, encoderTable c p .stop = some (x, q) ∧ q ≠ .unknown := by
  cases p <;> simp_all [encoderTable]

theorem table_tx (c : Codes) (p : Phase) (v : Byte) (n : Bool) (h : p ≠ .unknown) (hi : p ≠ .idle) :
    ∃ x q, encoderTable c p (.tx v n) = some (x, q) ∧ q ≠ .unknown := by
  cases p <;> simp_all [encoderTable, addressPhase]
  split <;> simp

theorem table_rx (c : Codes) (p : Phase) (n : Bool) (h : p ≠ .unknown) (hi : p ≠ .idle) :
    ∃ x q, encoderTable c p (.rx n) = some (x, q) ∧ q ≠ .unknown := by
  cases p <;> simp_all [encoderTable]

theorem rest_afterTransfer {d : Driver} (h : d.Rest) : d.afterTransfer.Rest := by
  simp_all [Driver.Rest, Driver.afterTransfer]

theorem adapterStart_ran {s : State} (hb : s.cfg.backend = .bb) : Ends adapterStart s fun _ t => SessionRan s t := by
  unfold adapterStart
  refine Ends.thenRan (SessionRan.refl s) ((startBody_ends hb).mono fun _ t w => w.ran hb ?_) fun _ t r => ?_
  · rintro ⟨h1, h2, h3, h4, h5, h6⟩
    exact ⟨h1, by rw [h1]; rfl, rfl, h4, h5, h6⟩
  · refine (Ends.ranLine fun t b => encode_ran (by rw [b.cfg, r.later.cfg]; exact hb) fun p => table_start _ _ p).mono
      fun _ v w => r.trans w

theorem adapterStop_ran {s : State} (hb : s.cfg.backend = .bb) : Ends adapterStop s fun _ t => SessionRan s t := by
  unfold adapterStop
  refine Ends.thenRan (SessionRan.refl s) ((stopBody_ends hb).mono fun _ t w => w.ran hb ?_) fun _ t r => ?_
  · rintro ⟨h1, h2, h3, h4, h5, h6⟩
    simp_all [Driver.Rest]
  · refine (Ends.ranLine fun t b => encode_ran (by rw [b.cfg, r.later.cfg]; exact hb) fun p => table_stop _ _ p).mono
      fun _ v w => r.trans w

theorem data_write_ran {s : State} (v : Byte) : SessionRan s { s with eng.data := v } where
  later := later_of_registers rfl rfl rfl rfl
  frm := rfl
  clkdiv := rfl
  opt := rfl
  respCode := rfl
  respFlags := rfl
  refusal := rfl
  hw _ := ⟨rfl, rfl⟩
  bb _ := ⟨rfl, rfl, rfl, rfl, rfl⟩
  bbPhase _ h := h
  bbRest _ h := h
  unknown h := h
  wait h := h

theorem idleXfer_ran {s : State} (hb : s.cfg.backend = .bb) (hi : s.eng.phase = .idle) :
    Ends (Machine.line (State.encodeStatus .idleXfer)) s fun _ t => SessionRan s t :=
  Ends.ranLine fun t b => encode_ran (by rw [b.cfg]; exact hb) fun _ => by
    rw [(b.engOfBb hb).1, hi]
    exact ⟨_, _, rfl, by simp⟩

theorem adapterTx_ran {s : State} (hb : s.cfg.backend = .bb) : Ends adapterTx s fun _ t => SessionRan s t := by
  unfold adapterTx
  refine Ends.thenPeek ?_
  split
  · exact idleXfer_ran hb ‹_›
  · rename_i hi
    refine Ends.bind ((putByteBody_ends _ hb).mono fun a t ⟨_, w⟩ => ⟨w.later, ?_⟩)
    have r := w.ran hb rest_afterTransfer
    have e : t.eng = s.eng := (w.engOfBb hb).1
    refine (Ends.ranLine fun u b => encode_ran (by rw [b.cfg, w.cfg]; exact hb) fun p => table_tx _ _ _ _ p ?_).mono
      fun _ v r' => r.trans r'
    have e' : u.eng = t.eng := (b.engOfBb (by rw [w.cfg]; exact hb)).1
    rw [e', e]
    exact hi

theorem adapterRx_ran (m : Bool) {s : State} (hb : s.cfg.backend = .bb) :
    Ends (adapterRx m) s fun _ t => SessionRan s t := by
  unfold adapterRx
  refine Ends.thenPeek ?_
  split
  · exact idleXfer_ran hb ‹_›
  · rename_i hi
    refine Ends.bind ((getByteBody_ends m hb).mono fun a t ⟨_, w⟩ => ⟨w.later, ?_⟩)
    have r := w.ran hb rest_afterTransfer
    have e : t.eng = s.eng := (w.engOfBb hb).1
    have hbt : t.cfg.backend = .bb := by rw [w.cfg]; exact hb
    refine Ends.bind (Ends.line fun u b => ?_)
    have e' : u.eng = t.eng := (b.engOfBb hbt).1
    have q := data_write_ran (s := u) a
    refine ⟨(b.ran.trans q).later, ?_⟩
    have r2 := (r.trans b.ran).trans q
    refine (Ends.ranLine fun v c => encode_ran (by rw [c.cfg]; show u.cfg.backend = _; rw [b.cfg]; exact hbt)
      fun p => table_rx _ _ _ p ?_).mono fun _ v r' => r2.trans r'
    have hbu : u.cfg.backend = .bb := by rw [b.cfg]; exact hbt
    have e'' : v.eng = ({ u with eng.data := a } : State).eng := (c.engOfBb hbu).1
    rw [e'']
    show u.eng.phase ≠ .idle
    rw [e', e]
    exact hi

theorem adapterOp_ran (cmd : EngineCmd) {s : State} (hb : s.cfg.backend = .bb) :
    Ends (adapterOp cmd) s fun _ t => SessionRan s t := by
  cases cmd
  · exact adapterStart_ran hb
  · exact adapterTx_ran hb
  · exact adapterRx_ran false hb
  · exact adapterRx_ran true hb

/-- `EngineDo(cmd)` on either back end (rules R190, R191). -/
theorem engineDo_ran (cmd : EngineCmd) (s : State) : Ends (engineDo cmd) s fun _ t => SessionRan s t := by
  unfold engineDo
  refine Ends.thenPeek ?_
  split
  · exact engineDoHw_ran cmd ‹_›
  · rename_i hb
    refine Ends.thenRan (SessionRan.refl s) (adapterOp_ran cmd hb) fun _ t r => ?_
    exact Ends.readLine fun u b => r.trans b.ran

/-- `EngineStop()` on either back end (rule R194). -/
theorem engineStop_ran (s : State) : Ends engineStop s fun _ t => SessionRan s t := by
  unfold engineStop
  refine Ends.thenPeek ?_
  split
  · rename_i hb
    unfold engineIssueStop
    refine Ends.thenRan (SessionRan.refl s) (Ends.ranLine fun t b => noteInFlight_ran (by rw [b.cfg]; exact hb))
      fun _ t r => ?_
    refine (Ends.ranLine fun u b => ?_).mono fun _ v w => r.trans w
    exact (engine_write_ran (by rw [b.cfg, r.later.cfg]; exact hb) (fun e => { e with pendStop := true }) rfl).trans
      (stopIssued_ran true)
  · exact adapterStop_ran ‹_›

/-- `SES_WRITE` (42_session.md rule R214): unconfigured it does nothing and returns 0. -/
theorem writeSession_ran (data : Byte) (s : State) :
    Ends (writeSession data) s fun a t => SessionRan s t ∧ (s.ses.clkdiv = 0#8 → a = 0#8 ∧ t = s) := by
  unfold writeSession
  refine Ends.thenPeek ?_
  split
  · exact Ends.pure ⟨SessionRan.refl s, fun _ => ⟨rfl, rfl⟩⟩
  · rename_i h
    refine Ends.thenRan (SessionRan.refl s) (Ends.ranLine fun t _ => data_write_ran data) fun _ t r => ?_
    refine Ends.thenRan r (engineDo_ran _ t) fun _ u r' => Ends.pure ⟨r', fun e => absurd e h⟩

/-- `SES_START` (rule R212). -/
theorem startSession_ran (address : Byte) (mode : Mode) (s : State) :
    Ends (startSession address mode) s fun a t => SessionRan s t ∧ (s.ses.clkdiv = 0#8 → a = 0#8 ∧ t = s) := by
  unfold startSession
  refine Ends.thenPeek ?_
  split
  · exact Ends.pure ⟨SessionRan.refl s, fun _ => ⟨rfl, rfl⟩⟩
  · rename_i h
    refine Ends.thenRan (SessionRan.refl s) (engineDo_ran _ s) fun _ t r => ?_
    split
    · refine Ends.thenRan r ((writeSession_ran _ t).mono fun _ _ x => x.1) fun _ u r' => Ends.pure ⟨r', fun e => absurd e h⟩
    · exact Ends.pure ⟨r, fun e => absurd e h⟩

/-- `SES_READ_ACK`, `SES_READ_NACK` (rules R216, R217). -/
theorem readSession_ran (cmd : EngineCmd) (s : State) :
    Ends (readSession cmd) s fun a t => SessionRan s t ∧ (s.ses.clkdiv = 0#8 → a = 0#8 ∧ t = s) := by
  unfold readSession
  refine Ends.thenPeek ?_
  split
  · exact Ends.pure ⟨SessionRan.refl s, fun _ => ⟨rfl, rfl⟩⟩
  · rename_i h
    refine Ends.thenRan (SessionRan.refl s) (engineDo_ran _ s) fun _ t r => ?_
    exact Ends.readLine fun u b => ⟨r.trans b.ran, fun e => absurd e h⟩

/-- `SES_STOP` (rule R218). -/
theorem stopSession_ran (s : State) :
    Ends stopSession s fun a t => a = 0#8 ∧ SessionRan s t ∧ (s.ses.clkdiv = 0#8 → t = s) := by
  unfold stopSession
  refine Ends.thenPeek ?_
  split
  · exact Ends.pure ⟨rfl, SessionRan.refl s, fun _ => rfl⟩
  · rename_i h
    refine Ends.thenRan (SessionRan.refl s) (engineStop_ran s) fun _ t r => ?_
    exact Ends.pure ⟨rfl, r, fun e => absurd e h⟩

end Sys2Proof.Machine
end

