-- ==== Sys2Proof/Laws/Exec.lean ====
section
/-! SUPPORT. How the operations of the command port and the received bytes end, said once over their bodies: with a
refusal and nothing else, or with the body's effect and its response; the frame of each; that under `BusResponsive` none
hangs. -/

namespace Sys2Proof.Machine

/-! ## Responses and refusals -/

/-- The other agents have moved, then the response was written. -/
def Answered (u : State) (code : Byte) (notcfg : Bool) (refusal : Option RefuseReason) (t : State) : Prop :=
  ∃ v, Between u v ∧ t = v.respond code notcfg refusal

theorem respond_ends (code : Byte) (notcfg : Bool) (u : State) :
    Ends (respond code notcfg) u fun _ t => Answered u code notcfg none t :=
  Ends.line fun v b => ⟨v, b, rfl⟩

theorem refuse_ends (reason : RefuseReason) (u : State) :
    Ends (refuse reason) u fun _ t => Answered u 0#8 false (some reason) t :=
  Ends.line fun v b => ⟨v, b, rfl⟩

theorem endReceived_ends (u : State) :
    Ends endReceived u fun _ t => ∃ v, Between u v ∧ t = v.idle :=
  Ends.line fun v b => ⟨v, b, rfl⟩

theorem Answered.port {u t : State} {code : Byte} {notcfg : Bool} {refusal : Option RefuseReason}
    (h : Answered u code notcfg refusal t) :
    t.port.respCode = code ∧ t.port.respFlags = respFlagsOf notcfg refusal.isSome ∧ t.port.respValid = true ∧
      t.port.refusal = refusal ∧ t.port.busy = false := by
  obtain ⟨v, -, rfl⟩ := h
  exact ⟨rfl, rfl, rfl, rfl, rfl⟩

/-- A response writes nothing but the response. -/
theorem Answered.same {u t : State} {code : Byte} {notcfg : Bool} {refusal : Option RefuseReason}
    (h : Answered u code notcfg refusal t) :
    SameSequencerState u t ∧ (t.eng.phase = .unknown ↔ u.eng.phase = .unknown) ∧ u.bus.trace <+: t.bus.trace ∧
      u.bus.ltrace <+: t.bus.ltrace ∧ (u.engineEnabled = false → SameEngine u t) ∧
      (EngineSilent u → SameEngine u t) ∧ (u.cfg.backend = .hw → t.bus.ltrace = u.bus.ltrace) := by
  obtain ⟨v, b, rfl⟩ := h
  exact ⟨⟨b.cfg, b.drv, b.ses, b.frm⟩, b.phaseUnknown, b.tracePrefix, b.ltracePrefix, b.engOfDisabled, b.silent,
    b.ltraceOfHw⟩

/-- What an operation leaves at the ports, once its last line has written the response or `BUSY` alone (60_exceptions.md
rules R281, R290). -/
theorem Later.ports {s v t : State} (h : Later s.running v)
    (e : (t.port.rxData, t.port.rxValid, t.port.cmdValid, t.port.cmd) =
      (v.port.rxData, v.port.rxValid, v.port.cmdValid, v.port.cmd)) : PortsKept s t := by
  simp only [Prod.mk.injEq] at e
  obtain ⟨e1, e2, e3, e4⟩ := e
  rw [PortsKept, e1, e2, e3, e4]
  exact ⟨(h.host.byte rfl).1, (h.host.byte rfl).2, h.host.word, fun n => by
    have k := h.host.alone n
    simp only [Prod.mk.injEq] at k
    exact k.2⟩

theorem Answered.ports {s u t : State} {code : Byte} {notcfg : Bool} {refusal : Option RefuseReason}
    (l : Later s.running u) (h : Answered u code notcfg refusal t) : PortsKept s t := by
  obtain ⟨v, b, rfl⟩ := h
  exact (l.trans b.later).ports rfl

/-! ## Commands -/

/-- The refusals of a bit-bang command in their order (60_exceptions.md rule R275). -/
def bbRefusal (needsConfig legal : Bool) (s : State) : Option RefuseReason :=
  if s.cfg.backend = .hw then some .noBbDriver
  else if s.frm.cursor ≠ .awaitAddr then some .frameInProgress
  else if needsConfig && !s.drv.bbCfg then some .bbNotConfigured
  else if !legal then some .badControlWord
  else none

/-- A bit-bang command is refused, or runs its body and answers its value. -/
theorem bbCommand_ends {needsConfig legal : Bool} {body : Op Byte} {s : State} {Q : Byte → State → Prop}
    (h : s.cfg.backend = .bb → legal = true → Ends body s fun c t => Later s t ∧ Q c t) :
    Ends (bbCommand needsConfig legal body) s fun _ t =>
      (∃ r, bbRefusal needsConfig legal s = some r ∧ Answered s 0#8 false (some r) t) ∨
        (bbRefusal needsConfig legal s = none ∧ ∃ c u, Q c u ∧ Answered u c false none t) := by
  unfold bbCommand
  refine Ends.thenPeek ?_
  simp only [bbRefusal]
  split
  · exact (refuse_ends _ s).mono fun _ t a => .inl ⟨_, rfl, a⟩
  · rename_i hb
    have hb' : s.cfg.backend = .bb := by
      cases he : s.cfg.backend
      · exact absurd he hb
      · rfl
    split
    · exact (refuse_ends _ s).mono fun _ t a => .inl ⟨_, rfl, a⟩
    · split
      · exact (refuse_ends _ s).mono fun _ t a => .inl ⟨_, rfl, a⟩
      · split
        · exact (refuse_ends _ s).mono fun _ t a => .inl ⟨_, rfl, a⟩
        · rename_i hl
          refine Ends.bind ((h hb' (by simpa using hl)).mono fun c u ⟨l, q⟩ => ⟨l, ?_⟩)
          exact (respond_ends c false u).mono fun _ t a => .inr ⟨rfl, c, u, q, a⟩

/-- A session command other than `SES_CONFIGURE` is refused during a frame, or runs its body and answers its value. -/
theorem sesCommand_ends {body : Op Byte} {s : State} {Q : Byte → State → Prop}
    (h : Ends body s fun c t => Later s t ∧ Q c t) :
    Ends (sesCommand body) s fun _ t =>
      (s.frm.cursor ≠ .awaitAddr ∧ Answered s 0#8 false (some .frameInProgress) t) ∨
        (s.frm.cursor = .awaitAddr ∧ ∃ c u, Q c u ∧ Answered u c (decide (s.ses.clkdiv = 0#8)) none t) := by
  unfold sesCommand
  refine Ends.thenPeek ?_
  split
  · rename_i hc
    exact (refuse_ends _ s).mono fun _ t a => .inl ⟨hc, a⟩
  · rename_i hc
    refine Ends.bind (h.mono fun c u ⟨l, q⟩ => ⟨l, ?_⟩)
    exact (respond_ends c _ u).mono fun _ t a => .inr ⟨by simpa using hc, c, u, q, a⟩

/-- A state's `BUSY` is read by no part of an operation: the relation a body ends in, from the state before. -/
theorem SessionRan.ofBusy {s t : State} (h : SessionRan s.running t) :
    t.cfg = s.cfg ∧ t.frm = s.frm ∧ t.ses.clkdiv = s.ses.clkdiv ∧ t.ses.opt = s.ses.opt ∧
      t.port.respCode = s.port.respCode ∧ t.port.respFlags = s.port.respFlags ∧ t.port.refusal = s.port.refusal :=
  ⟨h.later.cfg, h.frm, h.clkdiv, h.opt, h.respCode, h.respFlags, h.refusal⟩

/-- What a session operation keeps, its response apart. -/
structure SessionDone (s t : State) : Prop where
  cfg : t.cfg = s.cfg
  frm : t.frm = s.frm
  clkdiv : t.ses.clkdiv = s.ses.clkdiv
  opt : t.ses.opt = s.ses.opt
  busy : t.port.busy = false
  ports : PortsKept s t
  hw : s.cfg.backend = .hw → t.drv = s.drv ∧ t.bus.ltrace = s.bus.ltrace
  bb : s.cfg.backend = .bb →
    t.eng.int = s.eng.int ∧ t.eng.ecmd = s.eng.ecmd ∧ t.eng.pendStop = s.eng.pendStop ∧
      t.ses.waitcnt = s.ses.waitcnt ∧ t.bus.trace = s.bus.trace
  bbPhase : s.cfg.backend = .bb → s.eng.phase ≠ .unknown → t.eng.phase ≠ .unknown
  bbRest : s.cfg.backend = .bb → s.drv.Rest → t.drv.Rest
  unknown : s.eng.phase = .unknown → t.eng.phase = .unknown
  wait : s.ses.waitcnt ≤ s.cfg.waitBudget → t.ses.waitcnt ≤ s.cfg.waitBudget
  unconfigured : s.ses.clkdiv = 0#8 → t.drv = s.drv ∧ t.ses = s.ses ∧ SameEngine s t

/-- A part that did nothing where the session is not configured, then a last line that writes the port alone. -/
theorem SessionDone.of {s u t : State} (h : SessionRan s.running u)
    (hu : s.ses.clkdiv = 0#8 → u = s.running)
    (h1 : SameSequencerState u t) (h2 : t.eng.phase = .unknown ↔ u.eng.phase = .unknown)
    (h3 : u.engineEnabled = false → SameEngine u t) (h4 : u.cfg.backend = .hw → t.bus.ltrace = u.bus.ltrace)
    (h5 : t.port.busy = false) (h6 : PortsKept s t) : SessionDone s t := by
  obtain ⟨c1, c2, c3, c4⟩ := h1
  have hc : u.cfg = s.cfg := h.later.cfg
  exact {
    cfg := c1.trans hc
    frm := c4.trans h.frm
    clkdiv := by rw [c3]; exact h.clkdiv
    opt := by rw [c3]; exact h.opt
    busy := h5
    ports := h6
    hw := fun b => by
      have := h.hw b
      exact ⟨c2.trans this.1, (h4 (by rw [hc]; exact b)).trans this.2⟩
    bb := fun b => by
      obtain ⟨k1, k2, k3, k4, k5⟩ := h.bb b
      have e := h3 (engineEnabled_bb (by rw [hc]; exact b))
      rw [e.1, e.2, c3]
      exact ⟨k1, k2, k3, k4, k5⟩
    bbPhase := fun b p q => h.bbPhase b p (h2.mp q)
    bbRest := fun b p => by rw [c2]; exact h.bbRest b p
    unknown := fun p => h2.mpr (h.unknown p)
    wait := fun p => by rw [c3]; exact h.wait p
    unconfigured := fun z => by
      have e := hu z
      subst e
      exact ⟨c2, c3, h3 (engineEnabled_unconfigured z)⟩ }

/-- The five session commands but `SES_CONFIGURE`: refused during a frame, or run. -/
theorem sesCommand_done {body : Op Byte} {s : State} {Q : Byte → Prop}
    (h : ∀ u, Ends body u fun c t => SessionRan u t ∧ (u.ses.clkdiv = 0#8 → c = 0#8 ∧ t = u) ∧ Q c) :
    Ends (sesCommand body) s.running fun _ t =>
      SessionDone s t ∧
        ((s.frm.cursor ≠ .awaitAddr ∧ Answered s.running 0#8 false (some .frameInProgress) t) ∨
          (s.frm.cursor = .awaitAddr ∧
            ∃ c u, Q c ∧ (s.ses.clkdiv = 0#8 → c = 0#8 ∧ u = s.running) ∧
              Answered u c (decide (s.ses.clkdiv = 0#8)) none t)) := by
  refine (sesCommand_ends ((h _).mono fun c t x => ⟨x.1.later, x⟩)).mono fun _ t q => ?_
  rcases q with ⟨hc, a⟩ | ⟨hc, c, u, ⟨r, z, q⟩, a⟩
  · obtain ⟨k1, k2, -, -, k3, -, k4⟩ := a.same
    exact ⟨SessionDone.of (SessionRan.refl _) (fun _ => rfl) k1 k2 k3 k4 a.port.2.2.2.2
      (a.ports (Later.refl _)), .inl ⟨hc, a⟩⟩
  · obtain ⟨k1, k2, -, -, k3, -, k4⟩ := a.same
    exact ⟨SessionDone.of r (fun e => (z e).2) k1 k2 k3 k4 a.port.2.2.2.2 (a.ports r.later), .inr ⟨hc, c, u, q, z, a⟩⟩

/-! ## Received bytes -/

/-- What a received-byte operation keeps; `f` is the framer it leaves. -/
structure ReceivedDone (s : State) (f : Framer) (t : State) : Prop where
  cfg : t.cfg = s.cfg
  frm : t.frm = f
  clkdiv : t.ses.clkdiv = s.ses.clkdiv
  opt : t.ses.opt = s.ses.opt
  respCode : t.port.respCode = s.port.respCode
  respFlags : t.port.respFlags = s.port.respFlags
  refusal : t.port.refusal = s.port.refusal
  hw : s.cfg.backend = .hw → t.drv = s.drv ∧ t.bus.ltrace = s.bus.ltrace
  bb : s.cfg.backend = .bb →
    t.eng.int = s.eng.int ∧ t.eng.ecmd = s.eng.ecmd ∧ t.eng.pendStop = s.eng.pendStop ∧
      t.ses.waitcnt = s.ses.waitcnt ∧ t.bus.trace = s.bus.trace
  bbPhase : s.cfg.backend = .bb → s.eng.phase ≠ .unknown → t.eng.phase ≠ .unknown
  bbRest : s.cfg.backend = .bb → s.drv.Rest → t.drv.Rest
  unknown : s.eng.phase = .unknown → t.eng.phase = .unknown
  wait : s.ses.waitcnt ≤ s.cfg.waitBudget → t.ses.waitcnt ≤ s.cfg.waitBudget
  unconfigured : s.ses.clkdiv = 0#8 → t.drv = s.drv ∧ t.ses = s.ses ∧ SameEngine s t
  later : Later s t

theorem ReceivedDone.refl (s : State) : ReceivedDone s s.frm s :=
  { cfg := rfl, frm := rfl, clkdiv := rfl, opt := rfl, respCode := rfl, respFlags := rfl, refusal := rfl,
    hw := fun _ => ⟨rfl, rfl⟩, bb := fun _ => ⟨rfl, rfl, rfl, rfl, rfl⟩, bbPhase := fun _ h => h,
    bbRest := fun _ h => h, unknown := fun h => h, wait := fun h => h, unconfigured := fun _ => ⟨rfl, rfl, rfl, rfl⟩,
    later := Later.refl s }

theorem ReceivedDone.trans {s u t : State} {f g : Framer} (h : ReceivedDone s f u) (k : ReceivedDone u g t) :
    ReceivedDone s g t :=
  { cfg := k.cfg.trans h.cfg
    frm := k.frm
    clkdiv := k.clkdiv.trans h.clkdiv
    opt := k.opt.trans h.opt
    respCode := k.respCode.trans h.respCode
    respFlags := k.respFlags.trans h.respFlags
    refusal := k.refusal.trans h.refusal
    hw := fun b => by
      have h' := h.hw b
      have k' := k.hw (by rw [h.cfg]; exact b)
      exact ⟨k'.1.trans h'.1, k'.2.trans h'.2⟩
    bb := fun b => by
      obtain ⟨h1, h2, h3, h4, h5⟩ := h.bb b
      obtain ⟨k1, k2, k3, k4, k5⟩ := k.bb (by rw [h.cfg]; exact b)
      exact ⟨k1.trans h1, k2.trans h2, k3.trans h3, k4.trans h4, k5.trans h5⟩
    bbPhase := fun b p => k.bbPhase (by rw [h.cfg]; exact b) (h.bbPhase b p)
    bbRest := fun b p => k.bbRest (by rw [h.cfg]; exact b) (h.bbRest b p)
    unknown := fun p => k.unknown (h.unknown p)
    wait := fun p => by
      have := k.wait (by rw [h.cfg]; exact h.wait p)
      rwa [h.cfg] at this
    unconfigured := fun z => by
      obtain ⟨h1, h2, h3, h4⟩ := h.unconfigured z
      obtain ⟨k1, k2, k3, k4⟩ := k.unconfigured (by rw [h.clkdiv]; exact z)
      exact ⟨k1.trans h1, k2.trans h2, k3.trans h3, k4.trans h4⟩
    later := h.later.trans k.later }

/-- A part of the session's work inside a received byte. -/
theorem SessionRan.received {s t : State} (h : SessionRan s t) (hu : s.ses.clkdiv = 0#8 → t = s) :
    ReceivedDone s s.frm t :=
  { cfg := h.later.cfg, frm := h.frm, clkdiv := h.clkdiv, opt := h.opt, respCode := h.respCode,
    respFlags := h.respFlags, refusal := h.refusal, hw := h.hw, bb := h.bb, bbPhase := h.bbPhase,
    bbRest := h.bbRest, unknown := h.unknown, wait := h.wait
    unconfigured := fun z => by rw [hu z]; exact ⟨rfl, rfl, rfl, rfl⟩
    later := h.later }

/-- A line that writes the framer's registers. -/
theorem Between.framerWrite {s u : State} (b : Between s u) (f : Framer → Framer) :
    ReceivedDone s (f s.frm) { u with frm := f u.frm } :=
  { cfg := b.cfg
    frm := by rw [← b.frm]
    clkdiv := by simp [b.ses]
    opt := by simp [b.ses]
    respCode := b.respCode
    respFlags := b.respFlags
    refusal := b.refusal
    hw := fun h => ⟨b.drv, b.ltraceOfHw h⟩
    bb := fun h => by
      have e := b.engOfBb h
      simp [e.1, e.2, b.ses]
    bbPhase := fun h p => by simpa [(b.engOfBb h).1] using p
    bbRest := fun _ p => by simpa [b.drv] using p
    unknown := fun p => b.phaseUnknown.mpr p
    wait := fun p => by simpa [b.ses] using p
    unconfigured := fun z => ⟨b.drv, b.ses, b.engOfUnconfigured z⟩
    later := ⟨b.cfg, b.busy, b.suffix, b.held, b.tracePrefix, b.ltracePrefix, { b.host with }⟩ }

section
variable {β : Type} {s u : State} {g : Framer} {Q : β → State → Prop}

/-- A line that writes the framer, then the rest. -/
theorem Ends.thenFramer {k : Unit → Op β} (f : Framer → Framer) (h : ReceivedDone s g u)
    (n : ∀ t, ReceivedDone s (f g) t → Ends (k ()) t Q) :
    Ends (Machine.line (fun t => { t with frm := f t.frm }) >>= k) u Q :=
  Ends.bind (Ends.line fun t b => by
    have w := b.framerWrite f
    have e : u.frm = g := h.frm
    rw [e] at w
    exact ⟨w.later, n _ (h.trans w)⟩)

/-- A session operation inside a received byte, then the rest. -/
theorem Ends.thenSession {x : Op Byte} {k : Byte → Op β} (h : ReceivedDone s g u)
    (hx : Ends x u fun a t => SessionRan u t ∧ (u.ses.clkdiv = 0#8 → a = 0#8 ∧ t = u))
    (n : ∀ a t, ReceivedDone s g t → (s.ses.clkdiv = 0#8 → a = 0#8) → Ends (k a) t Q) : Ends (x >>= k) u Q :=
  Ends.bind (hx.mono fun a t ⟨r, z⟩ => by
    have w := r.received fun e => (z e).2
    have e : u.frm = g := h.frm
    rw [e] at w
    exact ⟨r.later, n a t (h.trans w) fun e => (z (by rw [h.clkdiv]; exact e)).1⟩)

end

/-- The end of a received byte. -/
theorem ReceivedDone.ends {s u : State} {g : Framer} (h : ReceivedDone s g u) :
    Ends Machine.endReceived u fun _ t =>
      ∃ v, Between u v ∧ ReceivedDone s g v ∧ t = v.idle :=
  (endReceived_ends u).mono fun _ t ⟨v, b, e⟩ => by
    have w := b.framerWrite id
    have q : u.frm = g := h.frm
    simp only [id, q] at w
    exact ⟨v, b, h.trans w, e⟩

/-- What the STOP of `SES_STOP` is known to leave (42_session.md rule R218; 41_engine_status.md rules R171, R199): on the byte
engine it is pending, held while the operation runs (20_memory.md rule R81). -/
def Stopping (s t : State) : Prop :=
  (s.cfg.backend = .hw → s.ses.clkdiv ≠ 0#8 → t.port.stopIssued = true ∧
      (EngineSilent s ∨ (s.port.busy = true ∧ t.eng.phase ≠ .unknown) → t.eng.pendStop = true)) ∧
    (s.cfg.backend = .bb → s.ses.clkdiv ≠ 0#8 → s.eng.phase ≠ .unknown → t.eng.phase = .idle)

theorem stopSession_stops (s : State) : Ends stopSession s fun _ t => Stopping s t := by
  unfold stopSession
  refine Ends.thenPeek ?_
  split
  · rename_i h
    exact Ends.pure ⟨fun _ n => absurd h n, fun _ n => absurd h n⟩
  · unfold engineStop
    refine Ends.bind (Ends.thenPeek ?_)
    split
    · rename_i hb
      unfold engineIssueStop
      refine Ends.bind ((Ends.ranLine fun t b => noteInFlight_ran (by rw [b.cfg]; exact hb)).mono
        fun _ t r => ⟨r.later, ?_⟩)
      refine Ends.line fun u b => ⟨(r.later.trans b.later).trans (stopIssued_later true _), Ends.pure ?_⟩
      exact ⟨fun _ _ => ⟨rfl, fun _ => rfl⟩, fun h => by simp [hb] at h⟩
    · rename_i hb
      unfold adapterStop
      refine Ends.bind ((stopBody_ends hb).mono fun _ t w => ⟨w.later, ?_⟩)
      refine Ends.line fun u b => ?_
      have hbt : t.cfg.backend = .bb := by rw [w.cfg]; exact hb
      have e : u.eng = s.eng := (b.engOfBb hbt).1.trans (w.engOfBb hb).1
      refine ⟨(w.later.trans b.later).trans (later_of_registers (by simp) (by simp) (by simp) (by simp)), Ends.pure ?_⟩
      refine ⟨fun h => by simp [hb] at h, fun _ _ p => ?_⟩
      have : encoderTable u.cfg.codes u.eng.phase .stop = some (u.cfg.codes.noInfo, .idle) := by
        rw [e]
        cases hp : s.eng.phase <;> simp_all [encoderTable]
      rw [encodeStatus_of_table u this]

/-- A part whose ends are known in two ways. -/
theorem Ends.and {α : Type} {x : Op α} {s : State} {Q R : α → State → Prop} (h : Ends x s Q) (k : Ends x s R) :
    Ends x s fun a t => Q a t ∧ R a t := by
  unfold Ends at *
  cases hx : x s with
  | ok a t => rw [hx] at h k; exact ⟨h, k⟩
  | error e t => rw [hx] at h; exact h

/-- Closing a frame (43_framer.md rule R244). -/
theorem closeFrame_ends {s u : State} {g : Framer} (h : ReceivedDone s g u) :
    Ends closeFrame u fun _ t => Later u t ∧
      ReceivedDone s { g with wdArmed := false, cursor := .awaitAddr } t ∧ Stopping u t := by
  unfold closeFrame
  refine Ends.bind (((stopSession_ran u).and (stopSession_stops u)).mono fun a t ⟨⟨_, r, z⟩, p⟩ => ⟨r.later, ?_⟩)
  have w := r.received z
  have e : u.frm = g := h.frm
  rw [e] at w
  refine Ends.bind (Ends.line fun t2 b2 => ?_)
  have w2 := w.trans (by
    have := b2.framerWrite fun f => { f with wdArmed := false }
    rwa [show t.frm = g from w.frm] at this)
  refine ⟨⟨b2.cfg, b2.busy, b2.suffix, b2.held, b2.tracePrefix, b2.ltracePrefix, { b2.host with }⟩, ?_⟩
  refine Ends.line fun t3 b3 => ?_
  have w3 := w2.trans (by
    have := b3.framerWrite fun f => { f with cursor := .awaitAddr }
    rwa [show ({ t2 with frm.wdArmed := false } : State).frm = { g with wdArmed := false } from w2.frm] at this)
  refine ⟨w3.later, h.trans w3, ?_, ?_⟩
  · intro hb hc
    obtain ⟨hi, hp⟩ := p.1 hb hc
    have i2 : t2.port.stopIssued = true := b2.issued.trans hi
    refine ⟨b3.issued.trans i2, fun he => ?_⟩
    show t3.eng.pendStop = true
    rcases he with he | ⟨hbusy, hk⟩
    · have s2 : EngineSilent t := by
        simp only [EngineSilent, List.all_eq_true] at *
        exact fun m hm => he m (r.later.suffix.subset hm)
      rw [(b3.silent (b2.engineSilent s2)).1]
      show t2.eng.pendStop = true
      rw [(b2.silent s2).1]
      exact hp (.inl he)
    · have k2 : t2.eng.phase ≠ .unknown := fun e => hk (b3.phaseUnknown.mpr e)
      have k1 : t.eng.phase ≠ .unknown := fun e => k2 (b2.phaseUnknown.mpr e)
      have p1 := hp (.inr ⟨hbusy, k1⟩)
      have y1 : t.port.busy = true := r.later.busy.trans hbusy
      have e2 := b2.engOfHeld (by simp [State.stopHeld, y1, hi, p1, k1])
      have p2 : t2.eng.pendStop = true := by rw [e2.1, p1]
      rw [(b3.engOfHeld (by simp [State.stopHeld, b2.busy.trans y1, i2, p2, k2])).1]
      exact p2
  · intro hb hc hp
    have hbt : t.cfg.backend = .bb := by rw [w.cfg]; exact hb
    have hb2 : t2.cfg.backend = .bb := by rw [b2.cfg]; exact hbt
    show t3.eng.phase = .idle
    rw [(b3.engOfBb hb2).1]
    show t2.eng.phase = .idle
    rw [(b2.engOfBb hbt).1]
    exact p.2 hb hc hp

/-- The end of a received-byte operation, seen from the state the sequencer took the byte in. -/
structure Received (s : State) (f : Framer) (t : State) : Prop where
  frm : t.frm = f
  kept : SessionKept s t
  response : SameResponse s t
  ports : PortsKept s t
  busy : t.port.busy = false
  bbPhase : s.cfg.backend = .bb → s.eng.phase ≠ .unknown → t.eng.phase ≠ .unknown
  bbRest : s.cfg.backend = .bb → s.drv.Rest → t.drv.Rest
  unknown : s.eng.phase = .unknown → t.eng.phase = .unknown
  wait : s.ses.waitcnt ≤ s.cfg.waitBudget → t.ses.waitcnt ≤ s.cfg.waitBudget
  unconfigured : s.ses.clkdiv = 0#8 → t.drv = s.drv ∧ t.ses = s.ses ∧ SameEngine s t
  suffix : t.inputs <:+ s.inputs
  held : sclHeldAfter t.bus.envSclLow t.inputs = sclHeldAfter s.bus.envSclLow s.inputs

theorem ReceivedDone.received {s : State} {f : Framer} {v : State} (h : ReceivedDone s.running f v) :
    Received s f v.idle :=
  { frm := h.frm
    kept := ⟨h.cfg, h.clkdiv, h.opt, h.hw, h.bb⟩
    response := ⟨h.respCode, h.respFlags, h.refusal, h.later.host.response, fun e => by
      have k := h.later.host.alone e
      simp only [Prod.mk.injEq] at k
      exact k.1⟩
    ports := h.later.ports rfl
    busy := rfl
    bbPhase := h.bbPhase
    bbRest := h.bbRest
    unknown := h.unknown
    wait := h.wait
    unconfigured := h.unconfigured
    suffix := h.later.suffix
    held := h.later.held }

/-! ## Where no operation hangs -/

/-- Whatever the state, the operation ends, or stops as `StoppedFrom` says. -/
def Proceeds {α : Type} (x : Op α) : Prop := ∀ s, Ends x s fun _ t => Later s t

theorem Proceeds.bind {α β : Type} {x : Op α} {f : α → Op β} (h : Proceeds x) (k : ∀ a, Proceeds (f a)) :
    Proceeds (x >>= f) := fun s =>
  Ends.bind ((h s).mono fun a t l => ⟨l, (k a t).mono fun _ _ l' => l.trans l'⟩)

theorem Proceeds.pure {α : Type} (a : α) : Proceeds (Pure.pure a : Op α) := fun s => Ends.pure (Later.refl s)

theorem Proceeds.peek : Proceeds Machine.peek := fun s => Ends.peek (Later.refl s)

theorem Proceeds.ite {α : Type} {c : Prop} [Decidable c] {x y : Op α} (h : Proceeds x) (k : Proceeds y) :
    Proceeds (if c then x else y) := by
  split <;> assumption

/-- A line that writes neither the port nor the bus. -/
theorem Proceeds.line {f : State → State} (h : ∀ s, Later s (f s)) : Proceeds (Machine.line f) := fun _ =>
  Ends.line fun t b => b.later.trans (h t)

theorem Proceeds.framer (f : State → Framer) : Proceeds (Machine.line fun s => { s with frm := f s }) :=
  Proceeds.line fun _ => later_of_registers rfl rfl rfl rfl

theorem Proceeds.session (f : State → Session) : Proceeds (Machine.line fun s => { s with ses := f s }) :=
  Proceeds.line fun _ => later_of_registers rfl rfl rfl rfl

theorem Proceeds.stopSession : Proceeds stopSession := fun s => (stopSession_ran s).mono fun _ _ h => h.2.1.later

theorem Proceeds.closeFrame : Proceeds closeFrame :=
  Proceeds.stopSession.bind fun _ => (Proceeds.framer _).bind fun _ => Proceeds.framer _

theorem Proceeds.configureSession (div bits : Byte) : Proceeds (configureSession div bits) := by
  unfold Machine.configureSession
  exact Proceeds.peek.bind fun s => .ite (.pure _) ((Proceeds.session _).bind fun _ => (Proceeds.session _).bind fun _ =>
    .ite (Proceeds.bind (fun s => (configureBody_ends s).mono fun _ _ w => w.later) fun _ => .pure _) (.pure _))

/-- The same of an operation's last part, which may write `BUSY`. -/
def Halts {α : Type} (x : Op α) : Prop := ∀ s, Ends x s fun _ _ => True

theorem Proceeds.last {α β : Type} {x : Op α} {f : α → Op β} (h : Proceeds x) (k : ∀ a, Halts (f a)) :
    Halts (x >>= f) := fun s => Ends.bind ((h s).mono fun a t l => ⟨l, k a t⟩)

theorem Halts.ite {α : Type} {c : Prop} [Decidable c] {x y : Op α} (h : Halts x) (k : Halts y) :
    Halts (if c then x else y) := by
  split <;> assumption

theorem Halts.respond (code : Byte) (notcfg : Bool) : Halts (Machine.respond code notcfg) := fun s =>
  (respond_ends code notcfg s).mono fun _ _ _ => trivial

theorem Halts.endReceived : Halts Machine.endReceived := fun s => (endReceived_ends s).mono fun _ _ _ => trivial

/-- An operation whose parts end hangs only where the environment's last word holds SCL low (60_exceptions.md rule
R284). -/
theorem runOp_lifted {body : Op Unit} {s : State} {Q : State → Prop}
    (h : Ends body s.running fun _ t => Q t) (r : s.cfg.backend = .bb → BusResponsive s) :
    ∃ t, runOp body s = .next t := by
  rcases runOp_ends h with ⟨t, e, -⟩ | ⟨t, e, -⟩ | ⟨t, -, k⟩
  · exact ⟨t, e⟩
  · exact ⟨t, e⟩
  · exact absurd (r k.1) k.2.2.2.2

/-- Under `BusResponsive` every operation comes to a next state, the guard's reset among them: every `WaitSclHigh` is
lifted (41_engine_status.md rule R172). -/
theorem exec_next_of_busResponsive (i : Instr) {s : State} (r : s.cfg.backend = .bb → BusResponsive s) :
    ∃ t, exec i s = .next t := by
  have halts : ∀ {x : Op Unit}, Halts x → ∃ t, runOp x s = .next t := fun h => runOp_lifted (Q := fun _ => True) (h _) r
  cases i with
  | bbConfigure =>
    exact runOp_lifted (bbCommand_ends (Q := fun _ _ => True) fun _ _ =>
      Ends.bind ((configureBody_ends _).mono fun _ _ w => ⟨w.later, Ends.pure ⟨w.later, trivial⟩⟩)) r
  | bbStart =>
    exact runOp_lifted (bbCommand_ends (Q := fun _ _ => True) fun hb _ =>
      Ends.bind ((startBody_ends hb).mono fun _ _ w => ⟨w.later, Ends.pure ⟨w.later, trivial⟩⟩)) r
  | bbStop =>
    exact runOp_lifted (bbCommand_ends (Q := fun _ _ => True) fun hb _ =>
      Ends.bind ((stopBody_ends hb).mono fun _ _ w => ⟨w.later, Ends.pure ⟨w.later, trivial⟩⟩)) r
  | bbPutbyte data =>
    exact runOp_lifted (bbCommand_ends (Q := fun _ _ => True) fun hb _ =>
      (putByteBody_ends data hb).mono fun _ _ w => ⟨w.2.later, trivial⟩) r
  | bbGetbyte last =>
    exact runOp_lifted (bbCommand_ends (Q := fun _ _ => True) fun hb _ =>
      (getByteBody_ends last hb).mono fun _ _ w => ⟨w.2.later, trivial⟩) r
  | bbTransfer cw =>
    exact runOp_lifted (bbCommand_ends (Q := fun _ _ => True) fun hb hc =>
      (transfer_ends hb hc).mono fun _ _ w => ⟨w.2.later, trivial⟩) r
  | sesConfigure div bits =>
    exact halts ((Proceeds.configureSession div bits).last fun _ => .respond _ _)
  | sesStart mode address =>
    exact runOp_lifted (sesCommand_done (Q := fun _ => True) fun u =>
      (startSession_ran address mode u).mono fun _ _ h => ⟨h.1, h.2, trivial⟩) r
  | sesWrite data =>
    exact runOp_lifted (sesCommand_done (Q := fun _ => True) fun u =>
      (writeSession_ran data u).mono fun _ _ h => ⟨h.1, h.2, trivial⟩) r
  | sesReadAck =>
    exact runOp_lifted (sesCommand_done (Q := fun _ => True) fun u =>
      (readSession_ran _ u).mono fun _ _ h => ⟨h.1, h.2, trivial⟩) r
  | sesReadNack =>
    exact runOp_lifted (sesCommand_done (Q := fun _ => True) fun u =>
      (readSession_ran _ u).mono fun _ _ h => ⟨h.1, h.2, trivial⟩) r
  | sesStop =>
    exact runOp_lifted (sesCommand_done (Q := fun _ => True) fun u =>
      (stopSession_ran u).mono fun _ _ h => ⟨h.2.1, fun z => ⟨h.1, h.2.2 z⟩, trivial⟩) r
  | rxAddr b =>
    exact halts <| (Proceeds.framer _).last fun _ =>
      Proceeds.last (fun s => (startSession_ran b .write s).mono fun _ _ h => h.1.later) fun _ =>
      (Proceeds.framer _).last fun _ => (Proceeds.framer _).last fun _ => .endReceived
  | rxLenHi b => exact halts <| (Proceeds.framer _).last fun _ => (Proceeds.framer _).last fun _ => .endReceived
  | rxLenLo b =>
    exact halts <| (Proceeds.framer _).last fun _ => (Proceeds.framer _).last fun _ => Proceeds.peek.last fun _ =>
      .ite (Proceeds.closeFrame.last fun _ => .endReceived) ((Proceeds.framer _).last fun _ => .endReceived)
  | rxPayload b =>
    exact halts <| Proceeds.last (fun s => (writeSession_ran b s).mono fun _ _ h => h.1.later) fun _ =>
      (Proceeds.framer _).last fun _ => (Proceeds.framer _).last fun _ => (Proceeds.framer _).last fun _ =>
      Proceeds.peek.last fun _ => .ite (Proceeds.closeFrame.last fun _ => .endReceived) .endReceived

theorem waitsLifted_of_busResponsive (i : Instr) {s : State} (r : s.cfg.backend = .bb → BusResponsive s) :
    waitsLifted i s = true := by
  obtain ⟨t, e⟩ := exec_next_of_busResponsive i r
  simp [waitsLifted, e]

end Sys2Proof.Machine
end

