-- ==== Sys2Proof/Laws/Keeps.lean ====
section
/-! SUPPORT. A property of the state that every write and every move of another agent keeps is kept by every operation,
whether it ends, is cut off or hangs (`Keeps`): the induction over an operation's lines, made once. -/

namespace Sys2Proof.Machine

/-- The state an operation leaves, however it ends. -/
def finalState {α : Type} : EStateM.Result Stop State α → State
  | .ok _ t => t
  | .error _ t => t

/-- The operation keeps `P`, however it ends. -/
def Keeps {α : Type} (P : State → Prop) (x : Op α) : Prop := ∀ s, P s → P (finalState (x s))

/-- What a property kept between the lines of an operation must stand: the other agents' moves, a reset by the guard,
and any list of moves to come. -/
structure Stable (P : State → Prop) : Prop where
  inputs : ∀ s l, P s → P { s with inputs := l }
  apply : ∀ s m, P s → fires m s = false → P (s.apply m)
  reset : ∀ s, P s → s.frm.wdArmed = true → P s.coreReset

section
variable {α β : Type} {P : State → Prop}

theorem Keeps.pure (a : α) : Keeps P (Pure.pure a : Op α) := fun _ h => h

theorem Keeps.peek : Keeps P Machine.peek := fun _ h => h

theorem Keeps.modify {f : State → State} (h : ∀ s, P s → P (f s)) : Keeps P (modify f : Op Unit) := h

theorem Keeps.bind {x : Op α} {f : α → Op β} (h : Keeps P x) (k : ∀ a, Keeps P (f a)) : Keeps P (x >>= f) := by
  intro s hs
  have := h s hs
  rw [op_bind]
  cases hx : x s with
  | ok a t => rw [hx] at this; exact k a t this
  | error e t => rw [hx] at this; exact this

/-- A look at the state, then an operation that may depend on it. -/
theorem Keeps.peekThen {f : State → Op α} (h : ∀ s, P s → P (finalState (f s s))) : Keeps P (Machine.peek >>= f) := h

theorem Keeps.ite {c : Prop} [Decidable c] {x y : Op α} (h : Keeps P x) (k : Keeps P y) :
    Keeps P (if c then x else y) := by
  split <;> assumption

theorem Stable.holdOn (h : Stable P) (C : State → Bool) (l : List Move) (s : State) (hs : P s) :
    P (finalState (holdOn C l s)) := by
  induction l generalizing s with
  | nil =>
    simp only [Machine.holdOn]
    split <;> exact h.inputs s [] hs
  | cons m rest ih =>
    simp only [Machine.holdOn]
    split
    · split
      · exact h.inputs s rest hs
      · exact ih s hs
    · split
      · rename_i hf
        simp only [fires, Bool.and_eq_true] at hf
        exact h.inputs _ rest (h.reset s hs hf.2)
      · rename_i hf
        exact ih _ (h.apply s m hs (by simpa using hf))

theorem Stable.hold (h : Stable P) (C : State → Bool) : Keeps P (holdUntil C) := fun s hs => h.holdOn C s.inputs s hs

theorem Stable.tick (h : Stable P) : Keeps P Machine.tick := h.hold _

theorem Stable.delay (h : Stable P) (n : Nat) : Keeps P (Machine.delay n) := h.hold _

theorem Stable.wait (h : Stable P) : Keeps P waitSclHigh := h.hold _

theorem Stable.line (h : Stable P) {f : State → State} (w : ∀ s, P s → P (f s)) : Keeps P (Machine.line f) :=
  h.tick.bind fun _ => Keeps.modify w

theorem Stable.readLine (h : Stable P) (f : State → α) : Keeps P (Machine.readLine f) :=
  h.tick.bind fun _ => Keeps.peek.bind fun s => Keeps.pure (f s)

end

/-- A property that every write of every operation keeps, beside the moves of the other agents. -/
structure KeptByWrites (P : State → Prop) : Prop extends Stable P where
  setSr : ∀ s v, P s → P (s.setSr v)
  releaseScl : ∀ s, P s → P s.releaseScl
  pullScl : ∀ s, P s → P s.pullScl
  setLatch : ∀ s b, P s → P (s.setLatch b)
  setDirOut : ∀ s b, P s → P (s.setDirOut b)
  setSdaForce : ∀ s b, P s → P (s.setSdaForce b)
  driver : ∀ s n tc cfg, P s → P { s with drv.bitcnt := n, drv.tc := tc, drv.bbCfg := cfg }
  session : ∀ s x, P s → P { s with ses := x }
  engine : ∀ s x, P s → P { s with eng := x }
  framer : ∀ s x, P s → P { s with frm := x }
  port : ∀ s x, P s → P { s with port := x }

section
variable {P : State → Prop} (h : KeptByWrites P)
include h

theorem KeptByWrites.encodeStatus (s : State) (e : BusEvent) (hs : P s) : P (s.encodeStatus e) := by
  simp only [State.encodeStatus]
  split
  · exact h.engine s _ hs
  · exact h.engine s _ hs

theorem KeptByWrites.bitCycle : Keeps P bitCycle := by
  unfold Machine.bitCycle
  refine Keeps.peek.bind fun p => (h.delay _).bind fun _ => (h.line h.releaseScl).bind fun _ =>
    h.wait.bind fun _ => (h.readLine _).bind fun b => (h.line fun s => h.setSr s _).bind fun _ =>
    (h.delay _).bind fun _ => (h.line h.pullScl).bind fun _ => h.line fun s => h.driver s _ _ _

theorem KeptByWrites.transferLoop (n : Nat) : Keeps P (transferLoop n) := by
  induction n with
  | zero => exact Keeps.pure ()
  | succ n ih =>
    unfold Machine.transferLoop
    refine Keeps.peek.bind fun s => Keeps.ite (Keeps.pure ()) (h.bitCycle.bind fun _ => Keeps.bind ?_ fun _ => ih)
    refine h.line fun s hs => ?_
    simp only [State.checkComplete]
    split
    · exact h.driver s _ _ _ hs
    · exact hs

theorem KeptByWrites.transfer (cw : Byte) : Keeps P (transfer cw) := by
  unfold Machine.transfer
  exact Keeps.peek.bind fun p => (h.line fun s => h.driver s _ _ _).bind fun _ =>
    (h.line fun s => h.driver s _ _ _).bind fun _ => (h.transferLoop _).bind fun _ => (h.delay _).bind fun _ =>
    (h.readLine _).bind fun r => (h.line fun s => h.setSr s _).bind fun _ =>
    (h.line fun s => h.setDirOut s _).bind fun _ => Keeps.pure r

theorem KeptByWrites.configureBody : Keeps P configureBody := by
  unfold Machine.configureBody
  exact (h.line h.releaseScl).bind fun _ => (h.line fun s => h.setSr s _).bind fun _ =>
    (h.line fun s => h.setLatch s _).bind fun _ => (h.line fun s => h.setSdaForce s _).bind fun _ =>
    (h.line fun s => h.setDirOut s _).bind fun _ => (h.line fun s => h.driver s _ _ _).bind fun _ =>
    (h.line fun s => h.driver s _ _ _).bind fun _ => h.line fun s => h.driver s _ _ _

theorem KeptByWrites.startBody : Keeps P startBody := by
  unfold Machine.startBody
  exact Keeps.peek.bind fun p => (h.line h.releaseScl).bind fun _ => h.wait.bind fun _ => (h.delay _).bind fun _ =>
    (h.line fun s => h.setSdaForce s _).bind fun _ => (h.delay _).bind fun _ => (h.line h.pullScl).bind fun _ =>
    h.line fun s => h.setSdaForce s _

theorem KeptByWrites.stopBody : Keeps P stopBody := by
  unfold Machine.stopBody
  exact Keeps.peek.bind fun p => (h.line fun s => h.setSdaForce s _).bind fun _ => (h.line h.releaseScl).bind fun _ =>
    h.wait.bind fun _ => (h.delay _).bind fun _ => (h.line fun s => h.setSdaForce s _).bind fun _ => h.delay _

theorem KeptByWrites.putByteBody (data : Byte) : Keeps P (putByteBody data) := by
  unfold Machine.putByteBody
  exact (h.line h.pullScl).bind fun _ => (h.line fun s => h.setDirOut s _).bind fun _ =>
    (h.line fun s => h.setSr s _).bind fun _ => (h.transfer _).bind fun _ =>
    (h.line fun s => h.setDirOut s _).bind fun _ => (h.transfer _).bind fun r => Keeps.pure _

theorem KeptByWrites.getByteBody (last : Bool) : Keeps P (getByteBody last) := by
  unfold Machine.getByteBody
  exact (h.line fun s => h.setDirOut s _).bind fun _ => (h.transfer _).bind fun b =>
    (h.line fun s => h.setSr s _).bind fun _ => (h.transfer _).bind fun _ => Keeps.pure b

theorem KeptByWrites.noteInFlight (s : State) (hs : P s) : P s.noteInFlight := by
  simp only [State.noteInFlight]
  split
  · exact h.engine s _ hs
  · exact hs

theorem KeptByWrites.engineIssue (cmd : EngineCmd) : Keeps P (engineIssue cmd) := by
  unfold Machine.engineIssue
  exact (h.line h.noteInFlight).bind fun _ => (h.line fun s => h.engine s _).bind fun _ => h.line fun s => h.engine s _

theorem KeptByWrites.pollInt (n : Nat) : Keeps P (pollInt n) := by
  induction n with
  | zero => exact Keeps.pure ()
  | succ n ih =>
    unfold Machine.pollInt
    exact (h.readLine _).bind fun s =>
      Keeps.ite ((Keeps.modify fun s => h.session s _).bind fun _ => ih) (Keeps.pure ())

theorem KeptByWrites.engineDo (cmd : EngineCmd) : Keeps P (engineDo cmd) := by
  have hid : Keeps P (Machine.line (State.encodeStatus .idleXfer)) := h.line fun s => h.encodeStatus s _
  have hrx : ∀ m, Keeps P (adapterRx m) := fun m => by
    unfold adapterRx
    exact Keeps.peek.bind fun s => Keeps.ite hid ((h.getByteBody m).bind fun b =>
      (h.line fun s => h.engine s _).bind fun _ => h.line fun s => h.encodeStatus s _)
  unfold Machine.engineDo
  refine Keeps.peek.bind fun p => ?_
  split
  · unfold engineDoHw
    refine (h.engineIssue cmd).bind fun _ => (h.line fun s => h.session s _).bind fun _ => Keeps.peek.bind fun p =>
      (h.pollInt _).bind fun _ => (h.readLine _).bind fun s => Keeps.ite (Keeps.pure _) (Keeps.bind ?_ fun _ =>
        Keeps.pure _)
    refine h.line fun s hs => ?_
    simp only [State.timeOut]
    split <;> exact h.engine s _ hs
  · refine Keeps.bind ?_ fun _ => h.readLine _
    cases cmd
    · exact h.startBody.bind fun _ => h.line fun s => h.encodeStatus s _
    · unfold adapterOp adapterTx
      exact Keeps.peek.bind fun s => Keeps.ite hid ((h.putByteBody _).bind fun a => h.line fun s => h.encodeStatus s _)
    · exact hrx false
    · exact hrx true

theorem KeptByWrites.writeSession (data : Byte) : Keeps P (writeSession data) := by
  unfold Machine.writeSession
  exact Keeps.peek.bind fun s => Keeps.ite (Keeps.pure _) ((h.line fun s => h.engine s _).bind fun _ =>
    (h.engineDo _).bind fun st => Keeps.pure _)

theorem KeptByWrites.startSession (address : Byte) (mode : Mode) : Keeps P (startSession address mode) := by
  unfold Machine.startSession
  exact Keeps.peek.bind fun s => Keeps.ite (Keeps.pure _) ((h.engineDo _).bind fun st =>
    Keeps.ite ((h.writeSession _).bind fun r => Keeps.pure _) (Keeps.pure _))

theorem KeptByWrites.readSession (cmd : EngineCmd) : Keeps P (readSession cmd) := by
  unfold Machine.readSession
  exact Keeps.peek.bind fun s => Keeps.ite (Keeps.pure _) ((h.engineDo _).bind fun st => h.readLine _)

theorem KeptByWrites.stopSession : Keeps P stopSession := by
  unfold Machine.stopSession
  refine Keeps.peek.bind fun s => Keeps.ite (Keeps.pure _) (Keeps.bind ?_ fun _ => Keeps.pure _)
  unfold engineStop
  refine Keeps.peek.bind fun p => ?_
  split
  · exact (h.line h.noteInFlight).bind fun _ => h.line fun s hs =>
      h.port { s with eng.pendStop := true } { s.port with stopIssued := true }
        (h.engine s { s.eng with pendStop := true } hs)
  · exact h.stopBody.bind fun _ => h.line fun s => h.encodeStatus s _

theorem KeptByWrites.configureSession (div bits : Byte) : Keeps P (configureSession div bits) := by
  unfold Machine.configureSession
  exact Keeps.peek.bind fun s => Keeps.ite (Keeps.pure _) ((h.line fun s => h.session s _).bind fun _ =>
    (h.line fun s => h.session s _).bind fun _ =>
    Keeps.ite (h.configureBody.bind fun _ => Keeps.pure _) (Keeps.pure _))

theorem KeptByWrites.closeFrame : Keeps P closeFrame := by
  unfold Machine.closeFrame
  exact h.stopSession.bind fun _ => (h.line fun s => h.framer s _).bind fun _ => h.line fun s => h.framer s _

theorem KeptByWrites.respond (code : Byte) (notcfg : Bool) : Keeps P (respond code notcfg) :=
  h.line fun s => h.port s _

theorem KeptByWrites.refuse (reason : RefuseReason) : Keeps P (refuse reason) := h.line fun s => h.port s _

theorem KeptByWrites.endReceived : Keeps P endReceived := h.line fun s => h.port s _

theorem KeptByWrites.bbCommand (a b : Bool) {body : Op Byte} (k : Keeps P body) : Keeps P (bbCommand a b body) := by
  unfold Machine.bbCommand
  exact Keeps.peek.bind fun s => Keeps.ite (h.refuse _) (Keeps.ite (h.refuse _) (Keeps.ite (h.refuse _)
    (Keeps.ite (h.refuse _) (k.bind fun c => h.respond c false))))

theorem KeptByWrites.sesCommand {body : Op Byte} (k : Keeps P body) : Keeps P (sesCommand body) := by
  unfold Machine.sesCommand
  exact Keeps.peek.bind fun s => Keeps.ite (h.refuse _) (k.bind fun c => h.respond c _)

/-- The state of an outcome. -/
def outcomeState (o : Host.Outcome State Fault Refusal) (P : State → Prop) : Prop :=
  match o with
  | .next t => P t
  | .fault (.busHang t) => P t
  | .refused _ => True

theorem KeptByWrites.runOp {body : Op Unit} (k : Keeps P body) (s : State) (hs : P s) :
    outcomeState (runOp body s) P := by
  have := k s.running (h.port s _ hs)
  simp only [Machine.runOp]
  cases hx : body s.running with
  | ok a t => rw [hx] at this; exact this
  | error e t => rw [hx] at this; cases e <;> exact this

/-- Every operation keeps it. -/
theorem KeptByWrites.exec (i : Instr) (s : State) (hs : P s) : outcomeState (exec i s) P := by
  cases i with
  | bbConfigure => exact h.runOp (h.bbCommand _ _ (h.configureBody.bind fun _ => Keeps.pure _)) s hs
  | bbStart => exact h.runOp (h.bbCommand _ _ (h.startBody.bind fun _ => Keeps.pure _)) s hs
  | bbStop => exact h.runOp (h.bbCommand _ _ (h.stopBody.bind fun _ => Keeps.pure _)) s hs
  | bbPutbyte data => exact h.runOp (h.bbCommand _ _ (h.putByteBody data)) s hs
  | bbGetbyte last => exact h.runOp (h.bbCommand _ _ (h.getByteBody last)) s hs
  | bbTransfer cw => exact h.runOp (h.bbCommand _ _ (h.transfer cw)) s hs
  | sesConfigure div bits =>
    exact h.runOp ((h.configureSession div bits).bind fun c => h.respond c false) s hs
  | sesStart mode address => exact h.runOp (h.sesCommand (h.startSession address mode)) s hs
  | sesWrite data => exact h.runOp (h.sesCommand (h.writeSession data)) s hs
  | sesReadAck => exact h.runOp (h.sesCommand (h.readSession .rxAck)) s hs
  | sesReadNack => exact h.runOp (h.sesCommand (h.readSession .rxNack)) s hs
  | sesStop => exact h.runOp (h.sesCommand h.stopSession) s hs
  | rxAddr b =>
    refine h.runOp ((h.line fun s => h.framer s _).bind fun _ => (h.startSession b .write).bind fun _ => ?_) s hs
    exact (h.line fun s => h.framer s _).bind fun _ => (h.line fun s => h.framer s _).bind fun _ => h.endReceived
  | rxLenHi b =>
    refine h.runOp ((h.line fun s => h.framer s _).bind fun _ => ?_) s hs
    exact (h.line fun s => h.framer s _).bind fun _ => h.endReceived
  | rxLenLo b =>
    refine h.runOp ((h.line fun s => h.framer s _).bind fun _ => ?_) s hs
    refine (h.line fun s => h.framer s _).bind fun _ => Keeps.peek.bind fun t => ?_
    exact Keeps.ite (h.closeFrame.bind fun _ => h.endReceived)
      ((h.line fun s => h.framer s _).bind fun _ => h.endReceived)
  | rxPayload b =>
    refine h.runOp ((h.writeSession b).bind fun _ => ?_) s hs
    refine (h.line fun s => h.framer s _).bind fun _ => ?_
    refine (h.line fun s => h.framer s _).bind fun _ => ?_
    refine (h.line fun s => h.framer s _).bind fun _ => Keeps.peek.bind fun t => ?_
    exact Keeps.ite (h.closeFrame.bind fun _ => h.endReceived) h.endReceived

/-- Every step keeps it. -/
theorem KeptByWrites.step (s : State) (hs : P s) : outcomeState (step s) P := by
  have turn : ∀ s, P s → outcomeState (sequencerTurn s) P := by
    intro s hs
    simp only [sequencerTurn]
    split
    · exact hs
    · split
      · exact h.exec _ _ (h.port s _ hs)
      · split
        · simp only [takeCommand]
          split
          · exact h.exec _ _ (h.port s _ hs)
          · exact h.runOp (h.refuse _) _ (h.port s _ hs)
        · exact hs
  simp only [Machine.step, machineTurn]
  split
  · exact turn s hs
  · rename_i m rest _
    split
    · exact turn _ (h.inputs s rest hs)
    · rename_i hm
      by_cases hf : fires m ({ s with inputs := rest } : State) = true
      · simp only [fires, Bool.and_eq_true, decide_eq_true_eq] at hf
        have : ({ s with inputs := rest } : State).apply m = ({ s with inputs := rest } : State).coreReset := by
          rw [hf.1]
          exact if_pos hf.2
        rw [this]
        exact h.reset _ (h.inputs s rest hs) hf.2
      · exact h.apply _ _ (h.inputs s rest hs) (by simpa using hf)

end

end Sys2Proof.Machine
end

