-- ==== Sys2Proof/Laws/Lines.lean ====
section
/-! SUPPORT. The parse of the lines (40_bus_driver.md rule R150) one write at a time: while the parse stands at the
lines' present value, a write that may move them is one entry read, whether a line moves or not. -/

namespace Sys2Proof.Machine

/-- The parse of the lines so far. -/
abbrev State.parsed (s : State) : ParseState := parseLines s.bus.ltrace

theorem parseLines_append (l : List LineEntry) (e : LineEntry) : parseLines (l ++ [e]) = (parseLines l).entry e := by
  simp [parseLines]

@[simp] theorem pushBit_prev (p : ParseState) (b : Bool) : (p.pushBit b).prev = p.prev := by
  simp only [ParseState.pushBit]
  split <;> rfl

@[simp] theorem entry_prev (p : ParseState) (e : LineEntry) : (p.entry e).prev = e := rfl

/-- Reading the same pair again changes nothing. -/
theorem entry_same (p : ParseState) (scl sda : Bool) (h : p.prev = .pair scl sda) : p.entry (.pair scl sda) = p := by
  cases p with
  | mk prev owned bits events =>
    subst h
    cases scl <;> cases sda <;> simp [ParseState.entry]

/-- A write that may move a line, as the parse reads it. -/
theorem moveLines_parsed {s : State} {f : State → State} (hb : s.cfg.backend = .bb) (hc : (f s).cfg = s.cfg)
    (hl : (f s).bus.ltrace = s.bus.ltrace) (hp : s.parsed.prev = s.linePair) :
    (s.moveLines f).parsed = s.parsed.entry (f s).linePair := by
  have hb' : (f s).cfg.backend = .bb := by rw [hc]; exact hb
  simp only [State.moveLines, State.parsed]
  by_cases h : (f s).linePair = s.linePair
  · simp only [h, ne_eq, not_true_eq_false, and_false, if_false]
    rw [hl]
    exact (entry_same _ _ _ hp).symm
  · simp only [hb', h, ne_eq, not_false_eq_true, and_self, if_true]
    rw [hl, parseLines_append]

/-- The parse stands at the lines after such a write. -/
theorem moveLines_traced {s : State} {f : State → State} (hb : s.cfg.backend = .bb) (hc : (f s).cfg = s.cfg)
    (hl : (f s).bus.ltrace = s.bus.ltrace) (hp : s.parsed.prev = s.linePair) :
    (s.moveLines f).parsed.prev = (s.moveLines f).linePair := by
  rw [moveLines_parsed hb hc hl hp, entry_prev, moveLines_linePair]

/-- `TRACE` with `BACKEND = BB`. -/
theorem busTrace_bb {s : State} (hb : s.cfg.backend = .bb) : s.busTrace = s.parsed.events := by
  simp [State.busTrace, hb]

/-- SCL rises with SDA at `sda`. -/
theorem entry_rise (p : ParseState) (sda sda' : Bool) (h : p.prev = .pair false sda) :
    p.entry (.pair true sda') =
      { (if p.owned then p.pushBit sda' else p) with prev := .pair true sda' } := by
  cases p with
  | mk prev owned bits events =>
    subst h
    cases owned <;> cases sda <;> cases sda' <;> simp [ParseState.entry]

/-- SCL falls, or SDA moves while SCL is low. -/
theorem entry_low (p : ParseState) (scl sda sda' : Bool) (h : p.prev = .pair scl sda) :
    p.entry (.pair false sda') = { p with prev := .pair false sda' } := by
  cases p with
  | mk prev owned bits events =>
    subst h
    cases scl <;> cases sda <;> cases sda' <;> simp [ParseState.entry]

/-- The parse over a reset: the mark is `EV_RESET`, the pair after it no event (rule R150). -/
theorem parseLines_reset (l : List LineEntry) (scl sda : Bool) :
    parseLines (l ++ [.resetMark, .pair scl sda]) =
      { prev := .pair scl sda, owned := false, bits := [], events := (parseLines l).events ++ [.reset] } := by
  rw [show l ++ [.resetMark, .pair scl sda] = (l ++ [.resetMark]) ++ [.pair scl sda] by simp, parseLines_append,
    parseLines_append]
  simp [ParseState.entry]

/-- A reset appends `EV_RESET` to `TRACE` on either back end (70_reset_and_hazards.md rule R301). -/
theorem coreReset_busTrace (s : State) : s.coreReset.busTrace = s.busTrace ++ [.reset] := by
  simp only [State.coreReset]
  split
  · rename_i h
    simp [State.busTrace, State.emit, State.powerOn, h]
  · rename_i h
    simp only [State.busTrace, State.linePair, State.powerOn, h]
    rw [parseLines_reset, releaseEngine_ltrace]

end Sys2Proof.Machine
end

