-- ==== Sys2Proof/Laws/PerInstr.lean ====
section
/-! SUPPORT. Statements about every operation as syntax, one lemma for each. `EncodeDecode`: the decoder reads back the
operation, with every operand, from its encoding (30_encoding.md rules R93, R98, R100). -/

namespace Sys2Proof.Laws.EncodeDecode

def Statement (i : Instr) : Prop := decode (encode i) = .ok i

theorem bbConfigure : Statement .bbConfigure := rfl
theorem bbStart : Statement .bbStart := rfl
theorem bbStop : Statement .bbStop := rfl

theorem bbPutbyte (data : Byte) : Statement (.bbPutbyte data) := by
  simp [Statement, encode, decode, decodeCommand, checkReserved]

theorem bbGetbyte (last : Bool) : Statement (.bbGetbyte last) := by
  cases last <;> rfl

theorem bbTransfer (cw : Byte) : Statement (.bbTransfer cw) := by
  simp [Statement, encode, decode, decodeCommand, checkReserved]

theorem sesConfigure (div bits : Byte) : Statement (.sesConfigure div bits) := by
  simp [Statement, encode, decode, decodeCommand, checkReserved]

theorem sesStart (mode : Mode) (address : Byte) : Statement (.sesStart mode address) := by
  simp [Statement, encode, decode, decodeCommand, checkReserved, flagByte_top, flagByte_bit]

theorem sesWrite (data : Byte) : Statement (.sesWrite data) := by
  simp [Statement, encode, decode, decodeCommand, checkReserved]

theorem sesReadAck : Statement .sesReadAck := rfl
theorem sesReadNack : Statement .sesReadNack := rfl
theorem sesStop : Statement .sesStop := rfl
theorem rxAddr (b : Byte) : Statement (.rxAddr b) := rfl
theorem rxLenHi (b : Byte) : Statement (.rxLenHi b) := rfl
theorem rxLenLo (b : Byte) : Statement (.rxLenLo b) := rfl
theorem rxPayload (b : Byte) : Statement (.rxPayload b) := rfl

end Sys2Proof.Laws.EncodeDecode
end

