-- ==== Sys2Proof/Laws/Responsive.lean ====
section
/-! SUPPORT. What the byte engine's half of the premise `BusResponsive` gives (41_engine_status.md rules R172, R190): a
busy-wait that is answered ends with `INT = 1`, short of its budget. Small lemmas of the runs and of the launch states
(70_reset_and_hazards.md rules R318, R319). -/

namespace Sys2Proof.Machine

/-! ## Runs and launch states -/

@[simp] theorem runSteps_zero (s : State) : runSteps 0 s = .next s := rfl

theorem runSteps_succ {s t : State} (n : Nat) (h : step s = .next t) : runSteps (n + 1) s = runSteps n t := by
  simp [runSteps, h]

section
variable (p : Params) (div bits : Byte)

@[simp] theorem configured_cfg : (State.configured p div bits).cfg = p := rfl
@[simp] theorem configured_ses :
    (State.configured p div bits).ses = { clkdiv := div, opt := bits.extractLsb' 0 2, waitcnt := 0 } := rfl
@[simp] theorem configured_eng : (State.configured p div bits).eng = (State.powerOn p).eng := rfl
@[simp] theorem configured_frm : (State.configured p div bits).frm = (State.powerOn p).frm := rfl
@[simp] theorem configured_bus : (State.configured p div bits).bus = (State.powerOn p).bus := rfl
@[simp] theorem configured_inputs : (State.configured p div bits).inputs = [] := rfl

theorem configured_drv_hw (h : p.backend = .hw) : (State.configured p div bits).drv = (State.powerOn p).drv := by
  simp [State.configured, h]

theorem configured_drv_bb (h : p.backend = .bb) : (State.configured p div bits).drv = Driver.configured := by
  simp [State.configured, h]

end

/-! ## Answers within a budget -/

section
variable (armed : Bool) (due n : Nat) (l : List Move)

@[simp] theorem answersWithin_zero : answersWithin armed 0 n l = true := by
  cases l <;> rfl

@[simp] theorem answersWithin_nil : answersWithin armed (due + 1) n [] = false := rfl

@[simp] theorem answersWithin_seq :
    answersWithin armed (due + 1) n (.seq :: l) = answersWithin armed (due + 1) (n - 1) l := rfl

@[simp] theorem answersWithin_engine (d : EngineDraw) :
    answersWithin armed (due + 1) n (.engine d :: l) = (decide (0 < n) && answersWithin armed due n l) := rfl

@[simp] theorem answersWithin_guard :
    answersWithin armed (due + 1) n (.guard :: l) =
      ((armed && decide (0 < n)) || answersWithin armed (due + 1) n l) := rfl

/-- Only the engine's steps, the sequencer's turns and the guard count. -/
theorem answersWithin_other {m : Move} (hs : m ≠ .seq) (he : m.isEngine = false) (hg : m ≠ .guard) :
    answersWithin armed (due + 1) n (m :: l) = answersWithin armed (due + 1) n l := by
  cases m <;> first | rfl | exact absurd rfl hs | exact absurd rfl hg | simp [Move.isEngine] at he

end

/-- Nothing that is due is answered once the budget is spent. -/
theorem answersWithin_pos {armed : Bool} {due n : Nat} {l : List Move}
    (h : answersWithin armed (due + 1) n l = true) : 0 < n := by
  induction l generalizing n with
  | nil => simp at h
  | cons m l ih =>
    by_cases hs : m = .seq
    · subst hs
      have := ih (by simpa using h)
      omega
    · by_cases he : m.isEngine = true
      · obtain ⟨d, rfl⟩ : ∃ d, m = .engine d := by cases m <;> simp_all [Move.isEngine]
        simp only [answersWithin_engine, Bool.and_eq_true, decide_eq_true_eq] at h
        exact h.1
      · by_cases hg : m = .guard
        · subst hg
          simp only [answersWithin_guard, Bool.or_eq_true, Bool.and_eq_true, decide_eq_true_eq] at h
          exact h.elim (·.2) ih
        · exact ih (by rwa [answersWithin_other _ _ _ _ hs (by simpa using he) hg] at h)

/-! ## A busy-wait -/

/-- A busy-wait before the engine performed its command. -/
structure Waiting (s : State) : Prop where
  backend : s.cfg.backend = .hw
  phase : s.eng.phase ≠ .unknown
  int : s.eng.int = false
  enabled : s.commandEnabled = true
  unissued : s.port.stopIssued = false

/-- The engine has performed the command: nothing is in flight or pending. -/
structure Performed (s : State) : Prop where
  phase : s.eng.phase ≠ .unknown
  int : s.eng.int = true
  ecmd : s.eng.ecmd = none
  pendStop : s.eng.pendStop = false

theorem Performed.disabled {s : State} (h : Performed s) : s.engineEnabled = false :=
  engineEnabled_free h.ecmd h.pendStop h.phase

theorem Performed.of_eng {s t : State} (h : Performed s) (e : t.eng = s.eng) : Performed t :=
  ⟨e ▸ h.phase, e ▸ h.int, e ▸ h.ecmd, e ▸ h.pendStop⟩

theorem Waiting.of_eq {s t : State} (h : Waiting s) (hc : t.cfg = s.cfg) (hd : t.ses.clkdiv = s.ses.clkdiv)
    (he : t.eng = s.eng) (hi : t.port.stopIssued = s.port.stopIssued) : Waiting t :=
  ⟨hc ▸ h.backend, he ▸ h.phase, he ▸ h.int, by
    have := h.enabled
    simpa [State.commandEnabled, hd, he] using this, hi ▸ h.unissued⟩

/-- A command in `ECMD` is due, and a STOP before it if one is pending. -/
theorem Waiting.stepsDue {s : State} (h : Waiting s) : s.stepsDue = s.eng.pendStop.toNat + 1 := by
  have e := h.enabled
  have hc : (s.ses.clkdiv != 0#8) = true := by
    simp only [State.commandEnabled, Bool.and_eq_true] at e
    exact e.1
  simp [State.stepsDue, State.stopEnabled, hc, e]

theorem Waiting.engineEnabled {s : State} (h : Waiting s) : s.engineEnabled = true := by
  have e := h.enabled
  simp only [State.commandEnabled, State.engineEnabled, Bool.and_eq_true, Bool.or_eq_true, h.backend] at *
  refine ⟨⟨by simp, e.1⟩, ?_⟩
  rcases e.2 with e | e
  · exact .inl (.inr e)
  · exact .inr e.1

/-- In a busy-wait no STOP is held back: the operation has issued none. -/
theorem Waiting.engineActs {s : State} (h : Waiting s) : s.engineActs = true := by
  simp [State.engineActs, State.stopHeld, h.engineEnabled, h.unissued]

/-- The engine's step in a busy-wait puts the pending STOP on the bus, behind which only a START waits. -/
theorem Waiting.stop {s : State} (h : Waiting s) (hs : s.eng.pendStop = true) (d : EngineDraw) :
    Waiting (s.engineAct d) ∧ (s.engineAct d).eng.pendStop = false := by
  have hstart : s.eng.ecmd = some .start := by
    have := h.enabled
    simp only [State.commandEnabled, hs, Bool.not_true, Bool.and_false, Bool.or_false, Bool.and_eq_true,
      decide_eq_true_eq] at this
    exact this.2
  obtain ⟨x, hx⟩ : ∃ x, encoderTable s.cfg.codes s.eng.phase .stop = some (x, .idle) := by
    have := h.phase
    rcases hp : s.eng.phase with _ | _ | _ | _ | _ <;> simp_all [encoderTable]
  have e : s.engineAct d =
      { s.emit .stop with eng.code := codeFieldOf x, eng.phase := .idle, eng.pendStop := false } := by
    simp only [State.engineAct, h.phase, if_false, hs, if_true, State.performStop]
    rw [encodeStatus_of_table (s.emit .stop) hx]
  have hclk := h.enabled
  simp only [State.commandEnabled, Bool.and_eq_true] at hclk
  rw [e]
  refine ⟨⟨h.backend, by simp, h.int, ?_, h.unissued⟩, rfl⟩
  simp only [State.commandEnabled, Bool.and_eq_true, Bool.or_eq_true]
  exact ⟨hclk.1, .inl (by simp [State.emit, hstart])⟩

/-- Nothing pending, the engine's step performs the command. -/
theorem Waiting.perform {s : State} (h : Waiting s) (hs : s.eng.pendStop = false) (d : EngineDraw) :
    Performed (s.engineAct d) := by
  have hp := engineAct_phase_known d h.engineEnabled h.phase
  have e := h.enabled
  simp only [State.commandEnabled, Bool.and_eq_true] at e
  rcases hc : s.eng.ecmd with _ | c
  · simp [hc] at e
  · cases c <;>
      simp only [State.engineAct, h.phase, if_false, hs, hc, State.performStart, State.performTx, State.performRx] at hp ⊢
    all_goals exact ⟨hp, rfl, rfl, by cases hd : d.tx <;> simp [State.emit, hs]⟩

/-- A point of an answered busy-wait where the others move: the command is performed, or a poll of the budget is
used. -/
theorem tick_answered {s : State} (l : List Move) (g : Move.guard ∉ l)
    (h : (Performed s ∧ s.ses.waitcnt < s.cfg.waitBudget) ∨
      (Waiting s ∧ answersWithin s.frm.wdArmed s.stepsDue (s.cfg.waitBudget - s.ses.waitcnt) l = true)) :
    ∃ t, holdOn (fun _ => true) l s = .ok () t ∧ t.cfg = s.cfg ∧ t.ses = s.ses ∧ Move.guard ∉ t.inputs ∧
      ((Performed t ∧ t.ses.waitcnt < t.cfg.waitBudget) ∨
        (Waiting t ∧
          answersWithin t.frm.wdArmed t.stepsDue (t.cfg.waitBudget - (t.ses.waitcnt + 1)) t.inputs = true)) := by
  induction l generalizing s with
  | nil =>
    refine ⟨{ s with inputs := [] }, by simp [holdOn], rfl, rfl, by simp, ?_⟩
    rcases h with h | h
    · exact .inl ⟨h.1.of_eng rfl, h.2⟩
    · rw [h.1.stepsDue] at h
      simp at h
  | cons m rest ih =>
    have gr : Move.guard ∉ rest := fun x => g (List.mem_cons_of_mem _ x)
    by_cases hm : m = .seq
    · subst hm
      refine ⟨{ s with inputs := rest }, by simp [holdOn], rfl, rfl, gr, ?_⟩
      rcases h with h | ⟨w, h⟩
      · exact .inl ⟨h.1.of_eng rfl, h.2⟩
      · refine .inr ⟨w.of_eq rfl rfl rfl rfl, ?_⟩
        rw [w.stepsDue, answersWithin_seq] at h
        rw [(w.of_eq (t := { s with inputs := rest }) rfl rfl rfl rfl).stepsDue, ← Nat.sub_sub]
        exact h
    · have hg : m ≠ .guard := fun e => g (e ▸ List.mem_cons_self ..)
      have hf : fires m s = false := by simp [fires, hg]
      have mv := apply_moved hf
      have step : ∃ t, holdOn (fun _ => true) rest (s.apply m) = .ok () t ∧ t.cfg = (s.apply m).cfg ∧
          t.ses = (s.apply m).ses ∧ Move.guard ∉ t.inputs ∧
          ((Performed t ∧ t.ses.waitcnt < t.cfg.waitBudget) ∨
            (Waiting t ∧
              answersWithin t.frm.wdArmed t.stepsDue (t.cfg.waitBudget - (t.ses.waitcnt + 1)) t.inputs = true)) := by
        refine ih gr ?_
        rw [mv.cfg, mv.ses, mv.frm]
        rcases h with h | ⟨w, h⟩
        · exact .inl ⟨h.1.of_eng (mv.engOfDisabled h.1.disabled).1, h.2⟩
        · by_cases he : m.isEngine = true
          · obtain ⟨d, rfl⟩ : ∃ d, m = .engine d := by cases m <;> simp_all [Move.isEngine]
            have e : s.apply (.engine d) = s.engineAct d := by
              simp [State.apply, State.engineMove, w.engineActs]
            rw [e]
            by_cases hs : s.eng.pendStop = true
            · have k := w.stop hs d
              rw [w.stepsDue, hs, Bool.toNat_true, answersWithin_engine, Bool.and_eq_true] at h
              exact .inr ⟨k.1, by rw [k.1.stepsDue, k.2]; exact h.2⟩
            · simp only [Bool.not_eq_true] at hs
              rw [w.stepsDue, hs, Bool.toNat_false, answersWithin_engine, Bool.and_eq_true, decide_eq_true_eq] at h
              exact .inl ⟨w.perform hs d, by omega⟩
          · simp only [Bool.not_eq_true] at he
            have k := (apply_eng hf he).1
            have w' := w.of_eq mv.cfg (by rw [mv.ses]) k mv.issued
            rw [w.stepsDue, answersWithin_other _ _ _ _ hm he hg] at h
            exact .inr ⟨w', by rw [w'.stepsDue, k]; exact h⟩
      obtain ⟨t, h1, h2, h3, h4, h5⟩ := step
      exact ⟨t, by simpa [holdOn, hm, hf] using h1, h2.trans mv.cfg, h3.trans mv.ses, h4, h5⟩

/-- An answered busy-wait ends with the command performed, short of its budget (rules R172, R190). -/
theorem pollInt_answered (n : Nat) {s : State} (g : GuardSilent s) (hn : s.cfg.waitBudget - s.ses.waitcnt < n)
    (h : (Performed s ∧ s.ses.waitcnt < s.cfg.waitBudget) ∨
      (Waiting s ∧ s.waitAnswered = true)) :
    ∃ t, pollInt n s = .ok () t ∧ Performed t ∧ t.cfg = s.cfg ∧ t.ses.clkdiv = s.ses.clkdiv ∧
      t.ses.waitcnt < s.cfg.waitBudget ∧ GuardSilent t := by
  induction n generalizing s with
  | zero => omega
  | succ n ih =>
    obtain ⟨t, h1, h2, h3, h4, h5⟩ := tick_answered s.inputs g h
    have e : pollInt (n + 1) s =
        (if t.eng.int = false ∧ t.ses.waitcnt < t.cfg.waitBudget then
          pollInt n { t with ses.waitcnt := t.ses.waitcnt + 1 }
        else .ok () t) := by
      conv_lhs => unfold pollInt readLine
      rw [op_bind, op_bind]
      have : Machine.tick s = .ok () t := h1
      rw [this]
      show (if t.eng.int = false ∧ t.ses.waitcnt < t.cfg.waitBudget then _ else _ : Op Unit) t = _
      split <;> rfl
    rw [e]
    rcases h5 with ⟨p, k⟩ | ⟨w, k⟩
    · exact ⟨t, by simp [p.int], p, h2, by rw [h3], by rw [← h2]; exact k, h4⟩
    · have hpos := answersWithin_pos (w.stepsDue ▸ k)
      have hw : t.ses.waitcnt = s.ses.waitcnt := by rw [h3]
      have hb : t.cfg.waitBudget = s.cfg.waitBudget := by rw [h2]
      obtain ⟨u, u1, u2, u3, u4, u5, u6⟩ :=
        ih (s := { t with ses.waitcnt := t.ses.waitcnt + 1 }) h4
          (by show t.cfg.waitBudget - (t.ses.waitcnt + 1) < n; omega)
          (.inr ⟨w.of_eq rfl rfl rfl rfl, k⟩)
      refine ⟨u, ?_, u2, u3.trans h2, u4.trans (by rw [h3]), by rw [← h2]; exact u5, u6⟩
      rw [if_pos ⟨w.int, by omega⟩]
      exact u1

end Sys2Proof.Machine
end

