-- ==== Sys2Proof/Laws/Scripts.lean ====
section
/-! SUPPORT. What an operation does when no other agent moves before its lines (`Runs`), line by line; and what one move
of another agent before a line does. With these an operation is evaluated on a script of moves without unfolding
`holdOn`. -/

namespace Sys2Proof.Machine

/-- The state without regard to the moves to come. -/
abbrev State.withInputs (s : State) (l : List Move) : State := { s with inputs := l }

/-- In `k` turns of the sequencer, or with no move left, `x` goes from `s` to `t` and answers `a`. -/
structure Runs {α : Type} (x : Op α) (k : Nat) (s : State) (a : α) (t : State) : Prop where
  turns : ∀ rest, x (s.withInputs (turns k ++ rest)) = .ok a (t.withInputs rest)
  alone : x (s.withInputs []) = .ok a (t.withInputs [])

theorem turns_succ (k : Nat) (rest : List Move) : turns (k + 1) ++ rest = .seq :: (turns k ++ rest) := rfl

theorem turns_add (j k : Nat) : turns (j + k) = turns j ++ turns k :=
  List.replicate_add j k Move.seq

theorem Runs.pure {α : Type} (a : α) (s : State) : Runs (Pure.pure a : Op α) 0 s a s := ⟨fun _ => rfl, rfl⟩

theorem Runs.bind {α β : Type} {x : Op α} {f : α → Op β} {j k : Nat} {s t u : State} {a : α} {b : β}
    (h : Runs x j s a t) (g : Runs (f a) k t b u) : Runs (x >>= f) (j + k) s b u where
  turns rest := by rw [op_bind, turns_add, List.append_assoc, h.turns]; exact g.turns rest
  alone := by rw [op_bind, h.alone]; exact g.alone

/-- A look at the state, then the rest. -/
theorem peek_then {α : Type} (f : State → Op α) (s : State) : (Machine.peek >>= f) s = f s s := rfl

/-- After a part that runs in `k` turns comes the rest, on the moves left. -/
theorem Runs.then {α β : Type} {x : Op α} {k : Nat} {s t : State} {a : α} (h : Runs x k s a t) (f : α → Op β)
    (rest : List Move) : (x >>= f) (s.withInputs (Machine.turns k ++ rest)) = f a (t.withInputs rest) := by
  rw [op_bind, h.turns]

theorem Runs.thenAlone {α β : Type} {x : Op α} {k : Nat} {s t : State} {a : α} (h : Runs x k s a t) (f : α → Op β) :
    (x >>= f) (s.withInputs []) = f a (t.withInputs []) := by
  rw [op_bind, h.alone]

/-- Three parts in sequence, either way they are put together. -/
theorem op_bind_assoc {α β γ : Type} (x : Op α) (f : α → Op β) (g : β → Op γ) :
    (x >>= fun a => f a >>= g) = (x >>= f) >>= g := by
  funext s
  rw [op_bind, op_bind, op_bind]
  cases x s
  · exact op_bind _ _ _
  · rfl

theorem Runs.holdUntil {C : State → Bool} {s : State} (h : C s = true) (hC : IgnoresInputs C) :
    Runs (Machine.holdUntil C) 1 s () s where
  turns rest := by
    have e : C (s.withInputs (Machine.turns 1 ++ rest)) = true := by rw [hC, h]
    show holdOn C (.seq :: rest) (s.withInputs (Machine.turns 1 ++ rest)) = _
    simp only [holdOn, e, if_true]
  alone := by
    have e : C (s.withInputs []) = true := by rw [hC, h]
    show holdOn C [] (s.withInputs []) = _
    simp only [holdOn, e, if_true]

theorem Runs.delay (n : Nat) (s : State) : Runs (Machine.delay n) 1 s () s := Runs.holdUntil rfl fun _ _ => rfl

theorem Runs.waitSclHigh {s : State} (h : s.sclLine = true) : Runs Machine.waitSclHigh 1 s () s :=
  Runs.holdUntil h fun _ _ => rfl

/-- A write that does not look at the moves to come. -/
def PlainWrite (f : State → State) : Prop := ∀ (s : State) (l : List Move), f (s.withInputs l) = (f s).withInputs l

theorem Runs.tick (s : State) : Runs Machine.tick 1 s () s := Runs.holdUntil rfl fun _ _ => rfl

theorem Runs.line {f : State → State} (hf : PlainWrite f) (s : State) : Runs (Machine.line f) 1 s () (f s) :=
  (Runs.tick s).bind (k := 0)
    ⟨fun rest => congrArg (EStateM.Result.ok ()) (hf s rest), congrArg (EStateM.Result.ok ()) (hf s [])⟩

theorem Runs.readLine {α : Type} {f : State → α} (s : State) (hf : ∀ l, f (s.withInputs l) = f s) :
    Runs (Machine.readLine f) 1 s (f s) s :=
  (Runs.tick s).bind (k := 0)
    ⟨fun rest => congrArg (EStateM.Result.ok · (s.withInputs rest)) (hf rest),
      congrArg (EStateM.Result.ok · (s.withInputs [])) (hf [])⟩

/-- What an operation reads of the state before its first line is none of the moves to come. -/
theorem Runs.peek {β : Type} {f : State → Op β} {k : Nat} {s u : State} {b : β}
    (h : ∀ l, Runs (f (s.withInputs l)) k s b u) : Runs (Machine.peek >>= f) k s b u where
  turns rest := (h _).turns rest
  alone := (h _).alone

/-- The line of a test whose branch is known. -/
theorem Runs.congr {α : Type} {x y : Op α} {k : Nat} {s t : State} {a : α} (h : Runs y k s a t) (e : x = y) :
    Runs x k s a t := e ▸ h

theorem plainWrite_moveLines {f : State → State} (hf : PlainWrite f) : PlainWrite (State.moveLines f) := by
  intro s l
  simp only [State.moveLines, hf s l]
  show (if (f s).cfg.backend = .bb ∧ (f s).linePair ≠ s.linePair then _ else _) = _
  split <;> simp_all [State.linePair, State.sclLine, State.sdaLine, State.coreSclLow, State.coreSdaLow]

theorem plainWrite_setSr (v : Byte) : PlainWrite (State.setSr v) := plainWrite_moveLines fun _ _ => rfl
theorem plainWrite_releaseScl : PlainWrite State.releaseScl := plainWrite_moveLines fun _ _ => rfl
theorem plainWrite_setLatch (b : Bool) : PlainWrite (State.setLatch b) := plainWrite_moveLines fun _ _ => rfl
theorem plainWrite_setDirOut (b : Bool) : PlainWrite (State.setDirOut b) := plainWrite_moveLines fun _ _ => rfl
theorem plainWrite_setSdaForce (b : Bool) : PlainWrite (State.setSdaForce b) := plainWrite_moveLines fun _ _ => rfl

theorem plainWrite_pullScl : PlainWrite State.pullScl := by
  intro s l
  simp only [State.pullScl]
  rw [plainWrite_moveLines (f := fun t => { t with drv.sclLow := true }) (fun _ _ => rfl) s l]
  exact plainWrite_moveLines (f := fun t => { t with drv.latch := t.drv.sr.msb }) (fun _ _ => rfl) _ l

theorem plainWrite_shiftSr (b : Bool) : PlainWrite fun s => s.setSr (s.drv.sr.shiftConcat b) :=
  fun s l => plainWrite_setSr (s.drv.sr.shiftConcat b) s l

theorem plainWrite_encodeStatus (e : BusEvent) : PlainWrite (State.encodeStatus e) := by
  intro s l
  simp only [State.encodeStatus]
  split <;> simp_all

theorem plainWrite_checkComplete : PlainWrite State.checkComplete := by
  intro s l
  simp only [State.checkComplete]
  split <;> simp_all

theorem plainWrite_noteInFlight : PlainWrite State.noteInFlight := by
  intro s l
  simp only [State.noteInFlight]
  split <;> simp_all

theorem plainWrite_timeOut : PlainWrite State.timeOut := by
  intro s l
  simp only [State.timeOut]
  split <;> simp_all

/-- A move of another agent before a line: the moves to come are not looked at by it. -/
theorem plainWrite_apply (m : Move) : PlainWrite (State.apply m) := by
  intro s l
  cases m with
  | seq => rfl
  | envScl b => exact plainWrite_moveLines (f := fun t => { t with bus.envSclLow := b }) (fun _ _ => rfl) s l
  | envSda b => exact plainWrite_moveLines (f := fun t => { t with bus.envSdaLow := b }) (fun _ _ => rfl) s l
  | engine d =>
    simp only [State.apply, State.engineMove]
    show (if s.engineActs then _ else _) = _
    split
    · simp only [State.engineAct]
      split
      · rfl
      · split
        · simp only [State.performStop]
          rw [show (s.withInputs l).emit .stop = (s.emit .stop).withInputs l from rfl, plainWrite_encodeStatus]
        · split
          · simp only [State.performStart]
            rw [show (s.withInputs l).emit _ = (s.emit _).withInputs l from rfl, plainWrite_encodeStatus]
          · simp only [State.performTx]
            split
            · rw [show (s.withInputs l).releaseEngine.emit _ = (s.releaseEngine.emit _).withInputs l from rfl,
                plainWrite_encodeStatus]
            · rw [show (s.withInputs l).emit _ = (s.emit _).withInputs l from rfl, plainWrite_encodeStatus]
            · rw [show (s.withInputs l).emit _ = (s.emit _).withInputs l from rfl, plainWrite_encodeStatus]
          · simp only [State.performRx]
            exact congrArg (fun t : State => { t with eng.ecmd := none, eng.int := true })
              (plainWrite_encodeStatus (.rx false) (({ s with eng.data := d.rx } : State).emit (.byte d.rx false)) l)
          · simp only [State.performRx]
            exact congrArg (fun t : State => { t with eng.ecmd := none, eng.int := true })
              (plainWrite_encodeStatus (.rx true) (({ s with eng.data := d.rx } : State).emit (.byte d.rx true)) l)
          · rfl
    · rfl
  | engineLines a b => simp only [State.apply, State.engineLinesMove]; split <;> rfl
  | guard =>
    simp only [State.apply, State.guardMove]
    show (if s.frm.wdArmed then _ else _) = _
    split
    · simp only [State.coreReset]
      split <;> rfl
    · rfl
  | hostByte b =>
    simp only [State.apply, State.hostByteMove]
    show (if (!s.port.rxValid && s.rxReady) = true then _ else _) = _
    split <;> rfl
  | hostCommand w =>
    simp only [State.apply, State.hostCommandMove]
    split <;> rfl
  | hostReads => rfl
  | observe => rfl

/-- A hold looks at the moves it is given, not at those the state lists. -/
theorem holdOn_withInputs {C : State → Bool} (hC : IgnoresInputs C) (l l' : List Move) (s : State) :
    holdOn C l (s.withInputs l') = holdOn C l s := by
  induction l generalizing s with
  | nil => simp only [holdOn, hC s l']
  | cons m rest ih =>
    have hr : (s.withInputs l').coreReset.withInputs rest = s.coreReset.withInputs rest := by
      simp only [State.coreReset]
      split <;> rfl
    have hf : fires m (s.withInputs l') = fires m s := rfl
    simp only [holdOn, hC s l', ih, plainWrite_apply m s l', hf]
    exact congrArg (fun t : State => if m = .seq then if C s then .ok () (s.withInputs rest) else holdOn C rest s
      else if fires m s then .error .cut t else holdOn C rest (s.apply m)) hr

/-- An operation whose first line is a point where the others may move: one move that is not the guard's reset, then
the same operation. -/
def TakesMoves {α : Type} (x : Op α) : Prop :=
  ∀ (s : State) (m : Move) (rest : List Move), m ≠ .seq → fires m s = false →
    x (s.withInputs (m :: rest)) = x ((s.apply m).withInputs rest)

theorem TakesMoves.holdUntil {C : State → Bool} (hC : IgnoresInputs C) : TakesMoves (Machine.holdUntil C) := by
  intro s m rest hm hf
  show holdOn C (m :: rest) (s.withInputs (m :: rest)) = holdOn C rest ((s.apply m).withInputs rest)
  rw [holdOn_withInputs hC, show holdOn C rest ((s.apply m).withInputs rest) = _ from holdOn_withInputs hC _ _ _,
    holdOn]
  simp [hm, hf]

theorem TakesMoves.bind {α β : Type} {x : Op α} {f : α → Op β} (h : TakesMoves x) : TakesMoves (x >>= f) := by
  intro s m rest hm hf
  rw [op_bind, op_bind, h s m rest hm hf]

theorem TakesMoves.tick : TakesMoves Machine.tick := TakesMoves.holdUntil fun _ _ => rfl
theorem TakesMoves.delay (n : Nat) : TakesMoves (Machine.delay n) := TakesMoves.tick
theorem TakesMoves.line (f : State → State) : TakesMoves (Machine.line f) := TakesMoves.bind TakesMoves.tick
theorem TakesMoves.readLine {α : Type} (f : State → α) : TakesMoves (Machine.readLine f) :=
  TakesMoves.bind TakesMoves.tick

end Sys2Proof.Machine
end

