-- ==== Sys2Proof/Laws/Unread.lean ====
section
/-! SUPPORT. Two states that differ in what no rule reads alone: every operation and every step take them to states, and
to ends, that differ in it alone (`Unread`). The induction over an operation's lines, made once for any such part of the
state. -/

namespace Sys2Proof.Machine

variable {R : State → State → Prop}

/-- The same end, with the same result, in related states. -/
def SameEnd {α : Type} (R : State → State → Prop) :
    EStateM.Result Stop State α → EStateM.Result Stop State α → Prop
  | .ok a s, .ok b t => a = b ∧ R s t
  | .error e s, .error f t => e = f ∧ R s t
  | _, _ => False

/-- From related states the operation comes to the same end. -/
def Blind {α : Type} (R : State → State → Prop) (x : Op α) : Prop := ∀ s t, R s t → SameEnd R (x s) (x t)

/-- What the rules read is the same in the two states. -/
structure SameReads (s t : State) : Prop where
  cfg : s.cfg = t.cfg
  drv : s.drv = t.drv
  ses : s.ses = t.ses
  eng : s.eng = t.eng
  port : s.port = t.port
  cursor : s.frm.cursor = t.frm.cursor
  remaining : s.frm.remaining = t.frm.remaining
  sclLine : s.sclLine = t.sclLine
  sdaLine : s.sdaLine = t.sdaLine

/-- A relation of states that differ in what no rule reads alone: the reads agree, a hold comes to the same end, and
every write of every operation keeps it. -/
structure Unread (R : State → State → Prop) : Prop where
  reads : ∀ {s t}, R s t → SameReads s t
  hold : ∀ C : State → Bool, (∀ s t, SameReads s t → C s = C t) → Blind R (holdUntil C)
  setSr : ∀ {s t} v, R s t → R (s.setSr v) (t.setSr v)
  releaseScl : ∀ {s t}, R s t → R s.releaseScl t.releaseScl
  pullScl : ∀ {s t}, R s t → R s.pullScl t.pullScl
  setLatch : ∀ {s t} b, R s t → R (s.setLatch b) (t.setLatch b)
  setDirOut : ∀ {s t} b, R s t → R (s.setDirOut b) (t.setDirOut b)
  setSdaForce : ∀ {s t} b, R s t → R (s.setSdaForce b) (t.setSdaForce b)
  bitcnt : ∀ {s t} x, R s t → R { s with drv.bitcnt := x } { t with drv.bitcnt := x }
  tc : ∀ {s t} x, R s t → R { s with drv.tc := x } { t with drv.tc := x }
  bbCfg : ∀ {s t} x, R s t → R { s with drv.bbCfg := x } { t with drv.bbCfg := x }
  session : ∀ {s t} x, R s t → R { s with ses := x } { t with ses := x }
  engine : ∀ {s t} x, R s t → R { s with eng := x } { t with eng := x }
  port : ∀ {s t} x, R s t → R { s with port := x } { t with port := x }
  cursor : ∀ {s t} x, R s t → R { s with frm.cursor := x } { t with frm.cursor := x }
  remaining : ∀ {s t} x, R s t → R { s with frm.remaining := x } { t with frm.remaining := x }
  lastSt : ∀ {s t} x, R s t → R { s with frm.lastSt := x } { t with frm.lastSt := x }
  wdArmed : ∀ {s t} x, R s t → R { s with frm.wdArmed := x } { t with frm.wdArmed := x }

section
variable {α β : Type}

theorem Blind.pure (a : α) : Blind R (Pure.pure a : Op α) := fun _ _ h => ⟨rfl, h⟩

theorem Blind.modify {f : State → State} (h : ∀ {s t}, R s t → R (f s) (f t)) : Blind R (modify f : Op Unit) :=
  fun _ _ r => ⟨rfl, h r⟩

theorem Blind.bind {x : Op α} {f : α → Op β} (h : Blind R x) (k : ∀ a, Blind R (f a)) : Blind R (x >>= f) := by
  intro s t r
  have := h s t r
  rw [op_bind, op_bind]
  cases hx : x s <;> cases hy : x t <;> rw [hx, hy] at this
  · obtain ⟨rfl, r'⟩ := this
    exact k _ _ _ r'
  · exact this.elim
  · exact this.elim
  · exact this

/-- A look at the state, of which what follows depends on reads alone. -/
theorem Blind.peek {f : State → Op α} (e : ∀ s t, R s t → f s = f t) (k : ∀ a, Blind R (f a)) :
    Blind R (Machine.peek >>= f) := by
  intro s t r
  show SameEnd R (f s s) (f t t)
  rw [← e s t r]
  exact k s s t r

theorem Blind.ite {c : Prop} [Decidable c] {x y : Op α} (h : Blind R x) (k : Blind R y) :
    Blind R (if c then x else y) := by
  split <;> assumption

end

section
variable (h : Unread R)
include h

theorem Unread.tick : Blind R Machine.tick := h.hold _ fun _ _ _ => rfl

theorem Unread.delay (n : Nat) : Blind R (Machine.delay n) := h.tick

theorem Unread.wait : Blind R waitSclHigh := h.hold _ fun _ _ r => r.sclLine

theorem Unread.line {f : State → State} (w : ∀ {s t}, R s t → R (f s) (f t)) : Blind R (Machine.line f) :=
  h.tick.bind fun _ => Blind.modify w

/-- A line that reads, of which what follows depends on reads alone. -/
theorem Unread.readThen {α β : Type} {f : State → α} {k : α → Op β} (e : ∀ s t, R s t → k (f s) = k (f t))
    (hk : ∀ a, Blind R (k a)) : Blind R (Machine.readLine f >>= k) := by
  have : (Machine.readLine f >>= k) = Machine.tick >>= fun _ => Machine.peek >>= fun s => k (f s) := by
    funext s
    simp only [Machine.readLine]
    rw [op_bind, op_bind, op_bind]
    cases Machine.tick s <;> rfl
  rw [this]
  exact h.tick.bind fun _ => Blind.peek e fun a => hk (f a)

theorem Unread.read {α : Type} {f : State → α} (e : ∀ s t, R s t → f s = f t) : Blind R (Machine.readLine f) :=
  h.tick.bind fun _ => Blind.peek (fun s t r => congrArg Pure.pure (e s t r)) fun a => Blind.pure (f a)

theorem Unread.encodeStatus (e : BusEvent) {s t : State} (r : R s t) : R (s.encodeStatus e) (t.encodeStatus e) := by
  have w : ∀ u : State, u.encodeStatus e = { u with eng := (u.encodeStatus e).eng } := fun u => by
    simp only [State.encodeStatus]
    split <;> rfl
  have q : (s.encodeStatus e).eng = (t.encodeStatus e).eng := by
    simp only [State.encodeStatus, (h.reads r).cfg, (h.reads r).eng]
    split <;> rfl
  rw [w s, w t, q]
  exact h.engine _ r

theorem Unread.bitcntBy (f : BitVec 4 → BitVec 4) {s t : State} (r : R s t) :
    R { s with drv.bitcnt := f s.drv.bitcnt } { t with drv.bitcnt := f t.drv.bitcnt } := by
  have := h.bitcnt (f s.drv.bitcnt) r
  rwa [show f s.drv.bitcnt = f t.drv.bitcnt by rw [(h.reads r).drv]] at this ⊢

theorem Unread.eng (f : Engine → Engine) {s t : State} (r : R s t) :
    R { s with eng := f s.eng } { t with eng := f t.eng } := by
  have := h.engine (f s.eng) r
  simpa only [(h.reads r).eng] using this

theorem Unread.ses (f : Session → Session) {s t : State} (r : R s t) :
    R { s with ses := f s.ses } { t with ses := f t.ses } := by
  have := h.session (f s.ses) r
  simpa only [(h.reads r).ses] using this

theorem Unread.prt (f : Port → Port) {s t : State} (r : R s t) :
    R { s with port := f s.port } { t with port := f t.port } := by
  have := h.port (f s.port) r
  simpa only [(h.reads r).port] using this

theorem Unread.bitCycle : Blind R bitCycle := by
  unfold Machine.bitCycle
  refine Blind.peek (fun s t r => by simp only [(h.reads r).cfg]) fun p => (h.delay _).bind fun _ =>
    (h.line h.releaseScl).bind fun _ => h.wait.bind fun _ => (h.read fun s t r => (h.reads r).sdaLine).bind fun b =>
    (h.line fun {s t} r => ?_).bind fun _ => (h.delay _).bind fun _ => (h.line h.pullScl).bind fun _ =>
    h.line (h.bitcntBy (· - 1))
  have := h.setSr (s.drv.sr.shiftConcat b) r
  simpa only [(h.reads r).drv] using this

theorem Unread.checkComplete {s t : State} (r : R s t) : R s.checkComplete t.checkComplete := by
  simp only [State.checkComplete]
  rw [(h.reads r).drv]
  split
  · have := h.tc true r
    simpa only [(h.reads r).drv] using this
  · exact r

theorem Unread.transferLoop (n : Nat) : Blind R (transferLoop n) := by
  induction n with
  | zero => exact Blind.pure ()
  | succ n ih =>
    unfold Machine.transferLoop
    exact Blind.peek (fun s t r => by simp only [(h.reads r).drv]) fun s => Blind.ite (Blind.pure ())
      (h.bitCycle.bind fun _ => (h.line h.checkComplete).bind fun _ => ih)

theorem Unread.transfer (cw : Byte) : Blind R (transfer cw) := by
  unfold Machine.transfer
  exact Blind.peek (fun s t r => by simp only [(h.reads r).cfg]) fun p =>
    (h.line (h.bitcnt _)).bind fun _ => (h.line (h.tc false)).bind fun _ =>
    (h.transferLoop _).bind fun _ => (h.delay _).bind fun _ =>
    (h.read fun s t r => by rw [(h.reads r).drv]).bind fun b => (h.line (h.setSr _)).bind fun _ =>
    (h.line (h.setDirOut _)).bind fun _ => Blind.pure b

theorem Unread.configureBody : Blind R configureBody := by
  unfold Machine.configureBody
  exact (h.line h.releaseScl).bind fun _ => (h.line (h.setSr _)).bind fun _ => (h.line (h.setLatch _)).bind fun _ =>
    (h.line (h.setSdaForce _)).bind fun _ => (h.line (h.setDirOut _)).bind fun _ => (h.line (h.tc false)).bind fun _ =>
    (h.line (h.bitcnt _)).bind fun _ => h.line (h.bbCfg true)

theorem Unread.startBody : Blind R startBody := by
  unfold Machine.startBody
  exact Blind.peek (fun s t r => by simp only [(h.reads r).cfg]) fun p => (h.line h.releaseScl).bind fun _ =>
    h.wait.bind fun _ => (h.delay _).bind fun _ => (h.line (h.setSdaForce _)).bind fun _ => (h.delay _).bind fun _ =>
    (h.line h.pullScl).bind fun _ => h.line (h.setSdaForce _)

theorem Unread.stopBody : Blind R stopBody := by
  unfold Machine.stopBody
  exact Blind.peek (fun s t r => by simp only [(h.reads r).cfg]) fun p => (h.line (h.setSdaForce _)).bind fun _ =>
    (h.line h.releaseScl).bind fun _ => h.wait.bind fun _ => (h.delay _).bind fun _ =>
    (h.line (h.setSdaForce _)).bind fun _ => h.delay _

theorem Unread.putByteBody (data : Byte) : Blind R (putByteBody data) := by
  unfold Machine.putByteBody
  exact (h.line h.pullScl).bind fun _ => (h.line (h.setDirOut _)).bind fun _ => (h.line (h.setSr _)).bind fun _ =>
    (h.transfer _).bind fun _ => (h.line (h.setDirOut _)).bind fun _ => (h.transfer _).bind fun r => Blind.pure _

theorem Unread.getByteBody (last : Bool) : Blind R (getByteBody last) := by
  unfold Machine.getByteBody
  exact (h.line (h.setDirOut _)).bind fun _ => (h.transfer _).bind fun b => (h.line (h.setSr _)).bind fun _ =>
    (h.transfer _).bind fun _ => Blind.pure b

theorem Unread.noteInFlight {s t : State} (r : R s t) : R s.noteInFlight t.noteInFlight := by
  simp only [State.noteInFlight]
  rw [(h.reads r).eng]
  split
  · have := h.eng (fun e => { e with phase := .unknown }) r
    simpa only [(h.reads r).eng] using this
  · exact r

theorem Unread.timeOut {s t : State} (r : R s t) : R s.timeOut t.timeOut := by
  have := h.eng (fun e => { e with ecmd := none }) r
  simp only [State.timeOut, (h.reads r).eng] at *
  split <;> first | exact this | exact r

theorem Unread.engineIssue (cmd : EngineCmd) : Blind R (engineIssue cmd) := by
  unfold Machine.engineIssue
  exact (h.line h.noteInFlight).bind fun _ => (h.line (h.eng fun e => { e with int := false })).bind fun _ =>
    h.line (h.eng fun e => { e with ecmd := some cmd })

theorem Unread.pollInt (n : Nat) : Blind R (pollInt n) := by
  induction n with
  | zero => exact Blind.pure ()
  | succ n ih =>
    unfold Machine.pollInt
    exact h.readThen (fun s t r => by simp only [id, (h.reads r).cfg, (h.reads r).ses, (h.reads r).eng]) fun s =>
      Blind.ite ((Blind.modify (h.ses fun x => { x with waitcnt := x.waitcnt + 1 })).bind fun _ => ih) (Blind.pure ())

theorem Unread.statusSeen {s t : State} (r : R s t) : s.statusSeen = t.statusSeen := by
  simp only [State.statusSeen, State.statReg, (h.reads r).eng, (h.reads r).ses]

theorem Unread.idleXfer : Blind R (Machine.line (State.encodeStatus .idleXfer)) := h.line (h.encodeStatus _)

theorem Unread.adapterRx (m : Bool) : Blind R (adapterRx m) := by
  unfold Machine.adapterRx
  exact Blind.peek (fun s t r => by simp only [(h.reads r).eng]) fun s => Blind.ite h.idleXfer
    ((h.getByteBody m).bind fun b => (h.line (h.eng fun e => { e with data := b })).bind fun _ =>
      h.line (h.encodeStatus _))

theorem Unread.adapterOp (cmd : EngineCmd) : Blind R (adapterOp cmd) := by
  cases cmd
  · exact h.startBody.bind fun _ => h.line (h.encodeStatus _)
  · unfold Machine.adapterOp adapterTx
    exact Blind.peek (fun s t r => by simp only [(h.reads r).eng]) fun s => Blind.ite h.idleXfer
      ((h.putByteBody _).bind fun a => h.line (h.encodeStatus _))
  · exact h.adapterRx false
  · exact h.adapterRx true

theorem Unread.engineDoHw (cmd : EngineCmd) : Blind R (engineDoHw cmd) := by
  unfold Machine.engineDoHw
  refine (h.engineIssue cmd).bind fun _ => (h.line (h.ses fun x => { x with waitcnt := 0 })).bind fun _ =>
    Blind.peek (fun s t r => by simp only [(h.reads r).cfg]) fun p => (h.pollInt _).bind fun _ =>
    h.readThen (fun s t r => ?_) fun s => Blind.ite (Blind.pure _) ((h.line h.timeOut).bind fun _ => Blind.pure _)
  simp only [id, (h.reads r).eng, h.statusSeen r]

theorem Unread.engineDo (cmd : EngineCmd) : Blind R (engineDo cmd) := by
  unfold Machine.engineDo
  refine Blind.peek (fun s t r => by simp only [(h.reads r).cfg]) fun p => ?_
  split
  · exact h.engineDoHw cmd
  · exact (h.adapterOp cmd).bind fun _ => h.read fun s t r => h.statusSeen r

theorem Unread.engineStop : Blind R engineStop := by
  unfold Machine.engineStop
  refine Blind.peek (fun s t r => by simp only [(h.reads r).cfg]) fun p => ?_
  split
  · exact (h.line h.noteInFlight).bind fun _ => h.line fun {s t} r => h.prt (fun p => { p with stopIssued := true })
      (h.eng (fun e => { e with pendStop := true }) r)
  · exact h.stopBody.bind fun _ => h.line (h.encodeStatus _)

theorem Unread.writeSession (data : Byte) : Blind R (writeSession data) := by
  unfold Machine.writeSession
  exact Blind.peek (fun s t r => by simp only [(h.reads r).ses, (h.reads r).cfg]) fun s => Blind.ite (Blind.pure _)
    ((h.line (h.eng fun e => { e with data := data })).bind fun _ => (h.engineDo _).bind fun st => Blind.pure _)

theorem Unread.startSession (address : Byte) (mode : Mode) : Blind R (startSession address mode) := by
  unfold Machine.startSession
  exact Blind.peek (fun s t r => by simp only [(h.reads r).ses, (h.reads r).cfg]) fun s => Blind.ite (Blind.pure _)
    ((h.engineDo _).bind fun st => Blind.ite ((h.writeSession _).bind fun r => Blind.pure _) (Blind.pure _))

theorem Unread.readSession (cmd : EngineCmd) : Blind R (readSession cmd) := by
  unfold Machine.readSession
  exact Blind.peek (fun s t r => by simp only [(h.reads r).ses]) fun s => Blind.ite (Blind.pure _)
    ((h.engineDo _).bind fun st => h.read fun s t r => by rw [(h.reads r).eng])

theorem Unread.stopSession : Blind R stopSession := by
  unfold Machine.stopSession
  exact Blind.peek (fun s t r => by simp only [(h.reads r).ses]) fun s => Blind.ite (Blind.pure _)
    (h.engineStop.bind fun _ => Blind.pure _)

theorem Unread.configureSession (div bits : Byte) : Blind R (configureSession div bits) := by
  unfold Machine.configureSession
  exact Blind.peek (fun s t r => by simp only [(h.reads r).ses, (h.reads r).cfg]) fun s => Blind.ite (Blind.pure _)
    ((h.line (h.ses fun x => { x with clkdiv := div })).bind fun _ =>
      (h.line (h.ses fun x => { x with opt := x.opt ||| bits.extractLsb' 0 2 })).bind fun _ =>
      Blind.ite (h.configureBody.bind fun _ => Blind.pure _) (Blind.pure _))

theorem Unread.closeFrame : Blind R closeFrame := by
  unfold Machine.closeFrame
  exact h.stopSession.bind fun _ => (h.line (h.wdArmed _)).bind fun _ => h.line (h.cursor _)

theorem Unread.respond (code : Byte) (notcfg : Bool) : Blind R (respond code notcfg) :=
  h.line (h.prt fun p => { p with respCode := code, respFlags := respFlagsOf notcfg false, respValid := true,
                                  refusal := none, busy := false, stopIssued := false })

theorem Unread.refuse (reason : RefuseReason) : Blind R (refuse reason) :=
  h.line (h.prt fun p => { p with respCode := 0#8, respFlags := respFlagsOf false true, respValid := true,
                                  refusal := some reason, busy := false, stopIssued := false })

theorem Unread.endReceived : Blind R endReceived := h.line (h.prt fun p => { p with busy := false, stopIssued := false })

theorem Unread.bbCommand (a b : Bool) {body : Op Byte} (k : Blind R body) : Blind R (bbCommand a b body) := by
  unfold Machine.bbCommand
  exact Blind.peek (fun s t r => by simp only [(h.reads r).cfg, (h.reads r).cursor, (h.reads r).drv]) fun s =>
    Blind.ite (h.refuse _) (Blind.ite (h.refuse _) (Blind.ite (h.refuse _) (Blind.ite (h.refuse _)
      (k.bind fun c => h.respond c false))))

theorem Unread.sesCommand {body : Op Byte} (k : Blind R body) : Blind R (sesCommand body) := by
  unfold Machine.sesCommand
  exact Blind.peek (fun s t r => by simp only [(h.reads r).cursor, (h.reads r).ses]) fun s =>
    Blind.ite (h.refuse _) (k.bind fun c => h.respond c _)

/-- The same outcome, in related states. -/
def SameOutcome (R : State → State → Prop) :
    Host.Outcome State Fault Refusal → Host.Outcome State Fault Refusal → Prop
  | .next s, .next t => R s t
  | .fault (.busHang s), .fault (.busHang t) => R s t
  | _, _ => False

theorem Unread.runOp {body : Op Unit} (k : Blind R body) {s t : State} (r : R s t) :
    SameOutcome R (runOp body s) (runOp body t) := by
  have := k _ _ (h.prt (fun p => { p with busy := true, stopIssued := false }) r)
  simp only [Machine.runOp]
  cases hx : body s.running <;> cases hy : body t.running <;>
    rw [hx, hy] at this
  · exact this.2
  · exact this.elim
  · exact this.elim
  · rename_i e _ f _
    obtain ⟨rfl, r'⟩ := this
    cases e <;> exact r'

theorem Unread.remainingBy (f : BitVec 16 → BitVec 16) {s t : State} (r : R s t) :
    R { s with frm.remaining := f s.frm.remaining } { t with frm.remaining := f t.frm.remaining } := by
  have := h.remaining (f s.frm.remaining) r
  have e := (h.reads r).remaining
  rw [show f t.frm.remaining = f s.frm.remaining by rw [e]]
  exact this

/-- Every operation comes to the same outcome. -/
theorem Unread.exec (i : Instr) {s t : State} (r : R s t) : SameOutcome R (exec i s) (exec i t) := by
  cases i with
  | bbConfigure => exact h.runOp (h.bbCommand _ _ (h.configureBody.bind fun _ => Blind.pure _)) r
  | bbStart => exact h.runOp (h.bbCommand _ _ (h.startBody.bind fun _ => Blind.pure _)) r
  | bbStop => exact h.runOp (h.bbCommand _ _ (h.stopBody.bind fun _ => Blind.pure _)) r
  | bbPutbyte data => exact h.runOp (h.bbCommand _ _ (h.putByteBody data)) r
  | bbGetbyte last => exact h.runOp (h.bbCommand _ _ (h.getByteBody last)) r
  | bbTransfer cw => exact h.runOp (h.bbCommand _ _ (h.transfer cw)) r
  | sesConfigure div bits => exact h.runOp ((h.configureSession div bits).bind fun c => h.respond c false) r
  | sesStart mode address => exact h.runOp (h.sesCommand (h.startSession address mode)) r
  | sesWrite data => exact h.runOp (h.sesCommand (h.writeSession data)) r
  | sesReadAck => exact h.runOp (h.sesCommand (h.readSession .rxAck)) r
  | sesReadNack => exact h.runOp (h.sesCommand (h.readSession .rxNack)) r
  | sesStop => exact h.runOp (h.sesCommand h.stopSession) r
  | rxAddr b =>
    exact h.runOp ((h.line (h.remaining _)).bind fun _ => (h.startSession b .write).bind fun _ =>
      (h.line (h.lastSt _)).bind fun _ => (h.line (h.cursor _)).bind fun _ => h.endReceived) r
  | rxLenHi b =>
    exact h.runOp ((h.line (h.remaining _)).bind fun _ => (h.line (h.cursor _)).bind fun _ => h.endReceived) r
  | rxLenLo b =>
    exact h.runOp ((h.line (h.remainingBy fun n => lengthJoin n b)).bind fun _ => (h.line (h.wdArmed _)).bind fun _ =>
      Blind.peek (fun s t r => by simp only [(h.reads r).remaining]) fun t =>
        Blind.ite (h.closeFrame.bind fun _ => h.endReceived) ((h.line (h.cursor _)).bind fun _ => h.endReceived)) r
  | rxPayload b =>
    exact h.runOp ((h.writeSession b).bind fun _ => (h.line (h.lastSt _)).bind fun _ =>
      (h.line (h.wdArmed _)).bind fun _ => (h.line (h.remainingBy (· - 1))).bind fun _ =>
      Blind.peek (fun s t r => by simp only [(h.reads r).remaining]) fun t =>
        Blind.ite (h.closeFrame.bind fun _ => h.endReceived) h.endReceived) r

/-- The sequencer's turn comes to the same outcome. -/
theorem Unread.sequencerTurn {s t : State} (r : R s t) : SameOutcome R (sequencerTurn s) (sequencerTurn t) := by
  simp only [Machine.sequencerTurn, takeByte, takeCommand]
  rw [(h.reads r).port, (h.reads r).cursor]
  split
  · exact r
  · split
    · have := h.prt (fun p => { p with rxValid := false }) r
      simpa only [(h.reads r).port] using h.exec _ this
    · split
      · have := h.prt (fun p => { p with cmdValid := false }) r
        split
        · simpa only [(h.reads r).port] using h.exec _ this
        · simpa only [(h.reads r).port] using h.runOp (h.refuse _) this
      · exact r

end

/-! ## The observer -/

/-- The state with other moves to come and other notes. -/
abbrev State.withSeen (l : List Move) (v : List Moment) (s : State) : State := { s with inputs := l, seen := v }

theorem encodeStatus_withSeen (e : BusEvent) (s : State) (l : List Move) (v : List Moment) :
    (s.withSeen l v).encodeStatus e = (s.encodeStatus e).withSeen l v := by
  simp only [State.encodeStatus]
  split <;> simp_all

theorem moveLines_withSeen {f : State → State} (hf : ∀ s l v, f (s.withSeen l v) = (f s).withSeen l v) (s : State)
    (l : List Move) (v : List Moment) : (s.withSeen l v).moveLines f = (s.moveLines f).withSeen l v := by
  simp only [State.moveLines, hf s l v]
  clear hf
  show (if (f s).cfg.backend = .bb ∧ (f s).linePair ≠ s.linePair then _ else _) = _
  split <;> simp_all [State.linePair, State.sclLine, State.sdaLine, State.coreSclLow, State.coreSdaLow]

/-- The byte engine's step looks at no moves to come and no notes. -/
theorem engineMove_withSeen (d : EngineDraw) (s : State) (l : List Move) (v : List Moment) :
    (s.withSeen l v).engineMove d = (s.engineMove d).withSeen l v := by
  have k : ∀ (w : State) (e : BusEvent) (f : Engine → Engine),
      ({ (w.withSeen l v).encodeStatus e with eng := f ((w.withSeen l v).encodeStatus e).eng } : State) =
        ({ w.encodeStatus e with eng := f (w.encodeStatus e).eng } : State).withSeen l v := by
    intro w e f
    rw [encodeStatus_withSeen]
  simp only [State.engineMove]
  show (if s.engineActs then _ else _) = _
  split
  · simp only [State.engineAct]
    split
    · rfl
    · split
      · exact k (s.emit .stop) .stop fun e => { e with pendStop := false }
      · split
        · exact k (s.emit _) .start fun e => { e with ecmd := none, int := true }
        · simp only [State.performTx]
          split
          · exact k (s.releaseEngine.emit .lost) .txLost fun e => { e with ecmd := none, int := true }
          · exact k (s.emit _) (.tx s.eng.data false) fun e => { e with ecmd := none, int := true }
          · exact k (s.emit _) (.tx s.eng.data true) fun e => { e with ecmd := none, int := true }
        · exact k (({ s with eng.data := d.rx } : State).emit (.byte d.rx false)) (.rx false) fun e =>
            { e with ecmd := none, int := true }
        · exact k (({ s with eng.data := d.rx } : State).emit (.byte d.rx true)) (.rx true) fun e =>
            { e with ecmd := none, int := true }
        · rfl
  · rfl

/-- A move of another agent looks at no moves to come and no notes. -/
theorem apply_withSeen {m : Move} (hm : m ≠ .observe) (s : State) (l : List Move) (v : List Moment) :
    (s.withSeen l v).apply m = (s.apply m).withSeen l v := by
  cases m with
  | observe => exact absurd rfl hm
  | seq => rfl
  | envScl b => exact moveLines_withSeen (f := fun t => { t with bus.envSclLow := b }) (fun _ _ _ => rfl) s l v
  | envSda b => exact moveLines_withSeen (f := fun t => { t with bus.envSdaLow := b }) (fun _ _ _ => rfl) s l v
  | engine d => exact engineMove_withSeen d s l v
  | engineLines a b => simp only [State.apply, State.engineLinesMove]; split <;> rfl
  | guard =>
    simp only [State.apply, State.guardMove]
    show (if s.frm.wdArmed then _ else _) = _
    split
    · simp only [State.coreReset]
      split <;> rfl
    · rfl
  | hostByte b =>
    simp only [State.apply, State.hostByteMove]
    show (if (!s.port.rxValid && s.rxReady) = true then _ else _) = _
    split <;> rfl
  | hostCommand w => simp only [State.apply, State.hostCommandMove]; split <;> rfl
  | hostReads => rfl

/-- The moves of the agents, without the observer's. -/
def unobserved (l : List Move) : List Move := l.filter (· ≠ .observe)

/-- The two states differ in the observer alone. -/
def ButObserved (s t : State) : Prop := (∃ l v, t = s.withSeen l v) ∧ unobserved s.inputs = unobserved t.inputs

theorem unobserved_unobserved (l : List Move) : unobserved (unobserved l) = unobserved l := by
  simp [unobserved]

theorem ButObserved.withSeen (s : State) {l l' : List Move} (v v' : List Moment) (h : unobserved l = unobserved l') :
    ButObserved (s.withSeen l v) (s.withSeen l' v') := ⟨⟨l', v', rfl⟩, h⟩

theorem ButObserved.symm {s t : State} (h : ButObserved s t) : ButObserved t s := by
  obtain ⟨⟨l, v, rfl⟩, e⟩ := h
  exact .withSeen s v s.seen e.symm

theorem ButObserved.trans {s t u : State} (h : ButObserved s t) (k : ButObserved t u) : ButObserved s u := by
  obtain ⟨⟨l, v, rfl⟩, e⟩ := h
  obtain ⟨⟨l', v', rfl⟩, e'⟩ := k
  exact ⟨⟨l', v', rfl⟩, e.trans e'⟩

/-- A write that looks at no moves to come and no notes. -/
theorem ButObserved.write {f : State → State} (hf : ∀ s l v, f (s.withSeen l v) = (f s).withSeen l v)
    (hi : ∀ s, (f s).inputs = s.inputs) {s t : State} (h : ButObserved s t) : ButObserved (f s) (f t) := by
  obtain ⟨⟨l, v, rfl⟩, e⟩ := h
  exact ⟨⟨l, v, hf s l v⟩, by rw [hi, hi]; exact e⟩

/-- The same for a write of a line. -/
theorem ButObserved.lines (f : State → State) (hf : ∀ s l v, f (s.withSeen l v) = (f s).withSeen l v)
    (hi : ∀ s, (f s).inputs = s.inputs) {s t : State} (h : ButObserved s t) :
    ButObserved (s.moveLines f) (t.moveLines f) :=
  h.write (moveLines_withSeen hf) fun s => (moveLines_inputs s f).trans (hi s)

theorem SameEnd.symm {α : Type} {x y : EStateM.Result Stop State α} (h : SameEnd ButObserved x y) :
    SameEnd ButObserved y x := by
  cases x <;> cases y <;> first | exact ⟨h.1.symm, h.2.symm⟩ | exact h.elim

theorem SameEnd.trans {α : Type} {x y z : EStateM.Result Stop State α} (h : SameEnd ButObserved x y)
    (k : SameEnd ButObserved y z) : SameEnd ButObserved x z := by
  cases x <;> cases y <;> cases z <;>
    first | exact ⟨h.1.trans k.1, h.2.trans k.2⟩ | exact h.elim | exact k.elim

theorem withSeen_reads (s : State) (l : List Move) (v : List Moment) : SameReads s (s.withSeen l v) :=
  ⟨rfl, rfl, rfl, rfl, rfl, rfl, rfl, rfl, rfl⟩

/-- A hold comes to the same end without the observer. -/
theorem holdOn_unobserved {C : State → Bool} (hC : ∀ s t, SameReads s t → C s = C t) (l l' : List Move) (v : List Moment)
    (s : State) : SameEnd ButObserved (holdOn C l s) (holdOn C (unobserved l) (s.withSeen l' v)) := by
  induction l generalizing s with
  | nil =>
    have e := hC _ _ (withSeen_reads s l' v)
    simp only [unobserved, List.filter_nil, holdOn, ← e]
    split
    · exact ⟨rfl, .withSeen s s.seen v rfl⟩
    · exact ⟨rfl, .withSeen s s.seen v rfl⟩
  | cons m rest ih =>
    by_cases hm : m = .observe
    · subst hm
      exact ih s.observeMove
    · rw [show unobserved (m :: rest) = m :: unobserved rest by simp [unobserved, hm]]
      have e := hC _ _ (withSeen_reads s l' v)
      have hr : (s.withSeen l' v).coreReset = s.coreReset.withSeen l' v := by
        simp only [State.coreReset]
        split <;> rfl
      have hf : fires m (s.withSeen l' v) = fires m s := rfl
      simp only [holdOn, ← e, hf, hr, apply_withSeen hm s l' v]
      split
      · split
        · exact ⟨rfl, .withSeen s s.seen v (unobserved_unobserved rest).symm⟩
        · exact ih s
      · split
        · exact ⟨rfl, .withSeen s.coreReset s.coreReset.seen v (unobserved_unobserved rest).symm⟩
        · exact ih (s.apply m)

/-- No rule reads the observer. -/
theorem butObserved_unread : Unread ButObserved where
  reads := by
    rintro s _ ⟨⟨l, v, rfl⟩, -⟩
    exact withSeen_reads s l v
  hold C hC := by
    rintro s _ ⟨⟨l, v, rfl⟩, e⟩
    have h := holdOn_unobserved hC s.inputs l v s
    have k := holdOn_unobserved hC l l v (s.withSeen l v)
    rw [← show unobserved s.inputs = unobserved l from e] at k
    exact h.trans k.symm
  setSr v h := h.lines (fun t => { t with drv.sr := v, drv.latch := if t.drv.sclLow then v.msb else t.drv.latch })
    (fun _ _ _ => rfl) fun _ => rfl
  releaseScl h := h.lines (fun t => { t with drv.sclLow := false }) (fun _ _ _ => rfl) fun _ => rfl
  pullScl h := (h.lines (fun t => { t with drv.sclLow := true }) (fun _ _ _ => rfl) fun _ => rfl).lines
    (fun t => { t with drv.latch := t.drv.sr.msb }) (fun _ _ _ => rfl) fun _ => rfl
  setLatch b h := h.lines (fun t => { t with drv.latch := b }) (fun _ _ _ => rfl) fun _ => rfl
  setDirOut b h := h.lines (fun t => { t with drv.dirOut := b }) (fun _ _ _ => rfl) fun _ => rfl
  setSdaForce b h := h.lines (fun t => { t with drv.sdaForce := b }) (fun _ _ _ => rfl) fun _ => rfl
  bitcnt x h := h.write (f := fun s => { s with drv.bitcnt := x }) (fun _ _ _ => rfl) fun _ => rfl
  tc x h := h.write (f := fun s => { s with drv.tc := x }) (fun _ _ _ => rfl) fun _ => rfl
  bbCfg x h := h.write (f := fun s => { s with drv.bbCfg := x }) (fun _ _ _ => rfl) fun _ => rfl
  session x h := h.write (f := fun s => { s with ses := x }) (fun _ _ _ => rfl) fun _ => rfl
  engine x h := h.write (f := fun s => { s with eng := x }) (fun _ _ _ => rfl) fun _ => rfl
  port x h := h.write (f := fun s => { s with port := x }) (fun _ _ _ => rfl) fun _ => rfl
  cursor x h := h.write (f := fun s => { s with frm.cursor := x }) (fun _ _ _ => rfl) fun _ => rfl
  remaining x h := h.write (f := fun s => { s with frm.remaining := x }) (fun _ _ _ => rfl) fun _ => rfl
  lastSt x h := h.write (f := fun s => { s with frm.lastSt := x }) (fun _ _ _ => rfl) fun _ => rfl
  wdArmed x h := h.write (f := fun s => { s with frm.wdArmed := x }) (fun _ _ _ => rfl) fun _ => rfl

/-- The observer changes nothing: an operation with it among the other agents comes to the outcome of the operation
without it, but for the observer. -/
theorem exec_unobserved (i : Instr) {s t : State} (h : ButObserved s t) :
    SameOutcome ButObserved (exec i s) (exec i t) := butObserved_unread.exec i h

theorem unobserved_observed (l : List Move) : unobserved (observed l) = unobserved l := by
  induction l with
  | nil => rfl
  | cons m rest ih =>
    by_cases h : m = .observe <;> simp_all [unobserved, observed]

/-- The operations of a line-level run (`lineRun`) are those of the run without the observer. -/
theorem exec_observed (i : Instr) (s : State) :
    SameOutcome ButObserved (exec i { s with inputs := observed s.inputs, seen := [] }) (exec i s) :=
  exec_unobserved i ⟨⟨s.inputs, s.seen, rfl⟩, unobserved_observed s.inputs⟩

end Sys2Proof.Machine
end

