-- ==== Sys2Proof/Laws/Waveforms.lean ====
section
/-! SUPPORT. What the bit-bang driver puts on the lines while no slave holds SCL (40_bus_driver.md rules R136 to R142,
R150): the driver, the slave's drive of SDA and the parse of the lines go on together (`Wave`), one lemma for the bit
cycle, the transfer and each body. -/

namespace Sys2Proof.Machine

/-- The pair of the lines, from the driver and the slave's drive of SDA, SCL not held (10_state.md rule R50). -/
def lineOf (d : Driver) (sda : Bool) : LineEntry := .pair (!d.sclLow) (!(d.drivesSda || sda))

/-- Seen from `s₀`: the driver is `d`, the slave drives SDA low or not, the parse of the lines is `p` and stands at
them; nothing else has changed. -/
structure Wave (s₀ : State) (d : Driver) (sda : Bool) (p : ParseState) (t : State) : Prop where
  bb : s₀.cfg.backend = .bb
  cfg : t.cfg = s₀.cfg
  ses : t.ses = s₀.ses
  eng : t.eng = s₀.eng
  frm : t.frm = s₀.frm
  port : t.port = s₀.port
  trace : t.bus.trace = s₀.bus.trace
  drv : t.drv = d
  envScl : t.bus.envSclLow = false
  envSda : t.bus.envSdaLow = sda
  parsed : t.parsed = p
  prev : p.prev = lineOf d sda

section
variable {s₀ t : State} {d : Driver} {sda : Bool} {p : ParseState}

theorem Wave.start (hb : t.cfg.backend = .bb) (hs : t.bus.envSclLow = false) (hp : LinesTraced t) :
    Wave t t.drv t.bus.envSdaLow t.parsed t :=
  { bb := hb, cfg := rfl, ses := rfl, eng := rfl, frm := rfl, port := rfl, trace := rfl, drv := rfl, envScl := hs,
    envSda := rfl, parsed := rfl
    prev := by
      rw [show t.parsed.prev = t.linePair from hp hb]
      simp [lineOf, State.linePair, State.sclLine, State.sdaLine, State.coreSclLow, State.coreSdaLow, hb, hs,
        Driver.drivesSda] }

theorem Wave.congr (w : Wave s₀ d sda p t) {e : Driver} {q : ParseState} (hd : d = e) (hp : p = q) :
    Wave s₀ e sda q t := hd ▸ hp ▸ w

theorem Wave.backend (w : Wave s₀ d sda p t) : t.cfg.backend = .bb := by rw [w.cfg]; exact w.bb

theorem Wave.linePair (w : Wave s₀ d sda p t) : t.linePair = lineOf d sda := by
  simp [lineOf, State.linePair, State.sclLine, State.sdaLine, State.coreSclLow, State.coreSdaLow, w.backend, w.envScl,
    w.envSda, w.drv, Driver.drivesSda]

theorem Wave.sclLine (w : Wave s₀ d sda p t) : t.sclLine = !d.sclLow := by
  simp [State.sclLine, State.coreSclLow, w.backend, w.envScl, w.drv]

theorem Wave.sdaLine (w : Wave s₀ d sda p t) : t.sdaLine = !(d.drivesSda || sda) := by
  simp [State.sdaLine, State.coreSdaLow, w.backend, w.envSda, w.drv, Driver.drivesSda]

/-- The parse stands at the lines. -/
theorem Wave.traced (w : Wave s₀ d sda p t) : LinesTraced t := fun _ => by
  show t.parsed.prev = _
  rw [w.parsed, w.prev, w.linePair]

/-- A write of the driver's registers through `moveLines`. -/
theorem Wave.move (w : Wave s₀ d sda p t) (F : Driver → Driver) :
    Wave s₀ (F d) sda (p.entry (lineOf (F d) sda)) (t.moveLines fun u => { u with drv := F u.drv }) := by
  have hp : t.parsed.prev = t.linePair := w.traced w.backend
  have e : ({ t with drv := F t.drv } : State).linePair = lineOf (F d) sda := by
    simp [lineOf, State.linePair, State.sclLine, State.sdaLine, State.coreSclLow, State.coreSdaLow, w.backend, w.envScl,
      w.envSda, w.drv, Driver.drivesSda]
  constructor <;> try simp [w.cfg, w.ses, w.eng, w.frm, w.port, w.trace, w.drv, w.envScl, w.envSda, w.bb]
  rw [moveLines_parsed w.backend rfl rfl hp, w.parsed, e]

/-- A write of driver registers that no line sees. -/
theorem Wave.write (w : Wave s₀ d sda p t) (F : Driver → Driver) (h : lineOf (F d) sda = lineOf d sda) :
    Wave s₀ (F d) sda p { t with drv := F t.drv } := by
  constructor <;> try simp [w.cfg, w.ses, w.eng, w.frm, w.port, w.trace, w.drv, w.envScl, w.envSda, w.bb]
  · exact w.parsed
  · rw [h]; exact w.prev

/-- The slave moves SDA. -/
theorem Wave.slave (w : Wave s₀ d sda p t) (low : Bool) :
    Wave s₀ d low (p.entry (lineOf d low)) (t.apply (.envSda low)) := by
  have hp : t.parsed.prev = t.linePair := w.traced w.backend
  have e : ({ t with bus.envSdaLow := low } : State).linePair = lineOf d low := by
    simp [lineOf, State.linePair, State.sclLine, State.sdaLine, State.coreSclLow, State.coreSdaLow, w.backend, w.envScl,
      w.drv, Driver.drivesSda]
  show Wave _ _ _ _ (t.moveLines fun u => { u with bus.envSdaLow := low })
  constructor <;> try simp [w.cfg, w.ses, w.eng, w.frm, w.port, w.trace, w.drv, w.envScl, w.bb]
  rw [moveLines_parsed w.backend rfl rfl hp, w.parsed, e]

/-- A run that begins with a line that writes the driver through `moveLines`. -/
theorem Wave.thenMove {α : Type} {x : Unit → Op α} {k : Nat} {a : α} {Q : State → Prop} (w : Wave s₀ d sda p t)
    {f : State → State} (F : Driver → Driver) (hf : f = State.moveLines fun u => { u with drv := F u.drv })
    (h : ∀ u, Wave s₀ (F d) sda (p.entry (lineOf (F d) sda)) u → ∃ v, Runs (x ()) k u a v ∧ Q v) :
    ∃ v, Runs (Machine.line f >>= x) (1 + k) t a v ∧ Q v := by
  subst hf
  obtain ⟨v, r, q⟩ := h _ (w.move F)
  exact ⟨v, (Runs.line (plainWrite_moveLines fun _ _ => rfl) t).bind r, q⟩

theorem Wave.thenWrite {α : Type} {x : Unit → Op α} {k : Nat} {a : α} {Q : State → Prop} (w : Wave s₀ d sda p t)
    {f : State → State} (F : Driver → Driver) (hf : f = fun u => { u with drv := F u.drv })
    (hl : lineOf (F d) sda = lineOf d sda) (h : ∀ u, Wave s₀ (F d) sda p u → ∃ v, Runs (x ()) k u a v ∧ Q v) :
    ∃ v, Runs (Machine.line f >>= x) (1 + k) t a v ∧ Q v := by
  subst hf
  obtain ⟨v, r, q⟩ := h _ (w.write F hl)
  exact ⟨v, (Runs.line (fun _ _ => rfl) t).bind r, q⟩

theorem Wave.thenDelay {α : Type} {x : Unit → Op α} {k : Nat} {a : α} {Q : State → Prop} {n : Nat}
    (h : ∃ v, Runs (x ()) k t a v ∧ Q v) : ∃ v, Runs (Machine.delay n >>= x) (1 + k) t a v ∧ Q v :=
  h.imp fun _ r => ⟨(Runs.delay n t).bind r.1, r.2⟩

theorem Wave.thenWait {α : Type} {x : Unit → Op α} {k : Nat} {a : α} {Q : State → Prop} (w : Wave s₀ d sda p t)
    (hd : d.sclLow = false) (h : ∃ v, Runs (x ()) k t a v ∧ Q v) :
    ∃ v, Runs (Machine.waitSclHigh >>= x) (1 + k) t a v ∧ Q v :=
  h.imp fun _ r => ⟨(Runs.waitSclHigh (by rw [w.sclLine, hd]; rfl)).bind r.1, r.2⟩

end

/-- A line that reads what the wave fixes. -/
theorem Wave.thenRead {α β : Type} {f : State → β} {x : β → Op α} {k : Nat} {a : α} {Q : State → Prop} {t : State}
    (b : β) (hf : ∀ l, f (t.withInputs l) = b) (h : ∃ v, Runs (x b) k t a v ∧ Q v) :
    ∃ v, Runs (Machine.readLine f >>= x) (1 + k) t a v ∧ Q v :=
  h.imp fun _ r => ⟨(Runs.readLine t fun l => (hf l).trans (hf t.inputs).symm).bind (hf t.inputs ▸ r.1), r.2⟩

/-! ## The bit cycle -/

/-- What a bit cycle that sampled `b` adds to the parse (40_bus_driver.md rule R150). -/
def ParseState.clock (p : ParseState) (b : Bool) (last : LineEntry) : ParseState :=
  { (if p.owned then p.pushBit b else p) with prev := last }

section
variable {s₀ t : State} {d : Driver} {sda : Bool} {p : ParseState}

/-- `SCL_LOW <- 1`: SCL falls, then SDA follows the latch (rule R133). -/
theorem Wave.thenPull {α : Type} {x : Unit → Op α} {k : Nat} {a : α} {Q : State → Prop} (w : Wave s₀ d sda p t)
    (h : ∀ u, Wave s₀ { d with sclLow := true, latch := d.sr.msb } sda
      { p with prev := lineOf { d with sclLow := true, latch := d.sr.msb } sda } u → ∃ v, Runs (x ()) k u a v ∧ Q v) :
    ∃ v, Runs (Machine.line State.pullScl >>= x) (1 + k) t a v ∧ Q v := by
  have w1 := w.move fun d => { d with sclLow := true }
  have w2 := w1.move fun d => { d with latch := d.sr.msb }
  have e : (p.entry (lineOf { d with sclLow := true } sda)).entry
        (lineOf { d with sclLow := true, latch := d.sr.msb } sda) =
      { p with prev := lineOf { d with sclLow := true, latch := d.sr.msb } sda } := by
    have hp := w.prev
    simp only [lineOf] at hp ⊢
    rw [show (!true) = false from rfl, entry_low p _ _ _ hp, entry_low _ _ _ _ rfl]
  rw [show ({ d with sclLow := true } : Driver).sr = d.sr from rfl] at w2
  have w3 : Wave s₀ { d with sclLow := true, latch := d.sr.msb } sda _ t.pullScl := w2
  rw [e] at w3
  obtain ⟨v, r, q⟩ := h _ w3
  exact ⟨v, (Runs.line plainWrite_pullScl t).bind r, q⟩

theorem bitCycle_wave (w : Wave s₀ d sda p t) (hl : d.sclLow = true) :
    ∃ v, Runs bitCycle 8 t () v ∧
      Wave s₀ (d.cycled !(d.drivesSda || sda)) sda
        (p.clock (!(d.drivesSda || sda)) (lineOf (d.cycled !(d.drivesSda || sda)) sda)) v := by
  have hp := w.prev
  have key : ∀ l, ∃ v, Runs (do
      delay (t.withInputs l).cfg.tLow
      Machine.line State.releaseScl
      waitSclHigh
      let sample ← readLine State.sdaLine
      Machine.line fun s => s.setSr (s.drv.sr.shiftConcat sample)
      delay (t.withInputs l).cfg.tHigh
      Machine.line State.pullScl
      Machine.line fun s => { s with drv.bitcnt := s.drv.bitcnt - 1 }) 8 t () v ∧
      Wave s₀ (d.cycled !(d.drivesSda || sda)) sda
        (p.clock (!(d.drivesSda || sda)) (lineOf (d.cycled !(d.drivesSda || sda)) sda)) v := by
    intro l
    refine Wave.thenDelay (k := 7) ?_
    refine w.thenMove (k := 6) (fun d => { d with sclLow := false }) rfl fun t2 w2 => ?_
    refine w2.thenWait (k := 5) rfl ?_
    refine Wave.thenRead (k := 4) (!(d.drivesSda || sda)) (fun _ => w2.sdaLine) ?_
    have e2 : lineOf { d with sclLow := false } sda = .pair true (!(d.drivesSda || sda)) := rfl
    have e3 : ∀ x, lineOf { d with sr := x, sclLow := false } sda = .pair true (!(d.drivesSda || sda)) := fun _ => rfl
    generalize (!(d.drivesSda || sda)) = b at e2 e3
    refine w2.thenMove (k := 3) (f := fun s => s.setSr (s.drv.sr.shiftConcat b))
      (fun d => { d with
        sr := d.sr.shiftConcat b
        latch := if d.sclLow then (d.sr.shiftConcat b).msb else d.latch }) (by rfl) fun t3 w3 => ?_
    have w3' : Wave s₀ { d with sr := d.sr.shiftConcat b, sclLow := false } sda (p.entry (.pair true b)) t3 := by
      refine w3.congr (by simp) ?_
      rw [e2]
      exact (congrArg (p.entry (.pair true b)).entry (e3 (d.sr.shiftConcat b))).trans (entry_same _ _ _ rfl)
    refine Wave.thenDelay (k := 2) ?_
    refine w3'.thenPull (k := 1) fun t4 w4 => ?_
    refine ⟨_, Runs.line (fun _ _ => rfl) t4, ?_⟩
    refine (w4.write (fun d => { d with bitcnt := d.bitcnt - 1 }) rfl).congr rfl ?_
    simp only [lineOf, hl, Bool.not_true] at hp
    rw [entry_rise p _ _ hp]
    rfl
  obtain ⟨v, hv⟩ := key []
  refine ⟨v, Runs.peek fun l => ?_, hv.2⟩
  exact hv.1

end

/-! ## The transfer -/

/-- The samples of `n` bit cycles while the slave's drive of SDA does not change (rule R136). -/
def samplesOf : Nat → Driver → Bool → List Bool
  | 0, _, _ => []
  | n + 1, d, sda => (!(d.drivesSda || sda)) :: samplesOf n (d.cycled !(d.drivesSda || sda)) sda

theorem samplesOf_length (n : Nat) (d : Driver) (sda : Bool) : (samplesOf n d sda).length = n := by
  induction n generalizing d with
  | zero => rfl
  | succ n ih => simp [samplesOf, ih]

/-- The samples do not depend on the counters and flags of the driver. -/
theorem samplesOf_congr (n : Nat) (d e : Driver) (sda : Bool) (h1 : e.sr = d.sr) (h2 : e.latch = d.latch)
    (h3 : e.dirOut = d.dirOut) (h4 : e.sdaForce = d.sdaForce) : samplesOf n e sda = samplesOf n d sda := by
  induction n generalizing d e with
  | zero => rfl
  | succ n ih =>
    have hd : e.drivesSda = d.drivesSda := by simp [Driver.drivesSda, h2, h3, h4]
    simp only [samplesOf, hd]
    generalize (!(d.drivesSda || sda)) = b
    rw [ih (d.cycled b) (e.cycled b) (by simp [Driver.cycled, h1]) (by simp [Driver.cycled, h1]) h3 h4]

/-- What bit cycles with these samples add to the parse. -/
def ParseState.clocks (p : ParseState) (bits : List Bool) (last : LineEntry) : ParseState :=
  { (if p.owned then bits.foldl ParseState.pushBit p else p) with prev := last }

theorem pushBit_owned (p : ParseState) (b : Bool) : (p.pushBit b).owned = p.owned := by
  simp only [ParseState.pushBit]
  split <;> rfl

theorem pushBit_setPrev (p : ParseState) (b : Bool) (e : LineEntry) :
    ({ p with prev := e } : ParseState).pushBit b = { p.pushBit b with prev := e } := by
  simp only [ParseState.pushBit]
  split <;> rfl

theorem foldl_pushBit_setPrev (p : ParseState) (bits : List Bool) (e : LineEntry) :
    bits.foldl ParseState.pushBit ({ p with prev := e } : ParseState) =
      { bits.foldl ParseState.pushBit p with prev := e } := by
  induction bits generalizing p with
  | nil => rfl
  | cons b rest ih => rw [List.foldl_cons, List.foldl_cons, pushBit_setPrev, ih]

theorem clock_of_owned {p : ParseState} (h : p.owned = true) (b : Bool) (e : LineEntry) :
    p.clock b e = { p.pushBit b with prev := e } := by
  simp [ParseState.clock, h]

theorem clocks_of_owned {p : ParseState} (h : p.owned = true) (bits : List Bool) (e : LineEntry) :
    p.clocks bits e = { bits.foldl ParseState.pushBit p with prev := e } := by
  simp [ParseState.clocks, h]

theorem clocks_clock (p : ParseState) (b : Bool) (bits : List Bool) (e f : LineEntry) :
    (p.clock b e).clocks bits f = p.clocks (b :: bits) f := by
  by_cases h : p.owned = true
  · have h' : ({ p.pushBit b with prev := e } : ParseState).owned = true := (pushBit_owned p b).trans h
    rw [clock_of_owned h, clocks_of_owned h', foldl_pushBit_setPrev, clocks_of_owned h]
    rfl
  · simp [ParseState.clock, ParseState.clocks, h]

theorem clocks_setPrev (p : ParseState) (bits : List Bool) (e f : LineEntry) :
    ({ p with prev := e } : ParseState).clocks bits f = p.clocks bits f := by
  by_cases h : p.owned = true
  · rw [clocks_of_owned (p := { p with prev := e }) h, foldl_pushBit_setPrev, clocks_of_owned h]
  · simp [ParseState.clocks, h]

theorem foldl_pushBit_owned (p : ParseState) (bits : List Bool) :
    (bits.foldl ParseState.pushBit p).owned = p.owned := by
  induction bits generalizing p with
  | nil => rfl
  | cons b rest ih => exact (ih _).trans (pushBit_owned p b)

theorem clocks_clocks (p : ParseState) (bits bits' : List Bool) (e f : LineEntry) :
    (p.clocks bits e).clocks bits' f = p.clocks (bits ++ bits') f := by
  by_cases h : p.owned = true
  · have h' : ({ bits.foldl ParseState.pushBit p with prev := e } : ParseState).owned = true :=
      (foldl_pushBit_owned p bits).trans h
    rw [clocks_of_owned h, clocks_of_owned h', foldl_pushBit_setPrev, clocks_of_owned h, List.foldl_append]
  · simp [ParseState.clocks, h]

/-- On an owned bus with no byte in progress, nine bits are one `EV_BYTE` (rule R150). -/
theorem clocks_byte {p : ParseState} (ho : p.owned = true) (hb : p.bits = []) (v : Byte) (nack : Bool)
    (e : LineEntry) :
    p.clocks (bitsOf v ++ [nack]) e = { prev := e, owned := true, bits := [], events := p.events ++ [.byte v nack] } := by
  have hv : ∀ v : Byte, byteOfBits (bitsOf v) = v := by decide +kernel
  rw [clocks_of_owned ho]
  simp [bitsOf, ParseState.pushBit, hb, ho]
  simpa [bitsOf] using hv v

section
variable {s₀ t : State} {d : Driver} {sda : Bool} {p : ParseState}

/-- One turn of a transfer's loop (rule R142). -/
theorem loopTurn_wave (w : Wave s₀ d sda p t) (hl : d.sclLow = true) (b : Bool) (hb : (!(d.drivesSda || sda)) = b) :
    ∃ v, Runs (bitCycle >>= fun _ => Machine.line State.checkComplete) 9 t () v ∧
      Wave s₀ (if (d.cycled b).bitcnt = 0 then { d.cycled b with tc := true } else d.cycled b) sda
        (p.clock b (lineOf (d.cycled b) sda)) v := by
  subst hb
  obtain ⟨v, r, q⟩ := bitCycle_wave w hl
  generalize (!(d.drivesSda || sda)) = b at q ⊢
  refine ⟨v.checkComplete, r.bind (k := 1) (Runs.line plainWrite_checkComplete v), ?_⟩
  have e : v.checkComplete = { v with drv := if v.drv.bitcnt = 0 then { v.drv with tc := true } else v.drv } := by
    simp only [State.checkComplete]
    split <;> rfl
  rw [e]
  refine q.write (fun d => if d.bitcnt = 0 then { d with tc := true } else d) ?_
  split <;> rfl

theorem cycled_bitcnt {d : Driver} {n : Nat} (h : d.bitcnt.toNat = n + 1) (b : Bool) :
    (d.cycled b).bitcnt.toNat = n := by
  have hlt := d.bitcnt.isLt
  have h1 : (1 : BitVec 4).toNat = 1 := rfl
  simp only [Driver.cycled, BitVec.toNat_sub, h, h1]
  omega

theorem loopStep_done {d : Driver} (h : d.bitcnt.toNat = 1) (b : Bool) :
    (if (d.cycled b).bitcnt = 0 then { d.cycled b with tc := true } else d.cycled b) = d.shifted [b] := by
  have : (d.cycled b).bitcnt = 0 := BitVec.eq_of_toNat_eq (cycled_bitcnt h b)
  have h' : d.bitcnt - 1 = 0 := this
  rw [if_pos this]
  simp only [Driver.cycled, Driver.shifted, h', List.foldl_cons, List.foldl_nil]

theorem loopStep_more {d : Driver} {n : Nat} (h : d.bitcnt.toNat = n + 2) (b : Bool) :
    (if (d.cycled b).bitcnt = 0 then { d.cycled b with tc := true } else d.cycled b) = d.cycled b := by
  have : ¬ (d.cycled b).bitcnt = 0 := by
    intro e
    have := cycled_bitcnt h b
    rw [e] at this
    simp at this
  exact if_neg this

/-- The whole loop while the slave's drive of SDA does not change. -/
theorem transferLoop_wave (n : Nat) (w : Wave s₀ d sda p t) (hl : d.sclLow = true) (hn : d.bitcnt.toNat = n + 1)
    (htc : d.tc = false) :
    ∃ v, Runs (transferLoop (n + 1)) (9 * (n + 1)) t () v ∧
      Wave s₀ (d.shifted (samplesOf (n + 1) d sda)) sda
        (p.clocks (samplesOf (n + 1) d sda) (lineOf (d.shifted (samplesOf (n + 1) d sda)) sda)) v := by
  induction n generalizing t d p with
  | zero =>
    obtain ⟨v, r, q⟩ := loopTurn_wave w hl _ rfl
    rw [loopStep_done hn] at q
    refine ⟨v, ?_, q⟩
    rw [transferLoop]
    refine Runs.peek fun l => ?_
    have ht : ¬ (t.withInputs l).drv.tc = true := by rw [show (t.withInputs l).drv = d from w.drv, htc]; simp
    rw [if_neg ht, op_bind_assoc]
    exact r.bind (Runs.pure () v)
  | succ n ih =>
    obtain ⟨v, r, q⟩ := loopTurn_wave w hl _ rfl
    rw [loopStep_more hn] at q
    obtain ⟨u, r', q'⟩ := ih q rfl (cycled_bitcnt hn _) (by simpa [Driver.cycled] using htc)
    rw [clocks_clock] at q'
    refine ⟨u, ?_, q'⟩
    rw [transferLoop, show 9 * (n + 1 + 1) = 9 + 9 * (n + 1) by omega]
    refine Runs.peek fun l => ?_
    have ht : ¬ (t.withInputs l).drv.tc = true := by rw [show (t.withInputs l).drv = d from w.drv, htc]; simp
    rw [if_neg ht, op_bind_assoc]
    exact r.bind r'

/-- The slave moves SDA before a transfer's cycle. -/
theorem transferLoop_slaveMove (n : Nat) (t : State) (low : Bool) (rest : List Move) (h : t.drv.tc = false) :
    transferLoop (n + 1) (t.withInputs (.envSda low :: rest)) =
      transferLoop (n + 1) ((t.apply (.envSda low)).withInputs rest) := by
  have ht : ¬ (t.withInputs (.envSda low :: rest)).drv.tc = true := by simp [h]
  have hu : ¬ ((t.apply (.envSda low)).withInputs rest).drv.tc = true := by
    simp [State.apply, State.envSdaMove, h]
  have hc : ((t.apply (.envSda low)).withInputs rest).cfg = (t.withInputs (.envSda low :: rest)).cfg := by
    simp [State.apply, State.envSdaMove]
  rw [transferLoop]
  show (if (t.withInputs (.envSda low :: rest)).drv.tc = true then Pure.pure () else _ : Op Unit) _ =
    (if ((t.apply (.envSda low)).withInputs rest).drv.tc = true then Pure.pure () else _ : Op Unit) _
  rw [if_neg ht, if_neg hu, op_bind, op_bind]
  have e : bitCycle (t.withInputs (.envSda low :: rest)) = bitCycle ((t.apply (.envSda low)).withInputs rest) := by
    unfold bitCycle
    show (Machine.delay (t.withInputs (.envSda low :: rest)).cfg.tLow >>= _) _ =
      (Machine.delay ((t.apply (.envSda low)).withInputs rest).cfg.tLow >>= _) _
    rw [hc]
    exact (TakesMoves.delay _).bind _ _ _ (by simp) (by simp [fires])
  rw [e]

/-- The whole loop while a slave sends one bit in each cycle and the core does not drive SDA (rule R142). -/
theorem transferLoop_slave (bits : List Bool) (n : Nat) (w : Wave s₀ d sda p t) (hl : d.sclLow = true)
    (hd : d.dirOut = false) (hlen : bits.length = n + 1) (hn : d.bitcnt.toNat = n + 1) (htc : d.tc = false) :
    ∃ v, (∀ rest, transferLoop (n + 1) (t.withInputs (slaveBits bits ++ rest)) = .ok () (v.withInputs rest)) ∧
      ∃ e : Bool, Wave s₀ (d.shifted bits) e (p.clocks bits (lineOf (d.shifted bits) e)) v := by
  have hds : ∀ d : Driver, d.dirOut = false → d.drivesSda = false := fun d h => by simp [Driver.drivesSda, h]
  induction n generalizing t d p sda bits with
  | zero =>
    obtain ⟨b, rfl⟩ := List.length_eq_one_iff.mp hlen
    have w1 := w.slave (!b)
    rw [show p.entry (lineOf d (!b)) = { p with prev := lineOf d (!b) } by
      have hp := w.prev
      simp only [lineOf, hl, Bool.not_true] at hp ⊢
      exact entry_low _ _ _ _ hp] at w1
    obtain ⟨v, r, q⟩ := loopTurn_wave w1 hl b (by simp [hds d hd])
    rw [loopStep_done hn] at q
    refine ⟨v, fun rest => ?_, !b, q.congr rfl (clocks_setPrev p [b] _ _)⟩
    have ht : ¬ ((t.apply (.envSda (!b))).withInputs (turns 9 ++ rest)).drv.tc = true := by
      simp [State.apply, State.envSdaMove, w.drv, htc]
    show transferLoop 1 (t.withInputs (.envSda (!b) :: (turns 9 ++ rest))) = _
    rw [transferLoop_slaveMove _ _ _ _ (by rw [w.drv, htc]), transferLoop]
    show (if ((t.apply (.envSda (!b))).withInputs (turns 9 ++ rest)).drv.tc = true then Pure.pure () else _ : Op Unit) _ = _
    rw [if_neg ht, op_bind_assoc, r.then]
    rfl
  | succ n ih =>
    obtain ⟨b, bits, rfl⟩ := List.exists_cons_of_length_eq_add_one hlen
    have w1 := w.slave (!b)
    rw [show p.entry (lineOf d (!b)) = { p with prev := lineOf d (!b) } by
      have hp := w.prev
      simp only [lineOf, hl, Bool.not_true] at hp ⊢
      exact entry_low _ _ _ _ hp] at w1
    obtain ⟨v, r, q⟩ := loopTurn_wave w1 hl b (by simp [hds d hd])
    rw [loopStep_more hn] at q
    obtain ⟨u, r', e, q'⟩ := ih bits q rfl hd (by simpa using hlen) (cycled_bitcnt hn _)
      (by simpa [Driver.cycled] using htc)
    rw [clocks_clock, clocks_setPrev] at q'
    refine ⟨u, fun rest => ?_, e, q'⟩
    have ht : ¬ ((t.apply (.envSda (!b))).withInputs (turns 9 ++ (slaveBits bits ++ rest))).drv.tc = true := by
      simp [State.apply, State.envSdaMove, w.drv, htc]
    show transferLoop (n + 2) (t.withInputs (.envSda (!b) :: (turns 9 ++ slaveBits bits ++ rest))) = _
    rw [List.append_assoc, transferLoop_slaveMove _ _ _ _ (by rw [w.drv, htc]), transferLoop]
    show (if ((t.apply (.envSda (!b))).withInputs (turns 9 ++ (slaveBits bits ++ rest))).drv.tc = true then Pure.pure ()
      else _ : Op Unit) _ = _
    rw [if_neg ht, op_bind_assoc, r.then]
    exact r' rest

/-- The end of a transfer, after its bit cycles (rule R142). -/
def transferTail (n : Nat) : Op Byte := do
  delay n
  let result ← readLine fun s => s.drv.sr
  Machine.line (State.setSr 0xFF#8)
  Machine.line (State.setDirOut true)
  pure result

theorem transferTail_takesMoves (n : Nat) : TakesMoves (transferTail n) := TakesMoves.bind (TakesMoves.delay n)

/-- Eight samples replace the whole shift register, the first in bit 7 (rule R142). -/
theorem foldl_bitsOf (v w : Byte) : (bitsOf v).foldl (fun v b => v.shiftConcat b) w = v := by
  apply BitVec.eq_of_getLsbD_eq
  intro i hi
  interval_cases i <;> simp [bitsOf]

/-- A transfer is its two first writes, its loop and its end. -/
theorem transfer_eq (cw : Byte) :
    transfer cw = (peek >>= fun p => (Machine.line fun s => { s with drv.bitcnt := controlBits cw }) >>= fun _ =>
      (Machine.line fun s => { s with drv.tc := false }) >>= fun _ =>
        transferLoop (controlBits cw).toNat >>= fun _ => transferTail p.cfg.tLow) := rfl

/-- A write while SCL is low moves SDA at most. -/
theorem Wave.moveLow (w : Wave s₀ d sda p t) (F : Driver → Driver) (hl : (F d).sclLow = true) :
    Wave s₀ (F d) sda { p with prev := lineOf (F d) sda } (t.moveLines fun u => { u with drv := F u.drv }) := by
  refine (w.move F).congr rfl ?_
  have hp := w.prev
  simp only [lineOf, hl, Bool.not_true] at hp ⊢
  exact entry_low _ _ _ _ hp

/-- The slave moves SDA while SCL is low. -/
theorem Wave.slaveLow (w : Wave s₀ d sda p t) (low : Bool) (hl : d.sclLow = true) :
    Wave s₀ d low { p with prev := lineOf d low } (t.apply (.envSda low)) := by
  refine (w.slave low).congr rfl ?_
  have hp := w.prev
  simp only [lineOf, hl, Bool.not_true] at hp ⊢
  exact entry_low _ _ _ _ hp

theorem transferTail_wave (n : Nat) (bits : List Bool) (w : Wave s₀ (d.shifted bits) sda p t) :
    ∃ v, Runs (transferTail n) 4 t (bits.foldl (fun v b => v.shiftConcat b) d.sr) v ∧
      Wave s₀ d.afterTransfer sda { p with prev := lineOf d.afterTransfer sda } v := by
  have e : ∀ l, (t.withInputs l).drv.sr = bits.foldl (fun v b => v.shiftConcat b) d.sr := fun l => by
    rw [show (t.withInputs l).drv = d.shifted bits from w.drv]
    rfl
  refine Wave.thenDelay (k := 3) (Wave.thenRead (k := 2) _ e ?_)
  have w1 := w.moveLow (fun d => { d with sr := 0xFF#8, latch := if d.sclLow then (0xFF#8 : Byte).msb else d.latch }) rfl
  have w2 := w1.moveLow (fun d => { d with dirOut := true }) rfl
  exact ⟨_, (Runs.line (plainWrite_setSr _) t).bind (k := 1) ((Runs.line (plainWrite_setDirOut _) _).bind (k := 0)
    (Runs.pure _ _)), w2.congr rfl rfl⟩

/-- A whole transfer while the slave's drive of SDA does not change. -/
theorem transfer_wave (cw : Byte) (n : Nat) (hn : (controlBits cw).toNat = n + 1) (w : Wave s₀ d sda p t)
    (hl : d.sclLow = true) :
    ∃ v, Runs (transfer cw) (2 + (9 * (n + 1) + 4)) t
        ((samplesOf (n + 1) d sda).foldl (fun v b => v.shiftConcat b) d.sr) v ∧
      Wave s₀ d.afterTransfer sda (p.clocks (samplesOf (n + 1) d sda) (lineOf d.afterTransfer sda)) v := by
  have w1 := w.write (fun d => { d with bitcnt := controlBits cw }) rfl
  have w2 : Wave s₀ { d with bitcnt := controlBits cw, tc := false } sda p _ :=
    w1.write (fun d => { d with tc := false }) rfl
  obtain ⟨v, r, q⟩ := transferLoop_wave n w2 hl hn rfl
  rw [samplesOf_congr (n + 1) d { d with bitcnt := controlBits cw, tc := false } sda rfl rfl rfl rfl] at q
  have q' := q.congr (e := d.shifted (samplesOf (n + 1) d sda)) rfl rfl
  obtain ⟨u, r', q''⟩ := transferTail_wave t.cfg.tLow _ q'
  refine ⟨u, ?_, q''⟩
  rw [transfer_eq, hn]
  refine Runs.peek fun l => ?_
  rw [show 2 + (9 * (n + 1) + 4) = 1 + (1 + (9 * (n + 1) + 4)) by omega]
  exact (Runs.line (fun _ _ => rfl) t).bind ((Runs.line (fun _ _ => rfl) _).bind (r.bind r'))

/-- A transfer up to its end, on a script that its loop runs through. -/
theorem transfer_head (cw : Byte) {rest rest' : List Move} {v : State}
    (h : transferLoop (controlBits cw).toNat
      (({ t with drv := { t.drv with bitcnt := controlBits cw, tc := false } } : State).withInputs rest) =
        .ok () (v.withInputs rest')) :
    transfer cw (t.withInputs (turns 2 ++ rest)) = transferTail t.cfg.tLow (v.withInputs rest') := by
  rw [transfer_eq, peek_then, show turns 2 ++ rest = turns 1 ++ (turns 1 ++ rest) from rfl,
    (Runs.line (f := fun s => { s with drv.bitcnt := controlBits cw }) (fun _ _ => rfl) t).then,
    (Runs.line (f := fun s => { s with drv.tc := false }) (fun _ _ => rfl) _).then, op_bind, h]

/-! ## The bodies -/

/-- `start()` (rule R138): SCL released, SDA forced low, SCL low, SDA released. -/
theorem startBody_wave (w : Wave s₀ d sda p t) :
    ∃ v, Runs startBody 7 t () v ∧
      Wave s₀ { d with sclLow := true, latch := d.sr.msb, sdaForce := false } sda
        { (p.entry (lineOf { d with sclLow := false } sda)).entry
            (lineOf { d with sclLow := false, sdaForce := true } sda) with
          prev := lineOf { d with sclLow := true, latch := d.sr.msb, sdaForce := false } sda } v := by
  suffices h : ∀ l, ∃ v, Runs (do
      Machine.line State.releaseScl
      waitSclHigh
      delay (t.withInputs l).cfg.tSuSta
      Machine.line (State.setSdaForce true)
      delay (t.withInputs l).cfg.tHdSta
      Machine.line State.pullScl
      Machine.line (State.setSdaForce false)) 7 t () v ∧ Wave s₀ { d with sclLow := true, latch := d.sr.msb, sdaForce := false } sda
        { (p.entry (lineOf { d with sclLow := false } sda)).entry
            (lineOf { d with sclLow := false, sdaForce := true } sda) with
          prev := lineOf { d with sclLow := true, latch := d.sr.msb, sdaForce := false } sda } v by
    obtain ⟨v, r, q⟩ := h []
    exact ⟨v, Runs.peek fun _ => r, q⟩
  intro l
  refine w.thenMove (k := 6) (fun d => { d with sclLow := false }) rfl fun t2 w2 => ?_
  refine w2.thenWait (k := 5) rfl (Wave.thenDelay (k := 4) ?_)
  refine w2.thenMove (k := 3) (fun d => { d with sdaForce := true }) rfl fun t3 w3 => Wave.thenDelay (k := 2) ?_
  refine w3.thenPull (k := 1) fun t4 w4 => ?_
  exact ⟨_, Runs.line (plainWrite_setSdaForce false) t4,
    (w4.moveLow (fun d => { d with sdaForce := false }) rfl).congr rfl rfl⟩

/-- `stop()` (rule R139): SDA forced low, SCL released, SDA released. -/
theorem stopBody_wave (w : Wave s₀ d sda p t) :
    ∃ v, Runs stopBody 6 t () v ∧
      Wave s₀ { d with sclLow := false, sdaForce := false } sda
        (((p.entry (lineOf { d with sdaForce := true } sda)).entry
            (lineOf { d with sclLow := false, sdaForce := true } sda)).entry
          (lineOf { d with sclLow := false, sdaForce := false } sda)) v := by
  suffices h : ∀ l, ∃ v, Runs (do
      Machine.line (State.setSdaForce true)
      Machine.line State.releaseScl
      waitSclHigh
      delay (t.withInputs l).cfg.tSuSto
      Machine.line (State.setSdaForce false)
      delay (t.withInputs l).cfg.tBuf) 6 t () v ∧ Wave s₀ { d with sclLow := false, sdaForce := false } sda
        (((p.entry (lineOf { d with sdaForce := true } sda)).entry
            (lineOf { d with sclLow := false, sdaForce := true } sda)).entry
          (lineOf { d with sclLow := false, sdaForce := false } sda)) v by
    obtain ⟨v, r, q⟩ := h []
    exact ⟨v, Runs.peek fun _ => r, q⟩
  intro l
  refine w.thenMove (k := 5) (fun d => { d with sdaForce := true }) rfl fun t2 w2 => ?_
  refine w2.thenMove (k := 4) (fun d => { d with sclLow := false }) rfl fun t3 w3 => ?_
  refine w3.thenWait (k := 3) rfl (Wave.thenDelay (k := 2) ?_)
  refine w3.thenMove (k := 1) (fun d => { d with sdaForce := false }) rfl fun t4 w4 => ?_
  exact ⟨_, Runs.delay _ t4, w4⟩

/-- A driver about to send a byte (rule R140). -/
def Driver.sending (data : Byte) : Driver :=
  { sr := data, latch := data.msb, dirOut := true, sdaForce := false, sclLow := true, bitcnt := 0, tc := false,
    bbCfg := false }

/-- Sent with no other driver on SDA, a byte's bits are sampled, most significant first (rules R136, R140). -/
theorem samplesOf_sending : ∀ data : Byte, samplesOf 8 (Driver.sending data) false = bitsOf data := by decide +kernel

/-- `putByte(data)` up to the acknowledge bit (rule R140): eighty-two lines, the byte's bits on SDA. -/
theorem putByte_wave (data : Byte) (w : Wave s₀ d false p t) (hf : d.sdaForce = false) :
    ∃ v, (∀ rest, putByteBody data (t.withInputs (turns 82 ++ rest)) =
        (transfer cw1Bit >>= fun r => pure (ackResult r)) (v.withInputs rest)) ∧
      putByteBody data (t.withInputs []) = (transfer cw1Bit >>= fun r => pure (ackResult r)) (v.withInputs []) ∧
      Wave s₀ { d.afterTransfer with dirOut := false } false
        (p.clocks (bitsOf data) (lineOf { d.afterTransfer with dirOut := false } false)) v := by
  have w1 := (w.moveLow (fun d => { d with sclLow := true }) rfl).moveLow (fun d => { d with latch := d.sr.msb }) rfl
  have w2 := w1.moveLow (fun d => { d with dirOut := true }) rfl
  have w3 : Wave s₀ { d with sr := data, latch := data.msb, dirOut := true, sclLow := true } false
      { p with prev := lineOf { d with sr := data, latch := data.msb, dirOut := true, sclLow := true } false }
      ((t.pullScl.setDirOut true).setSr data) :=
    w2.moveLow (fun d => { d with sr := data, latch := if d.sclLow then data.msb else d.latch }) rfl
  obtain ⟨v, r, q⟩ := transfer_wave cw8Bit 7 rfl w3 rfl
  have hs : samplesOf 8 { d with sr := data, latch := data.msb, dirOut := true, sclLow := true } false = bitsOf data :=
    (samplesOf_congr 8 (Driver.sending data) { d with sr := data, latch := data.msb, dirOut := true, sclLow := true }
      false rfl rfl rfl hf).trans (samplesOf_sending data)
  rw [hs, clocks_setPrev] at q
  have w4 : Wave s₀ { d.afterTransfer with dirOut := false } false _ _ :=
    q.moveLow (fun d => { d with dirOut := false }) rfl
  have r1 := Runs.line plainWrite_pullScl t
  have r2 := Runs.line (plainWrite_setDirOut true) t.pullScl
  have r3 := Runs.line (plainWrite_setSr data) (t.pullScl.setDirOut true)
  have r4 : Runs (transfer cw8Bit) 78 _ _ v := r
  have r5 := Runs.line (plainWrite_setDirOut false) v
  refine ⟨v.setDirOut false, fun rest => ?_, ?_, w4.congr rfl ?_⟩
  · unfold putByteBody
    rw [show turns 82 ++ rest = turns 1 ++ (turns 1 ++ (turns 1 ++ (turns 78 ++ (turns 1 ++ rest)))) from rfl, r1.then,
      r2.then, r3.then, r4.then, r5.then]
  · unfold putByteBody
    rw [r1.thenAlone, r2.thenAlone, r3.thenAlone, r4.thenAlone, r5.thenAlone]
  · rfl

/-- The slave moves SDA before a transfer. -/
theorem transfer_slaveMove (cw : Byte) (t : State) (low : Bool) (rest : List Move) :
    transfer cw (t.withInputs (.envSda low :: rest)) = transfer cw ((t.apply (.envSda low)).withInputs rest) := by
  have hc : ((t.apply (.envSda low)).withInputs rest).cfg = (t.withInputs (.envSda low :: rest)).cfg := by
    simp [State.apply, State.envSdaMove]
  rw [transfer_eq, peek_then, peek_then, hc]
  exact (TakesMoves.line _).bind _ _ _ (by simp) (by simp [fires])

/-- The one-bit transfer in which a slave answers, up to its end (rule R140). -/
theorem ackTransfer_answered (low : Bool) (w : Wave s₀ d sda p t) (hl : d.sclLow = true) (hd : d.dirOut = false) :
    ∃ v, (∀ rest, transfer cw1Bit (t.withInputs (.envSda low :: (turns 11 ++ rest))) =
        transferTail v.cfg.tLow (v.withInputs rest)) ∧
      Wave s₀ (d.shifted [!low]) low (p.clocks [!low] (lineOf (d.shifted [!low]) low)) v := by
  have w1 := w.slaveLow low hl
  have w2 := w1.write (fun d => { d with bitcnt := controlBits cw1Bit, tc := false }) rfl
  obtain ⟨u, r, w3⟩ := transferLoop_wave 0 w2 hl rfl rfl
  have hs : samplesOf 1 { d with bitcnt := controlBits cw1Bit, tc := false } low = [!low] := by
    simp [samplesOf, Driver.drivesSda, hd]
  rw [hs, clocks_setPrev] at w3
  refine ⟨u, fun rest => ?_, w3.congr rfl rfl⟩
  have hc : (t.apply (.envSda low)).cfg = u.cfg := by rw [w3.cfg, w1.cfg]
  rw [transfer_slaveMove, show turns 11 ++ rest = turns 2 ++ (turns 9 ++ rest) from rfl,
    transfer_head cw1Bit (r.turns rest), hc]

/-- `putByte(data)` with the slave answering the acknowledge bit, up to the end of its transfer. -/
theorem putByte_answered (data : Byte) (low : Bool) (w : Wave s₀ d false p t) (hf : d.sdaForce = false) :
    ∃ v, (∀ rest, putByteBody data (t.withInputs (turns 82 ++ .envSda low :: (turns 11 ++ rest))) =
        (transferTail v.cfg.tLow >>= fun r => pure (ackResult r)) (v.withInputs rest)) ∧
      Wave s₀ (({ d.afterTransfer with dirOut := false } : Driver).shifted [!low]) low
        (p.clocks (bitsOf data ++ [!low])
          (lineOf (({ d.afterTransfer with dirOut := false } : Driver).shifted [!low]) low)) v := by
  obtain ⟨v, h1, -, w1⟩ := putByte_wave data w hf
  obtain ⟨u, h2, w2⟩ := ackTransfer_answered low w1 rfl rfl
  rw [clocks_clocks] at w2
  refine ⟨u, fun rest => ?_, w2⟩
  rw [h1, op_bind, h2, op_bind]

/-- The acknowledge result of the sample (rule R140). -/
theorem ackResult_sampled : ∀ low : Bool,
    ackResult ([!low].foldl (fun v b => v.shiftConcat b) 0xFF#8) = if low then 1#8 else 0#8 := by decide

/-- `putByte(data)` with the slave answering the acknowledge bit and letting SDA go (rule R140): the result is 1 iff
the slave drives the bit low. -/
theorem putByte_slaveAck (data : Byte) (low : Bool) (w : Wave s₀ d false p t) (hf : d.sdaForce = false) :
    ∃ v, putByteBody data (t.withInputs (turns 82 ++ slaveAck low)) =
        .ok (if low then 1#8 else 0#8) (v.withInputs []) ∧
      Wave s₀ d.afterTransfer false (p.clocks (bitsOf data ++ [!low]) (lineOf d.afterTransfer false)) v := by
  obtain ⟨u, h, w1⟩ := putByte_answered data low w hf
  obtain ⟨v, r, w2⟩ := transferTail_wave u.cfg.tLow [!low] (w1.slaveLow false rfl)
  refine ⟨v, ?_, w2.congr rfl rfl⟩
  rw [slaveAck, h [.envSda false], op_bind, transferTail_takesMoves _ u (.envSda false) [] (by simp) (by simp [fires]),
    r.alone]
  exact congrArg (EStateM.Result.ok · (v.withInputs [])) (ackResult_sampled low)

/-- `putByte(data)` with nobody answering: 0. -/
theorem putByte_alone (data : Byte) (w : Wave s₀ d false p t) (hf : d.sdaForce = false) :
    ∃ v, putByteBody data (t.withInputs []) = .ok 0#8 (v.withInputs []) ∧
      Wave s₀ d.afterTransfer false (p.clocks (bitsOf data ++ [true]) (lineOf d.afterTransfer false)) v := by
  obtain ⟨v, -, h, w1⟩ := putByte_wave data w hf
  obtain ⟨u, r, w2⟩ := transfer_wave cw1Bit 0 rfl w1 rfl
  rw [show samplesOf 1 { d.afterTransfer with dirOut := false } false = [true] from rfl, clocks_clocks] at w2
  refine ⟨u, ?_, w2.congr rfl rfl⟩
  rw [h, op_bind, r.alone]
  exact congrArg (EStateM.Result.ok · (u.withInputs [])) (ackResult_sampled false)

/-- `getByte(last)` with the slave sending a byte, up to the end of its eight-bit transfer (rule R141). -/
theorem getByte_sent (last : Bool) (v : Byte) (w : Wave s₀ d sda p t) (hl : d.sclLow = true) :
    ∃ u, (∀ rest, getByteBody last (t.withInputs (turns 3 ++ slaveBits (bitsOf v) ++ rest)) =
        (transferTail u.cfg.tLow >>= fun b => Machine.line (State.setSr (ackLevel last)) >>= fun _ =>
          transfer cw1Bit >>= fun _ => pure b) (u.withInputs rest)) ∧
      ∃ e : Bool, Wave s₀ (({ d with dirOut := false } : Driver).shifted (bitsOf v)) e
        (p.clocks (bitsOf v) (lineOf (({ d with dirOut := false } : Driver).shifted (bitsOf v)) e)) u := by
  have w1 : Wave s₀ { d with dirOut := false } sda { p with prev := lineOf { d with dirOut := false } sda }
    (t.setDirOut false) := w.moveLow (fun d => { d with dirOut := false }) hl
  have w2 := w1.write (fun d => { d with bitcnt := controlBits cw8Bit, tc := false }) rfl
  obtain ⟨u, r, e, w3⟩ := transferLoop_slave (bitsOf v) 7 w2 hl rfl rfl rfl rfl
  rw [clocks_setPrev] at w3
  refine ⟨u, fun rest => ?_, e, w3.congr rfl rfl⟩
  have hc : (t.setDirOut false).cfg = u.cfg := by rw [w3.cfg]; exact w1.cfg
  unfold getByteBody
  rw [show turns 3 ++ slaveBits (bitsOf v) ++ rest = turns 1 ++ (turns 2 ++ (slaveBits (bitsOf v) ++ rest)) from rfl,
    (Runs.line (plainWrite_setDirOut false) t).then, op_bind, transfer_head cw8Bit (r rest), hc, op_bind]

/-- `getByte(last)` with the slave sending a byte and letting SDA go (rule R141): the byte is returned, and the
acknowledge bit is 1 for the last byte. -/
theorem getByte_slave (last : Bool) (v : Byte) (w : Wave s₀ d sda p t) (hl : d.sclLow = true)
    (hf : d.sdaForce = false) :
    ∃ u, getByteBody last (t.withInputs (turns 3 ++ slaveBits (bitsOf v) ++ [.envSda false])) =
        .ok v (u.withInputs []) ∧
      Wave s₀ d.afterTransfer false (p.clocks (bitsOf v ++ [last]) (lineOf d.afterTransfer false)) u := by
  obtain ⟨u, h, e, w1⟩ := getByte_sent last v w hl
  obtain ⟨x, r, w2⟩ := transferTail_wave u.cfg.tLow (bitsOf v) (w1.slaveLow false rfl)
  have w3 : Wave s₀ { d.afterTransfer with sr := ackLevel last, latch := (ackLevel last).msb } false _
    (x.setSr (ackLevel last)) :=
    w2.moveLow (fun d => { d with
      sr := ackLevel last, latch := if d.sclLow then (ackLevel last).msb else d.latch }) rfl
  obtain ⟨y, r', w4⟩ := transfer_wave cw1Bit 0 rfl w3 rfl
  have hs : samplesOf 1 { d.afterTransfer with sr := ackLevel last, latch := (ackLevel last).msb } false = [last] := by
    simp only [samplesOf, Driver.drivesSda, Driver.afterTransfer, hf]
    cases last <;> rfl
  have w5 := w4.congr (e := d.afterTransfer) rfl
    (q := p.clocks (bitsOf v ++ [last]) (lineOf d.afterTransfer false)) (by
      rw [clocks_setPrev, clocks_setPrev]
      rw [← clocks_clocks p (bitsOf v) [last] _ (lineOf d.afterTransfer false), ← hs]
      rfl)
  refine ⟨y, ?_, w5⟩
  have r2 := Runs.line (plainWrite_setSr (ackLevel last)) x
  have r3 : Runs (transfer cw1Bit) 15 (x.setSr (ackLevel last)) _ y := r'
  rw [h, op_bind, transferTail_takesMoves _ u (.envSda false) [] (by simp) (by simp [fires]), r.alone]
  show (Machine.line (State.setSr (ackLevel last)) >>= fun _ => transfer cw1Bit >>= fun _ => pure _) (x.withInputs []) = _
  rw [r2.thenAlone, r3.thenAlone, foldl_bitsOf]
  rfl

end

end Sys2Proof.Machine
end

