-- ==== Sys2Proof/WellFormed.lean ====
section
/-! DEFINITION. Which operations carry operands the spec calls legal. The types of the operands already bound every
width; one check is left, the transfer control word. -/

namespace Sys2Proof

/-- Well-formed: a `BB_TRANSFER` has a legal control word. An ill-formed one has an encoding and decodes; running it
is refused with `BAD_CONTROL_WORD` after the other refusals (60_exceptions.md rule R275). -/
def Instr.wf : Instr → Bool
  | .bbConfigure => true
  | .bbStart => true
  | .bbStop => true
  | .bbPutbyte _ => true
  | .bbGetbyte _ => true
  | .bbTransfer cw => controlWordOk cw
  | .sesConfigure _ _ => true
  | .sesStart _ _ => true
  | .sesWrite _ => true
  | .sesReadAck => true
  | .sesReadNack => true
  | .sesStop => true
  | .rxAddr _ => true
  | .rxLenHi _ => true
  | .rxLenLo _ => true
  | .rxPayload _ => true

end Sys2Proof
end

