-- ==== Sys2Proof/Tests/Slice0.lean ====
section
/-! SUPPORT. Tests of the model against the spec's own vectors (95_test_vectors.md), words written out bit by bit from the
opcode map (30_encoding.md rules R91, R93), and for each statement a state and operands that meet its premises. -/

namespace Sys2Proof.Tests

open Sys2Proof Sys2Proof.Machine

/-! ## Decoding: every operation's word, bit by bit -/

theorem test_decode_bbConfigure : decodeCommand (0b00000001#8 ++ 0b00000000#8 ++ 0b00000000#8) = .ok .bbConfigure := by
  decide
theorem test_decode_bbStart : decodeCommand (0b00000010#8 ++ 0b00000000#8 ++ 0b00000000#8) = .ok .bbStart := by decide
theorem test_decode_bbStop : decodeCommand (0b00000011#8 ++ 0b00000000#8 ++ 0b00000000#8) = .ok .bbStop := by decide
theorem test_decode_bbPutbyte :
    decodeCommand (0b00000100#8 ++ 0b00000000#8 ++ 0b10100101#8) = .ok (.bbPutbyte 0xA5) := by decide
theorem test_decode_bbGetbyte :
    decodeCommand (0b00000101#8 ++ 0b00000001#8 ++ 0b00000000#8) = .ok (.bbGetbyte true) := by decide
theorem test_decode_bbTransfer :
    decodeCommand (0b00000110#8 ++ 0b00000000#8 ++ 0b00000011#8) = .ok (.bbTransfer 0x03) := by decide
theorem test_decode_sesConfigure :
    decodeCommand (0b00010000#8 ++ 0b01001000#8 ++ 0b11111101#8) = .ok (.sesConfigure 0x48 0xFD) := by decide
theorem test_decode_sesStart_write :
    decodeCommand (0b00010001#8 ++ 0b00000000#8 ++ 0b11010000#8) = .ok (.sesStart .write 0xD0) := by decide
theorem test_decode_sesStart_read :
    decodeCommand (0b00010001#8 ++ 0b00000001#8 ++ 0b01010000#8) = .ok (.sesStart .read 0x50) := by decide
theorem test_decode_sesWrite :
    decodeCommand (0b00010010#8 ++ 0b00000000#8 ++ 0b10101010#8) = .ok (.sesWrite 0xAA) := by decide
theorem test_decode_sesReadAck : decodeCommand (0b00010011#8 ++ 0b00000000#8 ++ 0b00000000#8) = .ok .sesReadAck := by
  decide
theorem test_decode_sesReadNack : decodeCommand (0b00010100#8 ++ 0b00000000#8 ++ 0b00000000#8) = .ok .sesReadNack := by
  decide
theorem test_decode_sesStop : decodeCommand (0b00010101#8 ++ 0b00000000#8 ++ 0b00000000#8) = .ok .sesStop := by decide
/-- The two bits of `CURSOR` (10_state.md rule R46). -/
theorem test_cursor_bits :
    Cursor.bits .awaitAddr = 0b00#2 ∧ Cursor.bits .lenHi = 0b01#2 ∧ Cursor.bits .lenLo = 0b10#2 ∧
      Cursor.bits .fwd = 0b11#2 ∧ State.reset.frm.cursor.bits = 0#2 := by decide

theorem test_decode_rxAddr : decodeReceived .awaitAddr 0b01010000#8 = .rxAddr 0x50 := by decide
theorem test_decode_rxLenHi : decodeReceived .lenHi 0b00000001#8 = .rxLenHi 0x01 := by decide
theorem test_decode_rxLenLo : decodeReceived .lenLo 0b00000000#8 = .rxLenLo 0x00 := by decide
theorem test_decode_rxPayload : decodeReceived .fwd 0b10111011#8 = .rxPayload 0xBB := by decide

/-- A bit set in each reserved field (V3, V4, V5), and the edges of the reserved opcodes (V1, V2). -/
theorem test_decode_refuses :
    decodeCommand 0x010100 = .error .reservedField ∧ decodeCommand 0x050200 = .error .reservedField ∧
      decodeCommand 0x110250 = .error .reservedField ∧ decodeCommand 0x128000 = .error .reservedField ∧
      decodeCommand 0x000000 = .error .reservedOp ∧ decodeCommand 0x070000 = .error .reservedOp ∧
      decodeCommand 0x0F0000 = .error .reservedOp ∧ decodeCommand 0x160000 = .error .reservedOp ∧
      decodeCommand 0xFFFFFF = .error .reservedOp := by decide

/-- The assembly words of rule R121 from the encoder. -/
theorem test_encode_words :
    encode (.bbGetbyte true) = .command 0x050100 ∧ encode (.sesStart .read 0x50) = .command 0x110150 ∧
      encode (.sesConfigure 0x48 0x01) = .command 0x104801 ∧ encode (.bbPutbyte 0xA0) = .command 0x0400A0 := by decide

/-- The frame expansions of rule R122. -/
theorem test_frameBytes :
    frameBytes 0x50 [0xAA, 0xBB] = [0x50, 0x00, 0x02, 0xAA, 0xBB] ∧ frameBytes 0x3C [] = [0x3C, 0x00, 0x00] ∧
      (frameBytes 0x50 (List.replicate 256 0#8)).take 3 = [0x50, 0x01, 0x00] := by decide +kernel

theorem test_decodeTableWord :
    decodeTableWord 24 0x110150 = some (.sesStart .read 0x50) ∧ decodeTableWord 24 0x070000 = none ∧
      decodeTableWord 8 0x50 = some (.rxAddr 0x50) := by decide

/-! ## Well-formedness: the control word (V10, V11) -/

theorem test_wf_refuses_zero_bits : (Instr.bbTransfer 0x00).wf = false := by decide
theorem test_wf_refuses_nine_bits : (Instr.bbTransfer 0x09).wf = false := by decide
theorem test_wf_refuses_high_bits : (Instr.bbTransfer 0x18).wf = false := by decide
theorem test_wf_accepts : (Instr.bbTransfer 0x01).wf = true ∧ (Instr.bbTransfer 0x08).wf = true := by decide

/-! ## The states the tests start from -/

/-- `CleanEntry` with `BACKEND = HW` (70_reset_and_hazards.md rule R318). -/
def hwClean : State := State.cleanEntry { Params.default with backend := .hw }

/-- `Configured(0x48, 0)` with `BACKEND = HW`. -/
def hwReady : State := State.configured hwClean.cfg 0x48 0

/-- An open transaction with `BACKEND = HW`. -/
def hwOpen (p : Phase) : State := { hwReady with eng.phase := p }

/-- `Configured(0x48, 0)` with `BACKEND = BB`. -/
def bbReady : State := State.configured Params.default 0x48 0

/-- After a START (V22): the core owns the bus and holds SCL low. -/
def bbOwned : State :=
  { bbReady with
    drv.sclLow := true
    bus.ltrace := [.pair true false, .pair false false, .pair false true]
    eng.phase := .started }

/-- The moves to come. -/
def after (moves : List Move) (s : State) : State := { s with inputs := moves }

/-- An engine step in which every draw but the ones given is idle. -/
def draw (o : TxOutcome) (b : Byte) : EngineDraw :=
  { tx := o, rx := b, any := { events := [], code := none, data := none, int := none, clearEcmd := false,
                               clearStop := false } }

/-- A byte the slave sends in a read: one bit before each cycle, the acknowledge bit the core's. -/
def slaveByte (v : Byte) : List Move := turns 3 ++ slaveBits (bitsOf v) ++ [.envSda false]

/-- The operation answers a next state that `f` accepts. -/
def leads (i : Instr) (s : State) (f : State → Bool) : Bool :=
  match exec i s with
  | .next t => f t
  | _ => false

/-- The response `RESP_CODE/RESP_FLAGS`, valid, the core idle. -/
def responds (code : Byte) (flags : BitVec 2) (t : State) : Bool :=
  t.port.respCode == code && t.port.respFlags == flags && t.port.respValid && !t.port.busy

/-! ## One step of each operation -/

/-- V21. -/
theorem test_bbConfigure :
    leads .bbConfigure State.reset (fun t => responds 0 0 t && t.drv == Driver.configured && t.bus.ltrace == []) = true := by
  decide +kernel

/-- V22. -/
theorem test_bbStart_free :
    leads .bbStart bbReady (fun t =>
      responds 0 0 t && t.bus.ltrace == [.pair true false, .pair false false, .pair false true] &&
        t.busTrace == [.start] && t.drv.sclLow && !t.drv.sdaForce) = true := by decide +kernel

/-- V33. -/
theorem test_bbStart_repeated :
    leads .bbStart bbOwned (fun t =>
      responds 0 0 t && t.busTrace == [.start, .rstart] &&
        t.bus.ltrace.drop 3 == [.pair true true, .pair true false, .pair false false, .pair false true]) = true := by
  decide +kernel

/-- V31. -/
theorem test_bbStop_owned :
    leads .bbStop bbOwned (fun t =>
      responds 0 0 t && t.busTrace == [.start, .stop] &&
        t.bus.ltrace.drop 3 == [.pair false false, .pair true false, .pair true true]) = true := by decide +kernel

/-- V32. -/
theorem test_bbStop_free :
    leads .bbStop bbReady (fun t =>
      responds 0 0 t && t.busTrace == [.start, .stop] && t.bus.ltrace == [.pair true false, .pair true true]) = true := by
  decide +kernel

/-- V23, all 24 entries. -/
theorem test_bbPutbyte_ack :
    leads (.bbPutbyte 0xA0) (after (turns 82 ++ slaveAck true) bbOwned) (fun t =>
      responds 1 0 t && t.busTrace == [.start, .byte 0xA0 false] &&
        t.bus.ltrace.drop 3 ==
          [.pair true true, .pair false true, .pair false false, .pair true false, .pair false false, .pair false true,
            .pair true true, .pair false true, .pair false false, .pair true false, .pair false false, .pair true false,
            .pair false false, .pair true false, .pair false false, .pair true false, .pair false false,
            .pair true false, .pair false false, .pair false true, .pair false false, .pair true false,
            .pair false false, .pair false true]) = true := by decide +kernel

/-- V24. -/
theorem test_bbPutbyte_nack :
    leads (.bbPutbyte 0xA0) bbOwned (fun t => responds 0 0 t && t.busTrace == [.start, .byte 0xA0 true]) = true := by
  decide +kernel

/-- V26. -/
theorem test_bbGetbyte_last :
    leads (.bbGetbyte true) (after (slaveByte 0x3C) bbOwned) (fun t =>
      responds 0x3C 0 t && t.busTrace == [.start, .byte 0x3C true]) = true := by decide +kernel

/-- V27. -/
theorem test_bbGetbyte_not_last :
    leads (.bbGetbyte false) (after (slaveByte 0x12) bbOwned) (fun t =>
      responds 0x12 0 t && t.busTrace == [.start, .byte 0x12 false]) = true := by decide +kernel

/-- V29: `SR` went 0xFF, 0xFF, 0xFE, 0xFD. -/
theorem test_bbTransfer_three :
    leads (.bbTransfer 0x03) (after (turns 2 ++ slaveBits [true, false, true]) bbOwned) (fun t =>
      responds 0xFD 0 t && t.drv == Driver.configured.afterTransfer && (parseLines t.bus.ltrace).bits.length == 3) =
      true := by decide +kernel

/-- The example of rule R142. -/
theorem test_bbTransfer_one :
    leads (.bbTransfer 0x01) (after (turns 3 ++ [.envSda true]) { bbOwned with drv.dirOut := false }) (fun t =>
      responds 0xFE 0 t && t.drv.sr == 0xFF && t.drv.dirOut) = true := by decide +kernel

/-- V72: `OPT = 3` from V71 is kept, `STAT = 0xFB`. -/
theorem test_sesConfigure_accepted :
    leads (.sesConfigure 0x48 0x00) { hwClean with ses.opt := 3 } (fun t =>
      responds 1 0 t && t.ses.clkdiv == 0x48 && t.ses.opt == 3 && t.statReg == 0xFB) = true := by decide +kernel

/-- S3, V73. -/
theorem test_sesConfigure_rejected :
    leads (.sesConfigure 0x20 0x01) hwReady (fun t => responds 0 0 t && t.ses == hwReady.ses) = true := by
  decide +kernel

/-- V77, and on the driver program P2, step 4. -/
theorem test_sesStart_read :
    leads (.sesStart .read 0x50) (after (turns 4 ++ polled 0 (draw .ack 0) ++ turns 7 ++ polled 0 (draw .ack 0)) hwReady)
        (fun t =>
          responds 0 0 t && t.busTrace == [.start, .byte 0xA1 false] && t.eng.phase == .mr && t.statusSeen == 0x40) =
      true ∧
    leads (.sesStart .read 0x50) (after (turns 92 ++ slaveAck true) { bbOwned with eng.phase := .mt }) (fun t =>
      responds 0 0 t && t.busTrace == [.start, .rstart, .byte 0xA1 false]) = true := by decide +kernel

/-- V75. -/
theorem test_sesStart_nack :
    leads (.sesStart .write 0x51)
      (after (turns 4 ++ polled 0 (draw .ack 0) ++ turns 7 ++ polled 0 (draw .nack 0)) hwReady) (fun t =>
        responds 0x20 0 t && t.busTrace == [.start, .byte 0xA2 true] && t.eng.phase == .mt) = true := by decide +kernel

/-- V61; the engine, which drove both lines, has released them (41_engine_status.md rule R177). -/
theorem test_sesWrite_lost :
    leads (.sesWrite 0x55) (after (.engineLines true true :: (turns 5 ++ polled 0 (draw .lost 0))) (hwOpen .mt)) (fun t =>
      responds 0x38 0 t && t.busTrace == [.lost] && t.eng.phase == .idle && t.sclLine && t.sdaLine) = true := by decide +kernel

/-- V58. -/
theorem test_sesWrite_no_transaction :
    leads (.sesWrite 0x55) hwReady (fun t =>
      responds 0xF8 0 t && t.busTrace == [] && t.eng.ecmd == none && t.ses.waitcnt == 4 && t.eng.phase == .idle) = true := by
  decide +kernel

/-- V78, and on the driver program P2, step 5. -/
theorem test_sesReadAck :
    leads .sesReadAck (after (turns 4 ++ polled 0 (draw .ack 0x00)) (hwOpen .mr)) (fun t =>
        responds 0 0 t && t.busTrace == [.byte 0x00 false] && t.eng.data == 0) = true ∧
      leads .sesReadAck (after (slaveByte 0x12) { bbOwned with eng.phase := .mr }) (fun t =>
        responds 0x12 0 t && t.busTrace == [.start, .byte 0x12 false]) = true := by decide +kernel

/-- V81. -/
theorem test_sesReadAck_times_out : leads .sesReadAck hwReady (fun t => responds 0xFF 0 t) = true := by decide +kernel

/-- V79, and on the driver program P2, step 6. -/
theorem test_sesReadNack :
    leads .sesReadNack (after (turns 4 ++ polled 0 (draw .ack 0x34)) (hwOpen .mr)) (fun t =>
        responds 0x34 0 t && t.busTrace == [.byte 0x34 true] && t.statusSeen == 0x58) = true ∧
      leads .sesReadNack (after (slaveByte 0x34) { bbOwned with eng.phase := .mr }) (fun t =>
        responds 0x34 0 t && t.busTrace == [.start, .byte 0x34 true]) = true := by decide +kernel

/-- V55, with an engine that would perform the STOP before the response (20_memory.md rule R81). -/
theorem test_sesStop_pending :
    leads .sesStop (after (turns 2 ++ [.engine (draw .ack 0)]) (hwOpen .mt)) (fun t =>
      responds 0 0 t && t.eng.pendStop && t.busTrace == [] &&
        (t.apply (.engine (draw .ack 0))).busTrace == [.stop] &&
        (t.apply (.engine (draw .ack 0))).eng.phase == .idle) = true := by decide +kernel

/-- V82. -/
theorem test_sesStop_free_bus :
    leads .sesStop bbReady (fun t => responds 0 0 t && t.busTrace == [.start, .stop]) = true := by decide +kernel

/-- V90. -/
theorem test_rxAddr :
    leads (.rxAddr 0x50) (after (turns 5 ++ polled 0 (draw .ack 0) ++ turns 7 ++ polled 0 (draw .ack 0)) hwReady)
      (fun t =>
        t.busTrace == [.start, .byte 0xA0 false] &&
          t.frm == { cursor := .lenHi, remaining := 0, lastSt := 0, wdArmed := false } && t.port == hwReady.port) = true := by
  decide +kernel

/-- V91. -/
theorem test_rxLenHi :
    leads (.rxLenHi 0x01) { hwReady with frm.cursor := .lenHi } (fun t =>
      t.frm == { cursor := .lenLo, remaining := 0x0100, lastSt := 0, wdArmed := false }) = true := by decide +kernel

/-- V95. -/
theorem test_rxLenLo_longest :
    leads (.rxLenLo 0xFF) { hwReady with frm.cursor := .lenLo, frm.remaining := 0xFF00 } (fun t =>
      t.frm == { cursor := .fwd, remaining := 0xFFFF, lastSt := 0, wdArmed := true }) = true := by decide +kernel

/-- S6, V94. -/
theorem test_rxLenLo_zero :
    leads (.rxLenLo 0x00) { hwOpen .mt with frm.cursor := .lenLo, inputs := turns 5 ++ [.engine (draw .ack 0)] } (fun t =>
      t.frm.cursor == .awaitAddr && !t.frm.wdArmed && t.eng.pendStop && t.busTrace == []) = true := by decide +kernel

/-- The first payload byte of V98, not acknowledged. -/
theorem test_rxPayload_nack :
    leads (.rxPayload 0xAA)
      { hwOpen .mt with
        frm := { cursor := .fwd, remaining := 2, lastSt := 0, wdArmed := true }
        inputs := turns 5 ++ polled 0 (draw .nack 0) } (fun t =>
      t.frm == { cursor := .fwd, remaining := 1, lastSt := 0x30, wdArmed := true } &&
        t.busTrace == [.byte 0xAA true]) = true := by decide +kernel

/-- The last payload byte of S1. -/
theorem test_rxPayload_last :
    leads (.rxPayload 0xBB)
      { hwOpen .mt with
        frm := { cursor := .fwd, remaining := 1, lastSt := 0, wdArmed := true }
        inputs := turns 5 ++ polled 0 (draw .ack 0) } (fun t =>
      t.frm == { cursor := .awaitAddr, remaining := 0, lastSt := 0, wdArmed := false } &&
        t.busTrace == [.byte 0xBB false] && t.eng.pendStop) = true := by decide +kernel

/-! ## Refusals, the guard, the bit cycle -/

/-- V7, V9 and V10: the first reason that applies. -/
theorem test_refusal_order :
    refusalOf 0x020000 { hwReady with frm.cursor := .lenHi } = some .noBbDriver ∧
      refusalOf 0x060009 { State.reset with frm.cursor := .lenLo } = some .frameInProgress ∧
      refusalOf 0x060009 State.reset = some .bbNotConfigured ∧ refusalOf 0x060009 bbReady = some .badControlWord ∧
      leads (.bbTransfer 0x09) bbReady (fun t => responds 0 2 t && t.port.refusal == some .badControlWord) = true := by
  decide +kernel

/-- V60, V64: the guard fires in a payload byte, the driver holding SCL low. -/
theorem test_guard :
    leads (.rxPayload 0x01)
      { bbOwned with
        frm := { cursor := .fwd, remaining := 5, lastSt := 0, wdArmed := true }
        inputs := turns 30 ++ [.guard] } (fun t =>
      t.ses.clkdiv == 0 && t.frm.cursor == .awaitAddr && t.sclLine && t.sdaLine && t.statReg == 0xF8 &&
        t.busTrace == [.start, .reset] && !t.port.respValid) = true := by decide +kernel

/-- V20. -/
theorem test_bitCycle :
    (match bitCycle { bbOwned with drv.sr := 0xA5, drv.latch := true, bus.ltrace := [.pair false true] } with
      | .ok _ t =>
        t.drv.sr == 0x4B && !t.drv.latch &&
          t.bus.ltrace == [.pair false true, .pair true true, .pair false true, .pair false false]
      | .error _ _ => false) = true := by decide +kernel

/-- V62. -/
theorem test_reset :
    State.reset.statReg = 0xF8 ∧ State.reset.sclLine = true ∧ State.reset.sdaLine = true ∧
      Quiescent State.reset := by decide +kernel

/-- A 1-bit transfer offered with SDA an input, as in `BB_PUTBYTE`'s acknowledge bit, with the slave's moves before the
bit's cycle and after it. -/
def sampled (before after : List Move) : State :=
  { bbOwned with
    drv.dirOut := false
    port.cmd := 0x060001
    port.cmdValid := true
    inputs := .seq :: (turns 2 ++ before ++ turns 9 ++ after) }

/-- What `WellBehavedSlaves` (41_engine_status.md rule R172) asks of SDA, over the line-level run of one operation. -/
def behaves (s : State) : Bool :=
  let run := lineRun 4 6 s
  run.all (Moment.sdaWellBehaved .bb) && sdaMovesWhileSclLow run

/-- A slave that releases SDA after the bit, and one that holds it until the core drives SDA again. -/
theorem test_wellBehaved :
    behaves (sampled [.envSda true] [.envSda false]) = true ∧ behaves (sampled [.envSda true] []) = false := by
  decide +kernel

/-- `BusResponsive` on the engine (rule R172): a command performed at the last poll before the budget, one poll too late,
behind a pending STOP, and cut off by the guard; a command that is refused during a frame begins no wait (V100). -/
theorem test_engineResponsive :
    waitsAnswered (.sesWrite 0x55) (after (turns 5 ++ polled 3 (draw .ack 0)) (hwOpen .mt)) = true ∧
      waitsAnswered (.sesWrite 0x55) (after (turns 5 ++ polled 4 (draw .ack 0)) (hwOpen .mt)) = false ∧
      waitsAnswered (.sesWrite 0x55) hwReady = true ∧
      waitsAnswered (.sesWrite 0x55) { hwOpen .mt with eng.pendStop := true } = false ∧
      leftAnswered .sesStop (hwOpen .mt) = false ∧
      leftAnswered .sesStop (after (turns 9 ++ [.engine (draw .ack 0)]) (hwOpen .mt)) = true ∧
      waitsAnswered (.sesStart .read 0x50)
        (after (turns 4 ++ polled 1 (draw .ack 0) ++ polled 2 (draw .ack 0) ++ turns 7 ++ polled 3 (draw .nack 0))
          { hwOpen .mt with eng.pendStop := true }) = true ∧
      waitsAnswered (.sesWrite 0x11) (after (turns 6 ++ [.guard]) { hwOpen .mt with frm.wdArmed := true }) = true ∧
      waitsAnswered (.sesWrite 0x11) (after (turns 6 ++ [.guard]) (hwOpen .mt)) = false ∧
      EngineResponsive (.sesWrite 0x11) { hwOpen .mt with frm.cursor := .lenHi } := by decide +kernel

/-- `BusResponsive` on the driver (rule R172): an operation that comes to no wait needs no release of SCL. -/
theorem test_waitsLifted :
    waitsLifted .bbStart (after [.envScl true] bbReady) = false ∧
      waitsLifted .bbStart (after [.envScl true] State.reset) = true ∧
      waitsLifted .bbConfigure (after [.envScl true] State.reset) = true := by decide +kernel

/-- A run has not ended while the host has more to deliver (70_reset_and_hazards.md rule R319). -/
theorem test_quiescent :
    Quiescent hwReady ∧ ¬ Quiescent (after [.hostByte 0x50] hwReady) ∧
      ¬ Quiescent { hwReady with eng.pendStop := true } ∧ Quiescent (after [.hostReads] bbReady) := by decide +kernel

/-! ## For each statement with premises: states and operands that meet them together, for each of its clauses -/

/-- A command word on the port, the sequencer idle. -/
def offering (w : CmdWord) (s : State) : State := { s with port.cmd := w, port.cmdValid := true }

/-- A received byte on the port, the sequencer idle. -/
def receiving (b : Byte) (s : State) : State := { s with port.rxData := b, port.rxValid := true }

/-- A framer that forwards, the guard armed, `n` bytes to come. -/
def forwarding (n : BitVec 16) (s : State) : State :=
  { s with frm := { cursor := .fwd, remaining := n, lastSt := 0, wdArmed := true } }

/-- The engine holds a command in flight. -/
def inFlight (c : EngineCmd) (p : Phase) : State := { hwOpen p with eng.ecmd := some c }

/-- The engine is `UNKNOWN`, a command in flight. -/
def unknown : State := inFlight .start .unknown

/-- The step answers the next state `t`. -/
def stepsTo (s t : State) : Bool :=
  match step s with
  | .next u => decide (u = t)
  | _ => false

theorem step_of_stepsTo {s t : State} (h : stepsTo s t = true) : step s = .next t := by
  unfold stepsTo at h
  split at h <;> simp_all

theorem premises_UndecodableWordsAreRefused :
    (OffersCommand 0x160000 (offering 0x160000 hwReady) ∧ GuardSilent (offering 0x160000 hwReady) ∧
      decodeCommand 0x160000 = .error .reservedOp) ∧
    (OffersCommand 0x010001 (offering 0x010001 bbReady) ∧ GuardSilent (offering 0x010001 bbReady) ∧
      decodeCommand 0x010001 = .error .reservedField) := by decide +kernel

theorem premises_StepRunsTheDecodedCommand :
    encode (.sesWrite 0xAA) = .command 0x1200AA ∧ OffersCommand 0x1200AA (offering 0x1200AA hwReady) ∧
      (offering 0x1200AA hwReady).inputs = [] ∧ OffersCommand 0x1200AA (after [.seq] (offering 0x1200AA hwReady)) ∧
      (after [.seq] (offering 0x1200AA hwReady)).inputs = .seq :: [] := by decide +kernel

theorem premises_StepRunsTheReceivedByte :
    OffersByte 0x50 (receiving 0x50 hwReady) ∧ (receiving 0x50 hwReady).inputs = [] ∧
      OffersByte 0x00 (after [.seq, .guard] (receiving 0x00 (forwarding 1 hwReady))) := by decide +kernel

theorem premises_StepIsOneMove :
    (bbReady.inputs = [] ∧ (after [.seq, .guard] (offering 0x070000 bbReady)).inputs = .seq :: [.guard]) ∧
    ((after [.envSda true] bbReady).inputs = .envSda true :: [] ∧ Move.envSda true ≠ .seq) ∧
      ({ hwReady with port.busy := true } : State).port.busy = true ∧
      (hwReady.port.rxValid = false ∧ hwReady.port.cmdValid = false ∧ hwReady.port.busy = false) ∧
      (receiving 0x50 hwReady).port.rxValid = true := by decide +kernel

theorem premises_RefusalsAreExactlyTheSixReasons :
    (OffersCommand 0x070000 (offering 0x070000 bbReady) ∧ refusalOf 0x070000 bbReady = some .reservedOp) ∧
    (OffersCommand 0x05FF00 (offering 0x05FF00 bbReady) ∧ refusalOf 0x05FF00 bbReady = some .reservedField) ∧
    (OffersCommand 0x060008 (offering 0x060008 hwReady) ∧ refusalOf 0x060008 hwReady = some .noBbDriver) ∧
    refusalOf 0x120011 { hwReady with frm.cursor := .lenHi } = some .frameInProgress ∧
    refusalOf 0x060008 State.reset = some .bbNotConfigured ∧ refusalOf 0x060009 bbReady = some .badControlWord ∧
    (OffersCommand 0x060008 (offering 0x060008 bbReady) ∧ GuardSilent (offering 0x060008 bbReady) ∧
      refusalOf 0x060008 bbReady = none ∧ BusResponsive (offering 0x060008 bbReady)) ∧
    (OffersByte 0xFF (receiving 0xFF (forwarding 1 bbOwned)) ∧ GuardSilent (receiving 0xFF (forwarding 1 bbOwned)) ∧
      BusResponsive (receiving 0xFF (forwarding 1 bbOwned))) ∧
    (OffersByte 0x01 (receiving 0x01 (offering 0x150000 { hwReady with frm.cursor := .lenHi })) ∧
      (offering 0x150000 hwReady).port.cmdValid = true ∧ hwReady.inputs = [] ∧ hwReady.port.respValid = true) := by
  decide +kernel

theorem premises_ResetValues :
    State.powerOn Params.default = State.powerOn Params.default ∧ (forwarding 1 hwReady).frm.wdArmed = true := by
  decide +kernel

theorem premises_ResetReleasesTheBus : bbOwned.cfg.backend = .bb := by decide

theorem premises_GuardCutsEveryOperation :
    ((after [.guard] (forwarding 1 bbOwned)).frm.wdArmed = true ∧
      (after [.guard] (forwarding 1 bbOwned)).inputs = .guard :: []) ∧
    ((after [.guard] bbOwned).frm.wdArmed = false ∧ (after [.guard] bbOwned).inputs = .guard :: []) := by
  decide +kernel

theorem premises_LatchIsTransparentWhileSclIsLow : bbOwned.drv.sclLow = true ∧ bbReady.drv.sclLow = false := by
  decide

theorem premises_LtraceRecordsEveryChange : State.reset.cfg.backend = .bb := by decide

theorem premises_LtraceEndsAtTheLines :
    LinesTraced (after [.envSda true] bbOwned) ∧
      step (after [.envSda true] bbOwned) = .next (bbOwned.apply (.envSda true)) :=
  ⟨by decide +kernel, step_of_stepsTo (by decide +kernel)⟩

theorem premises_BitCycleMovesOneBit :
    (bbOwned.cfg.backend = .bb ∧ GuardSilent bbOwned ∧ BusResponsive bbOwned ∧ bbOwned.inputs = []) ∧
    ({ bbOwned with drv.latch := false } : State).coreSdaLow = true ∧
    (let s := after (turns 3 ++ .envSda true :: .seq :: []) bbOwned;
      GuardSilent s ∧ BusResponsive s ∧ s.bus.envSclLow = false) := by decide +kernel

theorem premises_BbConfigureCompletes :
    State.reset.cfg.backend = .bb ∧ State.reset.frm.cursor = .awaitAddr ∧ GuardSilent State.reset := by decide +kernel

theorem premises_BbStartAndStopComplete :
    (DriverReady bbReady ∧ GuardSilent bbReady ∧ BusResponsive bbReady) ∧
    (let s := after [.envScl true, .envScl false] bbOwned;
      DriverReady s ∧ GuardSilent s ∧ BusResponsive s) := by decide +kernel

theorem premises_BbPutbyteReturnsTheAcknowledge :
    (DriverReady bbOwned ∧ GuardSilent bbOwned ∧ BusResponsive bbOwned ∧ bbOwned.inputs = []) ∧
    (let s := after (turns 82 ++ .envSda true :: (turns 11 ++ [])) bbOwned;
      DriverReady s ∧ GuardSilent s ∧ BusResponsive s ∧ s.bus.envSclLow = false) ∧
    (let s := after
        (turns 82 ++ .envSda true :: .envScl true :: (turns (4 + 3) ++ .envScl false :: (turns 2 ++ []))) bbOwned;
      DriverReady s ∧ GuardSilent s ∧ BusResponsive s ∧ s.bus.envSclLow = false) := by decide +kernel

theorem premises_BbGetbyteReturnsTheByte :
    (DriverReady bbOwned ∧ GuardSilent bbOwned ∧ BusResponsive bbOwned ∧ bbOwned.inputs = []) ∧
    (let s := after (turns 3 ++ slaveBits (bitsOf 0x81) ++ []) bbOwned;
      DriverReady s ∧ GuardSilent s ∧ BusResponsive s ∧ s.bus.envSclLow = false) := by decide +kernel

theorem premises_BbTransferShiftsTheSamples :
    (DriverReady bbOwned ∧ controlWordOk 0x01 = true ∧ controlWordOk 0x08 = true ∧ GuardSilent bbOwned ∧
      BusResponsive bbOwned) ∧
    (bbOwned.inputs = [] ∧ bbOwned.drv.dirOut = true ∧ DriverInv bbOwned) ∧
    (let s := after (turns 2 ++ slaveBits [true, false, true] ++ []) bbOwned;
      DriverReady s ∧ GuardSilent s ∧ BusResponsive s ∧ DriverInv s ∧ s.bus.envSclLow = false ∧
        [true, false, true].length = (controlBits 0x03).toNat ∧ controlWordOk 0x03 = true) :=
  ⟨by decide +kernel, by decide +kernel, by decide +kernel⟩

theorem premises_StartOnTheLines :
    (DriverReady bbReady ∧ bbReady.inputs = [] ∧ SlavesReleased bbReady ∧ LinesTraced bbReady ∧
      DriverAtRest false bbReady) ∧
    (DriverReady bbOwned ∧ bbOwned.inputs = [] ∧ SlavesReleased bbOwned ∧ LinesTraced bbOwned ∧
      DriverAtRest true bbOwned ∧ BusOwned bbOwned) := by decide +kernel

theorem premises_StopOnTheLines :
    (DriverReady bbOwned ∧ bbOwned.inputs = [] ∧ SlavesReleased bbOwned ∧ LinesTraced bbOwned ∧
      DriverAtRest true bbOwned ∧ BusOwned bbOwned) ∧
    (DriverReady bbReady ∧ bbReady.inputs = [] ∧ SlavesReleased bbReady ∧ LinesTraced bbReady ∧
      DriverAtRest false bbReady ∧ (parseLines bbReady.bus.ltrace).owned = false) := by decide +kernel

theorem premises_PutbyteOnTheLines :
    let s := after (turns 82 ++ slaveAck true) bbOwned
    DriverReady s ∧ SlavesReleased s ∧ LinesTraced s ∧ BusOwned s ∧ DriverAtRest true s := by decide +kernel

theorem premises_GetbyteOnTheLines :
    let s := after (turns 3 ++ slaveBits (bitsOf 0x3C) ++ [.envSda false]) bbOwned
    DriverReady s ∧ SlavesReleased s ∧ LinesTraced s ∧ BusOwned s ∧ DriverAtRest true s := by decide +kernel

theorem premises_StatusEncoderTable :
    hwReady.eng.phase = .idle ∧ (hwOpen .started).eng.phase = .started ∧ (hwOpen .mt).eng.phase = .mt ∧
      (hwOpen .mr).eng.phase = .mr ∧ unknown.eng.phase = .unknown ∧ (0xA0#8).getLsbD 0 = false ∧
      (0xA1#8).getLsbD 0 = true := by decide +kernel

theorem premises_EngineStepPerforms :
    (hwReady.cfg.backend = .hw ∧ hwReady.ses.clkdiv ≠ 0#8) ∧
    (let s : State := { inFlight .tx .mt with eng.pendStop := true };
      s.eng.phase ≠ .unknown ∧ s.eng.pendStop = true ∧ s.port.busy = false) ∧
    ((inFlight .start .idle).eng.pendStop = false ∧ (inFlight .start .idle).eng.ecmd = some .start ∧
      (inFlight .start .idle).eng.phase ≠ .unknown) ∧
    ((inFlight .tx .started).eng.phase ≠ .idle ∧ (inFlight .tx .started).eng.ecmd = some .tx ∧
      (draw .ack 0).tx = .ack ∧ (draw .nack 0).tx = .nack ∧ (draw .lost 0).tx = .lost) ∧
    (inFlight .rxAck .mr).eng.ecmd = some .rxAck ∧ (inFlight .rxNack .mr).eng.ecmd = some .rxNack := by decide +kernel

theorem premises_EngineHasNoStep :
    bbReady.cfg.backend = .bb ∧ hwClean.ses.clkdiv = 0#8 ∧
      (hwReady.eng.phase ≠ .unknown ∧ hwReady.eng.pendStop = false ∧ hwReady.eng.ecmd = none) ∧
      ((inFlight .tx .idle).eng.pendStop = false ∧ (inFlight .tx .idle).eng.phase = .idle ∧
        (inFlight .tx .idle).eng.ecmd ≠ some .start) ∧
      (let s : State := { hwOpen .mt with eng.pendStop := true, port.busy := true, port.stopIssued := true };
        s.eng.phase ≠ .unknown ∧ s.eng.pendStop = true ∧ s.port.busy = true ∧ s.port.stopIssued = true) := by
  decide +kernel

theorem premises_UnknownPhaseLastsUntilReset :
    (unknown.eng.phase = .unknown ∧ step unknown = .next unknown) ∧
      (forwarding 1 unknown).eng.phase = .unknown ∧
      step (after [.guard] (forwarding 1 unknown)) = .next (forwarding 1 unknown).coreReset :=
  ⟨⟨rfl, step_of_stepsTo (by decide +kernel)⟩, rfl, step_of_stepsTo (by decide +kernel)⟩

theorem premises_IssuingACommand :
    (GuardSilent hwReady ∧ EngineSilent hwReady ∧ hwReady.eng.ecmd = none) ∧
      (GuardSilent (inFlight .start .idle) ∧ EngineSilent (inFlight .start .idle) ∧
        (inFlight .start .idle).eng.ecmd ≠ none) := by decide +kernel

theorem premises_SilentEngineTimesOut :
    (hwReady.cfg.backend = .hw ∧ SessionReady hwReady ∧ GuardSilent hwReady ∧ EngineSilent hwReady ∧
      hwReady.cfg.codes.wf ∧ hwReady.eng.ecmd = none ∧ hwReady.eng.phase ≠ .unknown) ∧
    (SessionReady (hwOpen .mr) ∧ (hwOpen .mr).eng.ecmd = none ∧ (hwOpen .mr).eng.phase ≠ .idle) := by decide +kernel

theorem premises_SesConfigureOnce :
    (GuardSilent bbReady ∧ bbReady.ses.clkdiv ≠ 0#8 ∧ EngineSilent bbReady) ∧
      (GuardSilent hwClean ∧ hwClean.ses.clkdiv = 0#8 ∧ EngineSilent hwClean) ∧
      (GuardSilent State.reset ∧ State.reset.ses.clkdiv = 0#8 ∧ State.reset.cfg.backend = .bb) := by decide +kernel

theorem premises_ConfigurationIsKeptUntilReset :
    (hwReady.ses.clkdiv ≠ 0#8 ∧ step hwReady = .next hwReady) ∧
      (forwarding 1 hwReady).ses.clkdiv ≠ 0#8 ∧
      step (after [.guard] (forwarding 1 hwReady)) = .next (forwarding 1 hwReady).coreReset :=
  ⟨⟨by decide, step_of_stepsTo (by decide +kernel)⟩, by decide, step_of_stepsTo (by decide +kernel)⟩

theorem premises_UnconfiguredSessionDoesNothing :
    hwClean.ses.clkdiv = 0#8 ∧ hwClean.frm.cursor = .awaitAddr ∧ GuardSilent hwClean ∧ hwClean.inputs = [] := by
  decide +kernel

theorem premises_SessionCommandsComplete :
    (SessionReady hwReady ∧ GuardSilent hwReady) ∧
      (SessionReady bbOwned ∧ GuardSilent bbOwned ∧ BusResponsive bbOwned) := by decide +kernel

/-- A data phase and an address phase; answered at the first poll and at the last. -/
theorem premises_SesWriteOnTheEngine :
    (let s := after (turns 5 ++ polled 0 (draw .nack 0) ++ []) (hwOpen .mt);
      SessionReady s ∧ EngineFree s ∧ GuardSilent s ∧ s.cfg.codes.wf ∧ 0 ≤ s.cfg.waitBudget ∧ s.eng.phase ≠ .idle) ∧
    (let s := after (turns 5 ++ polled 4 (draw .lost 0) ++ []) (hwOpen .started);
      SessionReady s ∧ EngineFree s ∧ GuardSilent s ∧ 4 ≤ s.cfg.waitBudget ∧ s.eng.phase = .started) := by
  decide +kernel

/-- A free engine answering at the last poll; a pending STOP performed at once and at the last poll but none. -/
theorem premises_SesStartOnTheEngine :
    (let s := after (turns 4 ++ polled 4 (draw .ack 0) ++ turns 7 ++ polled 0 (draw .nack 0) ++ []) hwReady;
      SessionReady s ∧ EngineFree s ∧ GuardSilent s ∧ s.cfg.codes.wf ∧ 4 ≤ s.cfg.waitBudget) ∧
    (let stopping : State := { hwOpen .mt with eng.pendStop := true };
      let late := after (polled 8 (draw .ack 0) ++ polled 0 (draw .ack 0) ++ turns 7 ++ polled 0 (draw .ack 0) ++ []) stopping;
      let early := after (polled 0 (draw .ack 0) ++ polled 4 (draw .ack 0) ++ turns 7 ++ polled 0 (draw .ack 0) ++ []) stopping;
      SessionReady late ∧ GuardSilent late ∧ SessionReady early ∧ GuardSilent early ∧ early.cfg.codes.wf ∧
        8 + 0 ≤ 4 + early.cfg.waitBudget ∧ early.cfg.backend = .hw ∧ early.eng.ecmd = none ∧
        early.eng.pendStop = true ∧ early.eng.phase ≠ .unknown) := by decide +kernel

theorem premises_SesReadOnTheEngine :
    let s := after (turns 4 ++ polled 4 (draw .ack 0x12) ++ []) (hwOpen .mr)
    SessionReady s ∧ EngineFree s ∧ GuardSilent s ∧ 4 ≤ s.cfg.waitBudget ∧ s.eng.phase ≠ .idle := by decide +kernel

theorem premises_SesStopOnTheEngineIsPending :
    (let s : State := after [.engine (draw .ack 0)] { hwOpen .mt with eng.pendStop := true };
      SessionReady s ∧ GuardSilent s ∧ s.eng.ecmd = none ∧ s.eng.phase ≠ .unknown) ∧
    SessionReady (hwOpen .mt) ∧ (hwOpen .mt).cfg.backend = .hw ∧ GuardSilent (hwOpen .mt) ∧ EngineSilent (hwOpen .mt) ∧
      (hwOpen .mt).eng.ecmd = none ∧ (hwOpen .mt).eng.pendStop = false ∧ (hwOpen .mt).eng.phase ≠ .unknown := by
  decide +kernel

theorem premises_SesWriteOnTheDriver :
    (let s := after (turns 83 ++ .envSda true :: (turns 11 ++ [])) bbOwned;
      SessionReady s ∧ s.cfg.backend = .bb ∧ GuardSilent s ∧ s.cfg.codes.wf ∧ s.bus.envSclLow = false ∧
        s.eng.phase = .started) ∧
    (let s : State := after (turns 83 ++ .envSda false :: (turns 11 ++ [])) { bbOwned with eng.phase := .mt };
      SessionReady s ∧ GuardSilent s ∧ s.bus.envSclLow = false ∧ s.eng.phase ≠ .idle ∧ s.eng.phase ≠ .unknown) ∧
    (let s := after (turns 83 ++ .envSda true :: (turns 11 ++ [.envSda false])) bbOwned;
      SessionReady s ∧ GuardSilent s ∧ s.eng.phase ≠ .idle ∧ SlavesReleased s ∧ LinesTraced s ∧ BusOwned s ∧
        DriverAtRest true s) ∧
    (SessionReady bbReady ∧ GuardSilent bbReady ∧ bbReady.eng.phase = .idle ∧ bbReady.inputs = []) := by decide +kernel

theorem premises_SesStartOnTheDriver :
    (let s := after (turns 92 ++ .envSda true :: (turns 11 ++ [])) bbReady;
      SessionReady s ∧ s.cfg.backend = .bb ∧ GuardSilent s ∧ s.cfg.codes.wf ∧ s.eng.phase ≠ .unknown ∧
        s.bus.envSclLow = false) ∧
    (let moves := turns 92 ++ .envSda true :: (turns 11 ++ [.envSda false]);
      (SessionReady (after moves bbReady) ∧ GuardSilent (after moves bbReady) ∧ SlavesReleased bbReady ∧
        LinesTraced bbReady ∧ DriverAtRest false bbReady) ∧
      (SessionReady (after moves bbOwned) ∧ GuardSilent (after moves bbOwned) ∧ SlavesReleased bbOwned ∧
        LinesTraced bbOwned ∧ DriverAtRest true bbOwned ∧ BusOwned bbOwned)) := by decide +kernel

theorem premises_SesReadAndStopOnTheDriver :
    (let s := after (turns 3 ++ slaveBits (bitsOf 0x34) ++ []) bbOwned;
      SessionReady s ∧ s.cfg.backend = .bb ∧ GuardSilent s ∧ s.eng.phase ≠ .unknown ∧ s.bus.envSclLow = false ∧
        s.eng.phase ≠ .idle ∧ BusResponsive s) ∧
    (let s := after (turns 3 ++ slaveBits (bitsOf 0x34) ++ [.envSda false]) bbOwned;
      SessionReady s ∧ GuardSilent s ∧ BusResponsive s ∧ SlavesReleased s ∧ LinesTraced s ∧ BusOwned s ∧
        DriverAtRest true s) ∧
    (SessionReady bbOwned ∧ GuardSilent bbOwned ∧ BusResponsive bbOwned ∧ SlavesReleased bbOwned ∧
      LinesTraced bbOwned ∧ bbOwned.inputs = [] ∧ DriverAtRest true bbOwned ∧ BusOwned bbOwned) ∧
    (SessionReady bbReady ∧ GuardSilent bbReady ∧ bbReady.eng.phase = .idle ∧ bbReady.inputs = [] ∧
      BusResponsive bbReady ∧ SlavesReleased bbReady ∧ LinesTraced bbReady ∧ DriverAtRest false bbReady ∧
      (parseLines bbReady.bus.ltrace).owned = false) := by
  refine ⟨?_, ?_, ?_, ?_⟩ <;> decide +kernel

theorem premises_RxAddressStartsAFrame :
    (GuardSilent hwReady ∧ hwReady.inputs = [] ∧ hwReady.frm.cursor = .awaitAddr) ∧
      (let s := after (.seq :: (turns 4 ++ polled 0 (draw .ack 0) ++ turns 7 ++ polled 0 (draw .nack 0))) hwReady;
        GuardSilent s ∧ s.frm.cursor = .awaitAddr) ∧
      (GuardSilent bbReady ∧ BusResponsive bbReady) ∧ hwClean.ses.clkdiv = 0#8 := by decide +kernel

/-- The shortest nonzero length, the longest, and zero. -/
theorem premises_RxLengthBytes :
    GuardSilent hwReady ∧ EngineSilent hwReady ∧
    (let s : State := { hwReady with frm.cursor := .lenLo, frm.remaining := 0xFF00 };
      s.frm.remaining.extractLsb' 0 8 = 0#8 ∧ s.frm.remaining ||| (0xFF#8).setWidth 16 ≠ 0#16) ∧
    (let s : State := { bbOwned with frm.cursor := .lenLo };
      s.frm.remaining ||| (0x01#8).setWidth 16 ≠ 0#16 ∧ s.frm.remaining ||| (0x00#8).setWidth 16 = 0#16 ∧
        GuardSilent s ∧ BusResponsive s ∧ s.ses.clkdiv ≠ 0#8 ∧ s.eng.phase ≠ .unknown) := by decide +kernel

theorem premises_RxPayloadForwardsAByte :
    (GuardSilent (forwarding 2 hwReady) ∧ (forwarding 2 hwReady).frm.remaining ≠ 1#16 ∧
      (forwarding 2 hwReady).inputs = []) ∧
    (GuardSilent (forwarding 1 bbOwned) ∧ BusResponsive (forwarding 1 bbOwned) ∧
      (forwarding 1 bbOwned).frm.remaining = 1#16 ∧ (forwarding 1 bbOwned).eng.phase ≠ .unknown) ∧
    (forwarding 2 hwClean).ses.clkdiv = 0#8 := by decide +kernel

/-- Fewer bytes than the length, and as many. -/
theorem premises_FrameEndsAfterItsLength :
    (let payload : List (Byte × List Move) := [(0xAA, [.engine (draw .nack 0)])];
      (forwarding 2 hwReady).frm.cursor = .fwd ∧ (forwarding 2 hwReady).frm.wdArmed = true ∧ 1 ≤ payload.length ∧
        payload.length < (forwarding 2 hwReady).frm.remaining.toNat ∧ ∀ x ∈ payload, Move.guard ∉ x.2) ∧
    (let payload : List (Byte × List Move) := [(0xAA, [.envSda true])];
      payload.length = (forwarding 1 bbOwned).frm.remaining.toNat ∧ bbOwned.bus.envSclLow = false ∧
        (∀ x ∈ payload, Move.guard ∉ x.2) ∧
        ∀ x ∈ payload, Move.envScl false ∉ x.2 ∧ Move.envScl true ∉ x.2) := by decide +kernel

theorem premises_FrameIsOneTransactionOnTheEngine :
    let payload : List (Byte × Nat × EngineDraw) := [(0xAA, 4, draw .nack 0), (0xBB, 0, draw .ack 0)]
    EngineFree hwReady ∧ hwReady.eng.phase = .idle ∧ hwReady.frm.cursor = .awaitAddr ∧
      hwReady.frm.wdArmed = false ∧ hwReady.cfg.codes.wf ∧ payload.length ≤ 65535 ∧
      ([] : List (Byte × Nat × EngineDraw)).length ≤ 65535 ∧
      0 ≤ hwReady.cfg.waitBudget ∧ 4 ≤ hwReady.cfg.waitBudget ∧ (draw .nack 0).tx ≠ .lost ∧
      ∀ x ∈ payload, x.2.1 ≤ hwReady.cfg.waitBudget ∧ x.2.2.tx ≠ .lost := by decide +kernel

theorem premises_FrameIsOneTransactionOnTheDriver :
    let payload : List (Byte × Bool) := [(0xAA, false), (0xBB, true)]
    bbReady.cfg.backend = .bb ∧ bbReady.ses.clkdiv ≠ 0#8 ∧ bbReady.eng.phase = .idle ∧
      bbReady.frm.cursor = .awaitAddr ∧ bbReady.frm.wdArmed = false ∧ bbReady.cfg.codes.wf ∧
      DriverAtRest false bbReady ∧ SlavesReleased bbReady ∧ LinesTraced bbReady ∧
      (parseLines bbReady.bus.ltrace).owned = false ∧ payload.length ≤ 65535 ∧
      ([] : List (Byte × Bool)).length ≤ 65535 := by decide +kernel

/-- The length-high byte on either back end, in the middle of a frame: a state every invariant holds of. -/
def inHeader (s : State) : State := receiving 0x01 { s with frm.cursor := .lenHi }

theorem premises_StepKeepsTheInvariants_hw :
    (FramerInv (inHeader hwReady) ∧ DriverInv (inHeader hwReady) ∧ AbsentUnitInv (inHeader hwReady) ∧
      SessionInv (inHeader hwReady)) ∧
    step (inHeader hwReady) =
      .next { hwReady with frm.remaining := 0x0100, frm.cursor := .lenLo, port.rxData := 0x01 } :=
  ⟨⟨by decide +kernel, by decide +kernel, by decide +kernel, by decide +kernel⟩, step_of_stepsTo (by decide +kernel)⟩

theorem premises_StepKeepsTheInvariants_bb :
    (FramerInv (inHeader bbOwned) ∧ DriverInv (inHeader bbOwned) ∧ AbsentUnitInv (inHeader bbOwned) ∧
      SessionInv (inHeader bbOwned)) ∧
    step (inHeader bbOwned) =
      .next { bbOwned with frm.remaining := 0x0100, frm.cursor := .lenLo, port.rxData := 0x01 } :=
  ⟨⟨by decide +kernel, by decide +kernel, by decide +kernel, by decide +kernel⟩, step_of_stepsTo (by decide +kernel)⟩

theorem premises_TracesOnlyGrow : step hwReady = .next hwReady := step_of_stepsTo (by decide +kernel)

theorem premises_HeldClockHangsTheDriver :
    let s : State := { bbOwned with bus.envSclLow := true }
    DriverReady s ∧ s.bus.envSclLow = true ∧ s.inputs = [] ∧ controlWordOk 0x08 = true := by decide +kernel

/-- A START behind a pending STOP, a byte sent and a byte read, each performed at the last poll before the budget. -/
theorem premises_ResponsiveEngineNeverTimesOut :
    (let s := after
        (turns 4 ++ polled 1 (draw .ack 0) ++ polled 2 (draw .ack 0) ++ turns 7 ++ polled 3 (draw .nack 0))
        { hwOpen .mt with eng.pendStop := true };
      SessionReady s ∧ s.cfg.backend = .hw ∧ s.cfg.wf ∧ GuardSilent s ∧ s.eng.ecmd = none ∧ s.eng.phase ≠ .unknown ∧
        EngineResponsive (.sesStart .read 0x50) s) ∧
    (let s := after (turns 5 ++ polled 3 (draw .lost 0)) (hwOpen .mt);
      SessionReady s ∧ GuardSilent s ∧ EngineResponsive (.sesWrite 0x55) s ∧ s.eng.pendStop = false ∧
        s.eng.phase ≠ .idle) ∧
    (let s := after (turns 4 ++ polled 3 (draw .ack 0x12)) (hwOpen .mr);
      EngineResponsive .sesReadAck s ∧ EngineResponsive .sesReadNack s) ∧
    (let s := after (turns 9 ++ [.engine (draw .ack 0)]) (hwOpen .mt);
      SessionReady s ∧ GuardSilent s ∧ s.eng.ecmd = none ∧ s.eng.pendStop = false ∧ s.port.rxValid = false ∧
        s.port.cmdValid = false ∧ s.inputs.all (fun m => !m.isDelivery) = true ∧ EngineResponsive .sesStop s) := by
  decide +kernel

theorem premises_ConfiguredEndsTheFirstRun : 0x48#8 ≠ 0#8 := by decide

end Sys2Proof.Tests
end

/-! ## Parameters and traces (00_scope.md rule R8; 10_state.md rules R52, R53) -/

namespace Sys2Proof.Machine

/-- `t` has the parameters of `s`, and each stored trace of `s` is a beginning of the one of `t`. -/
structure TracesExtend (s t : State) : Prop where
  cfg : t.cfg = s.cfg
  trace : s.bus.trace <+: t.bus.trace
  ltrace : s.bus.ltrace <+: t.bus.ltrace

theorem TracesExtend.refl (s : State) : TracesExtend s s := ⟨rfl, List.prefix_refl _, List.prefix_refl _⟩

theorem TracesExtend.trans {s t u : State} (h : TracesExtend s t) (k : TracesExtend t u) : TracesExtend s u :=
  ⟨k.cfg.trans h.cfg, h.trace.trans k.trace, h.ltrace.trans k.ltrace⟩

theorem Moved.tracesExtend {s t : State} (h : Moved s t) : TracesExtend s t := ⟨h.cfg, h.tracePrefix, h.ltracePrefix⟩

theorem DriverWrite.tracesExtend {f : State → State} {F : Driver → Driver} (w : DriverWrite f F) (s : State) :
    TracesExtend s (f s) :=
  ⟨w.cfg s, by rw [w.trace], w.ltrace s⟩

/-- A reset appends `EV_RESET`, or the mark and the released pair, to the traces it keeps (70_reset_and_hazards.md rule
R301). -/
theorem coreReset_tracesExtend (s : State) : TracesExtend s s.coreReset := by
  refine ⟨coreReset_cfg s, ?_, ?_⟩
  all_goals
    simp only [State.coreReset]
    split <;> simp

/-- Nothing any agent does forgets an entry: the writes of the driver's registers and the moves of the other agents add
to the traces, as a reset does, and every other write leaves them. -/
theorem tracesExtend_keptByWrites (s : State) : KeptByWrites (TracesExtend s) where
  inputs _ _ h := ⟨h.cfg, h.trace, h.ltrace⟩
  apply _ _ h hf := h.trans (apply_moved hf).tracesExtend
  reset t h _ := h.trans (coreReset_tracesExtend t)
  setSr t v h := h.trans ((setSr_write v).tracesExtend t)
  releaseScl t h := h.trans (releaseScl_write.tracesExtend t)
  pullScl t h := h.trans (pullScl_write.tracesExtend t)
  setLatch t b h := h.trans ((setLatch_write b).tracesExtend t)
  setDirOut t b h := h.trans ((setDirOut_write b).tracesExtend t)
  setSdaForce t b h := h.trans ((setSdaForce_write b).tracesExtend t)
  driver _ _ _ _ h := ⟨h.cfg, h.trace, h.ltrace⟩
  session _ _ h := ⟨h.cfg, h.trace, h.ltrace⟩
  engine _ _ h := ⟨h.cfg, h.trace, h.ltrace⟩
  framer _ _ h := ⟨h.cfg, h.trace, h.ltrace⟩
  port _ _ h := ⟨h.cfg, h.trace, h.ltrace⟩

/-- Settles O54: from `s` on, extending the traces of `s` is kept by every write, move and reset of a step. -/
theorem tracesOnlyGrow : Obligations.TracesOnlyGrow := by
  unfold Obligations.TracesOnlyGrow
  intro s t hst
  have kept := (tracesExtend_keptByWrites s).step s (.refl s)
  rw [hst] at kept
  exact ⟨kept.cfg, kept.trace, kept.ltrace⟩

end Sys2Proof.Machine

/-! ## What no rule reads: `LAST_ST` and the traces (10_state.md rules R48, R52, R53) -/

namespace Sys2Proof.Machine

/-- A part of the state that no rule reads. -/
inductive Unused where
  | lastSt
  | traces

/-- The state without such a part. -/
def State.forget : Unused → State → State
  | .lastSt => State.forgetLastSt
  | .traces => State.forgetTraces

/-- The two states differ in that part alone. -/
abbrev SameBut (k : Unused) (s t : State) : Prop := s.forget k = t.forget k

section
variable {k : Unused} {s t : State}

@[simp] theorem forget_cfg : (s.forget k).cfg = s.cfg := by cases k <;> rfl
@[simp] theorem forget_ses : (s.forget k).ses = s.ses := by cases k <;> rfl
@[simp] theorem forget_eng : (s.forget k).eng = s.eng := by cases k <;> rfl
@[simp] theorem forget_linePair : (s.forget k).linePair = s.linePair := by cases k <;> rfl

/-- A read that forgetting that part leaves as it is. -/
theorem SameBut.read {α : Type} (f : State → α) (r : SameBut k s t)
    (hf : ∀ k u, f (u.forget k) = f u := by rintro ⟨⟩ _ <;> rfl) : f s = f t :=
  (hf k s).symm.trans ((congrArg f r).trans (hf k t))

theorem SameBut.reads (r : SameBut k s t) : SameReads s t where
  cfg := r.read State.cfg
  drv := r.read State.drv
  ses := r.read State.ses
  eng := r.read State.eng
  port := r.read State.port
  cursor := r.read fun u => u.frm.cursor
  remaining := r.read fun u => u.frm.remaining
  sclLine := r.read State.sclLine
  sdaLine := r.read State.sdaLine

/-- A write whose outcome is the same, that part aside, when the part is forgotten before it. -/
theorem SameBut.write (w : State → State) (r : SameBut k s t)
    (hw : ∀ k u, SameBut k (w (u.forget k)) (w u) := by rintro ⟨⟩ _ <;> rfl) : SameBut k (w s) (w t) :=
  (hw k s).symm.trans ((congrArg (fun u => (w u).forget k) r).trans (hw k t))

/-- A write that may move a line: neither whether it does nor the pair it records depends on that part. -/
theorem SameBut.lines (f : State → State) (r : SameBut k s t)
    (hf : ∀ k u, f (u.forget k) = (f u).forget k := by rintro ⟨⟩ _ <;> rfl) :
    SameBut k (s.moveLines f) (t.moveLines f) :=
  r.write _ fun k u => by
    simp only [State.moveLines, hf, forget_cfg, forget_linePair]
    split <;> cases k <;> rfl

theorem SameBut.emit (e : Event) (r : SameBut k s t) : SameBut k (s.emit e) (t.emit e) :=
  r.write _

theorem SameBut.encodeStatus (e : BusEvent) (r : SameBut k s t) : SameBut k (s.encodeStatus e) (t.encodeStatus e) :=
  r.write _ fun k u => by
    simp only [State.encodeStatus, forget_cfg, forget_eng]
    split <;> cases k <;> rfl

theorem SameBut.engineBy (f : Engine → Engine) (r : SameBut k s t) :
    SameBut k { s with eng := f s.eng } { t with eng := f t.eng } :=
  r.write fun u => { u with eng := f u.eng }

theorem SameBut.portBy (f : Port → Port) (r : SameBut k s t) :
    SameBut k { s with port := f s.port } { t with port := f t.port } :=
  r.write fun u => { u with port := f u.port }

/-- What the byte engine performs: an event, its status, and a write of the engine's registers. -/
theorem SameBut.perform (e : Event) (b : BusEvent) (f : Engine → Engine) (r : SameBut k s t) :
    SameBut k { (s.emit e).encodeStatus b with eng := f ((s.emit e).encodeStatus b).eng }
      { (t.emit e).encodeStatus b with eng := f ((t.emit e).encodeStatus b).eng } :=
  ((r.emit e).encodeStatus b).engineBy f

theorem SameBut.performTx (o : TxOutcome) (r : SameBut k s t) : SameBut k (s.performTx o) (t.performTx o) := by
  simp only [State.performTx, r.reads.eng]
  cases o with
  | ack => exact r.perform _ _ fun e => { e with ecmd := none, int := true }
  | nack => exact r.perform _ _ fun e => { e with ecmd := none, int := true }
  | lost =>
    have r' : SameBut k s.releaseEngine t.releaseEngine := r.write _
    exact r'.perform _ _ fun e => { e with ecmd := none, int := true }

theorem SameBut.performRx (m : Bool) (v : Byte) (r : SameBut k s t) : SameBut k (s.performRx m v) (t.performRx m v) :=
  (r.engineBy fun e => { e with data := v }).perform _ _ fun e => { e with ecmd := none, int := true }

theorem SameBut.engineAct (d : EngineDraw) (r : SameBut k s t) : SameBut k (s.engineAct d) (t.engineAct d) := by
  simp only [State.engineAct, r.reads.eng]
  split
  · exact r.write (State.engineAny d.any)
  · split
    · exact r.perform _ _ fun e => { e with pendStop := false }
    · split
      · simp only [State.performStart, r.reads.eng]
        exact r.perform _ _ fun e => { e with ecmd := none, int := true }
      · exact r.performTx d.tx
      · exact r.performRx false d.rx
      · exact r.performRx true d.rx
      · exact r

theorem SameBut.engineMove (d : EngineDraw) (r : SameBut k s t) : SameBut k (s.engineMove d) (t.engineMove d) := by
  simp only [State.engineMove, r.read State.engineActs]
  split
  · exact r.engineAct d
  · exact r

theorem SameBut.coreReset (r : SameBut k s t) : SameBut k s.coreReset t.coreReset :=
  r.write _ fun k u => by
    simp only [State.coreReset, forget_cfg]
    split <;> cases k <;> rfl

/-- A move of another agent. -/
theorem SameBut.apply (m : Move) (r : SameBut k s t) : SameBut k (s.apply m) (t.apply m) := by
  cases m with
  | seq => exact r
  | envScl b => exact r.lines fun u => { u with bus.envSclLow := b }
  | envSda b => exact r.lines fun u => { u with bus.envSdaLow := b }
  | engine d => exact r.engineMove d
  | engineLines a b =>
    refine r.write _ fun k u => ?_
    simp only [State.apply, State.engineLinesMove, forget_cfg, forget_ses]
    split <;> cases k <;> rfl
  | guard =>
    simp only [State.apply, State.guardMove, r.read fun u => u.frm.wdArmed]
    split
    · exact r.coreReset
    · exact r
  | hostByte b =>
    have e := r.reads.port
    simp only [State.apply, State.hostByteMove, e, r.read State.rxReady]
    split
    · simpa only [e] using r.portBy fun p => { p with rxData := b, rxValid := true }
    · exact r
  | hostCommand w =>
    have e := r.reads.port
    simp only [State.apply, State.hostCommandMove, e]
    split
    · exact r
    · simpa only [e] using r.portBy fun p => { p with cmd := w, cmdValid := true }
  | hostReads => exact r.portBy fun p => { p with respValid := false }
  | observe => exact r.write State.observeMove

theorem SameBut.withInputs (l : List Move) (r : SameBut k s t) :
    SameBut k { s with inputs := l } { t with inputs := l } :=
  r.write fun u => { u with inputs := l }

/-- A hold whose condition is read from what the rules read. -/
theorem SameBut.holdOn {C : State → Bool} (hC : ∀ s t, SameReads s t → C s = C t) (l : List Move)
    (r : SameBut k s t) : SameEnd (SameBut k) (holdOn C l s) (holdOn C l t) := by
  induction l generalizing s t with
  | nil =>
    simp only [Machine.holdOn, hC s t r.reads]
    split
    · exact ⟨rfl, r.withInputs []⟩
    · exact ⟨rfl, r.withInputs []⟩
  | cons m rest ih =>
    simp only [Machine.holdOn, hC s t r.reads, r.read (fires m)]
    split
    · split
      · exact ⟨rfl, r.withInputs rest⟩
      · exact ih r
    · split
      · exact ⟨rfl, r.coreReset.withInputs rest⟩
      · exact ih (r.apply m)

end

/-- No rule reads `LAST_ST` or the traces. -/
theorem sameBut_unread (k : Unused) : Unread (SameBut k) where
  reads := SameBut.reads
  hold C hC s t r := by
    have := r.holdOn hC s.inputs
    simpa only [holdUntil, r.read State.inputs] using this
  setSr v r := r.lines fun u => { u with drv.sr := v, drv.latch := if u.drv.sclLow then v.msb else u.drv.latch }
  releaseScl r := r.lines fun u => { u with drv.sclLow := false }
  pullScl r := (r.lines fun u => { u with drv.sclLow := true }).lines fun u => { u with drv.latch := u.drv.sr.msb }
  setLatch b r := r.lines fun u => { u with drv.latch := b }
  setDirOut b r := r.lines fun u => { u with drv.dirOut := b }
  setSdaForce b r := r.lines fun u => { u with drv.sdaForce := b }
  bitcnt x r := r.write fun u => { u with drv.bitcnt := x }
  tc x r := r.write fun u => { u with drv.tc := x }
  bbCfg x r := r.write fun u => { u with drv.bbCfg := x }
  session x r := r.write fun u => { u with ses := x }
  engine x r := r.engineBy fun _ => x
  port x r := r.portBy fun _ => x
  cursor x r := r.write fun u => { u with frm.cursor := x }
  remaining x r := r.write fun u => { u with frm.remaining := x }
  lastSt x r := r.write fun u => { u with frm.lastSt := x }
  wdArmed x r := r.write fun u => { u with frm.wdArmed := x }

/-- A step comes to the same outcome, that part aside. -/
theorem SameBut.step {k : Unused} {s t : State} (r : SameBut k s t) : SameOutcome (SameBut k) (step s) (step t) := by
  simp only [Machine.step, machineTurn, r.read State.inputs]
  split
  · exact (sameBut_unread k).sequencerTurn r
  · split
    · exact (sameBut_unread k).sequencerTurn (r.withInputs _)
    · exact (r.withInputs _).apply _

/-- Outcomes that are the same, that part aside, are one outcome seen without it. -/
theorem SameOutcome.view {k : Unused} {o o' : Host.Outcome State Fault Refusal} (h : SameOutcome (SameBut k) o o') :
    viewOutcome (State.forget k) o = viewOutcome (State.forget k) o' := by
  cases o with
  | next s =>
    cases o' with
    | next t => exact congrArg Host.Outcome.next h
    | fault _ => exact h.elim
    | refused _ => exact h.elim
  | fault a =>
    obtain ⟨s⟩ := a
    cases o' with
    | next _ => exact h.elim
    | fault b => obtain ⟨t⟩ := b; exact congrArg (fun u => Host.Outcome.fault (Fault.busHang u)) h
    | refused _ => exact h.elim
  | refused _ => exact h.elim

/-- Settles O55: a step from two states that differ in `LAST_ST` alone (`SameBut .lastSt`). -/
theorem lastStatusIsNeverRead : Obligations.LastStatusIsNeverRead := by
  unfold Obligations.LastStatusIsNeverRead
  intro s v
  have differ : SameBut .lastSt { s with frm.lastSt := v } s := rfl
  exact differ.step.view

/-- Settles O56: a step from two states that differ in the traces alone (`SameBut .traces`). -/
theorem tracesAreNeverRead : Obligations.TracesAreNeverRead := by
  unfold Obligations.TracesAreNeverRead
  intro s trace ltrace
  have differ : SameBut .traces { s with bus.trace := trace, bus.ltrace := ltrace } s := rfl
  exact differ.step.view

end Sys2Proof.Machine

/-! ## The lines and `LTRACE` (10_state.md rules R50, R53; 40_bus_driver.md rules R132, R133) -/

namespace Sys2Proof.Machine

theorem linePair_eq_iff {s t : State} : s.linePair = t.linePair ↔ s.sclLine = t.sclLine ∧ s.sdaLine = t.sdaLine := by
  simp [State.linePair]

/-- A write that may move a line appends the new pair iff a line changed (40_bus_driver.md rule R133). -/
theorem moveLines_appends (s : State) {f : State → State} (hb : s.cfg.backend = .bb) (hc : (f s).cfg = s.cfg)
    (hl : (f s).bus.ltrace = s.bus.ltrace) :
    (s.moveLines f).bus.ltrace =
      s.bus.ltrace ++
        if (s.moveLines f).sclLine = s.sclLine ∧ (s.moveLines f).sdaLine = s.sdaLine then []
        else [.pair (s.moveLines f).sclLine (s.moveLines f).sdaLine] := by
  rw [moveLines_ltrace_bb s f (by rw [hc]; exact hb), hl, moveLines_sclLine, moveLines_sdaLine]
  simp only [linePair_eq_iff]
  split
  · rw [List.append_nil]
  · rfl

/-- The write that drives SCL low: first SCL falls with SDA where it was, then SDA follows the latch. -/
theorem pullScl_appends (s : State) (hb : s.cfg.backend = .bb) :
    s.pullScl.bus.ltrace =
      s.bus.ltrace ++ (if s.sclLine then [.pair false s.sdaLine] else []) ++
        (if s.pullScl.sdaLine = s.sdaLine then [] else [.pair false s.pullScl.sdaLine]) := by
  let u := s.moveLines fun t => { t with drv.sclLow := true }
  have hu : u.cfg.backend = .bb := by simpa [u] using hb
  have uScl : u.sclLine = false := by simp [u, State.sclLine, State.coreSclLow, hb]
  have uSda : u.sdaLine = s.sdaLine := by simp [u, State.sdaLine, State.coreSdaLow]
  have vScl : s.pullScl.sclLine = false := by simp [State.sclLine, State.coreSclLow, hb]
  have first : u.bus.ltrace = s.bus.ltrace ++ if s.sclLine then [.pair false s.sdaLine] else [] := by
    have := moveLines_appends s (f := fun t => { t with drv.sclLow := true }) hb rfl rfl
    rw [this, show s.moveLines _ = u from rfl, uScl, uSda]
    cases s.sclLine <;> simp
  have second := moveLines_appends u (f := fun t => { t with drv.latch := t.drv.sr.msb }) hu rfl rfl
  rw [show u.moveLines _ = s.pullScl from rfl, uScl, uSda, vScl, first] at second
  simpa using second

/-- Settles O14: each write is a `moveLines` of its register (`moveLines_appends`), the one that drives SCL low two. -/
theorem ltraceRecordsEveryChange : Obligations.LtraceRecordsEveryChange := by
  unfold Obligations.LtraceRecordsEveryChange
  intro s hb
  refine ⟨?_, pullScl_appends s hb⟩
  rintro f (⟨v, rfl⟩ | rfl | ⟨b, rfl⟩ | ⟨b, rfl⟩ | ⟨b, rfl⟩ | ⟨b, rfl⟩ | ⟨b, rfl⟩) <;>
    exact moveLines_appends s hb rfl rfl

/-- Settles O12: R50's equations, back end by back end. -/
theorem linesAreWiredAnd : Obligations.LinesAreWiredAnd := by
  unfold Obligations.LinesAreWiredAnd
  intro s
  cases hb : s.cfg.backend with
  | hw => simp [State.sclLine, State.sdaLine, State.coreSclLow, State.coreSdaLow, hb, and_comm]
  | bb =>
    cases hd : s.drv.dirOut <;>
      simp [State.sclLine, State.sdaLine, State.coreSclLow, State.coreSdaLow, hb, hd, and_comm]

/-- Settles O13: the latch takes `SR[7]` where SCL is driven low; where it is not, the write leaves every register that
SDA is read from. -/
theorem latchIsTransparentWhileSclIsLow : Obligations.LatchIsTransparentWhileSclIsLow := by
  unfold Obligations.LatchIsTransparentWhileSclIsLow
  intro s v
  have msb : ∀ w : Byte, w.msb = w.getLsbD 7 := fun w => BitVec.msb_eq_getLsbD_last w
  refine ⟨fun h => ?_, fun h => ⟨?_, ?_⟩, ?_, ?_, ?_, ?_, ?_⟩
  · simp [h, msb]
  · simp [h]
  · simp [State.sdaLine, State.coreSdaLow, h]
  all_goals simp [msb]

/-! ## The parse of `LTRACE` stands at the lines -/

theorem moveLines_linesTraced {s : State} (f : State → State) (h : LinesTraced s) (hc : (f s).cfg = s.cfg)
    (hl : (f s).bus.ltrace = s.bus.ltrace) : LinesTraced (s.moveLines f) := fun hb => by
  rw [moveLines_cfg, hc] at hb
  exact moveLines_traced hb hc hl (h hb)

/-- With `BACKEND = BB` there is no byte engine to take a step. -/
theorem engineMove_bb {s : State} (hb : s.cfg.backend = .bb) (d : EngineDraw) : s.engineMove d = s := by
  simp [State.engineMove, engineActs_disabled (engineEnabled_bb hb)]

/-- A reset traces its mark and then the lines as they are after it (70_reset_and_hazards.md rule R301). -/
theorem coreReset_linesTraced (s : State) : LinesTraced s.coreReset := fun hb => by
  rw [coreReset_cfg] at hb
  simp only [State.coreReset, hb, State.linePair]
  rw [parseLines_reset]
  rfl

theorem apply_linesTraced {m : Move} {s : State} (h : LinesTraced s) (hf : fires m s = false) :
    LinesTraced (s.apply m) := by
  cases m with
  | envScl b => exact moveLines_linesTraced (fun t => { t with bus.envSclLow := b }) h rfl rfl
  | envSda b => exact moveLines_linesTraced (fun t => { t with bus.envSdaLow := b }) h rfl rfl
  | engine d =>
    intro hb
    rw [(apply_moved hf).cfg] at hb
    rw [State.apply, engineMove_bb hb]
    exact h hb
  | engineLines a b =>
    simp only [State.apply, State.engineLinesMove]
    split
    · rename_i hw
      intro hb
      exact absurd (hw.1.symm.trans hb) (by decide)
    · exact h
  | guard =>
    have hd : s.frm.wdArmed = false := by simpa [fires] using hf
    simpa [State.apply, State.guardMove, hd] using h
  | seq => exact h
  | hostByte b => simp only [State.apply, State.hostByteMove]; split <;> exact h
  | hostCommand w => simp only [State.apply, State.hostCommandMove]; split <;> exact h
  | hostReads => exact h
  | observe => exact h

/-- Every write that may move a line goes through `moveLines`; every other write leaves the lines and `LTRACE`. -/
theorem linesTraced_keptByWrites : KeptByWrites LinesTraced where
  inputs _ _ h := h
  apply _ _ h hf := apply_linesTraced h hf
  reset s _ _ := coreReset_linesTraced s
  setSr _ v h := moveLines_linesTraced
    (fun t => { t with drv.sr := v, drv.latch := if t.drv.sclLow then v.msb else t.drv.latch }) h rfl rfl
  releaseScl _ h := moveLines_linesTraced (fun t => { t with drv.sclLow := false }) h rfl rfl
  pullScl _ h := moveLines_linesTraced (fun t => { t with drv.latch := t.drv.sr.msb })
    (moveLines_linesTraced (fun t => { t with drv.sclLow := true }) h rfl rfl) rfl rfl
  setLatch _ b h := moveLines_linesTraced (fun t => { t with drv.latch := b }) h rfl rfl
  setDirOut _ b h := moveLines_linesTraced (fun t => { t with drv.dirOut := b }) h rfl rfl
  setSdaForce _ b h := moveLines_linesTraced (fun t => { t with drv.sdaForce := b }) h rfl rfl
  driver _ _ _ _ h := h
  session _ _ h := h
  engine _ _ h := h
  framer _ _ h := h
  port _ _ h := h

/-- What every write and move keeps holds of the state a step comes to. -/
theorem KeptByWrites.step_next {P : State → Prop} (k : KeptByWrites P) {s t : State} (h : P s)
    (hst : Machine.step s = .next t) : P t := by
  have kept := k.step s h
  rwa [hst] at kept

/-- Settles O15: every write, move and reset of a step keeps the parse at the lines. -/
theorem ltraceEndsAtTheLines : Obligations.LtraceEndsAtTheLines := by
  unfold Obligations.LtraceEndsAtTheLines
  exact fun _ _ h hst => linesTraced_keptByWrites.step_next h hst

end Sys2Proof.Machine

/-! ## One step (10_state.md rule R21; 60_exceptions.md rules R280, R281) -/

namespace Sys2Proof.Machine

theorem step_of_no_inputs {s : State} (h : s.inputs = []) : step s = sequencerTurn s := by
  simp [step, machineTurn, h]

theorem step_of_seq {s : State} {rest : List Move} (h : s.inputs = .seq :: rest) :
    step s = sequencerTurn { s with inputs := rest } := by
  simp [step, machineTurn, h]

theorem step_of_move {s : State} {m : Move} {rest : List Move} (h : s.inputs = m :: rest) (hm : m ≠ .seq) :
    step s = .next (({ s with inputs := rest } : State).apply m) := by
  simp [step, machineTurn, h, hm]

/-- The sequencer starts nothing while `BUSY = 1`, or with nothing offered (rule R280). -/
theorem sequencerTurn_waits {s : State} (h : s.port.busy = true ∨ (s.port.rxValid = false ∧ s.port.cmdValid = false)) :
    sequencerTurn s = .next s := by
  rcases h with busy | ⟨noByte, noWord⟩
  · simp [sequencerTurn, busy]
  · simp [sequencerTurn, noByte, noWord]

/-- A byte that breaks the host's duties changes nothing (rule R281, log entry 14). -/
theorem hostByteMove_refused {s : State} (b : Byte) (h : s.port.rxValid = true ∨ s.port.busy = true) :
    s.hostByteMove b = s := by
  rcases h with waits | busy
  · simp [State.hostByteMove, waits]
  · simp [State.hostByteMove, State.rxReady, busy]

theorem hostByteMove_delivers {s : State} (b : Byte) (noByte : s.port.rxValid = false) (idle : s.port.busy = false) :
    s.hostByteMove b = { s with port.rxData := b, port.rxValid := true } := by
  simp [State.hostByteMove, State.rxReady, noByte, idle]

/-- Settles O7: whose turn it is, and what the host's deliveries do. -/
theorem stepIsOneMove : Obligations.StepIsOneMove := by
  unfold Obligations.StepIsOneMove
  exact ⟨fun _ => step_of_no_inputs, fun _ _ => step_of_seq, fun _ _ _ => step_of_move, fun _ => sequencerTurn_waits,
    fun _ => hostByteMove_refused, fun _ => hostByteMove_delivers, fun _ _ => rfl, fun _ => rfl⟩

/-- Everything a turn of the sequencer that goes on can do: nothing, or one operation, run or refused. -/
theorem sequencerTurn_next_cases {s t : State} (h : sequencerTurn s = .next t) :
    t = s ∨ (∃ i p, exec i { s with port := p } = .next t) ∨ ∃ r p, runOp (refuse r) { s with port := p } = .next t := by
  simp only [sequencerTurn] at h
  split at h
  · exact .inl (Host.Outcome.next.inj h).symm
  · split at h
    · exact .inr (.inl ⟨_, _, h⟩)
    · split at h
      · simp only [takeCommand] at h
        split at h
        · exact .inr (.inl ⟨_, _, h⟩)
        · exact .inr (.inr ⟨_, _, h⟩)
      · exact .inl (Host.Outcome.next.inj h).symm

/-- Everything a step that goes on can do: one move of another agent, or a turn of the sequencer. -/
theorem step_next_cases {s t : State} (h : step s = .next t) :
    ∃ l, (∃ m, t = ({ s with inputs := l } : State).apply m) ∨ sequencerTurn { s with inputs := l } = .next t := by
  cases hi : s.inputs with
  | nil => exact ⟨s.inputs, .inr (step_of_no_inputs hi ▸ h)⟩
  | cons m rest =>
    refine ⟨rest, ?_⟩
    by_cases hm : m = .seq
    · subst hm
      exact .inr (step_of_seq hi ▸ h)
    · rw [step_of_move hi hm] at h
      exact .inl ⟨m, (Host.Outcome.next.inj h).symm⟩

/-! ## The back end that is absent (10_state.md rules R33 to R36, R52, R53) -/

/-- The absent unit's registers keep their reset values. -/
def AbsentRegisters (s : State) : Prop :=
  (s.cfg.backend = .hw → s.drv = (State.powerOn s.cfg).drv) ∧
    (s.cfg.backend = .bb → s.eng.int = false ∧ s.eng.ecmd = none ∧ s.eng.pendStop = false ∧ s.eng.phase ≠ .unknown ∧
      s.ses.waitcnt = 0)

/-- The absent unit leaves no trace. -/
def AbsentTraces (s : State) : Prop :=
  (s.cfg.backend = .hw → s.bus.ltrace = []) ∧ (s.cfg.backend = .bb → s.bus.trace = [])

theorem absentUnitInv_iff {s : State} : AbsentUnitInv s ↔ AbsentRegisters s ∧ AbsentTraces s := by
  simp only [AbsentUnitInv, AbsentRegisters, AbsentTraces]
  cases s.cfg.backend <;> simp [and_assoc]

/-- A write of a driver's register writes neither trace of the unit that is absent. -/
theorem DriverWrite.absentTraces {f : State → State} {F : Driver → Driver} (w : DriverWrite f F) {s : State}
    (h : AbsentTraces s) : AbsentTraces (f s) := by
  simp only [AbsentTraces, w.cfg, w.trace]
  exact ⟨fun b => (w.ltraceHw s b).trans (h.1 b), h.2⟩

theorem Moved.absentTraces {s t : State} (m : Moved s t) (h : AbsentTraces s) : AbsentTraces t := by
  simp only [AbsentTraces, m.cfg]
  exact ⟨fun b => (m.ltraceOfHw b).trans (h.1 b), fun b => (m.engOfBb b).2.trans (h.2 b)⟩

theorem coreReset_absentTraces {s : State} (h : AbsentTraces s) : AbsentTraces s.coreReset := by
  simp only [AbsentTraces, coreReset_cfg]
  refine ⟨fun b => ?_, fun b => ?_⟩
  · simpa [State.coreReset, b] using h.1 b
  · simpa [State.coreReset, b] using h.2 b

theorem absentTraces_keptByWrites : KeptByWrites AbsentTraces where
  inputs _ _ h := h
  apply _ _ h hf := (apply_moved hf).absentTraces h
  reset _ h _ := coreReset_absentTraces h
  setSr _ v h := (setSr_write v).absentTraces h
  releaseScl _ h := releaseScl_write.absentTraces h
  pullScl _ h := pullScl_write.absentTraces h
  setLatch _ b h := (setLatch_write b).absentTraces h
  setDirOut _ b h := (setDirOut_write b).absentTraces h
  setSdaForce _ b h := (setSdaForce_write b).absentTraces h
  driver _ _ _ _ h := h
  session _ _ h := h
  engine _ _ h := h
  framer _ _ h := h
  port _ _ h := h

section
variable {s t : State}

theorem coreReset_absentRegisters (s : State) (l : List Move) : AbsentRegisters { s.coreReset with inputs := l } := by
  simp [AbsentRegisters, State.powerOn]

theorem Moved.absentRegisters (m : Moved s t) (h : AbsentRegisters s) : AbsentRegisters t := by
  simp only [AbsentRegisters, m.cfg, m.drv, m.ses]
  exact ⟨h.1, fun b => by rw [(m.engOfBb b).1]; exact h.2 b⟩

theorem apply_absentRegisters (m : Move) (h : AbsentRegisters s) : AbsentRegisters (s.apply m) := by
  by_cases hf : fires m s = true
  · simp only [fires, Bool.and_eq_true, decide_eq_true_eq] at hf
    rw [hf.1, show s.apply .guard = s.coreReset from if_pos hf.2]
    exact coreReset_absentRegisters s s.coreReset.inputs
  · exact (apply_moved (by simpa using hf)).absentRegisters h

/-- The bit-bang driver's work leaves the engine's registers. -/
theorem Wrote.absentRegisters {d : Driver} (w : Wrote s d t) (hb : s.cfg.backend = .bb) (h : AbsentRegisters s) :
    AbsentRegisters t :=
  Moved.absentRegisters w.toMoved ⟨fun b => absurd (hb.symm.trans b) (by decide), h.2⟩

theorem SessionRan.absentRegisters (r : SessionRan s t) (h : AbsentRegisters s) : AbsentRegisters t := by
  simp only [AbsentRegisters, r.later.cfg]
  refine ⟨fun b => (r.hw b).1.trans (h.1 b), fun b => ?_⟩
  obtain ⟨int, ecmd, pendStop, waitcnt, -⟩ := r.bb b
  rw [int, ecmd, pendStop, waitcnt]
  exact (h.2 b).imp id (And.imp id (And.imp id (And.imp_left (r.bbPhase b))))

theorem Answered.absentRegisters {code : Byte} {notcfg : Bool} {refusal : Option RefuseReason}
    (a : Answered s code notcfg refusal t) (h : AbsentRegisters s) : AbsentRegisters t := by
  obtain ⟨v, b, rfl⟩ := a
  exact b.toMoved.absentRegisters h

end

/-- Where the operation comes to its end, the absent unit's registers are kept. -/
def KeepsAbsent {α : Type} (x : Op α) : Prop := ∀ s, AbsentRegisters s → Ends x s fun _ t => AbsentRegisters t

section
variable {α β : Type} {x : Op α} {f : α → Op β}

theorem KeepsAbsent.bind (p : Proceeds x) (h : KeepsAbsent x) (k : ∀ a, KeepsAbsent (f a)) : KeepsAbsent (x >>= f) :=
  fun s hs => Ends.bind (((p s).and (h s hs)).mono fun a t ⟨l, kept⟩ => ⟨l, k a t kept⟩)

theorem KeepsAbsent.peek {g : State → Op α} (k : ∀ a, KeepsAbsent (g a)) : KeepsAbsent (Machine.peek >>= g) :=
  fun s hs => Ends.thenPeek (k s s hs)

theorem KeepsAbsent.ite {c : Prop} [Decidable c] {x y : Op α} (h : KeepsAbsent x) (k : KeepsAbsent y) :
    KeepsAbsent (if c then x else y) := by
  split <;> assumption

theorem KeepsAbsent.line {g : State → State} (w : ∀ s, AbsentRegisters s → AbsentRegisters (g s)) :
    KeepsAbsent (Machine.line g) := fun _ hs => Ends.line fun t b => w t (b.toMoved.absentRegisters hs)

theorem KeepsAbsent.framer (g : State → Framer) : KeepsAbsent (Machine.line fun s => { s with frm := g s }) :=
  KeepsAbsent.line fun _ h => h

/-- A line that writes the framer, then the rest. -/
theorem KeepsAbsent.thenFramer {g : State → Framer} {k : Unit → Op β} (h : KeepsAbsent (k ())) :
    KeepsAbsent (Machine.line (fun s => { s with frm := g s }) >>= k) :=
  KeepsAbsent.bind (Proceeds.framer g) (.framer g) fun _ => h

/-- A part of a session's work, then the rest. -/
theorem KeepsAbsent.thenRan (hx : ∀ s, Ends x s fun _ t => SessionRan s t) (k : ∀ a, KeepsAbsent (f a)) :
    KeepsAbsent (x >>= f) :=
  KeepsAbsent.bind (fun s => (hx s).mono fun _ _ r => r.later)
    (fun s hs => (hx s).mono fun _ _ r => r.absentRegisters hs) k

end

theorem KeepsAbsent.respond (code : Byte) (notcfg : Bool) : KeepsAbsent (Machine.respond code notcfg) :=
  KeepsAbsent.line fun _ h => h

theorem KeepsAbsent.refuse (reason : RefuseReason) : KeepsAbsent (Machine.refuse reason) :=
  KeepsAbsent.line fun _ h => h

theorem KeepsAbsent.endReceived : KeepsAbsent Machine.endReceived := KeepsAbsent.line fun _ h => h

/-- A bit-bang command, of which nothing but a refusal is left without a bit-bang driver. -/
theorem KeepsAbsent.bbCommand {needsConfig legal : Bool} {body : Op Byte}
    (k : ∀ {s : State}, s.cfg.backend = .bb → legal = true → Ends body s fun _ t => ∃ d, Wrote s d t) :
    KeepsAbsent (bbCommand needsConfig legal body) := by
  intro s hs
  refine (bbCommand_ends (Q := fun _ u => AbsentRegisters u) fun hb hl =>
    (k hb hl).mono fun _ t ⟨_, w⟩ => ⟨w.later, w.absentRegisters hb hs⟩).mono ?_
  rintro _ t (⟨_, -, answered⟩ | ⟨-, _, u, kept, answered⟩)
  · exact answered.absentRegisters hs
  · exact answered.absentRegisters kept

theorem KeepsAbsent.sesCommand {body : Op Byte} (hx : ∀ s, Ends body s fun _ t => SessionRan s t) :
    KeepsAbsent (sesCommand body) := by
  unfold Machine.sesCommand
  exact KeepsAbsent.peek fun _ => .ite (.refuse _) (.thenRan hx fun _ => .respond _ _)

/-- `SES_CONFIGURE` configures the bit-bang driver only where there is one (42_session.md rule R211). -/
theorem KeepsAbsent.configureSession (div bits : Byte) : KeepsAbsent (configureSession div bits) := by
  unfold Machine.configureSession
  refine fun s hs => Ends.thenPeek ?_
  split
  · exact Ends.pure hs
  · refine Ends.bind (Ends.line fun t b => ⟨b.later.trans (later_of_registers rfl rfl rfl rfl), ?_⟩)
    have ht : AbsentRegisters t := b.toMoved.absentRegisters hs
    refine Ends.bind (Ends.line fun u c => ⟨c.later.trans (later_of_registers rfl rfl rfl rfl), ?_⟩)
    have hu : AbsentRegisters u := Moved.absentRegisters c.toMoved ht
    split
    · rename_i hb
      have ub : u.cfg.backend = .bb := by rw [c.cfg, ← hb.1]; exact congrArg Params.backend b.cfg
      refine Ends.bind ((configureBody_ends _).mono fun _ v w => ⟨w.later, Ends.pure ?_⟩)
      exact w.absentRegisters ub hu
    · exact Ends.pure hu

theorem KeepsAbsent.closeFrame : KeepsAbsent closeFrame := by
  unfold Machine.closeFrame
  exact .thenRan (fun s => (stopSession_ran s).mono fun _ _ r => r.2.1) fun _ => .thenFramer (.framer _)

/-- An operation that goes on keeps them, whether it ends or the guard's reset cuts it off. -/
theorem KeepsAbsent.runOp {body : Op Unit} (k : KeepsAbsent body) {s t : State} (h : AbsentRegisters s)
    (hst : runOp body s = .next t) : AbsentRegisters t := by
  rcases runOp_ends (k s.running h) with ⟨u, e, kept⟩ | ⟨u, e, cut⟩ | ⟨u, e, -⟩ <;> rw [e] at hst
  · cases hst
    exact kept
  · cases hst
    obtain ⟨-, -, v, -, -, -, -, reset⟩ := cut
    rw [reset]
    exact coreReset_absentRegisters v _
  · cases hst

theorem exec_absentRegisters (i : Instr) {s t : State} (h : AbsentRegisters s) (hst : exec i s = .next t) :
    AbsentRegisters t := by
  cases i with
  | bbConfigure =>
    exact (KeepsAbsent.bbCommand fun _ _ => Ends.bind ((configureBody_ends _).mono fun _ _ w =>
      ⟨w.later, Ends.pure ⟨_, w⟩⟩)).runOp h hst
  | bbStart =>
    exact (KeepsAbsent.bbCommand fun hb _ => Ends.bind ((startBody_ends hb).mono fun _ _ w =>
      ⟨w.later, Ends.pure ⟨_, w⟩⟩)).runOp h hst
  | bbStop =>
    exact (KeepsAbsent.bbCommand fun hb _ => Ends.bind ((stopBody_ends hb).mono fun _ _ w =>
      ⟨w.later, Ends.pure ⟨_, w⟩⟩)).runOp h hst
  | bbPutbyte data =>
    exact (KeepsAbsent.bbCommand fun hb _ => (putByteBody_ends data hb).mono fun _ _ w => ⟨_, w.2⟩).runOp h hst
  | bbGetbyte last =>
    exact (KeepsAbsent.bbCommand fun hb _ => (getByteBody_ends last hb).mono fun _ _ w => ⟨_, w.2⟩).runOp h hst
  | bbTransfer cw =>
    exact (KeepsAbsent.bbCommand fun hb hc => (transfer_ends hb hc).mono fun _ _ w => ⟨_, w.2⟩).runOp h hst
  | sesConfigure div bits =>
    exact (KeepsAbsent.bind (Proceeds.configureSession div bits) (.configureSession div bits) fun _ =>
      .respond _ _).runOp h hst
  | sesStart mode address =>
    exact (KeepsAbsent.sesCommand fun s => (startSession_ran address mode s).mono fun _ _ r => r.1).runOp h hst
  | sesWrite data =>
    exact (KeepsAbsent.sesCommand fun s => (writeSession_ran data s).mono fun _ _ r => r.1).runOp h hst
  | sesReadAck =>
    exact (KeepsAbsent.sesCommand fun s => (readSession_ran .rxAck s).mono fun _ _ r => r.1).runOp h hst
  | sesReadNack =>
    exact (KeepsAbsent.sesCommand fun s => (readSession_ran .rxNack s).mono fun _ _ r => r.1).runOp h hst
  | sesStop => exact (KeepsAbsent.sesCommand fun s => (stopSession_ran s).mono fun _ _ r => r.2.1).runOp h hst
  | rxAddr b =>
    exact (KeepsAbsent.thenFramer (.thenRan (fun s => (startSession_ran b .write s).mono fun _ _ r => r.1) fun _ =>
      .thenFramer (.thenFramer .endReceived))).runOp h hst
  | rxLenHi b => exact (KeepsAbsent.thenFramer (.thenFramer .endReceived)).runOp h hst
  | rxLenLo b =>
    refine (KeepsAbsent.thenFramer (.thenFramer ?_)).runOp h hst
    refine KeepsAbsent.peek fun _ => KeepsAbsent.ite ?_ ?_
    · exact .bind Proceeds.closeFrame .closeFrame fun _ => .endReceived
    · exact .thenFramer .endReceived
  | rxPayload b =>
    refine (KeepsAbsent.thenRan (fun s => (writeSession_ran b s).mono fun _ _ r => r.1) fun _ =>
      .thenFramer (.thenFramer (.thenFramer ?_))).runOp h hst
    refine KeepsAbsent.peek fun _ => KeepsAbsent.ite ?_ ?_
    · exact .bind Proceeds.closeFrame .closeFrame fun _ => .endReceived
    · exact .endReceived

theorem sequencerTurn_absentRegisters {s t : State} (h : AbsentRegisters s) (hst : sequencerTurn s = .next t) :
    AbsentRegisters t := by
  rcases sequencerTurn_next_cases hst with rfl | ⟨i, p, e⟩ | ⟨r, p, e⟩
  · exact h
  · exact exec_absentRegisters i (s := { s with port := p }) h e
  · exact (KeepsAbsent.refuse r).runOp (s := { s with port := p }) h e

theorem step_absentRegisters {s t : State} (h : AbsentRegisters s) (hst : step s = .next t) : AbsentRegisters t := by
  obtain ⟨l, ⟨m, rfl⟩ | e⟩ := step_next_cases hst
  · exact apply_absentRegisters m h
  · exact sequencerTurn_absentRegisters (s := { s with inputs := l }) h e

/-- Settles O51: the registers by every operation's ends, the traces by every write. -/
theorem absentUnitStaysAtReset : Obligations.AbsentUnitStaysAtReset := by
  unfold Obligations.AbsentUnitStaysAtReset
  intro s t h hst
  obtain ⟨registers, traces⟩ := absentUnitInv_iff.mp h
  exact absentUnitInv_iff.mpr
    ⟨step_absentRegisters registers hst, absentTraces_keptByWrites.step_next traces hst⟩

end Sys2Proof.Machine

/-! ## Encoding (30_encoding.md rules R91 to R103) -/

namespace Sys2Proof

/-- The decoder reads back every operation from its encoding: the sixteen laws of `Laws.EncodeDecode` together. -/
theorem decode_encode (i : Instr) : decode (encode i) = .ok i := by
  cases i with
  | bbConfigure => exact Laws.EncodeDecode.bbConfigure
  | bbStart => exact Laws.EncodeDecode.bbStart
  | bbStop => exact Laws.EncodeDecode.bbStop
  | bbPutbyte data => exact Laws.EncodeDecode.bbPutbyte data
  | bbGetbyte last => exact Laws.EncodeDecode.bbGetbyte last
  | bbTransfer cw => exact Laws.EncodeDecode.bbTransfer cw
  | sesConfigure div bits => exact Laws.EncodeDecode.sesConfigure div bits
  | sesStart mode address => exact Laws.EncodeDecode.sesStart mode address
  | sesWrite data => exact Laws.EncodeDecode.sesWrite data
  | sesReadAck => exact Laws.EncodeDecode.sesReadAck
  | sesReadNack => exact Laws.EncodeDecode.sesReadNack
  | sesStop => exact Laws.EncodeDecode.sesStop
  | rxAddr b => exact Laws.EncodeDecode.rxAddr b
  | rxLenHi b => exact Laws.EncodeDecode.rxLenHi b
  | rxLenLo b => exact Laws.EncodeDecode.rxLenLo b
  | rxPayload b => exact Laws.EncodeDecode.rxPayload b

theorem encode_of_decode {w : Wire} {i : Instr} (h : decode w = .ok i) : encode i = w := by
  cases w with
  | command w => exact encode_of_decodeCommand w i h
  | received c b =>
    obtain rfl : decodeReceived c b = i := Except.ok.inj h
    exact encode_decodeReceived c b

/-- Settles O2: the encoder and the decoder are inverse to each other, each direction by its own laws. -/
theorem decodesExactlyTheEncodings : Obligations.DecodesExactlyTheEncodings := by
  unfold Obligations.DecodesExactlyTheEncodings
  exact fun w i => ⟨encode_of_decode, fun h => h ▸ decode_encode i⟩

theorem decodeCommand_eq_ok_iff {w : CmdWord} {i : Instr} : decodeCommand w = .ok i ↔ encode i = .command w :=
  decodesExactlyTheEncodings (.command w) i

/-- Settles O1: each word is the encoding of its operation, so that O2 decodes it. -/
theorem specWordsDecode : Obligations.SpecWordsDecode := by
  unfold Obligations.SpecWordsDecode
  simp only [decodeCommand_eq_ok_iff]
  decide

theorem shiftConcat_eq_shiftLeft_or (v : Byte) (b : Bool) :
    v.shiftConcat b = (v <<< 1) ||| (if b then 1#8 else 0#8) := by
  ext i hi
  rw [BitVec.getElem_shiftConcat]
  cases i <;> cases b <;> simp

theorem Mode.bit_eq_decide (m : Mode) : m.bit = decide (m = .read) := by cases m <;> rfl

/-- Settles O3: each bit of the address byte above bit 0 is the address bit below it, and bit 0 is the direction. -/
theorem addressByteLayout : Obligations.AddressByteLayout := by
  unfold Obligations.AddressByteLayout
  intro address mode
  simp only [Machine.addressByte, ← Mode.bit_eq_decide]
  refine ⟨shiftConcat_eq_shiftLeft_or address mode.bit, ?_, ?_⟩
  · apply BitVec.eq_of_getLsbD_eq
    intro i hi
    have inByte : 1 + i < 8 := by omega
    simp only [BitVec.getLsbD_extractLsb', BitVec.getLsbD_shiftConcat, hi, inByte]
    simp
  · simp

/-! ### The decoder's refusals (rules R94, R95) -/

@[simp] theorem opField_and (v w : CmdWord) : opField (v &&& w) = opField v &&& opField w := BitVec.extractLsb'_and

@[simp] theorem aField_and (v w : CmdWord) : aField (v &&& w) = aField v &&& aField w := BitVec.extractLsb'_and

@[simp] theorem bField_and (v w : CmdWord) : bField (v &&& w) = bField v &&& bField w := BitVec.extractLsb'_and

theorem commandWord_eq_zero_iff {op a b : Byte} : commandWord op a b = 0 ↔ op = 0 ∧ a = 0 ∧ b = 0 := by
  constructor
  · intro h
    obtain ⟨hop, ha, hb⟩ := fields_commandWord op a b
    rw [h] at hop ha hb
    exact ⟨hop.symm, ha.symm, hb.symm⟩
  · rintro ⟨rfl, rfl, rfl⟩
    rfl

theorem byte_and_ones (v : Byte) : v &&& 0xFF#8 = v := BitVec.and_allOnes

/-- A mask over the operands of a word finds a bit set exactly where one of its two halves does. -/
theorem and_operandMask_bne_zero (w : CmdWord) {mask : CmdWord} {ma mb : Byte} (h : mask = commandWord 0 ma mb) :
    (w &&& mask != 0#24) = (aField w &&& ma != 0#8 || bField w &&& mb != 0#8) := by
  have masked : w &&& mask = 0#24 ↔ aField w &&& ma = 0#8 ∧ bField w &&& mb = 0#8 := by
    rw [← commandWord_fields (w &&& mask), h]
    refine commandWord_eq_zero_iff.trans ?_
    simp
  rw [Bool.eq_iff_iff]
  simp only [bne_iff_ne, Bool.or_eq_true, ne_eq, masked, not_and_or]

section
variable (w : CmdWord)

theorem reserved_noOperand : (w &&& 0x00FFFF != 0#24) = (aField w != 0#8 || bField w != 0#8) := by
  simpa only [byte_and_ones] using and_operandMask_bne_zero w (mask := 0x00FFFF) (ma := 0xFF#8) (mb := 0xFF#8) rfl

theorem reserved_byteOperand : (w &&& 0x00FF00 != 0#24) = (aField w != 0#8) := by
  simpa [byte_and_ones] using and_operandMask_bne_zero w (mask := 0x00FF00) (ma := 0xFF#8) (mb := 0#8) rfl

theorem reserved_flagOperand : (w &&& 0x00FEFF != 0#24) = (aField w &&& 0xFE#8 != 0#8 || bField w != 0#8) := by
  simpa only [byte_and_ones] using and_operandMask_bne_zero w (mask := 0x00FEFF) (ma := 0xFE#8) (mb := 0xFF#8) rfl

theorem reserved_flagByteOperands : (w &&& 0x00FE00 != 0#24) = (aField w &&& 0xFE#8 != 0#8) := by
  simpa using and_operandMask_bne_zero w (mask := 0x00FE00) (ma := 0xFE#8) (mb := 0#8) rfl

end

/-- A word of the opcode map decodes up to the reserved bits of its row (rule R95); any other word is refused for its
opcode (rule R94). -/
theorem decodeCommand_cases (w : CmdWord) :
    (Machine.reservedBits (opField w) = none ∧ decodeCommand w = .error .reservedOp) ∨
      ∃ mask i, Machine.reservedBits (opField w) = some mask ∧
        decodeCommand w = checkReserved (w &&& mask != 0) i := by
  simp only [decodeCommand]
  split
  case h_1 op | h_2 op | h_3 op | h_10 op | h_11 op | h_12 op =>
    exact .inr ⟨0x00FFFF, _, by rw [op]; rfl, congrArg (checkReserved · _) (reserved_noOperand w).symm⟩
  case h_4 op | h_6 op | h_9 op =>
    exact .inr ⟨0x00FF00, _, by rw [op]; rfl, congrArg (checkReserved · _) (reserved_byteOperand w).symm⟩
  case h_5 op =>
    exact .inr ⟨0x00FEFF, _, by rw [op]; rfl, congrArg (checkReserved · _) (reserved_flagOperand w).symm⟩
  case h_7 op =>
    exact .inr ⟨0x000000, _, by rw [op]; rfl, congrArg (checkReserved · _) (by simp)⟩
  case h_8 op =>
    exact .inr ⟨0x00FE00, _, by rw [op]; rfl, congrArg (checkReserved · _) (reserved_flagByteOperands w).symm⟩
  case h_13 => exact .inl ⟨by simp_all [Machine.reservedBits], rfl⟩

theorem decodeCommand_reservedOp_iff {w : CmdWord} :
    decodeCommand w = .error .reservedOp ↔ Machine.reservedBits (opField w) = none := by
  obtain ⟨bits, e⟩ | ⟨mask, i, bits, e⟩ := decodeCommand_cases w <;> simp [bits, e]

theorem decodeCommand_reservedField_iff {w : CmdWord} :
    decodeCommand w = .error .reservedField ↔
      ∃ mask, Machine.reservedBits (opField w) = some mask ∧ w &&& mask ≠ 0 := by
  obtain ⟨bits, e⟩ | ⟨mask, i, bits, e⟩ := decodeCommand_cases w <;> simp [bits, e]

/-- The opcodes outside the map (rule R94). -/
theorem reservedBits_eq_none_iff (op : Byte) :
    Machine.reservedBits op = none ↔
      op.toNat = 0 ∨ (7 ≤ op.toNat ∧ op.toNat ≤ 0x0F) ∨ 0x16 ≤ op.toNat := by
  revert op
  decide

end Sys2Proof

namespace Sys2Proof.Machine

/-- A point before a line is passed wherever the guard stays silent: nothing else stops an operation there. -/
theorem tick_passes {s : State} (g : GuardSilent s) : ∃ t, tick s = .ok () t ∧ Between s t := by
  obtain ⟨t, suffix, ⟨moved, host, held, silent, ⟨passes, -⟩ | ⟨-, -, never⟩⟩ | ⟨-, fires, -⟩⟩ :=
    holdOn_cases (C := fun _ => true) (fun _ _ => rfl) s.inputs s
  · exact ⟨t, passes, moved, suffix, held, silent, host⟩
  · cases never
  · exact absurd fires g

theorem respFlagsOf_refused : respFlagsOf false true = 2#2 := by decide

theorem runOp_refuse_alone {s : State} (reason : RefuseReason) (alone : s.inputs = []) :
    runOp (refuse reason) s = .next (s.respond 0#8 false (some reason)) := by
  cases s
  subst alone
  rfl

/-- A refusal, run with the guard silent: no effect but the response (60_exceptions.md rule R275). -/
theorem refuse_refusedWith {s : State} (reason : RefuseReason) (g : GuardSilent s) :
    RefusedWith reason s (runOp (refuse reason) s) := by
  obtain ⟨t, passes, b⟩ := tick_passes (s := s.running) g
  have runs : runOp (refuse reason) s = .next (t.respond 0#8 false (some reason)) := by
    simp only [runOp, refuse, line, op_bind, passes]
    rfl
  have answered : Answered s.running 0#8 false (some reason) (t.respond 0#8 false (some reason)) := ⟨t, b, rfl⟩
  obtain ⟨code, flags, valid, refusal, busy⟩ := answered.port
  exact ⟨_, runs, code, flags.trans respFlagsOf_refused, valid, refusal, busy, answered.same.1,
    answered.ports (Later.refl _), fun alone => Host.Outcome.next.inj (runs.symm.trans (runOp_refuse_alone reason alone))⟩

theorem sequencerTurn_command {w : CmdWord} {s : State} (h : OffersCommand w s) :
    sequencerTurn s = takeCommand s := by
  obtain ⟨idle, noByte, offered, -⟩ := h
  simp [sequencerTurn, idle, noByte, offered]

theorem sequencerTurn_byte {b : Byte} {s : State} (h : OffersByte b s) : sequencerTurn s = takeByte s := by
  obtain ⟨idle, offered, -⟩ := h
  simp [sequencerTurn, idle, offered]

/-- Settles O4: the decoder's refusals are those of `reservedBits`, and a refused word runs `refuse` alone. -/
theorem undecodableWordsAreRefused : Obligations.UndecodableWordsAreRefused := by
  unfold Obligations.UndecodableWordsAreRefused
  intro w
  refine ⟨decodeCommand_reservedOp_iff.trans (reservedBits_eq_none_iff _), decodeCommand_reservedField_iff, ?_⟩
  intro s reason offered silent refused
  have ⟨_, _, _, word⟩ := offered
  have turn : sequencerTurn s = runOp (refuse reason) { s with port.cmdValid := false } := by
    rw [sequencerTurn_command offered, takeCommand, word, refused]
  rw [turn]
  exact refuse_refusedWith reason silent

/-- The step that is the sequencer's turn: no other agent has the next move. -/
theorem step_of_turn {s : State} {rest : List Move} (h : s.inputs = [] ∧ rest = [] ∨ s.inputs = .seq :: rest) :
    step s = sequencerTurn { s with inputs := rest } := by
  obtain ⟨alone, rfl⟩ | turn := h
  · rw [step_of_no_inputs alone, ← alone]
  · exact step_of_seq turn

/-- Settles O5: the word offered decodes to the operation, because it is its encoding. -/
theorem stepRunsTheDecodedCommand : Obligations.StepRunsTheDecodedCommand := by
  unfold Obligations.StepRunsTheDecodedCommand
  intro i w s rest encoded offered turn
  have ⟨_, _, _, word⟩ := offered
  have decoded : decodeCommand s.port.cmd = .ok i := decodeCommand_eq_ok_iff.mpr (word ▸ encoded)
  calc step s = sequencerTurn { s with inputs := rest } := step_of_turn turn
    _ = takeCommand { s with inputs := rest } := sequencerTurn_command (s := { s with inputs := rest }) offered
    _ = exec i { s with port.cmdValid := false, inputs := rest } := by simp only [takeCommand, decoded]

/-- Settles O6: the byte is taken before any word, and `decodeReceived` reads the cursor alone. -/
theorem stepRunsTheReceivedByte : Obligations.StepRunsTheReceivedByte := by
  unfold Obligations.StepRunsTheReceivedByte
  intro b s rest offered turn
  have ⟨_, _, byte⟩ := offered
  calc step s = sequencerTurn { s with inputs := rest } := step_of_turn turn
    _ = takeByte { s with inputs := rest } := sequencerTurn_byte (s := { s with inputs := rest }) offered
    _ = exec (decodeReceived s.frm.cursor b) { s with port.rxValid := false, inputs := rest } := by
      simp only [takeByte, byte]
    _ = _ := by cases s.frm.cursor <;> rfl

end Sys2Proof.Machine

/-! ## The bit-bang driver at rest, over every step (40_bus_driver.md rule R147; 41_engine_status.md rule R200) -/

namespace Sys2Proof.Machine

/-- The driver is at rest once it is configured; before, it keeps its reset values and the session is unconfigured. -/
theorem driverInv_iff {s : State} :
    DriverInv s ↔
      (s.cfg.backend = .bb → s.drv.Rest ∨ (s.drv = (State.powerOn s.cfg).drv ∧ s.ses.clkdiv = 0#8)) := by
  rcases hd : s.drv with ⟨sr, latch, dirOut, sdaForce, sclLow, bitcnt, tc, bbCfg⟩
  cases bbCfg with
  | true => simp [DriverInv, Driver.Rest, State.powerOn, hd]
  | false =>
    simp only [DriverInv, Driver.Rest, State.powerOn, hd, Driver.mk.injEq]
    grind

/-- A bit-bang command is accepted where no reason of rule R275 applies. -/
theorem bbRefusal_eq_none_iff {needsConfig legal : Bool} {s : State} :
    bbRefusal needsConfig legal s = none ↔
      s.cfg.backend = .bb ∧ s.frm.cursor = .awaitAddr ∧ (needsConfig = true → s.drv.bbCfg = true) ∧ legal = true := by
  have step {c : Prop} [Decidable c] (r : RefuseReason) (rest : Option RefuseReason) :
      (if c then some r else rest) = none ↔ ¬ c ∧ rest = none := by
    split <;> simp_all
  rw [bbRefusal, step, step, step, step]
  cases s.cfg.backend <;> simp

section
variable {s t : State}

theorem DriverInv.rest (h : DriverInv s) (hb : s.cfg.backend = .bb) (hc : s.drv.bbCfg = true) : s.drv.Rest := by
  obtain rest | ⟨unconfigured, -⟩ := driverInv_iff.mp h hb
  · exact rest
  · simp [unconfigured, State.powerOn] at hc

/-- The invariant looks at the parameters, the driver and `CLKDIV` alone. -/
theorem DriverInv.congr (h : DriverInv s) (hc : t.cfg = s.cfg) (hd : t.drv = s.drv)
    (hs : t.ses.clkdiv = s.ses.clkdiv) : DriverInv t := by
  simpa only [DriverInv, hc, hd, hs] using h

theorem coreReset_driverInv (s : State) (l : List Move) : DriverInv { s.coreReset with inputs := l } :=
  driverInv_iff.mpr fun _ => .inr ⟨by simp, by simp [State.powerOn]⟩

theorem apply_driverInv (m : Move) (h : DriverInv s) : DriverInv (s.apply m) := by
  by_cases hf : fires m s = true
  · simp only [fires, Bool.and_eq_true, decide_eq_true_eq] at hf
    rw [hf.1, show s.apply .guard = s.coreReset from if_pos hf.2]
    exact coreReset_driverInv s s.coreReset.inputs
  · have moved := apply_moved (by simpa using hf)
    exact h.congr moved.cfg moved.drv (by rw [moved.ses])

theorem Answered.driverInv {code : Byte} {notcfg : Bool} {refusal : Option RefuseReason}
    (a : Answered s code notcfg refusal t) (h : DriverInv s) : DriverInv t := by
  obtain ⟨⟨cfg, drv, ses, -⟩, -⟩ := a.same
  exact h.congr cfg drv (by rw [ses])

/-- An operation that leaves a driver at rest at rest, and does nothing where the session is unconfigured. -/
theorem DriverInv.of_ran (h : DriverInv s) (hc : t.cfg = s.cfg) (rest : s.cfg.backend = .bb → s.drv.Rest → t.drv.Rest)
    (unconfigured : s.ses.clkdiv = 0#8 → t.drv = s.drv ∧ t.ses = s.ses ∧ SameEngine s t) : DriverInv t := by
  refine driverInv_iff.mpr fun hb => ?_
  rw [hc] at hb
  obtain atRest | ⟨reset, z⟩ := driverInv_iff.mp h hb
  · exact .inl (rest hb atRest)
  · obtain ⟨drv, ses, -⟩ := unconfigured z
    exact .inr ⟨by rw [drv, reset, hc], by rw [ses, z]⟩

theorem DriverInv.of_received (h : DriverInv s) (r : ∃ f, Received s f t) : DriverInv t := by
  obtain ⟨_, received⟩ := r
  exact h.of_ran received.kept.1 received.bbRest received.unconfigured

theorem Driver.configured_rest : Driver.configured.Rest := by decide

/-- `start()` leaves a driver at rest at rest, SCL aside (40_bus_driver.md rule R147). -/
theorem Driver.Rest.started {d : Driver} (h : d.Rest) :
    ({ d with sclLow := true, latch := d.sr.msb, sdaForce := false } : Driver).Rest := by
  obtain ⟨sr, latch, -, rest⟩ := h
  exact ⟨sr, by rw [sr]; rfl, rfl, rest⟩

theorem Driver.Rest.stopped {d : Driver} (h : d.Rest) :
    ({ d with sclLow := false, sdaForce := false } : Driver).Rest := by
  obtain ⟨sr, latch, -, rest⟩ := h
  exact ⟨sr, latch, rfl, rest⟩

/-- An operation that goes on keeps it, whether it ends or the guard's reset cuts it off. -/
theorem runOp_driverInv {body : Op Unit} (k : Ends body s.running fun _ u => DriverInv u)
    (hst : runOp body s = .next t) : DriverInv t := by
  rcases runOp_ends k with ⟨u, e, kept⟩ | ⟨u, e, cut⟩ | ⟨u, e, -⟩ <;> rw [e] at hst
  · cases hst
    exact kept
  · cases hst
    obtain ⟨-, -, v, -, -, -, -, reset⟩ := cut
    rw [reset]
    exact coreReset_driverInv v _
  · cases hst

/-- A bit-bang command whose body leaves the driver at rest, from rest where the command needs `BB_CFG = 1`. -/
theorem bbCommand_driverInv {needsConfig legal : Bool} {body : Op Byte} (h : DriverInv s)
    (k : s.cfg.backend = .bb → legal = true →
      Ends body s fun _ u => ∃ d, Wrote s d u ∧ ((needsConfig = true → s.drv.Rest) → d.Rest)) :
    Ends (bbCommand needsConfig legal body) s fun _ t => DriverInv t := by
  refine (bbCommand_ends fun hb hl => (k hb hl).mono fun _ _ q => ⟨q.elim fun _ w => w.1.later, q⟩).mono ?_
  rintro _ t (⟨_, -, answered⟩ | ⟨accepted, _, u, ⟨d, wrote, rest⟩, answered⟩)
  · exact answered.driverInv h
  · refine answered.driverInv (driverInv_iff.mpr fun hb => .inl ?_)
    have hb' : s.cfg.backend = .bb := by rw [← wrote.cfg]; exact hb
    rw [wrote.drv]
    obtain ⟨-, -, configured, -⟩ := bbRefusal_eq_none_iff.mp accepted
    exact rest fun needs => h.rest hb' (configured needs)

/-- A session command other than `SES_CONFIGURE`. -/
theorem sesCommand_driverInv {body : Op Byte} (h : DriverInv s)
    (k : ∀ u, Ends body u fun c t => SessionRan u t ∧ (u.ses.clkdiv = 0#8 → c = 0#8 ∧ t = u)) :
    Ends (sesCommand body) s.running fun _ t => DriverInv t :=
  (sesCommand_done (Q := fun _ => True) fun u => (k u).mono fun _ _ q => ⟨q.1, q.2, trivial⟩).mono fun _ _ ⟨done, _⟩ =>
    h.of_ran done.cfg done.bbRest done.unconfigured

/-- `SES_CONFIGURE` configures the driver wherever it configures the session (42_session.md rule R211). -/
theorem configureSession_driverInv (div bits : Byte) (h : DriverInv s) :
    Ends (configureSession div bits) s fun _ t => DriverInv t := by
  unfold configureSession
  refine Ends.thenPeek ?_
  split
  · exact Ends.pure h
  · rename_i unconfigured
    refine Ends.bind (Ends.line fun t b => ⟨b.later.trans (later_of_registers rfl rfl rfl rfl), ?_⟩)
    refine Ends.bind (Ends.line fun u c => ⟨c.later.trans (later_of_registers rfl rfl rfl rfl), ?_⟩)
    have cfg : u.cfg = s.cfg := c.cfg.trans b.cfg
    have drv : u.drv = s.drv := c.drv.trans b.drv
    have clkdiv : u.ses.clkdiv = div := by rw [c.ses]
    split
    · refine Ends.bind ((configureBody_ends _).mono fun _ v w => ⟨w.later, Ends.pure ?_⟩)
      exact driverInv_iff.mpr fun _ => .inl (w.drv ▸ Driver.configured_rest)
    · rename_i notBoth
      refine Ends.pure (driverInv_iff.mpr fun hb => ?_)
      have hb' : s.cfg.backend = .bb := by rw [← cfg]; exact hb
      have z : u.ses.clkdiv = 0#8 := clkdiv.trans (by simpa [hb'] using notBoth)
      exact (driverInv_iff.mp h hb').imp (fun rest => by rw [← drv] at rest; exact rest)
        fun reset => ⟨by rw [← cfg, ← drv] at reset; exact reset.1, z⟩

theorem ReceivedDone.finish {g : Framer} {u : State} (h : ReceivedDone s.running g u) :
    Ends endReceived u fun _ t => ∃ f, Received s f t :=
  h.ends.mono fun _ _ ⟨_, _, done, e⟩ => ⟨g, e ▸ done.received⟩

end

/-! A received byte: the session's work and the framer's writes keep it (43_framer.md rules R240 to R244). -/

theorem execRxAddr_driverInv (b : Byte) {s t : State} (h : DriverInv s) (hst : execRxAddr b s = .next t) :
    DriverInv t := by
  refine runOp_driverInv (Ends.mono ?_ fun _ _ => h.of_received) hst
  refine Ends.thenFramer (fun f => { f with remaining := 0 }) (ReceivedDone.refl s.running) fun _ r1 => ?_
  refine Ends.thenSession r1 (startSession_ran b .write _) fun st _ r2 _ => ?_
  refine Ends.thenFramer (fun f => { f with lastSt := st }) r2 fun _ r3 => ?_
  exact Ends.thenFramer (fun f => { f with cursor := .lenHi }) r3 fun _ r4 => r4.finish

theorem execRxLenHi_driverInv (b : Byte) {s t : State} (h : DriverInv s) (hst : execRxLenHi b s = .next t) :
    DriverInv t := by
  refine runOp_driverInv (Ends.mono ?_ fun _ _ => h.of_received) hst
  refine Ends.thenFramer (fun f => { f with remaining := lengthHigh b }) (ReceivedDone.refl s.running) fun _ r1 => ?_
  exact Ends.thenFramer (fun f => { f with cursor := .lenLo }) r1 fun _ r2 => r2.finish

/-- The closing of a frame, then the end of the byte. -/
theorem closeFrame_finish {s u : State} {g : Framer} (h : ReceivedDone s.running g u) :
    Ends (closeFrame >>= fun _ => endReceived) u fun _ t => ∃ f, Received s f t :=
  Ends.bind ((closeFrame_ends h).mono fun _ _ ⟨later, done, _⟩ => ⟨later, done.finish⟩)

theorem execRxLenLo_driverInv (b : Byte) {s t : State} (h : DriverInv s) (hst : execRxLenLo b s = .next t) :
    DriverInv t := by
  refine runOp_driverInv (Ends.mono ?_ fun _ _ => h.of_received) hst
  refine Ends.thenFramer (fun f => { f with remaining := lengthJoin f.remaining b }) (ReceivedDone.refl s.running)
    fun _ r1 => ?_
  refine Ends.thenFramer (fun f => { f with wdArmed := true }) r1 fun _ r2 => Ends.thenPeek ?_
  split
  · exact closeFrame_finish r2
  · exact Ends.thenFramer (fun f => { f with cursor := .fwd }) r2 fun _ r3 => r3.finish

theorem execRxPayload_driverInv (b : Byte) {s t : State} (h : DriverInv s) (hst : execRxPayload b s = .next t) :
    DriverInv t := by
  refine runOp_driverInv (Ends.mono ?_ fun _ _ => h.of_received) hst
  refine Ends.thenSession (ReceivedDone.refl s.running) (writeSession_ran b _) fun st _ r1 _ => ?_
  refine Ends.thenFramer (fun f => { f with lastSt := st }) r1 fun _ r2 => ?_
  refine Ends.thenFramer (fun f => { f with wdArmed := true }) r2 fun _ r3 => ?_
  refine Ends.thenFramer (fun f => { f with remaining := f.remaining - 1 }) r3 fun _ r4 => Ends.thenPeek ?_
  split
  · exact closeFrame_finish r4
  · exact r4.finish

theorem exec_driverInv (i : Instr) {s t : State} (h : DriverInv s) (hst : exec i s = .next t) : DriverInv t := by
  have run : DriverInv s.running := h
  cases i with
  | bbConfigure =>
    refine runOp_driverInv (bbCommand_driverInv run fun _ _ => ?_) hst
    exact Ends.bind ((configureBody_ends _).mono fun _ _ w =>
      ⟨w.later, Ends.pure ⟨_, w, fun _ => Driver.configured_rest⟩⟩)
  | bbStart =>
    refine runOp_driverInv (bbCommand_driverInv run fun hb _ => ?_) hst
    exact Ends.bind ((startBody_ends hb).mono fun _ _ w => ⟨w.later, Ends.pure ⟨_, w, fun rest => (rest rfl).started⟩⟩)
  | bbStop =>
    refine runOp_driverInv (bbCommand_driverInv run fun hb _ => ?_) hst
    exact Ends.bind ((stopBody_ends hb).mono fun _ _ w => ⟨w.later, Ends.pure ⟨_, w, fun rest => (rest rfl).stopped⟩⟩)
  | bbPutbyte data =>
    refine runOp_driverInv (bbCommand_driverInv run fun hb _ => ?_) hst
    exact (putByteBody_ends data hb).mono fun _ _ ⟨_, w⟩ => ⟨_, w, fun rest => rest_afterTransfer (rest rfl)⟩
  | bbGetbyte last =>
    refine runOp_driverInv (bbCommand_driverInv run fun hb _ => ?_) hst
    exact (getByteBody_ends last hb).mono fun _ _ ⟨_, w⟩ => ⟨_, w, fun rest => rest_afterTransfer (rest rfl)⟩
  | bbTransfer cw =>
    refine runOp_driverInv (bbCommand_driverInv run fun hb hc => ?_) hst
    exact (transfer_ends hb hc).mono fun _ _ ⟨_, w⟩ => ⟨_, w, fun rest => rest_afterTransfer (rest rfl)⟩
  | sesConfigure div bits =>
    refine runOp_driverInv (Ends.bind (((Proceeds.configureSession div bits _).and
      (configureSession_driverInv div bits run)).mono fun _ _ ⟨later, kept⟩ => ⟨later, ?_⟩)) hst
    exact (respond_ends _ _ _).mono fun _ _ answered => answered.driverInv kept
  | sesStart mode address => exact runOp_driverInv (sesCommand_driverInv h (startSession_ran address mode)) hst
  | sesWrite data => exact runOp_driverInv (sesCommand_driverInv h (writeSession_ran data)) hst
  | sesReadAck => exact runOp_driverInv (sesCommand_driverInv h (readSession_ran .rxAck)) hst
  | sesReadNack => exact runOp_driverInv (sesCommand_driverInv h (readSession_ran .rxNack)) hst
  | sesStop =>
    exact runOp_driverInv (sesCommand_driverInv h fun u => (stopSession_ran u).mono fun _ _ ⟨zero, ran, same⟩ =>
      ⟨ran, fun z => ⟨zero, same z⟩⟩) hst
  | rxAddr b => exact execRxAddr_driverInv b h hst
  | rxLenHi b => exact execRxLenHi_driverInv b h hst
  | rxLenLo b => exact execRxLenLo_driverInv b h hst
  | rxPayload b => exact execRxPayload_driverInv b h hst

theorem sequencerTurn_driverInv {s t : State} (h : DriverInv s) (hst : sequencerTurn s = .next t) : DriverInv t := by
  rcases sequencerTurn_next_cases hst with rfl | ⟨i, p, e⟩ | ⟨r, p, e⟩
  · exact h
  · exact exec_driverInv i (s := { s with port := p }) h e
  · exact runOp_driverInv (s := { s with port := p })
      ((refuse_ends r _).mono fun _ _ answered => answered.driverInv h) e

/-- Settles O50: configured the driver rests after every operation, unconfigured no operation but the one that
configures it touches it. -/
theorem stepKeepsTheDriverAtRest : Obligations.StepKeepsTheDriverAtRest := by
  unfold Obligations.StepKeepsTheDriverAtRest
  intro s t h hst
  obtain ⟨l, ⟨m, rfl⟩ | turn⟩ := step_next_cases hst
  · exact apply_driverInv m (s := { s with inputs := l }) h
  · exact sequencerTurn_driverInv (s := { s with inputs := l }) h turn

end Sys2Proof.Machine

/-! ## Bit-bang commands that run (40_bus_driver.md rules R136 to R139) -/

namespace Sys2Proof.Machine

theorem respFlagsOf_run : respFlagsOf false false = 0#2 := by decide

/-- A bit-bang command that is not refused is its body and the response. -/
theorem bbCommand_accepted {needsConfig legal : Bool} {body : Op Byte} {s : State}
    (accepted : bbRefusal needsConfig legal s = none) :
    bbCommand needsConfig legal body s = (body >>= fun code => respond code false) s := by
  obtain ⟨hb, cursor, configured, rfl⟩ := bbRefusal_eq_none_iff.mp accepted
  have noReason : (needsConfig && !s.drv.bbCfg) = false := by cases needsConfig <;> simp_all
  rw [bbCommand, peek_then]
  simp [hb, cursor, noReason]

theorem DriverReady.accepted {s : State} (h : DriverReady s) : bbRefusal true true s = none :=
  bbRefusal_eq_none_iff.mpr ⟨h.1, h.2.1, fun _ => h.2.2, rfl⟩

/-- Whatever the other agents do, the guard silent, the command answers what its body does, and leaves of the core what
its body wrote. -/
theorem bbCommand_answers {needsConfig legal : Bool} {body : Op Byte} {s u : State} {d : Driver} {code : Byte}
    (accepted : bbRefusal needsConfig legal s = none) (g : GuardSilent s) (runs : body s.running = .ok code u)
    (w : Wrote s.running d u) :
    ∃ t, runOp (bbCommand needsConfig legal body) s = .next t ∧ Responded code 0#2 t ∧ DriverRan s d t := by
  obtain ⟨v, passes, b⟩ := tick_passes (s := u) (w.guardSilent g)
  have hb : s.cfg.backend = .bb := (bbRefusal_eq_none_iff.mp accepted).1
  have engine := w.trans (Between.withDrv b u.drv)
  refine ⟨v.respond code false none, ?_, ⟨rfl, respFlagsOf_run, rfl, rfl, rfl⟩, b.drv.trans w.drv, b.cfg.trans w.cfg,
    b.ses.trans w.ses, b.frm.trans w.frm, ?_, w.ltracePrefix.trans b.ltracePrefix⟩
  · simp only [runOp, bbCommand_accepted (s := s.running) accepted, op_bind, runs, respond, line, passes]
    rfl
  · exact engine.engOfBb hb

/-- The operation comes to no wait, so that nothing hangs it (60_exceptions.md rule R284). -/
def Waitless {α : Type} (x : Op α) : Prop := ∀ s t, x s ≠ .error .hang t

theorem Waitless.bind {α β : Type} {x : Op α} {f : α → Op β} (h : Waitless x) (k : ∀ a, Waitless (f a)) :
    Waitless (x >>= f) := by
  intro s t
  rw [op_bind]
  cases hx : x s with
  | ok a u => exact k a u t
  | error e u =>
    intro hang
    injection hang with cause
    exact h s u (cause ▸ hx)

theorem Waitless.line (f : State → State) : Waitless (Machine.line f) := by
  refine Waitless.bind (fun s t hang => ?_) fun _ _ _ => nofun
  obtain ⟨u, -, ⟨-, -, -, -, ⟨passes, -⟩ | ⟨-, -, never⟩⟩ | ⟨cut, -⟩⟩ :=
    holdOn_cases (C := fun _ => true) (fun _ _ => rfl) s.inputs s
  · exact nomatch passes.symm.trans hang
  · cases never
  · exact nomatch cut.symm.trans hang

theorem Waitless.configureBody : Waitless configureBody :=
  .bind (.line _) fun _ => .bind (.line _) fun _ => .bind (.line _) fun _ => .bind (.line _) fun _ =>
    .bind (.line _) fun _ => .bind (.line _) fun _ => .bind (.line _) fun _ => .line _

/-- With the guard silent an operation that comes to no wait reaches its end, whatever holds SCL. -/
theorem Ends.completesWaitless {α : Type} {x : Op α} {s : State} {Q : α → State → Prop} (h : Ends x s Q)
    (waitless : Waitless x) (g : GuardSilent s) : ∃ a t, x s = .ok a t ∧ Q a t := by
  unfold Ends at h
  cases hx : x s with
  | ok a t => rw [hx] at h; exact ⟨a, t, rfl, h⟩
  | error e t =>
    rw [hx] at h
    cases e with
    | cut => exact absurd h.1 g
    | hang => exact absurd hx (waitless s t)

/-- A body without a value, run for the response 0. -/
theorem thenZero {x : Op Unit} {s u : State} (h : x s = .ok () u) : (do x; pure 0#8 : Op Byte) s = .ok 0#8 u := by
  rw [op_bind, h]
  rfl

/-- Settles O17: `configure()` comes to no wait, so that the guard alone could stop it. -/
theorem bbConfigureCompletes : Obligations.BbConfigureCompletes := by
  unfold Obligations.BbConfigureCompletes
  intro s hb cursor silent
  obtain ⟨_, u, runs, w⟩ := (configureBody_ends s.running).completesWaitless .configureBody silent
  exact bbCommand_answers (bbRefusal_eq_none_iff.mpr ⟨hb, cursor, nofun, rfl⟩) silent (thenZero runs) w

theorem byte_msb (v : Byte) : v.msb = v.getLsbD 7 := BitVec.msb_eq_getLsbD_last v

/-- Settles O18: both bodies complete where their one wait is lifted. -/
theorem bbStartAndStopComplete : Obligations.BbStartAndStopComplete := by
  unfold Obligations.BbStartAndStopComplete
  intro s ready silent responsive
  have hb : s.running.cfg.backend = .bb := ready.1
  refine ⟨?_, ?_⟩
  · obtain ⟨_, u, runs, w⟩ := (startBody_ends hb).completes silent fun _ => responsive
    rw [byte_msb] at w
    exact bbCommand_answers ready.accepted silent (thenZero runs) w
  · obtain ⟨_, u, runs, w⟩ := (stopBody_ends hb).completes silent fun _ => responsive
    exact bbCommand_answers ready.accepted silent (thenZero runs) w

/-! ### The sample of a bit cycle -/

/-- A bit cycle up to its sample (rule R136). A delay reads no time. -/
def sampleSda : Op Bool := do
  tick
  line State.releaseScl
  waitSclHigh
  readLine State.sdaLine

/-- A bit cycle after its sample. -/
def shiftIn (sample : Bool) : Op Unit := do
  line fun s => s.setSr (s.drv.sr.shiftConcat sample)
  tick
  line State.pullScl
  line fun s => { s with drv.bitcnt := s.drv.bitcnt - 1 }

theorem bitCycle_eq : bitCycle = sampleSda >>= shiftIn := by
  simp only [sampleSda, ← op_bind_assoc]
  rfl

/-- Everything the sampling can do: where the core drives 0 it samples 0. -/
theorem sampleSda_ends {s : State} (hb : s.cfg.backend = .bb) :
    Ends sampleSda s fun b u => (s.drv.drivesSda = true → b = false) ∧ Wrote s { s.drv with sclLow := false } u := by
  refine Ends.thenDelay (n := 0) (Wrote.refl s) fun t1 b1 => ?_
  refine Ends.thenWrite releaseScl_write b1 fun t2 b2 => ?_
  refine Ends.thenWait b2 hb rfl fun t3 b3 _ => Ends.readLine fun t4 b4 => ?_
  have w : Wrote s { s.drv with sclLow := false } t4 := Between.trans b3 b4
  refine ⟨fun low => ?_, w⟩
  have hb4 : t4.cfg.backend = .bb := by rw [w.cfg]; exact hb
  simp only [Driver.drivesSda] at low
  simp [State.sdaLine, State.coreSdaLow, hb4, w.drv, low]

theorem shiftIn_ends {s u : State} {d : Driver} (b : Bool) (w : Wrote s d u) :
    Ends (shiftIn b) u fun _ t => Wrote s (d.cycled b) t := by
  refine Ends.thenWrite (shiftSr_write b) w fun t5 b5 => ?_
  refine Ends.thenDelay (n := 0) b5 fun t6 b6 => ?_
  refine Ends.thenWrite pullScl_write b6 fun t7 b7 => Ends.line fun t8 c => ?_
  have last := (plain_write fun d => { d with bitcnt := d.bitcnt - 1 }).between c
  rw [b7.drv] at last
  exact b7.trans last

theorem withInputs_self {s : State} {l : List Move} (h : s.inputs = l) : s.withInputs l = s := by
  subst h
  rfl

section
variable {s : State} (hb : s.cfg.backend = .bb)
include hb

theorem coreSdaLow_bb : s.coreSdaLow = s.drv.drivesSda := by
  simp [State.coreSdaLow, Driver.drivesSda, hb]

theorem releaseScl_sclLine : s.releaseScl.sclLine = !s.bus.envSclLow := by
  simp [State.sclLine, State.coreSclLow, hb]

theorem releaseScl_sdaLine : s.releaseScl.sdaLine = !(s.drv.drivesSda || s.bus.envSdaLow) := by
  simp [State.sdaLine, State.coreSdaLow, Driver.drivesSda, hb]

/-- Where nobody holds SCL and nobody moves, the sample is the wired-AND. -/
theorem sampleSda_runs (hs : s.bus.envSclLow = false) :
    Runs sampleSda 4 s (!(s.drv.drivesSda || s.bus.envSdaLow)) s.releaseScl := by
  have rise : s.releaseScl.sclLine = true := by rw [releaseScl_sclLine hb, hs]; rfl
  have read := Runs.readLine (f := State.sdaLine) s.releaseScl fun _ => rfl
  rw [releaseScl_sdaLine hb] at read
  refine (Runs.tick s).bind (k := 3) ?_
  refine (Runs.line plainWrite_releaseScl s).bind (k := 2) ?_
  refine (Runs.waitSclHigh rise).bind (k := 1) ?_
  exact read

/-- The environment moves SDA just before the sample. -/
theorem sampleSda_late (hs : s.bus.envSclLow = false) (low : Bool) (rest : List Move) :
    sampleSda (s.withInputs (turns 3 ++ .envSda low :: .seq :: rest)) =
      .ok (!(s.drv.drivesSda || low)) ((s.releaseScl.apply (.envSda low)).withInputs rest) := by
  have rise : s.releaseScl.sclLine = true := by rw [releaseScl_sclLine hb, hs]; rfl
  have sda : (s.releaseScl.apply (.envSda low)).sdaLine = !(s.drv.drivesSda || low) := by
    simp [State.apply, State.envSdaMove, State.sdaLine, State.coreSdaLow, Driver.drivesSda, hb]
  have read := Runs.readLine (f := State.sdaLine) (s.releaseScl.apply (.envSda low)) fun _ => rfl
  rw [sda] at read
  show sampleSda (s.withInputs (turns 1 ++ (turns 1 ++ (turns 1 ++ .envSda low :: .seq :: rest)))) = _
  rw [sampleSda, (Runs.tick s).then, (Runs.line plainWrite_releaseScl s).then, (Runs.waitSclHigh rise).then,
    TakesMoves.readLine State.sdaLine _ (.envSda low) _ (by simp) (by simp [fires])]
  exact read.turns rest

end

theorem cycled_eq (d : Driver) (b : Bool) :
    d.cycled b =
      { d with sr := d.sr.shiftConcat b, latch := d.sr.getLsbD 6, sclLow := true, bitcnt := d.bitcnt - 1 } := by
  simp [Driver.cycled, BitVec.msb_eq_getLsbD_last]

/-- Settles O16: the bit cycle is its sample, then a shift that the other agents cannot change; each clause fixes the
sample. -/
theorem bitCycleMovesOneBit : Obligations.BitCycleMovesOneBit := by
  unfold Obligations.BitCycleMovesOneBit
  intro s hb silent responsive
  obtain ⟨b, u, sampled, low, wu⟩ := (sampleSda_ends hb).completes silent fun _ => responsive
  obtain ⟨_, t, shifted, w⟩ :=
    (shiftIn_ends b wu).completes (wu.guardSilent silent) fun _ => wu.busResponsive responsive
  rw [coreSdaLow_bb hb]
  refine ⟨b, t, ?_, ?_, low, ?_, ?_⟩
  · rw [bitCycle_eq, op_bind, sampled]
    exact shifted
  · rw [← cycled_eq]
    exact ⟨w.drv.trans rfl, w.cfg, w.ses, w.frm, w.engOfBb hb, w.ltracePrefix⟩
  · intro alone
    have free : s.bus.envSclLow = false := by simpa [BusResponsive, alone, sclHeldAfter] using responsive
    have runs := (sampleSda_runs hb free).alone
    rw [withInputs_self alone, sampled] at runs
    injection runs
  · intro low rest free script
    have runs := sampleSda_late hb free low rest
    rw [withInputs_self script, sampled] at runs
    injection runs

end Sys2Proof.Machine

/-! ## What the bit-bang driver samples (40_bus_driver.md rules R140 to R142) -/

namespace Sys2Proof.Machine

/-! ### Operations that go on -/

/-- In `k` turns of the sequencer, or with no move left, `x` from `s` goes on as `y` from `t`. -/
structure GoesOn {α : Type} (x : Op α) (k : Nat) (s : State) (y : Op α) (t : State) : Prop where
  turns : ∀ rest, x (s.withInputs (turns k ++ rest)) = y (t.withInputs rest)
  alone : x (s.withInputs []) = y (t.withInputs [])

theorem Runs.goesOn {α β : Type} {x : Op α} {k : Nat} {s t : State} {a : α} (h : Runs x k s a t) (f : α → Op β) :
    GoesOn (x >>= f) k s (f a) t := ⟨h.then f, h.thenAlone f⟩

theorem GoesOn.trans {α : Type} {x y z : Op α} {j k : Nat} {s t u : State} (h : GoesOn x j s y t)
    (g : GoesOn y k t z u) : GoesOn x (j + k) s z u where
  turns rest := by rw [turns_add, List.append_assoc, h.turns, g.turns]
  alone := h.alone.trans g.alone

theorem GoesOn.runs {α : Type} {x y : Op α} {j k : Nat} {s t u : State} {a : α} (h : GoesOn x j s y t)
    (g : Runs y k t a u) : Runs x (j + k) s a u where
  turns rest := by rw [turns_add, List.append_assoc, h.turns, g.turns]
  alone := h.alone.trans g.alone

/-- What holds of every end holds of the one come to. -/
theorem Ends.of_ok {α : Type} {x : Op α} {s t : State} {a : α} {Q : α → State → Prop} (h : Ends x s Q)
    (e : x s = .ok a t) : Q a t := by
  unfold Ends at h
  rwa [e] at h

/-! ### The driver and the slave, without the traces -/

/-- The driver is `d`, nobody holds SCL, the slave drives SDA low or not. `Wave` says so too, but of a driver that holds
SCL low and of a parse that stands at the lines, which the samples do not need. -/
structure Driven (d : Driver) (sda : Bool) (t : State) : Prop where
  bb : t.cfg.backend = .bb
  drv : t.drv = d
  envScl : t.bus.envSclLow = false
  envSda : t.bus.envSdaLow = sda

theorem Driven.start {t : State} (hb : t.cfg.backend = .bb) (hs : t.bus.envSclLow = false) :
    Driven t.drv t.bus.envSdaLow t := ⟨hb, rfl, hs, rfl⟩

section
variable {d : Driver} {sda : Bool} {t : State}

theorem Driven.write (w : Driven d sda t) {f : State → State} {F : Driver → Driver} (u : DriverWrite f F)
    (hf : (f t).bus.envSdaLow = t.bus.envSdaLow) : Driven (F d) sda (f t) :=
  ⟨by rw [u.cfg]; exact w.bb, by rw [u.drv, w.drv], by rw [u.env]; exact w.envScl, hf.trans w.envSda⟩

theorem Driven.slave (w : Driven d sda t) (low : Bool) : Driven d low (t.apply (.envSda low)) :=
  ⟨by simpa [State.apply, State.envSdaMove] using w.bb, by simpa [State.apply, State.envSdaMove] using w.drv,
    by simpa [State.apply, State.envSdaMove] using w.envScl, by simp [State.apply, State.envSdaMove]⟩

theorem bitCycle_driven (w : Driven d sda t) :
    ∃ v, Runs bitCycle 8 t () v ∧ Driven (d.cycled !(d.drivesSda || sda)) sda v := by
  have sample := sampleSda_runs w.bb w.envScl
  rw [w.drv, w.envSda] at sample
  generalize (!(d.drivesSda || sda)) = b at sample ⊢
  have w1 := w.write releaseScl_write (by simp)
  have w2 := w1.write (shiftSr_write b) (by simp)
  have w3 := w2.write pullScl_write (by simp)
  have w4 := w3.write (plain_write fun d => { d with bitcnt := d.bitcnt - 1 }) rfl
  refine ⟨_, ?_, w4⟩
  rw [bitCycle_eq]
  refine sample.bind (k := 4) ((Runs.line (plainWrite_shiftSr b) _).bind (k := 3) ?_)
  refine (Runs.tick _).bind (k := 2) ((Runs.line plainWrite_pullScl _).bind (k := 1) ?_)
  exact Runs.line (fun _ _ => rfl) _

end

/-- The driver after one turn of a transfer's loop that sampled `b` (rule R142). -/
def Driver.looped (d : Driver) (b : Bool) : Driver :=
  if (d.cycled b).bitcnt = 0 then { d.cycled b with tc := true } else d.cycled b

section
variable {d : Driver} {sda : Bool} {t : State}

theorem transferLoop_more (n : Nat) (h : t.drv.tc = false) :
    transferLoop (n + 1) t = (bitCycle >>= fun _ => line State.checkComplete >>= fun _ => transferLoop n) t := by
  rw [transferLoop, peek_then]
  simp [h]

/-- One turn of a transfer's loop. -/
theorem transferLoop_turn (n : Nat) (w : Driven d sda t) (more : d.tc = false) :
    ∃ v, GoesOn (transferLoop (n + 1)) 9 t (transferLoop n) v ∧ Driven (d.looped !(d.drivesSda || sda)) sda v := by
  obtain ⟨v, r, w1⟩ := bitCycle_driven w
  have tc : t.drv.tc = false := by rw [w.drv, more]
  have turn := (r.goesOn fun _ => line State.checkComplete >>= fun _ => transferLoop n).trans
    ((Runs.line plainWrite_checkComplete v).goesOn fun _ => transferLoop n)
  have w2 := w1.write checkComplete_write (by rw [checkComplete_bus])
  refine ⟨_, ⟨fun rest => ?_, ?_⟩, w2⟩
  · rw [transferLoop_more n (by exact tc)]
    exact turn.turns rest
  · rw [transferLoop_more n (by exact tc)]
    exact turn.alone

/-- What the bit cycles sample, the slave driving SDA low or not in each (rule R136). -/
def samplesUnder : Driver → List Bool → List Bool
  | _, [] => []
  | d, low :: rest => (!(d.drivesSda || low)) :: samplesUnder (d.cycled !(d.drivesSda || low)) rest

theorem samplesUnder_length (d : Driver) (lows : List Bool) : (samplesUnder d lows).length = lows.length := by
  induction lows generalizing d with
  | nil => rfl
  | cons low rest ih => simp [samplesUnder, ih]

/-- With SDA an input the samples are what the slave sends. -/
theorem samplesUnder_released {d : Driver} (h : d.dirOut = false) (lows : List Bool) :
    samplesUnder d lows = lows.map (!·) := by
  induction lows generalizing d with
  | nil => rfl
  | cons low rest ih => simp [samplesUnder, ih (d := d.cycled _) h, Driver.drivesSda, h]

theorem samplesUnder_sent {d : Driver} (h : d.dirOut = false) (bits : List Bool) :
    samplesUnder d (bits.map (!·)) = bits := by
  simp [samplesUnder_released h, Function.comp_def]

/-- The samples do not depend on the counter and the flag. -/
theorem samplesUnder_counter (d : Driver) (n : BitVec 4) (b : Bool) (lows : List Bool) :
    samplesUnder { d with bitcnt := n, tc := b } lows = samplesUnder d lows := by
  induction lows generalizing d n with
  | nil => rfl
  | cons low rest ih => exact congrArg ((!(d.drivesSda || low)) :: ·) (ih (d.cycled !(d.drivesSda || low)) (n - 1))

/-- Whether the core drives SDA low in bit `i` of a transfer: by the latch in the first one, by `SR` from bit 7 down in
the others (rule R142). -/
def Driver.bitLow (d : Driver) (i : Nat) : Bool :=
  d.dirOut && (d.sdaForce || !(if i = 0 then d.latch else d.sr.getLsbD (7 - i)))

theorem cycled_bitLow (d : Driver) (b : Bool) {i : Nat} (h : i < 7) : (d.cycled b).bitLow i = d.bitLow (i + 1) := by
  rw [cycled_eq]
  cases i with
  | zero => rfl
  | succ i =>
    have here : 7 - (i + 1) = 5 - i + 1 := by omega
    have next : 7 - (i + 1 + 1) = 5 - i := by omega
    have shifted : (d.sr.shiftConcat b).getLsbD (5 - i + 1) = d.sr.getLsbD (5 - i) := by
      rw [BitVec.getLsbD_shiftConcat, decide_eq_true (by omega)]
      rfl
    simp only [Driver.bitLow, here, next, shifted, Nat.succ_ne_zero, if_false]

/-- Each sample is the wired-AND of core and slave. -/
theorem samplesUnder_eq (d : Driver) (lows : List Bool) (h : lows.length ≤ 8) :
    samplesUnder d lows = (List.range lows.length).map fun i => !(d.bitLow i || lows.getD i false) := by
  induction lows generalizing d with
  | nil => rfl
  | cons low rest ih =>
    rw [List.length_cons] at h
    rw [samplesUnder, ih _ (by omega), List.length_cons, List.range_succ_eq_map, List.map_cons, List.map_map]
    refine congrArg _ (List.map_congr_left fun i hi => ?_)
    have inByte : i < 7 := by have := List.mem_range.mp hi; omega
    simp [cycled_bitLow d _ inByte]

end

section
variable {d : Driver} {sda : Bool} {t : State}

theorem looped_last (h : d.bitcnt.toNat = 1) (b : Bool) : d.looped b = d.shifted [b] := loopStep_done h b

theorem looped_more {n : Nat} (h : d.bitcnt.toNat = n + 2) (b : Bool) : d.looped b = d.cycled b := loopStep_more h b

/-- The whole loop, the slave's drive of SDA not changing. -/
theorem transferLoop_driven (n : Nat) (w : Driven d sda t) (hn : d.bitcnt.toNat = n + 1) (more : d.tc = false) :
    ∃ v, Runs (transferLoop (n + 1)) (9 * (n + 1)) t () v ∧
      Driven (d.shifted (samplesUnder d (List.replicate (n + 1) sda))) sda v := by
  induction n generalizing t d with
  | zero =>
    obtain ⟨v, turn, w1⟩ := transferLoop_turn 0 w more
    rw [looped_last hn] at w1
    exact ⟨v, turn.runs (Runs.pure () v), w1⟩
  | succ n ih =>
    obtain ⟨v, turn, w1⟩ := transferLoop_turn (n + 1) w more
    rw [looped_more hn] at w1
    obtain ⟨u, runs, w2⟩ := ih w1 (cycled_bitcnt hn _) more
    rw [show 9 * (n + 1 + 1) = 9 + 9 * (n + 1) by omega]
    exact ⟨u, turn.runs runs, w2⟩

/-- The whole loop, the slave sending one bit in each cycle. -/
theorem transferLoop_sent (bits : List Bool) (n : Nat) (w : Driven d sda t) (hlen : bits.length = n + 1)
    (hn : d.bitcnt.toNat = n + 1) (more : d.tc = false) :
    ∃ v low, (∀ rest, transferLoop (n + 1) (t.withInputs (slaveBits bits ++ rest)) = .ok () (v.withInputs rest)) ∧
      Driven (d.shifted (samplesUnder d (bits.map (!·)))) low v := by
  induction n generalizing t d sda bits with
  | zero =>
    obtain ⟨b, rfl⟩ := List.length_eq_one_iff.mp hlen
    obtain ⟨v, turn, w1⟩ := transferLoop_turn 0 (w.slave !b) more
    rw [looped_last hn] at w1
    refine ⟨v, !b, fun rest => ?_, w1⟩
    exact (transferLoop_slaveMove 0 t (!b) _ (w.drv ▸ more)).trans (turn.turns rest)
  | succ n ih =>
    obtain ⟨b, bits, rfl⟩ := List.exists_cons_of_length_eq_add_one hlen
    obtain ⟨v, turn, w1⟩ := transferLoop_turn (n + 1) (w.slave !b) more
    rw [looped_more hn] at w1
    obtain ⟨u, low, runs, w2⟩ := ih bits w1 (by simpa using hlen) (cycled_bitcnt hn _) more
    refine ⟨u, low, fun rest => ?_, w2⟩
    show transferLoop (n + 2) (t.withInputs (.envSda (!b) :: (turns 9 ++ slaveBits bits ++ rest))) = _
    rw [List.append_assoc, transferLoop_slaveMove _ _ _ _ (w.drv ▸ more), turn.turns, runs]

/-- The end of a transfer releases SDA and returns what `SR` holds. -/
theorem transferTail_driven (n : Nat) (bits : List Bool) (w : Driven (d.shifted bits) sda t) :
    ∃ v, Runs (transferTail n) 4 t (bits.foldl (fun v b => v.shiftConcat b) d.sr) v ∧ Driven d.afterTransfer sda v := by
  have w1 := w.write (setSr_write 0xFF#8) (by simp)
  have w2 := w1.write (setDirOut_write true) (by simp)
  refine ⟨_, (Runs.delay n t).bind (k := 3) ?_, w2⟩
  have read := Runs.readLine (f := fun s => s.drv.sr) t fun _ => rfl
  rw [w.drv] at read
  refine read.bind (k := 2) ((Runs.line (plainWrite_setSr 0xFF#8) t).bind (k := 1) ?_)
  exact (Runs.line (plainWrite_setDirOut true) _).bind (k := 0) (Runs.pure _ _)

/-- Whatever the other agents do from there on, a transfer returns what `SR` holds after its loop. -/
theorem transferTail_returns (n : Nat) (t : State) : Ends (transferTail n) t fun r u => r = t.drv.sr ∧ Later t u := by
  refine Ends.thenDelay (n := n) (Wrote.refl t) fun t1 b1 => Ends.thenRead b1 fun t2 b2 => ?_
  refine Ends.thenWrite (setSr_write 0xFF#8) b2 fun t3 b3 => ?_
  exact Ends.thenWrite (setDirOut_write true) b3 fun t4 b4 => Ends.pure ⟨by rw [b2.drv], b4.later⟩

/-- The driver as `transfer` takes it into its loop (rule R142). -/
abbrev Driver.loading (d : Driver) (cw : Byte) : Driver := { d with bitcnt := controlBits cw, tc := false }

abbrev State.loading (t : State) (cw : Byte) : State := { t with drv := t.drv.loading cw }

theorem Driven.loading (w : Driven d sda t) (cw : Byte) : Driven (d.loading cw) sda (t.loading cw) :=
  w.write (plain_write fun d => d.loading cw) rfl

/-- The two lines with which a transfer begins. -/
theorem loading_goesOn {α : Type} (cw : Byte) (t : State) (x : Op α) :
    GoesOn ((line fun s => { s with drv.bitcnt := controlBits cw }) >>= fun _ =>
      (line fun s => { s with drv.tc := false }) >>= fun _ => x) 2 t x (t.loading cw) := by
  have counter := Runs.line (f := fun s => { s with drv.bitcnt := controlBits cw }) (fun _ _ => rfl) t
  refine (counter.goesOn _).trans (k := 1) ?_
  exact (Runs.line (f := fun s => { s with drv.tc := false }) (fun _ _ => rfl) _).goesOn fun _ => x

theorem transfer_goesOn (cw : Byte) (t : State) :
    GoesOn (transfer cw) 2 t (transferLoop (controlBits cw).toNat >>= fun _ => transferTail t.cfg.tLow)
      (t.loading cw) := by
  have head := loading_goesOn cw t (transferLoop (controlBits cw).toNat >>= fun _ => transferTail t.cfg.tLow)
  exact ⟨head.turns, head.alone⟩

/-- A whole transfer, the slave's drive of SDA not changing. -/
theorem transfer_driven {cw : Byte} {n : Nat} (hn : (controlBits cw).toNat = n + 1) (w : Driven d sda t) :
    ∃ v, Runs (transfer cw) (2 + (9 * (n + 1) + 4)) t
        ((samplesUnder d (List.replicate (n + 1) sda)).foldl (fun v b => v.shiftConcat b) d.sr) v ∧
      Driven d.afterTransfer sda v := by
  obtain ⟨v, loop, w1⟩ := transferLoop_driven n (w.loading cw) hn rfl
  rw [samplesUnder_counter] at w1
  obtain ⟨u, tail, w2⟩ := transferTail_driven (d := d) t.cfg.tLow _ w1
  have head := transfer_goesOn cw t
  rw [hn] at head
  exact ⟨u, head.runs (loop.bind tail), w2⟩

/-- A transfer in which the slave sends one bit in each cycle, up to its end. -/
theorem transfer_sent {cw : Byte} {bits : List Bool} {n : Nat} (hn : (controlBits cw).toNat = n + 1)
    (hlen : bits.length = n + 1) (w : Driven d sda t) :
    ∃ v low, (∀ rest, transfer cw (t.withInputs (turns 2 ++ (slaveBits bits ++ rest))) =
        transferTail t.cfg.tLow (State.withInputs v rest)) ∧
      Driven (d.shifted (samplesUnder d (bits.map (!·)))) low v := by
  obtain ⟨v, low, loop, w1⟩ := transferLoop_sent bits n (w.loading cw) hlen hn rfl
  rw [samplesUnder_counter] at w1
  refine ⟨v, low, fun rest => ?_, w1⟩
  exact transfer_head cw (by rw [hn]; exact loop rest)

end

/-! ### The code of a transfer and its samples -/

/-- Samples shifted in stand below the bits that were there, first sample highest. -/
theorem foldl_shiftConcat (bits : List Bool) (v : Byte) :
    bits.foldl (fun v b => v.shiftConcat b) v = (v <<< bits.length) ||| byteOfBits bits := by
  unfold byteOfBits
  induction bits using List.reverseRecOn with
  | nil => simp
  | append_singleton bits b ih =>
    simp only [List.foldl_append, List.foldl_cons, List.foldl_nil, List.length_append, List.length_singleton, ih]
    rw [shiftConcat_eq_shiftLeft_or, shiftConcat_eq_shiftLeft_or, BitVec.shiftLeft_or_distrib, BitVec.shiftLeft_add,
      BitVec.or_assoc]

theorem getLsbD_foldl_shiftConcat (bits : List Bool) (v : Byte) {i : Nat} (h : i < bits.length) (h8 : i < 8) :
    (bits.foldl (fun v b => v.shiftConcat b) v).getLsbD i = bits.reverse[i]'(by simpa using h) := by
  induction bits using List.reverseRecOn generalizing i with
  | nil => simp at h
  | append_singleton bits b ih =>
    simp only [List.foldl_append, List.foldl_cons, List.foldl_nil, BitVec.getLsbD_shiftConcat, h8, decide_true,
      Bool.true_and, List.reverse_append, List.reverse_singleton, List.singleton_append]
    cases i with
    | zero => rfl
    | succ i => simpa using ih (by simpa using h) (by omega)

/-- At most eight samples are read off the byte they were shifted into. -/
theorem foldl_shiftConcat_inj {bits bits' : List Bool} {v : Byte} (len : bits.length = bits'.length)
    (h8 : bits.length ≤ 8)
    (e : bits.foldl (fun v b => v.shiftConcat b) v = bits'.foldl (fun v b => v.shiftConcat b) v) : bits = bits' := by
  refine List.reverse_injective (List.ext_getElem (by simpa using len) fun i hi hi' => ?_)
  rw [List.length_reverse] at hi hi'
  rw [← getLsbD_foldl_shiftConcat bits v hi (by omega), ← getLsbD_foldl_shiftConcat bits' v hi' (by omega), e]

/-- `N` is 1 to 8 (30_encoding.md rule R104). -/
theorem controlWordOk_bits {cw : Byte} (h : controlWordOk cw = true) :
    ∃ n, (controlBits cw).toNat = n + 1 ∧ n + 1 ≤ 8 := by
  simp only [controlWordOk, Bool.and_eq_true, decide_eq_true_eq] at h
  obtain ⟨⟨low, high⟩, -⟩ := h
  exact ⟨(controlBits cw).toNat - 1, by omega, by omega⟩

/-- At rest the core drives SDA low in no bit (rule R147). -/
theorem bitLow_of_driverInv {s : State} (h : DriverInv s) (hb : s.cfg.backend = .bb) {i : Nat} (hi : i < 8) :
    s.drv.bitLow i = false := by
  obtain ⟨sr, latch, force, -⟩ := h hb
  have ones : (0xFF#8 : Byte).getLsbD (7 - i) = true := by interval_cases i <;> decide
  simp [Driver.bitLow, sr, latch, force, ones]

theorem free_of_alone {s : State} (alone : s.inputs = []) (responsive : BusResponsive s) : s.bus.envSclLow = false := by
  simpa [BusResponsive, alone, sclHeldAfter] using responsive

/-- Settles O21: the code is the samples shifted into `SR`, and each schedule fixes the code, so the samples
too. -/
theorem bbTransferShiftsTheSamples : Obligations.BbTransferShiftsTheSamples := by
  unfold Obligations.BbTransferShiftsTheSamples
  intro cw s ready legal silent responsive bits coreLow
  have hb : s.running.cfg.backend = .bb := ready.1
  obtain ⟨code, u, runs, ⟨samples, len, shifted⟩, w⟩ := (transfer_ends hb legal).completes silent fun _ => responsive
  have accepted : bbRefusal true (controlWordOk cw) s = none := legal ▸ ready.accepted
  obtain ⟨t, ends, responded, ran⟩ := bbCommand_answers accepted silent runs w
  obtain ⟨n, hn, hn8⟩ := controlWordOk_bits legal
  have sampled : ∀ lows : List Bool, lows.length = n + 1 →
      code = (samplesUnder s.drv lows).foldl (fun v b => v.shiftConcat b) s.drv.sr →
      samples = (List.range bits).map fun i => !(coreLow i || lows.getD i false) := by
    intro lows length e
    have same : samples = samplesUnder s.drv lows :=
      foldl_shiftConcat_inj (by rw [samplesUnder_length, len, hn, length]) (by omega) (shifted.symm.trans e)
    rw [same, samplesUnder_eq _ _ (by omega), length, ← hn]
    rfl
  refine ⟨samples, code, t, ends, responded, len, shifted.trans (foldl_shiftConcat _ _), ran, ?_, ?_⟩
  · intro alone
    have start := Driven.start hb (free_of_alone alone responsive)
    obtain ⟨v, whole, -⟩ := transfer_driven hn start
    have value := whole.alone
    rw [withInputs_self (s := s.running) alone, runs] at value
    injection value with value
    rw [sampled _ List.length_replicate value]
    refine List.map_congr_left fun i hi => ?_
    have inRange : i < n + 1 := hn ▸ List.mem_range.mp hi
    simp [inRange]
  · intro sent rest length free script
    obtain ⟨v, _, loop, w1⟩ := transfer_sent hn (length.trans hn) (Driven.start hb free)
    have value := loop rest
    rw [← List.append_assoc, withInputs_self (s := s.running) script, runs] at value
    have returned := ((transferTail_returns _ _).of_ok value.symm).1.trans (congrArg Driver.sr w1.drv)
    have wiredAnd : samples = (List.range bits).map fun i => !coreLow i && sent.getD i false := by
      rw [sampled _ (by simpa using length.trans hn) returned]
      refine List.map_congr_left fun i hi => ?_
      have inRange : i < sent.length := length ▸ List.mem_range.mp hi
      simp [inRange]
    refine ⟨wiredAnd, fun atRest => wiredAnd.trans (List.ext_getElem (by simpa using length.symm) fun i hi hi' => ?_)⟩
    have low : coreLow i = false := bitLow_of_driverInv atRest ready.1 (by omega)
    simp [low, hi']

/-! ### The byte received -/

/-- `getByte` after its eight bits: the acknowledge bit, and the byte as result (rule R141). -/
def ackAfter (last : Bool) (b : Byte) : Op Byte :=
  line (State.setSr (ackLevel last)) >>= fun _ => transfer cw1Bit >>= fun _ => pure b

theorem getByteBody_goesOn (last : Bool) (s : State) :
    GoesOn (getByteBody last) 1 s (transfer cw8Bit >>= ackAfter last) (s.setDirOut false) :=
  (Runs.line (plainWrite_setDirOut false) s).goesOn fun _ => transfer cw8Bit >>= ackAfter last

theorem ackAfter_returns (last : Bool) (b : Byte) {s : State} (hb : s.cfg.backend = .bb) :
    Ends (ackAfter last b) s fun r _ => r = b :=
  Ends.thenWrite (setSr_write (ackLevel last)) (Wrote.refl s) fun t w =>
    Ends.bind ((transfer_ends (by rw [w.cfg]; exact hb) controlWordOk_named.2).mono fun _ _ ⟨_, w'⟩ =>
      ⟨w'.later, Ends.pure rfl⟩)

theorem transferTail_ackAfter_returns (n : Nat) (last : Bool) {s : State} (hb : s.cfg.backend = .bb) :
    Ends (transferTail n >>= ackAfter last) s fun r _ => r = s.drv.sr :=
  Ends.bind ((transferTail_returns n s).mono fun b _ ⟨value, later⟩ =>
    ⟨later, value ▸ ackAfter_returns last b (by rw [later.cfg]; exact hb)⟩)

/-- Settles O20: the byte is the samples of the first transfer, in which SDA is an input. -/
theorem bbGetbyteReturnsTheByte : Obligations.BbGetbyteReturnsTheByte := by
  unfold Obligations.BbGetbyteReturnsTheByte
  intro last s ready silent responsive
  have hb : s.running.cfg.backend = .bb := ready.1
  obtain ⟨code, u, runs, -, w⟩ := (getByteBody_ends last hb).completes silent fun _ => responsive
  obtain ⟨t, ends, responded, ran⟩ := bbCommand_answers ready.accepted silent runs w
  have head := getByteBody_goesOn last s.running
  have input (free : s.bus.envSclLow = false) :
      Driven { s.drv with dirOut := false } s.bus.envSdaLow (s.running.setDirOut false) :=
    (Driven.start hb free).write (setDirOut_write false) (by simp)
  refine ⟨code, t, ends, responded, ran, ?_, ?_⟩
  · intro alone
    obtain ⟨v, whole, w1⟩ := transfer_driven (cw := cw8Bit) (n := 7) rfl (input (free_of_alone alone responsive))
    have value := (head.trans (whole.goesOn (ackAfter last))).alone
    rw [withInputs_self (s := s.running) alone, runs] at value
    have returned := (ackAfter_returns last _ (s := v.withInputs []) w1.bb).of_ok value.symm
    rw [returned, samplesUnder_released rfl]
    cases s.bus.envSdaLow with
    | false => exact foldl_bitsOf 0xFF#8 _
    | true => exact foldl_bitsOf 0x00#8 _
  · intro v rest free script
    obtain ⟨x, _, loop, w1⟩ := transfer_sent (cw := cw8Bit) (bits := bitsOf v) (n := 7) rfl rfl (input free)
    have value := head.turns (turns 2 ++ (slaveBits (bitsOf v) ++ rest))
    rw [op_bind, loop, ← op_bind, ← List.append_assoc, ← List.append_assoc, ← turns_add,
      withInputs_self (s := s.running) script, runs] at value
    have returned := (transferTail_ackAfter_returns _ last (s := x.withInputs rest) w1.bb).of_ok value.symm
    have sr : x.drv.sr = v := by
      rw [w1.drv, samplesUnder_sent rfl]
      exact foldl_bitsOf v _
    exact returned.trans sr

/-! ### The acknowledge bit of a byte sent -/

/-- A transfer up to its first sample (rule R142). -/
def firstSample (cw : Byte) : Op Bool := do
  line fun s => { s with drv.bitcnt := controlBits cw }
  line fun s => { s with drv.tc := false }
  sampleSda

/-- The rest of a transfer after its first sample, `n` bits to come. -/
def afterSample (n tLow : Nat) (b : Bool) : Op Byte := do
  shiftIn b
  line State.checkComplete
  transferLoop n
  transferTail tLow

theorem line_eq (f : State → State) (s : State) :
    line f s =
      match tick s with
      | .ok _ t => .ok () (f t)
      | .error e t => .error e t := by
  rw [line, op_bind]
  cases tick s <;> rfl

/-- With `TC = 0` the loop runs its first bit cycle. -/
theorem clearTc_transferLoop (n : Nat) :
    ((line fun s => { s with drv.tc := false }) >>= fun _ => transferLoop (n + 1)) =
      ((line fun s => { s with drv.tc := false }) >>= fun _ => bitCycle >>= fun _ =>
        line State.checkComplete >>= fun _ => transferLoop n) := by
  funext t
  rw [op_bind, op_bind, line_eq]
  cases tick t with
  | ok _ u => exact transferLoop_more (t := { u with drv.tc := false }) n rfl
  | error _ _ => rfl

theorem transfer_eq_sampled {cw : Byte} {n : Nat} (hn : (controlBits cw).toNat = n + 1) (s : State) :
    transfer cw s = (firstSample cw >>= afterSample n s.cfg.tLow) s := by
  rw [transfer_eq, peek_then, hn, op_bind_assoc (line fun s => { s with drv.tc := false }),
    clearTc_transferLoop, bitCycle_eq]
  simp only [firstSample, ← op_bind_assoc]
  rfl

/-- Whatever the other agents do from there on, a one-bit transfer returns the sample in bit 0. -/
theorem afterSample_returns (tLow : Nat) (b : Bool) (s : State) :
    Ends (afterSample 0 tLow b) s fun r _ => r = s.drv.sr.shiftConcat b := by
  refine Ends.bind ((shiftIn_ends b (Wrote.refl s)).mono fun _ t w => ⟨w.later, ?_⟩)
  refine Ends.thenWrite checkComplete_write w fun u w' => ?_
  refine (transferTail_returns tLow u).mono fun r _ ⟨value, _⟩ => ?_
  rw [value, w'.drv]
  split <;> rfl

theorem ackResult_shiftConcat (v : Byte) (b : Bool) : ackResult (v.shiftConcat b) = if b then 0#8 else 1#8 := by
  simp [ackResult, ackBit]

/-- The acknowledge bit alone decides the result of the byte (rule R140). -/
theorem acknowledge_of_sample {s t u : State} {b : Bool} {code : Byte} (sampled : firstSample cw1Bit s = .ok b u)
    (runs : (transfer cw1Bit >>= fun r => pure (ackResult r)) s = .ok code t) : code = if b then 0#8 else 1#8 := by
  rw [op_bind, transfer_eq_sampled (n := 0) rfl, op_bind, sampled] at runs
  cases rest : afterSample 0 s.cfg.tLow b u with
  | error _ _ => simp [rest] at runs
  | ok r x =>
    simp only [rest] at runs
    injection runs with value
    rw [← value, (afterSample_returns _ b u).of_ok rest, ackResult_shiftConcat]

section
variable {d : Driver} {sda : Bool} {t : State}

theorem putByteBody_goesOn (data : Byte) (w : Driven d sda t) :
    ∃ v, GoesOn (putByteBody data) 82 t (transfer cw1Bit >>= fun r => pure (ackResult r)) v ∧
      Driven { d.afterTransfer with dirOut := false } sda v := by
  have w1 := w.write pullScl_write (by simp)
  have w2 := w1.write (setDirOut_write true) (by simp)
  have w3 := w2.write (setSr_write data) (by simp)
  obtain ⟨v, byte, w4⟩ := transfer_driven (cw := cw8Bit) (n := 7) rfl w3
  have w5 := w4.write (setDirOut_write false) (by simp)
  refine ⟨v.setDirOut false, ?_, w5⟩
  refine ((Runs.line plainWrite_pullScl t).goesOn _).trans (k := 81) ?_
  refine ((Runs.line (plainWrite_setDirOut true) _).goesOn _).trans (k := 80) ?_
  refine ((Runs.line (plainWrite_setSr data) _).goesOn _).trans (k := 79) ?_
  exact (byte.goesOn _).trans (k := 1) ((Runs.line (plainWrite_setDirOut false) v).goesOn _)

theorem firstSample_goesOn (cw : Byte) (t : State) : GoesOn (firstSample cw) 2 t sampleSda (t.loading cw) :=
  loading_goesOn cw t sampleSda

/-- Nobody moves. -/
theorem firstSample_runs (cw : Byte) (w : Driven d sda t) :
    ∃ u, Runs (firstSample cw) 6 t (!(d.drivesSda || sda)) u := by
  have sample := sampleSda_runs (w.loading cw).bb (w.loading cw).envScl
  rw [(w.loading cw).drv, (w.loading cw).envSda] at sample
  exact ⟨_, (firstSample_goesOn cw t).runs sample⟩

end

theorem firstSample_takesMoves (cw : Byte) : TakesMoves (firstSample cw) := TakesMoves.bind (TakesMoves.line _)

/-- The environment stretches the clock for any time, then lets it go. -/
theorem waitSclHigh_stretched {s : State} (k : Nat) (rest : List Move) (low : s.sclLine = false)
    (high : (s.apply (.envScl false)).sclLine = true) :
    waitSclHigh (s.withInputs (turns k ++ .envScl false :: (turns 1 ++ rest))) =
      .ok () ((s.apply (.envScl false)).withInputs rest) := by
  have ignores : IgnoresInputs State.sclLine := fun _ _ => rfl
  induction k with
  | zero =>
    show waitSclHigh (s.withInputs (.envScl false :: (turns 1 ++ rest))) = _
    rw [waitSclHigh, TakesMoves.holdUntil ignores s (.envScl false) _ (by simp) (by simp [fires])]
    exact (Runs.waitSclHigh high).turns rest
  | succ k ih =>
    rw [turns_succ, ← ih]
    generalize turns k ++ _ = l
    show holdOn State.sclLine (.seq :: l) (s.withInputs _) = holdOn State.sclLine l (s.withInputs _)
    rw [holdOn_withInputs ignores (.seq :: l), holdOn_withInputs ignores l l, holdOn]
    simp [low]

/-- The sample of a bit whose clock the environment stretches while it holds SDA as it is. -/
theorem sampleSda_stretched {s : State} (hb : s.cfg.backend = .bb) (held : s.bus.envSclLow = true) (k : Nat)
    (rest : List Move) :
    sampleSda (s.withInputs (turns (2 + k) ++ .envScl false :: (turns 2 ++ rest))) =
      .ok (!(s.drv.drivesSda || s.bus.envSdaLow)) ((s.releaseScl.apply (.envScl false)).withInputs rest) := by
  have low : s.releaseScl.sclLine = false := by rw [releaseScl_sclLine hb, held]; rfl
  have high : (s.releaseScl.apply (.envScl false)).sclLine = true := by
    simp [State.apply, State.envSclMove, State.sclLine, State.coreSclLow, hb]
  have sda : (s.releaseScl.apply (.envScl false)).sdaLine = !(s.drv.drivesSda || s.bus.envSdaLow) := by
    simp [State.apply, State.envSclMove, State.sdaLine, State.coreSdaLow, Driver.drivesSda, hb]
  have read := Runs.readLine (f := State.sdaLine) (s.releaseScl.apply (.envScl false)) fun _ => rfl
  rw [sda] at read
  have script : turns (2 + k) ++ Move.envScl false :: (turns 2 ++ rest) =
      turns 1 ++ (turns 1 ++ (turns k ++ .envScl false :: (turns 1 ++ (turns 1 ++ rest)))) := by
    rw [turns_add, List.append_assoc]
    rfl
  rw [script, sampleSda, (Runs.tick s).then, (Runs.line plainWrite_releaseScl s).then, op_bind,
    waitSclHigh_stretched k _ low high]
  exact read.turns rest

/-- The sample of a transfer before which the environment moves SDA and holds SCL, to let it go in the first bit. -/
theorem firstSample_stretched (cw : Byte) {d : Driver} {sda : Bool} {t : State} (w : Driven d sda t) (low : Bool)
    (k : Nat) (rest : List Move) :
    ∃ u, firstSample cw (t.withInputs (.envSda low :: .envScl true ::
        (turns (4 + k) ++ .envScl false :: (turns 2 ++ rest)))) = .ok (!(d.drivesSda || low)) u := by
  let held := (t.apply (.envSda low)).apply (.envScl true)
  have backend : held.cfg.backend = .bb := by simpa [held, State.apply, State.envSdaMove, State.envSclMove] using w.bb
  have drv : (held.loading cw).drv = d.loading cw := by
    simp [held, State.apply, State.envSdaMove, State.envSclMove, w.drv]
  have scl : held.bus.envSclLow = true := by simp [held, State.apply, State.envSclMove]
  have sda : held.bus.envSdaLow = low := by simp [held, State.apply, State.envSdaMove, State.envSclMove]
  have sample := sampleSda_stretched (s := held.loading cw) backend scl k rest
  rw [show (held.loading cw).bus.envSdaLow = low from sda, drv] at sample
  have script : turns (4 + k) ++ Move.envScl false :: (turns 2 ++ rest) =
      turns 2 ++ (turns (2 + k) ++ .envScl false :: (turns 2 ++ rest)) := by
    rw [turns_add, turns_add, List.append_assoc, List.append_assoc]
    rfl
  have runs : firstSample cw (t.withInputs (.envSda low :: .envScl true ::
      (turns (4 + k) ++ .envScl false :: (turns 2 ++ rest)))) =
        sampleSda ((held.loading cw).withInputs (turns (2 + k) ++ .envScl false :: (turns 2 ++ rest))) := by
    rw [firstSample_takesMoves cw t _ _ (by simp) (by simp [fires]),
      firstSample_takesMoves cw _ _ _ (by simp) (by simp [fires]), script, (firstSample_goesOn cw held).turns]
  exact ⟨_, runs.trans sample⟩

/-- Settles O19: the first transfer leaves SDA an input, and each schedule fixes the sample of the second. -/
theorem bbPutbyteReturnsTheAcknowledge : Obligations.BbPutbyteReturnsTheAcknowledge := by
  unfold Obligations.BbPutbyteReturnsTheAcknowledge
  intro data s ready silent responsive
  have hb : s.running.cfg.backend = .bb := ready.1
  obtain ⟨code, u, runs, binary, w⟩ := (putByteBody_ends data hb).completes silent fun _ => responsive
  obtain ⟨t, ends, responded, ran⟩ := bbCommand_answers ready.accepted silent runs w
  refine ⟨code, t, ends, binary, responded, ran, ?_, ?_, ?_⟩
  · intro alone
    obtain ⟨v, head, w1⟩ := putByteBody_goesOn data (Driven.start hb (free_of_alone alone responsive))
    obtain ⟨x, sampled⟩ := firstSample_runs cw1Bit w1
    have value := head.alone
    rw [withInputs_self (s := s.running) alone, runs] at value
    rw [acknowledge_of_sample sampled.alone value.symm]
    cases s.bus.envSdaLow <;> rfl
  · intro low rest free script
    obtain ⟨v, head, w1⟩ := putByteBody_goesOn data (Driven.start hb free)
    obtain ⟨x, sampled⟩ := firstSample_runs cw1Bit (w1.slave low)
    have value := head.turns (.envSda low :: (turns 11 ++ rest))
    rw [withInputs_self (s := s.running) script, runs] at value
    have moved := firstSample_takesMoves cw1Bit v (.envSda low) (turns 11 ++ rest) (by simp) (by simp [fires])
    rw [show turns 11 ++ rest = turns 6 ++ (turns 5 ++ rest) from rfl, sampled.turns] at moved
    rw [acknowledge_of_sample moved value.symm]
    cases low <;> rfl
  · intro low k rest free script
    obtain ⟨v, head, w1⟩ := putByteBody_goesOn data (Driven.start hb free)
    obtain ⟨x, sampled⟩ := firstSample_stretched cw1Bit w1 low k rest
    have value := head.turns (.envSda low :: .envScl true :: (turns (4 + k) ++ .envScl false :: (turns 2 ++ rest)))
    rw [withInputs_self (s := s.running) script, runs] at value
    rw [acknowledge_of_sample sampled value.symm]
    cases low <;> rfl

end Sys2Proof.Machine

/-! ## The bit-bang driver on the lines (40_bus_driver.md rules R138 to R144, R150, R151) -/

namespace Sys2Proof.Machine

/-- A bit-bang command whose body comes to its end with no move left: the response is written, and the bus stays as the
body left it. -/
theorem bbCommand_runs {body : Op Byte} {s u : State} {code : Byte} (ready : DriverReady s)
    (runs : body s.running = .ok code (u.withInputs [])) (hb : u.cfg.backend = .bb) :
    ∃ t, runOp (bbCommand true true body) s = .next t ∧ t.port.respCode = code ∧ t.bus = u.bus ∧
      t.busTrace = (parseLines u.bus.ltrace).events := by
  have last := (Runs.line (f := State.respond code false none) (fun _ _ => rfl) u).alone
  refine ⟨(u.respond code false none).withInputs [], ?_, rfl, rfl, busTrace_bb hb⟩
  rw [runOp, bbCommand_accepted (s := s.running) ready.accepted, op_bind, runs]
  exact congrArg outcomeOf last

theorem releaseScl_appends (s : State) (hb : s.cfg.backend = .bb) :
    s.releaseScl.bus.ltrace = s.bus.ltrace ++
      if s.releaseScl.sclLine = s.sclLine ∧ s.releaseScl.sdaLine = s.sdaLine then []
      else [.pair s.releaseScl.sclLine s.releaseScl.sdaLine] := moveLines_appends s hb rfl rfl

theorem setSdaForce_appends (b : Bool) (s : State) (hb : s.cfg.backend = .bb) :
    (s.setSdaForce b).bus.ltrace = s.bus.ltrace ++
      if (s.setSdaForce b).sclLine = s.sclLine ∧ (s.setSdaForce b).sdaLine = s.sdaLine then []
      else [.pair (s.setSdaForce b).sclLine (s.setSdaForce b).sdaLine] := moveLines_appends s hb rfl rfl

/-- What `start()` leaves (rule R138). -/
def State.started (s : State) : State := ((s.releaseScl.setSdaForce true).pullScl).setSdaForce false

/-- What `stop()` leaves (rule R139). -/
def State.stopped (s : State) : State := ((s.setSdaForce true).releaseScl).setSdaForce false

section
variable {s : State} (hb : s.cfg.backend = .bb) (free : s.bus.envSclLow = false)
include hb free

theorem startBody_runs : Runs startBody 7 s () s.started := by
  have rise : s.releaseScl.sclLine = true := by rw [releaseScl_sclLine hb, free]; rfl
  refine Runs.peek fun _ => (Runs.line plainWrite_releaseScl s).bind (k := 6) ?_
  refine (Runs.waitSclHigh rise).bind (k := 5) ((Runs.delay _ _).bind (k := 4) ?_)
  refine (Runs.line (plainWrite_setSdaForce true) _).bind (k := 3) ((Runs.delay _ _).bind (k := 2) ?_)
  refine (Runs.line plainWrite_pullScl _).bind (k := 1) ?_
  exact Runs.line (plainWrite_setSdaForce false) _

theorem stopBody_runs : Runs stopBody 6 s () s.stopped := by
  have rise : (s.setSdaForce true).releaseScl.sclLine = true := by
    rw [releaseScl_sclLine (by simpa using hb), setSdaForce_envSclLow, free]; rfl
  refine Runs.peek fun _ => (Runs.line (plainWrite_setSdaForce true) s).bind (k := 5) ?_
  refine (Runs.line plainWrite_releaseScl _).bind (k := 4) ((Runs.waitSclHigh rise).bind (k := 3) ?_)
  refine (Runs.delay _ _).bind (k := 2) ((Runs.line (plainWrite_setSdaForce false) _).bind (k := 1) ?_)
  exact Runs.delay _ _

end

section
variable {s : State} {low : Bool} (hb : s.cfg.backend = .bb) (released : SlavesReleased s) (rest : DriverAtRest low s)
include hb released rest

/-- At rest SDA is high, and SCL follows the driver (rule R147). -/
theorem rest_linePair : s.linePair = .pair (!low) true := by
  obtain ⟨sr, latch, force, dirOut, sclLow⟩ := rest
  obtain ⟨scl, sda⟩ := released
  simp [State.linePair, State.sclLine, State.sdaLine, State.coreSclLow, State.coreSdaLow, hb, latch, force, sclLow, scl,
    sda]

/-- START from rest, after SCL has risen if it was held (rule R138). -/
theorem started_ltrace :
    s.started.bus.ltrace = s.bus.ltrace ++ (if low then [.pair true true] else []) ++
      [.pair true false, .pair false false, .pair false true] := by
  obtain ⟨sr, latch, force, dirOut, sclLow⟩ := rest
  obtain ⟨scl, sda⟩ := released
  have ones : (0xFF#8 : Byte).msb = true := rfl
  rw [State.started, setSdaForce_appends _ _ (by simpa using hb), pullScl_appends _ (by simpa using hb),
    setSdaForce_appends _ _ (by simpa using hb), releaseScl_appends _ hb]
  cases low <;>
    simp [State.sclLine, State.sdaLine, State.coreSclLow, State.coreSdaLow, hb, sr, latch, force, dirOut, sclLow, scl,
      sda, ones]

/-- STOP from rest, after SDA has fallen under a held SCL (rule R139). -/
theorem stopped_ltrace :
    s.stopped.bus.ltrace = s.bus.ltrace ++ (if low then [.pair false false] else []) ++
      [.pair true false, .pair true true] := by
  obtain ⟨sr, latch, force, dirOut, sclLow⟩ := rest
  obtain ⟨scl, sda⟩ := released
  rw [State.stopped, setSdaForce_appends _ _ (by simpa using hb), releaseScl_appends _ (by simpa using hb),
    setSdaForce_appends _ _ hb]
  cases low <;>
    simp [State.sclLine, State.sdaLine, State.coreSclLow, State.coreSdaLow, hb, latch, force, dirOut, sclLow, scl, sda]

end

/-! ### The parse of a START and of a STOP (rule R150) -/

section
variable (l : List LineEntry)

/-- SDA falls under a high SCL. -/
theorem parseLines_start (high : (parseLines l).prev = .pair true true) :
    parseLines (l ++ [.pair true false]) =
      { prev := .pair true false, owned := true, bits := []
        events := (parseLines l).events ++ [if (parseLines l).owned then .rstart else .start] } := by
  rw [parseLines_append]
  generalize parseLines l = p at high ⊢
  cases p
  subst high
  simp [ParseState.entry]

/-- SCL falls, or SDA moves while it is low: no event. -/
theorem parseLines_low (sda' : Bool) {scl sda : Bool} (prev : (parseLines l).prev = .pair scl sda) :
    parseLines (l ++ [.pair false sda']) = { parseLines l with prev := .pair false sda' } := by
  rw [parseLines_append, entry_low _ _ _ _ prev]

/-- SCL rises on an owned bus with no byte in progress: a first bit, and no event. -/
theorem parseLines_rise (sda' : Bool) {sda : Bool} (held : (parseLines l).prev = .pair false sda)
    (owned : (parseLines l).owned = true) (bits : (parseLines l).bits = []) :
    parseLines (l ++ [.pair true sda']) =
      { prev := .pair true sda', owned := true, bits := [sda'], events := (parseLines l).events } := by
  rw [parseLines_append, entry_rise _ _ _ held]
  simp [ParseState.pushBit, owned, bits]

/-- SDA rises under a high SCL. -/
theorem parseLines_stop (low : (parseLines l).prev = .pair true false) :
    parseLines (l ++ [.pair true true]) =
      { prev := .pair true true, owned := false, bits := [], events := (parseLines l).events ++ [.stop] } := by
  rw [parseLines_append]
  generalize parseLines l = p at low ⊢
  cases p
  subst low
  simp [ParseState.entry]

end

/-- START on the lines: SDA falls under a high SCL, SCL falls, SDA rises. -/
theorem parseLines_started (l : List LineEntry) (high : (parseLines l).prev = .pair true true) :
    parseLines (l ++ [.pair true false, .pair false false, .pair false true]) =
      { prev := .pair false true, owned := true, bits := []
        events := (parseLines l).events ++ [if (parseLines l).owned then .rstart else .start] } := by
  have start := parseLines_start l high
  have fall := parseLines_low _ false (congrArg ParseState.prev start)
  rw [List.append_cons, List.append_cons (l ++ _), parseLines_low _ true (congrArg ParseState.prev fall), fall, start]

/-- Settles O22: the entries of START, and their parse from the lines at rest. -/
theorem startOnTheLines : Obligations.StartOnTheLines := by
  unfold Obligations.StartOnTheLines
  intro s ready alone released traced
  have hb : s.cfg.backend = .bb := ready.1
  have runs := thenZero (startBody_runs (s := s.running) hb released.1).alone
  rw [withInputs_self (s := s.running) alone] at runs
  obtain ⟨t, ends, -, bus, trace⟩ := bbCommand_runs ready runs (by simpa [State.started] using hb)
  rw [← bus] at trace
  refine ⟨fun rest => ⟨t, ends, ?_⟩, fun rest => ⟨t, ends, ?_⟩⟩
  · have prev := (traced hb).trans (rest_linePair hb released rest)
    have ltrace := started_ltrace (s := s.running) hb released rest
    simp only [← bus, if_neg Bool.false_ne_true, List.append_nil] at ltrace
    rw [trace, BusOwned, ltrace, parseLines_started _ prev, busTrace_bb hb]
    exact ⟨rfl, rfl, rfl, rfl⟩
  · have prev := (traced hb).trans (rest_linePair hb released rest)
    have ltrace := started_ltrace (s := s.running) hb released rest
    simp only [← bus, if_true] at ltrace
    refine ⟨by simpa using ltrace, fun ⟨owned, bits⟩ => ?_⟩
    have rise := parseLines_rise s.bus.ltrace true prev owned bits
    rw [trace, BusOwned, ltrace, parseLines_started _ (congrArg ParseState.prev rise), rise, busTrace_bb hb]
    exact ⟨rfl, rfl, rfl⟩

/-- Settles O23: the entries of STOP, and their parse from the lines at rest. -/
theorem stopOnTheLines : Obligations.StopOnTheLines := by
  unfold Obligations.StopOnTheLines
  intro s ready alone released traced
  have hb : s.cfg.backend = .bb := ready.1
  have runs := thenZero (stopBody_runs (s := s.running) hb released.1).alone
  rw [withInputs_self (s := s.running) alone] at runs
  obtain ⟨t, ends, -, bus, trace⟩ := bbCommand_runs ready runs (by simpa [State.stopped] using hb)
  rw [← bus] at trace
  refine ⟨fun rest ⟨owned, bits⟩ => ⟨t, ends, ?_⟩, fun rest free => ⟨t, ends, ?_⟩⟩
  · have prev := (traced hb).trans (rest_linePair hb released rest)
    have ltrace := stopped_ltrace (s := s.running) hb released rest
    simp only [← bus, if_true] at ltrace
    have low := parseLines_low s.bus.ltrace false prev
    have rise := parseLines_rise (s.bus.ltrace ++ [.pair false false]) false (congrArg ParseState.prev low)
      (by rw [low, owned]) (by rw [low, bits])
    refine ⟨by simpa using ltrace, ?_⟩
    rw [trace, ltrace, List.append_cons, parseLines_stop _ (congrArg ParseState.prev rise), rise, low, busTrace_bb hb]
  · have prev := (traced hb).trans (rest_linePair hb released rest)
    have ltrace := stopped_ltrace (s := s.running) hb released rest
    simp only [← bus, if_neg Bool.false_ne_true, List.append_nil] at ltrace
    have start := parseLines_start s.bus.ltrace prev
    refine ⟨ltrace, ?_⟩
    rw [trace, ltrace, List.append_cons, parseLines_stop _ (congrArg ParseState.prev start), start, free,
      busTrace_bb hb]
    exact List.append_assoc ..

/-- A body that moves one byte on an owned bus is traced as that byte, and leaves the bus owned. -/
theorem byteCommand_traced {body : Op Byte} {s u : State} {code v : Byte} {nack : Bool} {d : Driver} {last : LineEntry}
    (ready : DriverReady s) (owned : BusOwned s) (runs : body s.running = .ok code (u.withInputs []))
    (w : Wave s.running d false (s.parsed.clocks (bitsOf v ++ [nack]) last) u) :
    ∃ t, runOp (bbCommand true true body) s = .next t ∧ t.port.respCode = code ∧
      t.busTrace = s.busTrace ++ [.byte v nack] ∧ BusOwned t ∧ SlavesReleased t := by
  obtain ⟨t, ends, respCode, bus, trace⟩ := bbCommand_runs ready runs w.backend
  have parsed : parseLines u.bus.ltrace = _ := w.parsed.trans (clocks_byte owned.1 owned.2 v nack last)
  rw [parsed] at trace
  refine ⟨t, ends, respCode, by rw [trace, busTrace_bb ready.1], ?_, ?_⟩
  · rw [BusOwned, bus, parsed]
    exact ⟨rfl, rfl⟩
  · rw [SlavesReleased, bus]
    exact ⟨w.envScl, w.envSda⟩

/-- Settles O24: the waveform of a byte sent with the slave's acknowledge (`putByte_slaveAck`). -/
theorem putbyteOnTheLines : Obligations.PutbyteOnTheLines := by
  unfold Obligations.PutbyteOnTheLines
  intro v low s ready ⟨scl, sda⟩ traced owned ⟨_, _, force, _⟩ script
  have start : Wave s.running s.drv false s.parsed s.running := sda ▸ Wave.start ready.1 scl traced
  obtain ⟨u, runs, w⟩ := putByte_slaveAck v low start force
  rw [withInputs_self (s := s.running) script] at runs
  exact byteCommand_traced ready owned runs w

/-- Settles O25: the waveform of a byte received and its acknowledge (`getByte_slave`). -/
theorem getbyteOnTheLines : Obligations.GetbyteOnTheLines := by
  unfold Obligations.GetbyteOnTheLines
  intro v last s ready ⟨scl, sda⟩ traced owned ⟨_, _, force, _, held⟩ script
  have start : Wave s.running s.drv false s.parsed s.running := sda ▸ Wave.start ready.1 scl traced
  obtain ⟨u, runs, w⟩ := getByte_slave last v start held force
  rw [withInputs_self (s := s.running) script] at runs
  exact byteCommand_traced ready owned runs w

end Sys2Proof.Machine

/-! ## The status encoder and the byte engine's step (41_engine_status.md rules R170 to R188) -/

namespace Sys2Proof.Machine

/-- A STOP has one row, whatever the known phase (rule R185). -/
theorem encoderTable_stop (c : Codes) {p : Phase} (known : p ≠ .unknown) :
    encoderTable c p .stop = some (c.noInfo, .idle) := by
  cases p with
  | unknown => exact absurd rfl known
  | _ => rfl

/-- The first byte after a START, by its direction bit (rule R182). -/
theorem encoderTable_address (c : Codes) (v : Byte) (nack : Bool) :
    encoderTable c .started (.tx v nack) =
      if v.getLsbD 0 then some (if nack then c.mrSlaNack else c.mrSlaAck, .mr)
      else some (if nack then c.mtSlaNack else c.mtSlaAck, .mt) := by
  simp only [encoderTable, addressCode, addressPhase]
  cases v.getLsbD 0 <;> cases nack <;> rfl

/-- Settles O26: each row is one of `encoderTable`. -/
theorem statusEncoderTable : Obligations.StatusEncoderTable := by
  unfold Obligations.StatusEncoderTable
  intro s v nack c p _ writes
  have row {e : BusEvent} {code : Byte} {next : Phase} (h : encoderTable c p e = some (code, next)) :
      writes e code next := encodeStatus_of_table s h
  refine ⟨fun h => row ?_, fun h => row ?_, fun h bit => row ?_, fun h bit => row ?_, fun h => row ?_, fun h => row ?_,
    fun h => row ?_, fun h => row (encoderTable_stop c h), fun h => row ?_, fun h e => ?_⟩
  · rw [h]; rfl
  · rcases h with h | h | h <;> rw [h] <;> rfl
  · rw [h, encoderTable_address, bit]; rfl
  · rw [h, encoderTable_address, bit]; rfl
  · rcases h with h | h <;> rw [h] <;> rfl
  · rcases h with h | h | h <;> rw [h] <;> rfl
  · rcases h with h | h | h <;> rw [h] <;> rfl
  · rw [h]; rfl
  · have noRow : encoderTable c p e = none := by rw [h]; rfl
    exact ⟨_, _, by rw [State.encodeStatus, noRow]⟩

/-- Where the engine does not act its move changes nothing. -/
theorem apply_engine_idle {s : State} (d : EngineDraw) (h : s.engineActs = false) : s.apply (.engine d) = s := by
  simp [State.apply, State.engineMove, h]

theorem apply_engine_acts {s : State} (d : EngineDraw) (h : s.engineActs = true) :
    s.apply (.engine d) = s.engineAct d := by
  simp [State.apply, State.engineMove, h]

/-- Outside a transaction a transmit or receive command has no step (rule R175). -/
theorem engineEnabled_noTransaction {s : State} (hs : s.eng.pendStop = false) (hp : s.eng.phase = .idle)
    (hc : s.eng.ecmd ≠ some .start) : s.engineEnabled = false := by
  simp [State.engineEnabled, hs, hp, hc]

/-- Settles O28: in the first four cases the step is not enabled, in the last the STOP is held. -/
theorem engineHasNoStep : Obligations.EngineHasNoStep := by
  unfold Obligations.EngineHasNoStep
  intro s d h
  refine apply_engine_idle d ?_
  rcases h with bb | unconfigured | ⟨known, stop, free | ⟨idle, cmd⟩⟩ | ⟨known, stop, busy, issued⟩
  · exact engineActs_disabled (engineEnabled_bb bb)
  · exact engineActs_disabled (engineEnabled_unconfigured unconfigured)
  · exact engineActs_disabled (engineEnabled_free free stop known)
  · exact engineActs_disabled (engineEnabled_noTransaction stop idle cmd)
  · simp [State.engineActs, State.stopHeld, known, stop, busy, issued]

section
variable {s : State} (hb : s.cfg.backend = .hw) (hc : s.ses.clkdiv ≠ 0#8)
include hb hc

/-- A pending STOP that is not held is enabled (rule R174). -/
theorem engineActs_stop (stop : s.eng.pendStop = true) (h : s.port.busy = false ∨ s.port.stopIssued = false) :
    s.engineActs = true := by
  rcases h with h | h <;> simp [State.engineActs, State.engineEnabled, State.stopHeld, hb, hc, stop, h]

/-- So is a START, and within a transaction any command. -/
theorem engineActs_command {cmd : EngineCmd} (stop : s.eng.pendStop = false) (flight : s.eng.ecmd = some cmd)
    (h : cmd = .start ∨ s.eng.phase ≠ .idle) : s.engineActs = true := by
  rcases h with h | h <;> simp [State.engineActs, State.engineEnabled, State.stopHeld, hb, hc, stop, flight, h]

end

section
variable {s : State} (d : EngineDraw) (known : s.eng.phase ≠ .unknown)
include known

/-- `PerformStop` and its row of the encoder's table, which is the same for every known phase (rules R179, R185). -/
theorem engineAct_stop (stop : s.eng.pendStop = true) :
    s.engineAct d =
      { s with bus.trace := s.bus.trace ++ [.stop], eng.pendStop := false, eng.phase := .idle,
               eng.code := codeFieldOf s.cfg.codes.noInfo } := by
  simp only [State.engineAct, known, stop, if_true, if_false, State.performStop]
  rw [encodeStatus_of_table (s.emit .stop) (encoderTable_stop _ known)]
  rfl

/-- With no STOP pending the command in flight is performed (rule R174). -/
theorem engineAct_command {cmd : EngineCmd} (stop : s.eng.pendStop = false) (flight : s.eng.ecmd = some cmd) :
    s.engineAct d =
      match cmd with
      | .start => s.performStart
      | .tx => s.performTx d.tx
      | .rxAck => s.performRx false d.rx
      | .rxNack => s.performRx true d.rx := by
  cases cmd <;> simp [State.engineAct, known, stop, flight]

end

/-- Settles O27: which part of the step is enabled, and what it performs. -/
theorem engineStepPerforms : Obligations.EngineStepPerforms := by
  unfold Obligations.EngineStepPerforms
  intro s d hb hc known
  refine ⟨fun stop unheld => ?_, fun noStop => ?_⟩
  · rw [apply_engine_acts d (engineActs_stop hb hc stop unheld), engineAct_stop d known stop]
    rfl
  · intro done
    have performs {cmd : EngineCmd} (flight : s.eng.ecmd = some cmd) (h : cmd = .start ∨ s.eng.phase ≠ .idle) :=
      (apply_engine_acts d (engineActs_command hb hc noStop flight h)).trans (engineAct_command d known noStop flight)
    refine ⟨fun flight => performs flight (.inl rfl), fun inside flight draw => ?_, fun inside flight draw => ?_,
      fun inside flight draw => ?_, fun inside flight => performs flight (.inr inside),
      fun inside flight => performs flight (.inr inside)⟩
    all_goals
      have sent := performs flight (.inr inside)
      rw [draw] at sent
      exact sent

end Sys2Proof.Machine

/-! ## Everything a step can do to the session and the engine (10_state.md rules R36, R56; 41_engine_status.md rules
R173, R187) -/

namespace Sys2Proof.Machine

/-- What a step leaves of the session's registers and the engine's, the guard's reset apart. Where the session is
unconfigured after it, it was before, and the engine took no step. -/
structure SessionStep (s t : State) : Prop where
  cfg : t.cfg = s.cfg
  unknown : s.eng.phase = .unknown → t.eng.phase = .unknown
  wait : s.ses.waitcnt ≤ s.cfg.waitBudget → t.ses.waitcnt ≤ s.cfg.waitBudget
  unconfigured : t.ses.clkdiv = 0#8 → s.ses.clkdiv = 0#8 ∧ t.eng = s.eng

/-- The same of a whole operation, after which the sequencer is idle. -/
structure OperationEnd (s t : State) : Prop extends SessionStep s t where
  idle : t.port.busy = false

section
variable {s t u : State}

theorem SessionStep.refl (s : State) : SessionStep s s := ⟨rfl, id, id, fun z => ⟨z, rfl⟩⟩

theorem SessionStep.trans (h : SessionStep s u) (k : SessionStep u t) : SessionStep s t where
  cfg := k.cfg.trans h.cfg
  unknown p := k.unknown (h.unknown p)
  wait w := by
    have := k.wait (by rw [h.cfg]; exact h.wait w)
    rwa [h.cfg] at this
  unconfigured z :=
    have ⟨zu, same⟩ := k.unconfigured z
    have ⟨zs, same'⟩ := h.unconfigured zu
    ⟨zs, same.trans same'⟩

theorem Moved.sessionStep (m : Moved s t) : SessionStep s t where
  cfg := m.cfg
  unknown := m.phaseUnknown.mpr
  wait w := by rw [m.ses]; exact w
  unconfigured z :=
    have zs : s.ses.clkdiv = 0#8 := m.ses ▸ z
    ⟨zs, (m.engOfUnconfigured zs).1⟩

/-- The driver's work writes none of it. -/
theorem Wrote.sessionStep {d : Driver} (w : Wrote s d t) : SessionStep s t := { w.toMoved.sessionStep with }

/-- A part of an operation, then its response. -/
theorem SessionStep.answered {code : Byte} {notcfg : Bool} {refusal : Option RefuseReason}
    (h : SessionStep s u) (a : Answered u code notcfg refusal t) : OperationEnd s t := by
  obtain ⟨v, b, rfl⟩ := a
  exact { h.trans b.toMoved.sessionStep with idle := rfl }

theorem SessionDone.operationEnd (h : SessionDone s t) : OperationEnd s t where
  cfg := h.cfg
  unknown := h.unknown
  wait := h.wait
  unconfigured z :=
    have zs : s.ses.clkdiv = 0#8 := h.clkdiv ▸ z
    have ⟨_, _, same⟩ := h.unconfigured zs
    ⟨zs, same.1⟩
  idle := h.busy

theorem Received.operationEnd {f : Framer} (h : Received s f t) : OperationEnd s t where
  cfg := h.kept.1
  unknown := h.unknown
  wait := h.wait
  unconfigured z :=
    have zs : s.ses.clkdiv = 0#8 := h.kept.2.1 ▸ z
    have ⟨_, _, same⟩ := h.unconfigured zs
    ⟨zs, same.1⟩
  idle := h.busy

/-- An operation that goes on came to its end, or the guard's reset cut it off (60_exceptions.md rule R276). -/
theorem runOp_next_cases {body : Op Unit} {Q : State → Prop} (k : Ends body s.running fun _ t => Q t)
    (hst : runOp body s = .next t) : Q t ∨ WasReset s t := by
  rcases runOp_ends k with ⟨u, e, ends⟩ | ⟨u, e, cut⟩ | ⟨u, e, -⟩ <;> rw [e] at hst
  · cases hst
    exact .inl ends
  · cases hst
    obtain ⟨-, -, v, cfg, armed, -, -, reset⟩ := cut
    exact .inr ⟨v, armed, cfg, reset⟩
  · cases hst

theorem bbCommand_operationEnd {needsConfig legal : Bool} {body : Op Byte}
    (k : s.cfg.backend = .bb → legal = true → Ends body s fun _ u => ∃ d, Wrote s d u) :
    Ends (bbCommand needsConfig legal body) s fun _ t => OperationEnd s t := by
  have ran (hb : s.cfg.backend = .bb) (hl : legal = true) : Ends body s fun _ u => Later s u ∧ SessionStep s u :=
    (k hb hl).mono fun _ _ ⟨_, w⟩ => ⟨w.later, w.sessionStep⟩
  refine (bbCommand_ends ran).mono ?_
  rintro _ t (⟨_, -, answered⟩ | ⟨-, _, u, body, answered⟩)
  · exact (SessionStep.refl s).answered answered
  · exact body.answered answered

/-- The session commands other than `SES_CONFIGURE`. -/
theorem sesCommand_operationEnd {body : Op Byte}
    (k : ∀ u, Ends body u fun c t => SessionRan u t ∧ (u.ses.clkdiv = 0#8 → c = 0#8 ∧ t = u)) :
    Ends (sesCommand body) s.running fun _ t => OperationEnd s t :=
  (sesCommand_done (Q := fun _ => True) fun u => (k u).mono fun _ _ q => ⟨q.1, q.2, trivial⟩).mono
    fun _ _ ⟨done, _⟩ => done.operationEnd

/-- `SES_CONFIGURE` writes `CLKDIV` where it was 0 (42_session.md rule R211). -/
theorem configureSession_sessionStep (div bits : Byte) (s : State) :
    Ends (configureSession div bits) s fun _ t => SessionStep s t := by
  unfold configureSession
  refine Ends.thenPeek ?_
  split
  · exact Ends.pure (.refl s)
  · rename_i configured
    have z : s.ses.clkdiv = 0#8 := by simpa using configured
    have divWrite (t : State) (zt : t.ses.clkdiv = 0#8) : SessionStep t { t with ses.clkdiv := div } :=
      ⟨rfl, id, id, fun _ => ⟨zt, rfl⟩⟩
    refine Ends.bind (Ends.line fun t b => ⟨b.later.trans (later_of_registers rfl rfl rfl rfl), ?_⟩)
    have first := b.toMoved.sessionStep.trans (divWrite t (by rw [b.ses, z]))
    refine Ends.bind (Ends.line fun u c => ⟨c.later.trans (later_of_registers rfl rfl rfl rfl), ?_⟩)
    have both : SessionStep s { u with ses.opt := u.ses.opt ||| bits.extractLsb' 0 2 } :=
      { first.trans c.toMoved.sessionStep with }
    split
    · exact Ends.bind ((configureBody_ends _).mono fun _ v w => ⟨w.later, Ends.pure (both.trans w.sessionStep)⟩)
    · exact Ends.pure both

end

/-! ### A received byte (43_framer.md rules R240 to R244) -/

section
variable {s t : State} (b : Byte)

theorem execRxAddr_next_cases (hst : execRxAddr b s = .next t) : (∃ f, Received s f t) ∨ WasReset s t := by
  refine runOp_next_cases (Q := fun t => ∃ f, Received s f t) ?_ hst
  refine Ends.thenFramer (fun f => { f with remaining := 0 }) (ReceivedDone.refl s.running) fun _ r1 => ?_
  refine Ends.thenSession r1 (startSession_ran b .write _) fun st _ r2 _ => ?_
  refine Ends.thenFramer (fun f => { f with lastSt := st }) r2 fun _ r3 => ?_
  exact Ends.thenFramer (fun f => { f with cursor := .lenHi }) r3 fun _ r4 => r4.finish

theorem execRxLenHi_next_cases (hst : execRxLenHi b s = .next t) : (∃ f, Received s f t) ∨ WasReset s t := by
  refine runOp_next_cases (Q := fun t => ∃ f, Received s f t) ?_ hst
  refine Ends.thenFramer (fun f => { f with remaining := lengthHigh b }) (ReceivedDone.refl s.running) fun _ r1 => ?_
  exact Ends.thenFramer (fun f => { f with cursor := .lenLo }) r1 fun _ r2 => r2.finish

theorem execRxLenLo_next_cases (hst : execRxLenLo b s = .next t) : (∃ f, Received s f t) ∨ WasReset s t := by
  refine runOp_next_cases (Q := fun t => ∃ f, Received s f t) ?_ hst
  refine Ends.thenFramer (fun f => { f with remaining := lengthJoin f.remaining b }) (ReceivedDone.refl s.running)
    fun _ r1 => ?_
  refine Ends.thenFramer (fun f => { f with wdArmed := true }) r1 fun _ r2 => Ends.thenPeek ?_
  split
  · exact closeFrame_finish r2
  · exact Ends.thenFramer (fun f => { f with cursor := .fwd }) r2 fun _ r3 => r3.finish

theorem execRxPayload_next_cases (hst : execRxPayload b s = .next t) : (∃ f, Received s f t) ∨ WasReset s t := by
  refine runOp_next_cases (Q := fun t => ∃ f, Received s f t) ?_ hst
  refine Ends.thenSession (ReceivedDone.refl s.running) (writeSession_ran b _) fun st _ r1 _ => ?_
  refine Ends.thenFramer (fun f => { f with lastSt := st }) r1 fun _ r2 => ?_
  refine Ends.thenFramer (fun f => { f with wdArmed := true }) r2 fun _ r3 => ?_
  refine Ends.thenFramer (fun f => { f with remaining := f.remaining - 1 }) r3 fun _ r4 => Ends.thenPeek ?_
  split
  · exact closeFrame_finish r4
  · exact r4.finish

end

/-! ### The step -/

section
variable {s t : State}

/-- Everything an operation that goes on can do to them. `BUSY` is read by none of it. -/
theorem exec_next_cases (i : Instr) (hst : exec i s = .next t) : OperationEnd s t ∨ WasReset s t := by
  have run {body : Op Unit} (k : Ends body s.running fun _ t => OperationEnd s.running t)
      (e : runOp body s = .next t) : OperationEnd s t ∨ WasReset s t :=
    runOp_next_cases (k.mono fun _ _ h => { h with }) e
  cases i with
  | bbConfigure =>
    exact run (bbCommand_operationEnd fun _ _ =>
      Ends.bind ((configureBody_ends _).mono fun _ _ w => ⟨w.later, Ends.pure ⟨_, w⟩⟩)) hst
  | bbStart =>
    exact run (bbCommand_operationEnd fun hb _ =>
      Ends.bind ((startBody_ends hb).mono fun _ _ w => ⟨w.later, Ends.pure ⟨_, w⟩⟩)) hst
  | bbStop =>
    exact run (bbCommand_operationEnd fun hb _ =>
      Ends.bind ((stopBody_ends hb).mono fun _ _ w => ⟨w.later, Ends.pure ⟨_, w⟩⟩)) hst
  | bbPutbyte data =>
    exact run (bbCommand_operationEnd fun hb _ => (putByteBody_ends data hb).mono fun _ _ w => ⟨_, w.2⟩) hst
  | bbGetbyte last =>
    exact run (bbCommand_operationEnd fun hb _ => (getByteBody_ends last hb).mono fun _ _ w => ⟨_, w.2⟩) hst
  | bbTransfer cw =>
    exact run (bbCommand_operationEnd fun hb hc => (transfer_ends hb hc).mono fun _ _ w => ⟨_, w.2⟩) hst
  | sesConfigure div bits =>
    refine run (Ends.bind (((Proceeds.configureSession div bits _).and
      (configureSession_sessionStep div bits s.running)).mono fun _ _ ⟨later, body⟩ => ⟨later, ?_⟩)) hst
    exact (respond_ends _ _ _).mono fun _ _ answered => body.answered answered
  | sesStart mode address => exact runOp_next_cases (sesCommand_operationEnd (startSession_ran address mode)) hst
  | sesWrite data => exact runOp_next_cases (sesCommand_operationEnd (writeSession_ran data)) hst
  | sesReadAck => exact runOp_next_cases (sesCommand_operationEnd (readSession_ran .rxAck)) hst
  | sesReadNack => exact runOp_next_cases (sesCommand_operationEnd (readSession_ran .rxNack)) hst
  | sesStop =>
    exact runOp_next_cases (sesCommand_operationEnd fun u => (stopSession_ran u).mono fun _ _ ⟨zero, ran, same⟩ =>
      ⟨ran, fun z => ⟨zero, same z⟩⟩) hst
  | rxAddr b => exact (execRxAddr_next_cases b hst).imp_left fun ⟨_, r⟩ => r.operationEnd
  | rxLenHi b => exact (execRxLenHi_next_cases b hst).imp_left fun ⟨_, r⟩ => r.operationEnd
  | rxLenLo b => exact (execRxLenLo_next_cases b hst).imp_left fun ⟨_, r⟩ => r.operationEnd
  | rxPayload b => exact (execRxPayload_next_cases b hst).imp_left fun ⟨_, r⟩ => r.operationEnd

/-- A move of another agent is the guard's reset or what `Moved` says. -/
theorem apply_moved_or_reset (m : Move) (s : State) : Moved s (s.apply m) ∨ WasReset s (s.apply m) := by
  by_cases hf : fires m s = true
  · simp only [fires, Bool.and_eq_true, decide_eq_true_eq] at hf
    rw [hf.1, show s.apply .guard = s.coreReset from if_pos hf.2]
    exact .inr ⟨s, hf.2, rfl, rfl⟩
  · exact .inl (apply_moved (by simpa using hf))

/-- A step that goes on: the guard's reset, or what every move and operation leaves, an idle sequencer among it. -/
theorem step_sessionStep (hst : step s = .next t) :
    (SessionStep s t ∧ (s.port.busy = false → t.port.busy = false)) ∨ WasReset s t := by
  obtain ⟨l, ⟨m, rfl⟩ | turn⟩ := step_next_cases hst
  · obtain moved | reset := apply_moved_or_reset m { s with inputs := l }
    · exact .inl ⟨{ moved.sessionStep with }, moved.busy.trans⟩
    · exact .inr reset
  · have ended {u : State} (h : OperationEnd u t ∨ WasReset u t) :
        (SessionStep u t ∧ (s.port.busy = false → t.port.busy = false)) ∨ WasReset u t :=
      h.imp_left fun e => ⟨e.toSessionStep, fun _ => e.idle⟩
    rcases sequencerTurn_next_cases turn with rfl | ⟨i, p, e⟩ | ⟨r, p, e⟩
    · exact .inl ⟨{ SessionStep.refl s with }, id⟩
    · exact (ended (exec_next_cases i e)).imp_left fun ⟨h, idle⟩ => ⟨{ h with }, idle⟩
    · have refused := runOp_next_cases ((refuse_ends r _).mono fun _ _ a => (SessionStep.refl _).answered a) e
      exact (ended refused).imp_left fun ⟨h, idle⟩ => ⟨{ h with }, idle⟩

/-- Settles O29: neither a move nor an operation leaves `UNKNOWN` (`SessionStep.unknown`). -/
theorem unknownPhaseLastsUntilReset : Obligations.UnknownPhaseLastsUntilReset := by
  unfold Obligations.UnknownPhaseLastsUntilReset
  intro s t unknown hst
  exact (step_sessionStep hst).imp_left fun ⟨h, _⟩ => h.unknown unknown

theorem WasReset.sessionInv (h : WasReset s t) : SessionInv t := by
  obtain ⟨u, -, -, e⟩ := h
  rw [e]
  simp [SessionInv, State.powerOn]

/-- Settles O52: a reset meets the invariants, everything else keeps them. -/
theorem stepKeepsTheSessionInvariants : Obligations.StepKeepsTheSessionInvariants := by
  unfold Obligations.StepKeepsTheSessionInvariants
  rintro s t ⟨engine, wait, idle⟩ hst
  obtain ⟨h, busy⟩ | reset := step_sessionStep hst
  · refine ⟨fun z => ?_, by rw [h.cfg]; exact h.wait wait, busy idle⟩
    obtain ⟨zs, same⟩ := h.unconfigured z
    rw [same]
    exact engine zs
  · exact reset.sessionInv

end

end Sys2Proof.Machine

/-! ## Issuing a command, and the bounded wait on an engine that takes no step (41_engine_status.md rules R171, R190,
R193) -/

namespace Sys2Proof.Machine

/-- `PHASE` once `EngineIssue` has seen whether a command is in flight (rule R171). -/
def Engine.phaseIssued (e : Engine) : Phase := if e.ecmd = none then e.phase else .unknown

theorem noteInFlight_eq (s : State) : s.noteInFlight = { s with eng.phase := s.eng.phaseIssued } := by
  obtain ⟨cfg, drv, ses, ⟨code, data, int, ecmd, pendStop, phase, freeIdx⟩, frm, bus, port, inputs, seen⟩ := s
  cases ecmd <;> rfl

/-- The engine's registers once `EngineIssue(cmd)` has run. -/
def Engine.issued (cmd : EngineCmd) (e : Engine) : Engine :=
  { e with phase := e.phaseIssued, int := false, ecmd := some cmd }

/-- What `Timeout()` leaves in `ECMD` of the command that timed out: one that had no step is dropped (rule R193). -/
def Engine.leftInFlight (e : Engine) (cmd : EngineCmd) : Option EngineCmd :=
  if e.phase = .idle ∧ cmd ≠ .start then none else some cmd

theorem timeOut_eq {s : State} {cmd : EngineCmd} (h : s.eng.ecmd = some cmd) :
    s.timeOut = { s with eng.ecmd := s.eng.leftInFlight cmd } := by
  obtain ⟨cfg, drv, ses, ⟨code, data, int, ecmd, pendStop, phase, freeIdx⟩, frm, bus, port, inputs, seen⟩ := s
  subst h
  cases cmd <;> cases phase <;> rfl

/-- The engine's registers once `EngineDo(cmd)` has timed out. -/
def Engine.timedOut (cmd : EngineCmd) (e : Engine) : Engine :=
  { e.issued cmd with ecmd := (e.issued cmd).leftInFlight cmd }

/-- On an engine that takes no step: the engine's registers are now `e` and the poll counter is `n`, written by the
sequencer; nothing else of the core changed. -/
structure Unserved (s : State) (e : Engine) (n : Nat) (t : State) : Prop where
  later : Later s t
  drv : t.drv = s.drv
  frm : t.frm = s.frm
  ses : t.ses = { s.ses with waitcnt := n }
  eng : t.eng = e
  trace : t.bus.trace = s.bus.trace
  silent : EngineSilent t

section
variable {s u t : State} {e e' : Engine} {n m : Nat}

theorem Unserved.refl (h : EngineSilent s) : Unserved s s.eng s.ses.waitcnt s :=
  ⟨Later.refl s, rfl, rfl, rfl, rfl, rfl, h⟩

theorem Unserved.trans (h : Unserved s e n u) (k : Unserved u e' m t) : Unserved s e' m t :=
  ⟨h.later.trans k.later, k.drv.trans h.drv, k.frm.trans h.frm, by rw [k.ses, h.ses], k.eng, k.trace.trans h.trace,
    k.silent⟩

/-- From where the engine and the counter now stand. -/
theorem Unserved.now (h : Unserved s e n u) : Unserved u e n u :=
  ⟨Later.refl u, rfl, rfl, by rw [h.ses], h.eng, rfl, h.silent⟩

/-- The other agents move. -/
theorem Unserved.between (h : Unserved s e n u) (b : Between u t) : Unserved s e n t where
  later := h.later.trans b.later
  drv := b.drv.trans h.drv
  frm := b.frm.trans h.frm
  ses := b.ses.trans h.ses
  eng := (b.silent h.silent).1.trans h.eng
  trace := (b.silent h.silent).2.trans h.trace
  silent := b.engineSilent h.silent

/-- A write of the engine's registers. -/
theorem Unserved.engine (h : Unserved s e n u) (e' : Engine) : Unserved s e' n { u with eng := e' } :=
  { h with later := h.later.trans (later_of_registers rfl rfl rfl rfl), eng := rfl }

/-- A write of the poll counter. -/
theorem Unserved.counter (h : Unserved s e n u) (m : Nat) : Unserved s e m { u with ses.waitcnt := m } :=
  { h with later := h.later.trans (later_of_registers rfl rfl rfl rfl), ses := by rw [h.ses] }

section
variable {α β : Type} {Q : α → State → Prop}

/-- A part of an operation, then the rest. -/
theorem Ends.thenUnserved {x : Op β} {P : β → Prop} {k : β → Op α} (h : Unserved s e n u)
    (hx : Ends x u fun a t => P a ∧ Unserved u e' m t) (r : ∀ a t, P a → Unserved s e' m t → Ends (k a) t Q) :
    Ends (x >>= k) u Q :=
  Ends.bind (hx.mono fun a t ⟨p, w⟩ => ⟨w.later, r a t p (h.trans w)⟩)

/-- A line that writes the engine's registers, then the rest. -/
theorem Ends.thenEngine {f : State → State} (e' : Engine) {k : Unit → Op α} (h : Unserved s e n u)
    (hf : ∀ t, t.eng = e → f t = { t with eng := e' }) (r : ∀ t, Unserved s e' n t → Ends (k ()) t Q) :
    Ends (Machine.line f >>= k) u Q :=
  Ends.bind (Ends.line fun t b => by
    have w := h.between b
    rw [hf t w.eng]
    exact ⟨b.later.trans (later_of_registers rfl rfl rfl rfl), r _ (w.engine e')⟩)

end

/-- `EngineIssue` with no step of the engine (rule R171). -/
theorem engineIssue_unserved (cmd : EngineCmd) (h : Unserved s e n s) :
    Ends (engineIssue cmd) s fun _ t => Unserved s (e.issued cmd) n t := by
  unfold engineIssue
  refine Ends.thenEngine { e with phase := e.phaseIssued } h (fun t ht => by rw [noteInFlight_eq, ht]) fun _ w1 => ?_
  refine Ends.thenEngine { e with phase := e.phaseIssued, int := false } w1 (fun t ht => by rw [ht]) fun _ w2 => ?_
  refine Ends.line fun t b => ?_
  have w := w2.between b
  rw [w.eng]
  exact w.engine _

/-- `EngineIssue(E_STOP)` with no step of the engine: `INT` and `ECMD` are untouched (rule R171). -/
theorem engineIssueStop_unserved (h : Unserved s e n s) :
    Ends engineIssueStop s fun _ t => Unserved s { e with phase := e.phaseIssued, pendStop := true } n t := by
  unfold engineIssueStop
  refine Ends.thenEngine { e with phase := e.phaseIssued } h (fun t ht => by rw [noteInFlight_eq, ht]) fun _ w1 => ?_
  refine Ends.line fun t b => ?_
  have w := w1.between b
  rw [w.eng]
  exact { w with later := w.later.trans (stopIssued_later true _), eng := rfl }

/-- Settles O30: both are lines alone, so that with the guard silent nothing stops them. -/
theorem issuingACommand : Obligations.IssuingACommand := by
  unfold Obligations.IssuingACommand
  intro cmd s silent still phase
  have start := Unserved.refl still
  obtain ⟨_, t, runs, w⟩ := (engineIssue_unserved cmd start).completesWaitless
    (.bind (.line _) fun _ => .bind (.line _) fun _ => .line _) silent
  obtain ⟨_, t', runs', w'⟩ := (engineIssueStop_unserved start).completesWaitless
    (.bind (.line _) fun _ => .line _) silent
  exact ⟨⟨t, runs, ⟨w.later.cfg, w.drv, w.ses, w.frm⟩, w.eng⟩,
    t', runs', ⟨w'.later.cfg, w'.drv, w'.ses, w'.frm⟩, w'.eng⟩

/-- Polls of an engine that takes no step count up to the budget (rule R190). -/
theorem pollInt_unserved (k : Nat) (h : Unserved s e n u) (int : e.int = false) (below : n ≤ s.cfg.waitBudget)
    (enough : s.cfg.waitBudget - n < k) : Ends (pollInt k) u fun _ t => Unserved s e s.cfg.waitBudget t := by
  induction k generalizing u n with
  | zero => omega
  | succ k ih =>
    unfold pollInt
    refine Ends.bind (Ends.readLine fun t b => ⟨b.later, ?_⟩)
    have w := h.between b
    have counter : t.ses.waitcnt = n := by rw [w.ses]
    have budget : t.cfg.waitBudget = s.cfg.waitBudget := by rw [w.later.cfg]
    simp only [id, w.eng, int, true_and, counter, budget]
    split
    · refine Ends.bind (Ends.modify ⟨later_of_registers rfl rfl rfl rfl, ?_⟩)
      exact ih (counter ▸ w.counter (n + 1)) (by omega) (by omega)
    · have spent : n = s.cfg.waitBudget := by omega
      exact Ends.pure (spent ▸ w)

/-- The bounded wait of an engine that takes no step times out (rules R190, R193). -/
theorem engineDoHw_unserved (cmd : EngineCmd) (h : Unserved s e n s) :
    Ends (engineDoHw cmd) s fun a t =>
      a = s.cfg.codes.timeout ∧ Unserved s (e.timedOut cmd) s.cfg.waitBudget t := by
  unfold engineDoHw
  refine Ends.thenUnserved (P := fun _ => True) h ((engineIssue_unserved cmd h).mono fun _ _ w => ⟨trivial, w⟩)
    fun _ t1 _ w1 => ?_
  refine Ends.bind (Ends.line fun t2 b2 => ⟨b2.later.trans (later_of_registers rfl rfl rfl rfl), Ends.thenPeek ?_⟩)
  have w2 := (w1.between b2).counter 0
  have cfg := w2.later.cfg
  refine Ends.thenUnserved (P := fun _ => True) w2 ((pollInt_unserved _ w2.now rfl (Nat.zero_le _) (by omega)).mono
    fun _ _ w => ⟨trivial, w⟩) fun _ t3 _ w3 => ?_
  rw [cfg] at w3
  refine Ends.bind (Ends.readLine fun t4 b4 => ⟨b4.later, ?_⟩)
  have w4 := w3.between b4
  have int : t4.eng.int = false := by rw [w4.eng]; rfl
  simp only [id, int, Bool.false_eq_true, if_false]
  refine Ends.thenEngine (e.timedOut cmd) w4 (fun t ht => ?_) fun t5 w5 => Ends.pure ⟨by rw [cfg], w5⟩
  rw [timeOut_eq (cmd := cmd) (by rw [ht]; rfl), ht]
  rfl

/-! ### The session's commands -/

theorem engineDo_hw (cmd : EngineCmd) (hb : s.cfg.backend = .hw) : engineDo cmd s = engineDoHw cmd s := by
  rw [engineDo, peek_then, hb]

/-- A session command that acts on the bus answers what its body does (30_encoding.md rules R97, R120). -/
theorem sesCommand_answers {body : Op Byte} {code : Byte} (ready : SessionReady s) (runs : body s.running = .ok code u)
    (passes : tick u = .ok () t) : runOp (sesCommand body) s = .next (t.respond code false none) := by
  obtain ⟨cursor, configured⟩ := ready
  rw [runOp, sesCommand, peek_then]
  simp only [cursor, configured, ne_eq, not_true_eq_false, if_false, op_bind, runs, respond, line, passes, decide_false]
  rfl

theorem responded_run (code : Byte) (t : State) : Responded code 0#2 (t.respond code false none) :=
  ⟨rfl, respFlagsOf_run, rfl, rfl, rfl⟩

end

/-- `SC_TIMEOUT` is none of the codes of a bus phase (30_encoding.md rule R111). -/
theorem phaseCode_ne_timeout {c : Codes} (h : c.wf) {x : Byte} (hx : x ∈ c.phaseCodes) : x ≠ c.timeout :=
  fun e => h.2.2 (e ▸ hx)

theorem startOk_timeout {c : Codes} (h : c.wf) : startOk c c.timeout = false := by
  have first := phaseCode_ne_timeout h (x := c.start) (by simp [Codes.phaseCodes])
  have repeated := phaseCode_ne_timeout h (x := c.repStart) (by simp [Codes.phaseCodes])
  simp [startOk, first.symm, repeated.symm]

theorem dataOk_timeout {c : Codes} (h : c.wf) : dataOk c c.timeout = false := by
  have sent := phaseCode_ne_timeout h (x := c.mtDataAck) (by simp [Codes.phaseCodes])
  have read := phaseCode_ne_timeout h (x := c.mrDataAck) (by simp [Codes.phaseCodes])
  simp [dataOk, sent.symm, read.symm]

section
variable {s : State} (hb : s.cfg.backend = .hw)
include hb

theorem engineDo_unserved {u : State} {e : Engine} {n : Nat} (cmd : EngineCmd) (h : Unserved s e n u) :
    Ends (engineDo cmd) u fun a t =>
      a = s.cfg.codes.timeout ∧ Unserved u (e.timedOut cmd) s.cfg.waitBudget t := by
  have wait := engineDoHw_unserved cmd h.now
  rw [h.later.cfg] at wait
  unfold Ends
  rw [engineDo_hw cmd (by rw [h.later.cfg, hb])]
  exact wait

variable (configured : s.ses.clkdiv ≠ 0#8) (still : EngineSilent s)
include configured still

theorem writeSession_unserved (data : Byte) (wf : s.cfg.codes.wf) :
    Ends (writeSession data) s fun a t => a = s.cfg.codes.timeout ∧
      Unserved s (Engine.timedOut .tx { s.eng with data := data }) s.cfg.waitBudget t := by
  unfold writeSession
  refine Ends.thenPeek ?_
  rw [if_neg configured]
  refine Ends.thenEngine { s.eng with data := data } (Unserved.refl still) (fun t ht => by rw [ht]) fun t1 w1 => ?_
  refine Ends.thenUnserved w1 (engineDo_unserved hb .tx w1) fun a t code w => Ends.pure ⟨?_, w⟩
  rw [code, dataOk_timeout wf, if_neg Bool.false_ne_true]

/-- A START that times out is not followed by the address byte (42_session.md rule R212). -/
theorem startSession_unserved (address : Byte) (mode : Mode) (wf : s.cfg.codes.wf) :
    Ends (startSession address mode) s fun a t => a = s.cfg.codes.timeout ∧
      Unserved s (s.eng.timedOut .start) s.cfg.waitBudget t := by
  unfold startSession
  refine Ends.thenPeek ?_
  rw [if_neg configured]
  have start := Unserved.refl still
  refine Ends.thenUnserved start (engineDo_unserved hb .start start) fun a t code w => ?_
  rw [code, startOk_timeout wf, if_neg Bool.false_ne_true]
  exact Ends.pure ⟨rfl, w⟩

/-- A read that times out answers the old `DATA` (rules R216, R217). -/
theorem readSession_unserved (cmd : EngineCmd) :
    Ends (readSession cmd) s fun a t => a = s.eng.data ∧ Unserved s (s.eng.timedOut cmd) s.cfg.waitBudget t := by
  unfold readSession
  refine Ends.thenPeek ?_
  rw [if_neg configured]
  have start := Unserved.refl still
  refine Ends.thenUnserved start (engineDo_unserved hb cmd start) fun a t code w => Ends.readLine fun v b => ?_
  have w' := w.between b
  exact ⟨by rw [w'.eng]; rfl, w'⟩

end

/-- How a session command ends whose wait timed out, `data` in `DATA`. -/
abbrev TimesOut (s : State) (cmd : EngineCmd) (code data : Byte) (t : State) : Prop :=
  Responded code 0#2 t ∧ t.ses = { s.ses with waitcnt := s.cfg.waitBudget } ∧ t.bus.trace = s.bus.trace ∧
    t.frm = s.frm ∧ t.drv = s.drv ∧
    t.eng = { s.eng with
      data := data, int := false, ecmd := if s.eng.phase = .idle ∧ cmd ≠ .start then none else some cmd }

theorem timedOut_free {e : Engine} (cmd : EngineCmd) (free : e.ecmd = none) :
    e.timedOut cmd =
      { e with int := false, ecmd := if e.phase = .idle ∧ cmd ≠ .start then none else some cmd } := by
  simp [Engine.timedOut, Engine.issued, Engine.phaseIssued, Engine.leftInFlight, free]

theorem sesCommand_timesOut {s : State} {body : Op Byte} {cmd : EngineCmd} {code data : Byte} (ready : SessionReady s)
    (hb : s.cfg.backend = .hw) (silent : GuardSilent s) (free : s.eng.ecmd = none)
    (h : Ends body s.running fun a t =>
      a = code ∧ Unserved s.running (Engine.timedOut cmd { s.eng with data := data }) s.cfg.waitBudget t) :
    ∃ t, runOp (sesCommand body) s = .next t ∧ TimesOut s cmd code data t := by
  obtain ⟨_, u, runs, rfl, w⟩ := h.completes silent fun bb => absurd (hb.symm.trans bb) (by decide)
  obtain ⟨v, passes, b⟩ := tick_passes fun fired => silent (w.later.suffix.subset fired)
  have k := w.between b
  refine ⟨_, sesCommand_answers ready runs passes, responded_run _ v, k.ses, k.trace, k.frm, k.drv, ?_⟩
  exact k.eng.trans (timedOut_free cmd free)

/-- Settles O31: each body times out with the engine's registers as issued (`Unserved`), then responds. -/
theorem silentEngineTimesOut : Obligations.SilentEngineTimesOut := by
  unfold Obligations.SilentEngineTimesOut
  intro data address mode s hb ready silent still wf free _ after
  have configured : s.running.ses.clkdiv ≠ 0#8 := ready.2
  have run {body : Op Byte} {cmd : EngineCmd} {code data : Byte} :=
    sesCommand_timesOut (body := body) (cmd := cmd) (code := code) (data := data) ready hb silent free
  exact ⟨run (writeSession_unserved (s := s.running) hb configured still data wf),
    run (startSession_unserved (s := s.running) hb configured still address mode wf),
    run (readSession_unserved (s := s.running) hb configured still .rxAck),
    run (readSession_unserved (s := s.running) hb configured still .rxNack)⟩

end Sys2Proof.Machine

/-! ## The bounded wait on a responsive engine (41_engine_status.md rules R172, R190) -/

namespace Sys2Proof.Machine

/-! ### What every move keeps -/

/-- What every move to come that is not the guard's reset keeps, a hold that goes on keeps. -/
theorem holdOn_keeps {P : State → Prop} {C : State → Bool} {l : List Move} {s t : State}
    (move : ∀ m ∈ l, ∀ s, fires m s = false → P s → P (s.apply m)) (inputs : ∀ s l, P s → P { s with inputs := l })
    (h : P s) (e : holdOn C l s = .ok () t) : P t := by
  induction l generalizing s with
  | nil =>
    simp only [holdOn] at e
    split at e
    · cases e
      exact inputs s [] h
    · cases e
  | cons m rest ih =>
    have later : ∀ m ∈ rest, ∀ s, fires m s = false → P s → P (s.apply m) :=
      fun m hm => move m (List.mem_cons_of_mem _ hm)
    simp only [holdOn] at e
    split at e
    · split at e
      · cases e
        exact inputs s rest h
      · exact ih later h e
    · split at e
      · cases e
      · exact ih later (move m (List.mem_cons_self ..) s (by simpa using ‹¬ fires m s = true›) h) e

/-- A property that every move but the guard's reset keeps. -/
structure MovesKeep (P : State → Prop) : Prop where
  inputs : ∀ s l, P s → P { s with inputs := l }
  apply : ∀ s m, fires m s = false → P s → P (s.apply m)

section
variable {P : State → Prop} (k : MovesKeep P) {s : State}
include k

theorem MovesKeep.tick (h : P s) : Ends Machine.tick s fun _ t => Between s t ∧ P t := by
  have between : Ends Machine.tick s fun _ t => Between s t := Ends.tick fun _ b => b
  unfold Ends at *
  cases hx : Machine.tick s with
  | ok a t =>
    rw [hx] at between
    exact ⟨between, holdOn_keeps (fun m _ s => k.apply s m) k.inputs h hx⟩
  | error e t =>
    rw [hx] at between
    exact between

/-- A line that writes. -/
theorem Ends.lineKept {f : State → State} {Q : Unit → State → Prop} (h : P s)
    (w : ∀ t, Between s t → P t → Q () (f t)) : Ends (Machine.line f) s Q :=
  Ends.bind ((k.tick h).mono fun _ t ⟨b, p⟩ => ⟨b.later, Ends.modify (w t b p)⟩)

/-- A line that writes, then the rest. -/
theorem Ends.thenKept {β : Type} {f : State → State} {r : Unit → Op β} {Q : β → State → Prop} (h : P s)
    (w : ∀ t, Between s t → P t → Later t (f t) ∧ Ends (r ()) (f t) Q) : Ends (Machine.line f >>= r) s Q :=
  Ends.bind (Ends.lineKept k h fun t b p => ⟨b.later.trans (w t b p).1, (w t b p).2⟩)

end

theorem line_passes {s t : State} (passes : tick s = .ok () t) (f : State → State) : line f s = .ok () (f t) := by
  rw [line, op_bind, passes]
  rfl

theorem readLine_passes {α : Type} {s t : State} (passes : tick s = .ok () t) (f : State → α) :
    readLine f s = .ok (f t) t := by
  rw [readLine, op_bind, passes]
  rfl

/-! ### The command performed and its outcome encoded -/

theorem addressCode_phaseCode (c : Codes) (v : Byte) (nack : Bool) : addressCode c v nack ∈ c.phaseCodes := by
  unfold addressCode
  split <;> simp [Codes.phaseCodes]

/-- Inside a transaction a byte sent or lost and a byte read have a row, whose code is one of the phase codes
(30_encoding.md rule R110). -/
theorem encoderTable_byte (c : Codes) {p : Phase} {b : BusEvent} (known : p ≠ .unknown) (inside : p ≠ .idle)
    (byte : (∃ v nack, b = .tx v nack) ∨ b = .txLost ∨ ∃ nack, b = .rx nack) :
    ∃ x ∈ c.phaseCodes, ∃ q, encoderTable c p b = some (x, q) := by
  cases p with
  | unknown => exact absurd rfl known
  | idle => exact absurd rfl inside
  | started =>
    obtain ⟨v, nack, rfl⟩ | rfl | ⟨nack, rfl⟩ := byte
    · exact ⟨_, addressCode_phaseCode c v nack, _, rfl⟩
    · exact ⟨_, by simp [Codes.phaseCodes], _, rfl⟩
    · exact ⟨_, by cases nack <;> simp [Codes.phaseCodes], _, rfl⟩
  | mt | mr =>
    obtain ⟨_, nack, rfl⟩ | rfl | ⟨nack, rfl⟩ := byte
    · exact ⟨_, by cases nack <;> simp [Codes.phaseCodes], _, rfl⟩
    · exact ⟨_, by simp [Codes.phaseCodes], _, rfl⟩
    · exact ⟨_, by cases nack <;> simp [Codes.phaseCodes], _, rfl⟩

/-- A START has a row in every known phase, which leads to `STARTED` (rule R181). -/
theorem encoderTable_start (c : Codes) {p : Phase} (known : p ≠ .unknown) :
    ∃ x ∈ c.phaseCodes, encoderTable c p .start = some (x, .started) := by
  cases p with
  | unknown => exact absurd rfl known
  | idle | started | mt | mr => exact ⟨_, by simp [Codes.phaseCodes], rfl⟩

/-- What the engine's registers report of a performed command: a code of a bus phase, and of a START its phase. -/
def Engine.Reports (c : Codes) (cmd : EngineCmd) (e : Engine) : Prop :=
  (∃ x ∈ c.phaseCodes, e.code = codeFieldOf x) ∧ (cmd = .start → e.phase = .started)

section
variable {s : State} {cmd : EngineCmd}

theorem encodeStatus_reports_start (known : s.eng.phase ≠ .unknown) :
    (s.encodeStatus .start).eng.Reports s.cfg.codes .start := by
  obtain ⟨x, code, row⟩ := encoderTable_start s.cfg.codes known
  rw [encodeStatus_of_table s row]
  exact ⟨⟨x, code, rfl⟩, fun _ => rfl⟩

theorem encodeStatus_reports_byte {b : BusEvent} (known : s.eng.phase ≠ .unknown) (inside : s.eng.phase ≠ .idle)
    (byte : (∃ v nack, b = .tx v nack) ∨ b = .txLost ∨ ∃ nack, b = .rx nack) (other : cmd ≠ .start) :
    (s.encodeStatus b).eng.Reports s.cfg.codes cmd := by
  obtain ⟨x, code, q, row⟩ := encoderTable_byte s.cfg.codes known inside byte
  rw [encodeStatus_of_table s row]
  exact ⟨⟨x, code, rfl⟩, fun start => absurd start other⟩

theorem performTx_reports (o : TxOutcome) (known : s.eng.phase ≠ .unknown) (inside : s.eng.phase ≠ .idle) :
    (s.performTx o).eng.Reports s.cfg.codes .tx := by
  cases o with
  | ack => exact encodeStatus_reports_byte (s := s.emit _) known inside (.inl ⟨_, _, rfl⟩) nofun
  | nack => exact encodeStatus_reports_byte (s := s.emit _) known inside (.inl ⟨_, _, rfl⟩) nofun
  | lost => exact encodeStatus_reports_byte (s := s.releaseEngine.emit _) known inside (.inr (.inl rfl)) nofun

theorem performRx_reports (m : Bool) (v : Byte) (known : s.eng.phase ≠ .unknown) (inside : s.eng.phase ≠ .idle)
    (other : cmd ≠ .start) : (s.performRx m v).eng.Reports s.cfg.codes cmd :=
  encodeStatus_reports_byte (s := ({ s with eng.data := v } : State).emit (.byte v m)) (b := .rx m) known inside
    (.inr (.inr ⟨m, rfl⟩)) other

/-- The step that performs the command in flight reports it (rules R176 to R178). -/
theorem engineAct_reports (d : EngineDraw) (known : s.eng.phase ≠ .unknown) (stop : s.eng.pendStop = false)
    (flight : s.eng.ecmd = some cmd) (h : cmd = .start ∨ s.eng.phase ≠ .idle) :
    (s.engineAct d).eng.Reports s.cfg.codes cmd := by
  rw [engineAct_command d known stop flight]
  cases cmd with
  | start => exact encodeStatus_reports_start (s := s.emit _) known
  | tx => exact performTx_reports d.tx known (h.resolve_left nofun)
  | rxAck => exact performRx_reports false d.rx known (h.resolve_left nofun) nofun
  | rxNack => exact performRx_reports true d.rx known (h.resolve_left nofun) nofun

/-! ### From the issue of a command to its completion -/

/-- The engine can be given the command: nothing is in flight, and only before a START a STOP may be pending. -/
structure Issuable (cmd : EngineCmd) (s : State) : Prop where
  backend : s.cfg.backend = .hw
  configured : s.ses.clkdiv ≠ 0#8
  unissued : s.port.stopIssued = false
  ecmd : s.eng.ecmd = none
  phase : s.eng.phase ≠ .unknown
  enabled : cmd = .start ∨ (s.eng.pendStop = false ∧ s.eng.phase ≠ .idle)

/-- The command issued is in flight, or performed and reported. -/
structure Serving (cmd : EngineCmd) (s : State) : Prop where
  unissued : s.port.stopIssued = false
  stage : (Waiting s ∧ s.eng.ecmd = some cmd) ∨ (Performed s ∧ s.eng.Reports s.cfg.codes cmd)

theorem Issuable.congr {t : State} (h : Issuable cmd s) (hc : t.cfg = s.cfg) (hd : t.ses.clkdiv = s.ses.clkdiv)
    (hi : t.port.stopIssued = s.port.stopIssued) (he : t.eng.ecmd = s.eng.ecmd) (hp : t.eng.phase = s.eng.phase)
    (hs : t.eng.pendStop = s.eng.pendStop) : Issuable cmd t :=
  ⟨hc ▸ h.backend, hd ▸ h.configured, hi ▸ h.unissued, he ▸ h.ecmd, hp ▸ h.phase, hp ▸ hs ▸ h.enabled⟩

/-- Before the command is issued the engine can perform a pending STOP, and nothing else; `INT` is untouched. -/
theorem issuable_movesKeep (cmd : EngineCmd) (int : Bool) :
    MovesKeep fun s => Issuable cmd s ∧ s.eng.int = int where
  inputs _ _ h := ⟨{ h.1 with }, h.2⟩
  apply s m hf h := by
    obtain ⟨h, hint⟩ := h
    have moved := apply_moved hf
    have still (e : (s.apply m).eng = s.eng) : Issuable cmd (s.apply m) ∧ (s.apply m).eng.int = int :=
      ⟨h.congr moved.cfg (by rw [moved.ses]) moved.issued (by rw [e]) (by rw [e]) (by rw [e]), by rw [e, hint]⟩
    cases stop : s.eng.pendStop with
    | false => exact still (moved.engOfDisabled (engineEnabled_free h.ecmd stop h.phase)).1
    | true =>
      cases m with
      | engine d =>
        have acts := engineActs_stop h.backend h.configured stop (.inr h.unissued)
        rw [apply_engine_acts d acts, engineAct_stop d h.phase stop]
        exact ⟨⟨h.backend, h.configured, h.unissued, h.ecmd, by simp, .inl (h.enabled.resolve_right (by simp [stop]))⟩,
          hint⟩
      | _ => exact still (apply_eng hf rfl).1

/-- While the command is served, every move keeps it in flight or performs it; performed, nothing is left to do. -/
theorem serving_movesKeep (cmd : EngineCmd) : MovesKeep (Serving cmd) where
  inputs _ _ h := ⟨h.unissued, h.stage.imp (fun w => ⟨{ w.1 with }, w.2⟩) fun p => ⟨{ p.1 with }, p.2⟩⟩
  apply s m hf h := by
    have moved := apply_moved hf
    refine ⟨moved.issued.trans h.unissued, ?_⟩
    obtain ⟨waiting, flight⟩ | ⟨performed, reports⟩ := h.stage
    · have still (e : (s.apply m).eng = s.eng) : Waiting (s.apply m) ∧ (s.apply m).eng.ecmd = some cmd :=
        ⟨waiting.of_eq moved.cfg (by rw [moved.ses]) e moved.issued, by rw [e, flight]⟩
      cases m with
      | engine d =>
        rw [apply_engine_acts d waiting.engineActs]
        cases stop : s.eng.pendStop with
        | true => exact .inl ⟨(waiting.stop stop d).1, by rw [engineAct_stop d waiting.phase stop]; exact flight⟩
        | false =>
          have enabled : cmd = .start ∨ s.eng.phase ≠ .idle := by
            have := waiting.enabled
            simp only [State.commandEnabled, flight, stop] at this
            simpa using (Bool.and_eq_true_iff.mp this).2
          refine .inr ⟨waiting.perform stop d, ?_⟩
          have cfg : (s.engineAct d).cfg = s.cfg := (engineAct_moved d waiting.engineActs).cfg
          rw [cfg]
          exact engineAct_reports d waiting.phase stop flight enabled
      | _ => exact .inl (still (apply_eng hf rfl).1)
    · have e := (moved.engOfDisabled performed.disabled).1
      exact .inr ⟨performed.of_eng e, by rw [e, moved.cfg]; exact reports⟩

theorem noteInFlight_free {t : State} (free : t.eng.ecmd = none) : t.noteInFlight = t := by
  simp [State.noteInFlight, free]

/-- `EngineIssue(cmd)`, and the poll counter cleared: where `doAnswered` takes its count (rule R190). -/
def issueAndClear (cmd : EngineCmd) : Op Unit := do
  engineIssue cmd
  line fun s => { s with ses.waitcnt := 0 }

theorem engineIssue_serving (h : Issuable cmd s) : Ends (engineIssue cmd) s fun _ t => Serving cmd t := by
  unfold engineIssue
  have keeps := issuable_movesKeep cmd
  refine Ends.thenKept (keeps s.eng.int) ⟨h, rfl⟩ fun t b ⟨k, int⟩ => ?_
  rw [noteInFlight_free k.ecmd]
  refine ⟨Later.refl t, Ends.thenKept (keeps s.eng.int) ⟨k, int⟩ fun u c ⟨l, _⟩ =>
    ⟨later_of_registers rfl rfl rfl rfl, ?_⟩⟩
  have cleared : Issuable cmd { u with eng.int := false } := l.congr rfl rfl rfl rfl rfl rfl
  refine Ends.lineKept (keeps false) ⟨cleared, rfl⟩ fun v _ ⟨m, int⟩ => ⟨m.unissued, .inl ⟨?_, rfl⟩⟩
  refine ⟨m.backend, m.phase, int, ?_, m.unissued⟩
  simpa [State.commandEnabled, m.configured, and_comm] using m.enabled

/-- What the sequencer writes while it waits leaves the command served. -/
theorem Serving.counter (h : Serving cmd s) (n : Nat) : Serving cmd { s with ses.waitcnt := n } :=
  ⟨h.unissued, h.stage.imp (fun w => ⟨w.1.of_eq rfl rfl rfl rfl, w.2⟩) fun p => ⟨p.1.of_eng rfl, p.2⟩⟩

theorem issueAndClear_serving (h : Issuable cmd s) :
    Ends (issueAndClear cmd) s fun _ t => SessionRan s t ∧ Serving cmd t ∧ t.ses.waitcnt = 0 := by
  unfold issueAndClear
  refine Ends.bind (((engineIssue_ran cmd h.backend).and (engineIssue_serving h)).mono fun _ t ⟨ran, serving⟩ =>
    ⟨ran.later, Ends.lineKept (serving_movesKeep cmd) serving fun u b kept => ?_⟩)
  have hb : u.cfg.backend = .hw := by rw [b.cfg, ran.later.cfg, h.backend]
  exact ⟨(ran.trans b.ran).trans (waitcnt_write_ran hb 0 (Nat.zero_le _)), kept.counter 0, rfl⟩

theorem pollInt_serving (n : Nat) (h : Serving cmd s) : Ends (pollInt n) s fun _ t => Serving cmd t := by
  induction n generalizing s with
  | zero => exact Ends.pure h
  | succ n ih =>
    unfold pollInt
    refine Ends.bind (Ends.bind (((serving_movesKeep cmd).tick h).mono fun _ t ⟨b, kept⟩ => ⟨b.later, ?_⟩))
    refine Ends.thenPeek (Ends.pure ⟨b.later, ?_⟩)
    simp only [id]
    split
    · exact Ends.bind (Ends.modify ⟨later_of_registers rfl rfl rfl rfl, ih (kept.counter _)⟩)
    · exact Ends.pure kept

/-- The busy-wait of `EngineDo` and its answer (rules R190, R192, R193). -/
def awaitReply : Op Byte := do
  let p ← peek
  pollInt (p.cfg.waitBudget + 1)
  let s ← readLine id
  if s.eng.int then pure s.statusSeen
  else do
    line State.timeOut
    pure p.cfg.codes.timeout

theorem engineDoHw_eq (cmd : EngineCmd) : engineDoHw cmd = issueAndClear cmd >>= fun _ => awaitReply := by
  rw [issueAndClear, ← op_bind_assoc]
  rfl

theorem doAnswered_eq {t : State} (runs : issueAndClear cmd s = .ok () t) : doAnswered cmd s = t.waitAnswered := by
  rw [issueAndClear] at runs
  rw [doAnswered, runs]

/-- A busy-wait that is answered ends with the command performed and its status as the answer (rule R192). -/
theorem awaitReply_served (h : Serving cmd s) (silent : GuardSilent s) (short : s.ses.waitcnt < s.cfg.waitBudget)
    (answered : s.waitAnswered = true) :
    ∃ t, awaitReply s = .ok t.statusSeen t ∧ Performed t ∧ t.cfg = s.cfg ∧ t.eng.Reports s.cfg.codes cmd ∧
      t.port.stopIssued = false ∧ t.ses.waitcnt < s.cfg.waitBudget := by
  obtain ⟨u, polls, performed, cfg, -, counter, silent'⟩ :=
    pollInt_answered (s.cfg.waitBudget + 1) silent (by omega)
      (h.stage.elim (fun w => .inr ⟨w.1, answered⟩) fun p => .inl ⟨p.1, short⟩)
  have serving : Serving cmd u := (pollInt_serving _ h).of_ok polls
  have reports : u.eng.Reports s.cfg.codes cmd := by
    obtain ⟨waiting, -⟩ | ⟨-, reports⟩ := serving.stage
    · exact absurd performed.int (by simp [waiting.int])
    · rwa [cfg] at reports
  obtain ⟨t, passes, b⟩ := tick_passes silent'
  have eng : t.eng = u.eng := (b.engOfDisabled performed.disabled).1
  refine ⟨t, ?_, performed.of_eng eng, b.cfg.trans cfg, by rwa [eng], b.issued.trans serving.unissued,
    by rw [b.ses]; exact counter⟩
  have int : t.eng.int = true := by rw [eng, performed.int]
  rw [awaitReply, peek_then, op_bind, polls]
  show (readLine id >>= _) u = _
  rw [op_bind, readLine_passes passes]
  simp only [id, int, if_true]
  rfl

/-- A code whose low bits are 0 is seen whole, whatever the option bits (10_state.md rule R31). -/
theorem codeField_view {x : Byte} (opt : BitVec 2) (low : x &&& 0x07#8 = 0#8) :
    (codeFieldOf x ++ 0#1 ++ opt) &&& 0xF8#8 = x := by
  refine BitVec.eq_of_getLsbD_eq fun i hi => ?_
  have bit : (x &&& 0x07#8).getLsbD i = (0#8).getLsbD i := by rw [low]
  simp only [codeFieldOf, BitVec.getLsbD_and, BitVec.getLsbD_append, BitVec.getLsbD_extractLsb'] at bit ⊢
  interval_cases i <;> simp at bit ⊢ <;> simp [bit]

/-- The view of `STAT` the session sees is the code the encoder wrote (rule R192; 30_encoding.md rule R111). -/
theorem statusSeen_phaseCode {x : Byte} (wf : s.cfg.codes.wf) (phase : x ∈ s.cfg.codes.phaseCodes)
    (h : s.eng.code = codeFieldOf x) : s.statusSeen = x := by
  rw [State.statusSeen, State.statReg, h]
  exact codeField_view _ (wf.1 x (by simp [phase])).2

/-- How a session's part ends that was answered: nothing left in flight or pending, short of the budget. -/
structure Served (s t : State) : Prop where
  ran : SessionRan s t
  performed : Performed t
  unissued : t.port.stopIssued = false
  short : t.ses.waitcnt < s.cfg.waitBudget

theorem SessionRan.thenServed {u t : State} (h : SessionRan s u) (k : Served u t) : Served s t :=
  ⟨h.trans k.ran, k.performed, k.unissued, by rw [← h.later.cfg]; exact k.short⟩

theorem engineDo_served (h : Issuable cmd s) (wf : s.cfg.wf) (silent : GuardSilent s)
    (answered : doAnswered cmd s = true) :
    ∃ code t, engineDo cmd s = .ok code t ∧ Served s t ∧ code ∈ s.cfg.codes.phaseCodes ∧
      (cmd = .start → t.eng.phase = .started) := by
  obtain ⟨_, u, issues, ran, serving, zero⟩ := (issueAndClear_serving h).completes silent
    fun bb => absurd (h.backend.symm.trans bb) (by decide)
  have cfg : u.cfg = s.cfg := ran.later.cfg
  obtain ⟨t, awaits, performed, cfg', ⟨⟨x, phase, code⟩, opened⟩, unissued, short⟩ := awaitReply_served serving
    (fun fired => silent (ran.later.suffix.subset fired)) (by rw [zero, cfg]; exact wf.1)
    (doAnswered_eq issues ▸ answered)
  have runs : engineDo cmd s = .ok t.statusSeen t := by
    rw [engineDo_hw cmd h.backend, engineDoHw_eq, op_bind, issues]
    exact awaits
  rw [cfg] at phase short
  have seen : t.statusSeen = x :=
    statusSeen_phaseCode (by rw [cfg', cfg]; exact wf.2.2) (by rw [cfg', cfg]; exact phase) code
  exact ⟨t.statusSeen, t, runs, ⟨(engineDo_ran cmd s).of_ok runs, performed, unissued, short⟩, seen ▸ phase, opened⟩

end

/-! ### The session's commands -/

section
variable {s : State}

theorem writeSession_served {data : Byte} (h : Issuable .tx s) (wf : s.cfg.wf) (silent : GuardSilent s)
    (answered : writeAnswered data s = true) :
    ∃ code t, writeSession data s = .ok code t ∧ Served s t ∧ (code = 0#8 ∨ code ∈ s.cfg.codes.phaseCodes) := by
  obtain ⟨u, passes, b⟩ := tick_passes silent
  have writes := line_passes passes fun s => { s with eng.data := data }
  obtain ⟨stop, -⟩ := h.enabled.resolve_left nofun
  have eng : u.eng = s.eng := (b.engOfDisabled (engineEnabled_free h.ecmd stop h.phase)).1
  have issuable : Issuable .tx { u with eng.data := data } :=
    h.congr b.cfg (by rw [b.ses]) b.issued (by rw [eng]) (by rw [eng]) (by rw [eng])
  have inner : doAnswered .tx { u with eng.data := data } = true := by
    simpa [writeAnswered, h.configured, writes] using answered
  obtain ⟨st, t, runs, served, phase, -⟩ :=
    engineDo_served issuable (by rw [b.cfg]; exact wf) (b.guardSilent silent) inner
  rw [b.cfg] at phase
  refine ⟨if dataOk s.cfg.codes st then 0#8 else st, t, ?_, (b.ran.trans (data_write_ran data)).thenServed served, ?_⟩
  · rw [writeSession, peek_then, if_neg h.configured, op_bind, writes]
    show (engineDo .tx >>= _) _ = _
    rw [op_bind, runs]
    rfl
  · split
    · exact .inl rfl
    · exact .inr phase

/-- A START that fails is the answer of `SES_START` (42_session.md rule R212). -/
theorem startSession_failed {address : Byte} {mode : Mode} {st : Byte} {u : State} (configured : s.ses.clkdiv ≠ 0#8)
    (starts : engineDo .start s = .ok st u) (fails : startOk s.cfg.codes st = false) :
    startSession address mode s = .ok st u := by
  rw [startSession, peek_then, if_neg configured, op_bind, starts]
  simp only [fails, Bool.false_eq_true, if_false]
  rfl

/-- After a START that succeeds comes the address byte, whose success in the mode asked for is the answer 0. -/
theorem startSession_addressed {address : Byte} {mode : Mode} {st r : Byte} {u t : State}
    (configured : s.ses.clkdiv ≠ 0#8) (starts : engineDo .start s = .ok st u) (succeeds : startOk s.cfg.codes st = true)
    (writes : writeSession (addressByte address mode) u = .ok r t) :
    startSession address mode s = .ok (if r = 0#8 ∨ r = addressAck s.cfg.codes mode then 0#8 else r) t := by
  rw [startSession, peek_then, if_neg configured, op_bind, starts]
  simp only [succeeds, if_true]
  rw [op_bind, writes]
  rfl

theorem startSession_served {address : Byte} {mode : Mode} (h : Issuable .start s) (wf : s.cfg.wf)
    (silent : GuardSilent s) (answered : startAnswered address mode s = true) :
    ∃ code t, startSession address mode s = .ok code t ∧ Served s t ∧
      (code = 0#8 ∨ code ∈ s.cfg.codes.phaseCodes) := by
  rw [startAnswered] at answered
  simp only [h.configured, decide_false, Bool.false_or, Bool.and_eq_true] at answered
  obtain ⟨starts, write⟩ := answered
  obtain ⟨st, u, runs, served, phase, opened⟩ := engineDo_served h wf silent starts
  simp only [runs, Bool.or_eq_true, Bool.not_eq_true'] at write
  cases ok : startOk s.cfg.codes st with
  | false => exact ⟨st, u, startSession_failed h.configured runs ok, served, .inr phase⟩
  | true =>
    have ran := served.ran
    have cfg : u.cfg = s.cfg := ran.later.cfg
    have started : u.eng.phase = .started := opened rfl
    have issuable : Issuable .tx u := ⟨by rw [cfg]; exact h.backend, by rw [ran.clkdiv]; exact h.configured,
      served.unissued, served.performed.ecmd, served.performed.phase,
      .inr ⟨served.performed.pendStop, by simp [started]⟩⟩
    obtain ⟨r, t, writes, served', code⟩ := writeSession_served issuable (by rw [cfg]; exact wf)
      (fun fired => silent (ran.later.suffix.subset fired)) (write.resolve_left (by simp [ok]))
    rw [cfg] at code
    refine ⟨_, t, startSession_addressed h.configured runs ok writes, ran.thenServed served', ?_⟩
    split
    · exact .inl rfl
    · exact code

theorem readSession_served {cmd : EngineCmd} (h : Issuable cmd s) (wf : s.cfg.wf) (silent : GuardSilent s)
    (answered : (decide (s.ses.clkdiv = 0#8) || doAnswered cmd s) = true) :
    ∃ code t, readSession cmd s = .ok code t ∧ Served s t := by
  obtain ⟨st, u, runs, ⟨ran, performed, unissued, short⟩, -, -⟩ :=
    engineDo_served h wf silent (by simpa [h.configured] using answered)
  obtain ⟨t, passes, b⟩ := tick_passes fun fired => silent (ran.later.suffix.subset fired)
  refine ⟨t.eng.data, t, ?_, ran.trans b.ran, performed.of_eng (b.engOfDisabled performed.disabled).1,
    b.issued.trans unissued, by rw [b.ses]; exact short⟩
  rw [readSession, peek_then, if_neg h.configured, op_bind, runs]
  exact readLine_passes passes _

/-- A session command whose waits are answered responds with nothing left to do. -/
theorem sesCommand_served {body : Op Byte} {P : Byte → Prop} (ready : SessionReady s) (silent : GuardSilent s)
    (h : ∃ code u, body s.running = .ok code u ∧ Served s.running u ∧ P code) :
    ∃ code t, runOp (sesCommand body) s = .next t ∧ Responded code 0#2 t ∧ t.ses.waitcnt < s.cfg.waitBudget ∧
      t.eng.ecmd = none ∧ t.eng.pendStop = false ∧ t.eng.phase ≠ .unknown ∧ P code := by
  obtain ⟨code, u, runs, ⟨ran, performed, -, short⟩, p⟩ := h
  obtain ⟨v, passes, b⟩ := tick_passes fun fired => silent (ran.later.suffix.subset fired)
  have left : Performed v := performed.of_eng (b.engOfDisabled performed.disabled).1
  exact ⟨code, _, sesCommand_answers ready runs passes, responded_run code v, by rw [respond_ses, b.ses]; exact short,
    left.ecmd, left.pendStop, left.phase, p⟩

/-- A code of a bus phase and 0 are not `SC_TIMEOUT` (30_encoding.md rule R111). -/
theorem ne_timeout {c : Codes} (wf : c.wf) {code : Byte} (h : code = 0#8 ∨ code ∈ c.phaseCodes) : code ≠ c.timeout := by
  rcases h with rfl | phase
  · exact (wf.1 c.timeout (by simp)).1.symm
  · exact phaseCode_ne_timeout wf phase

/-- A session command's waits count where it is not refused (30_encoding.md rule R97). -/
theorem sesAnswered_ready (ready : SessionReady s) (answered : Bool) : sesAnswered s answered = answered := by
  simp [sesAnswered, ready.1]

end

/-! ### A STOP that no wait follows (20_memory.md rule R81; 70_reset_and_hazards.md rule R319) -/

section
variable {s t : State}

theorem RunEnds.next {n : Nat} {u : State} (hst : step s = .next t) (busy : ¬ Quiescent s) (h : RunEnds n t u) :
    RunEnds (n + 1) s u := by
  obtain ⟨run, quiescent, first⟩ := h
  refine ⟨(runSteps_succ n hst).trans run, quiescent, fun m v hm hv => ?_⟩
  cases m with
  | zero =>
    cases hv
    exact busy
  | succ m => exact first m v (by omega) ((runSteps_succ m hst).symm.trans hv)

/-- Nothing is offered to the sequencer. -/
abbrev Unoffered (s : State) : Prop := s.port.rxValid = false ∧ s.port.cmdValid = false

theorem engineAct_port (d : EngineDraw) (s : State) : (s.engineAct d).port = s.port := by
  simp only [State.engineAct]
  split
  · rfl
  · split
    · simp [State.performStop]
    · split
      · simp [State.performStart]
      · simp only [State.performTx]
        split <;> simp
      · simp [State.performRx]
      · simp [State.performRx]
      · rfl

/-- Only a delivery of the host offers something. -/
theorem apply_unoffered {m : Move} (hf : fires m s = false) (hm : m.isDelivery = false) (h : Unoffered s) :
    Unoffered (s.apply m) := by
  have same (e : (s.apply m).port = s.port) : Unoffered (s.apply m) := by rw [Unoffered, e]; exact h
  cases m with
  | hostByte b => cases hm
  | hostCommand w => cases hm
  | hostReads => exact h
  | seq => exact same rfl
  | observe => exact same rfl
  | envScl low => exact same (moveLines_port ..)
  | envSda low => exact same (moveLines_port ..)
  | engineLines scl sda =>
    refine same ?_
    simp only [State.apply, State.engineLinesMove]
    split <;> rfl
  | engine d =>
    refine same ?_
    simp only [State.apply, State.engineMove]
    split
    · exact engineAct_port d s
    · rfl
  | guard =>
    have disarmed : s.frm.wdArmed = false := by simpa [fires] using hf
    exact same (by simp [State.apply, State.guardMove, disarmed])

/-- No delivery of the host is to come. -/
abbrev Undelivered (l : List Move) : Prop := l.all (fun m => !m.isDelivery) = true

theorem Undelivered.suffix {l l' : List Move} (h : Undelivered l) (k : l' <:+ l) : Undelivered l' := by
  simp only [Undelivered, List.all_eq_true] at *
  exact fun m hm => h m (k.subset hm)

theorem tick_unoffered (passes : tick s = .ok () t) (quiet : Undelivered s.inputs) (h : Unoffered s) : Unoffered t := by
  simp only [Undelivered, List.all_eq_true, Bool.not_eq_true'] at quiet
  exact holdOn_keeps (P := Unoffered) (fun m hm _ hf => apply_unoffered hf (quiet m hm)) (fun _ _ h => h) h passes

/-- Between operations, with nothing offered: a STOP is pending, and the engine has nothing else to do. -/
structure AwaitsStop (s : State) : Prop where
  backend : s.cfg.backend = .hw
  configured : s.ses.clkdiv ≠ 0#8
  ecmd : s.eng.ecmd = none
  pendStop : s.eng.pendStop = true
  phase : s.eng.phase ≠ .unknown
  idle : s.port.busy = false
  unoffered : Unoffered s

theorem AwaitsStop.not_quiescent (h : AwaitsStop s) (l : List Move) : ¬ Quiescent (s.withInputs l) :=
  fun ⟨_, _, _, done, _⟩ => by simpa [h.pendStop] using (done h.backend).1

/-- A move that is not the engine's step leaves it pending. -/
theorem AwaitsStop.apply (h : AwaitsStop s) {m : Move} (hf : fires m s = false) (delivery : m.isDelivery = false)
    (other : m.isEngine = false) : AwaitsStop (s.apply m) := by
  have moved := apply_moved hf
  have e := (apply_eng hf other).1
  exact ⟨by rw [moved.cfg]; exact h.backend, by rw [moved.ses]; exact h.configured, by rw [e]; exact h.ecmd,
    by rw [e]; exact h.pendStop, by rw [e]; exact h.phase, moved.busy.trans h.idle,
    apply_unoffered hf delivery h.unoffered⟩

/-- The run performs the STOP with the engine's first step, and ends there. -/
theorem AwaitsStop.runEnds (h : AwaitsStop s) {l : List Move} (silent : Move.guard ∉ l) (quiet : Undelivered l)
    (steps : 1 ≤ l.countP Move.isEngine) :
    ∃ n u, RunEnds n (s.withInputs l) u ∧ u.eng.phase = .idle ∧ u.bus.trace = s.bus.trace ++ [.stop] := by
  induction l generalizing s with
  | nil => simp at steps
  | cons m rest ih =>
    have silent' : Move.guard ∉ rest := fun fired => silent (List.mem_cons_of_mem _ fired)
    have quiet' : Undelivered rest := quiet.suffix (List.suffix_cons m rest)
    have pending := h.not_quiescent (m :: rest)
    by_cases turn : m = .seq
    · subst turn
      have hst : step (s.withInputs (.seq :: rest)) = .next (s.withInputs rest) :=
        (step_of_seq rfl).trans (sequencerTurn_waits (.inr h.unoffered))
      obtain ⟨n, u, ends, result⟩ := ih h silent' quiet' (by simpa [Move.isEngine] using steps)
      exact ⟨n + 1, u, ends.next hst pending, result⟩
    · have hst := step_of_move (s := s.withInputs (m :: rest)) rfl turn
      rw [show ({ s.withInputs (m :: rest) with inputs := rest } : State).apply m = (s.apply m).withInputs rest from
        plainWrite_apply m s rest] at hst
      cases other : m.isEngine with
      | true =>
        obtain ⟨d, rfl⟩ : ∃ d, m = .engine d := by
          cases m with
          | engine d => exact ⟨d, rfl⟩
          | _ => cases other
        have acts := engineActs_stop h.backend h.configured h.pendStop (.inl h.idle)
        rw [apply_engine_acts d acts, engineAct_stop d h.phase h.pendStop] at hst
        refine ⟨1, _, RunEnds.next hst pending ⟨rfl, ?_, fun m _ hm => absurd hm (Nat.not_lt_zero m)⟩, rfl, rfl⟩
        exact ⟨h.idle, h.unoffered.1, h.unoffered.2, fun _ => ⟨rfl, h.ecmd⟩, quiet'⟩
      | false =>
        have delivery : m.isDelivery = false := by
          simpa using (List.all_eq_true.mp quiet) m (List.mem_cons_self ..)
        have hf : fires m s = false := by
          have notGuard : m ≠ .guard := fun e => silent (e ▸ List.mem_cons_self ..)
          simp [fires, notGuard]
        obtain ⟨n, u, ends, idle, trace⟩ := ih (h.apply hf delivery other) silent' quiet' (by simpa [other] using steps)
        exact ⟨n + 1, u, ends.next hst pending, idle, by rw [trace, (apply_eng hf other).2]⟩

/-- `EngineStop()` on a free engine: the STOP is pending, held while the operation runs, and nothing is offered. -/
theorem sesStop_awaitsStop (ready : SessionReady s) (hb : s.cfg.backend = .hw) (silent : GuardSilent s)
    (free : s.eng.ecmd = none) (stop : s.eng.pendStop = false) (known : s.eng.phase ≠ .unknown) (offers : Unoffered s)
    (quiet : Undelivered s.inputs) :
    ∃ t, exec .sesStop s = .next t ∧ Responded 0#8 0#2 t ∧ AwaitsStop t ∧ t.inputs <:+ s.inputs ∧
      t.bus.trace = s.bus.trace := by
  obtain ⟨u, passes1, b1⟩ := tick_passes (s := s.running) silent
  obtain ⟨v, passes2, b2⟩ := tick_passes (b1.guardSilent silent)
  have b := b1.trans b2
  obtain ⟨eng, trace⟩ := b.engOfDisabled (engineEnabled_free free stop known)
  have uFree : u.eng.ecmd = none := by rw [(b1.engOfDisabled (engineEnabled_free free stop known)).1]; exact free
  have body : stopSession s.running =
      .ok 0#8 { v with eng.pendStop := true, port.stopIssued := true } := by
    have note := line_passes passes1 State.noteInFlight
    rw [noteInFlight_free uFree] at note
    have issue := line_passes passes2 fun s => { s with eng.pendStop := true, port.stopIssued := true }
    have engine : engineStop s.running = .ok () { v with eng.pendStop := true, port.stopIssued := true } := by
      rw [engineStop, peek_then, hb]
      show (line State.noteInFlight >>= _) _ = _
      rw [op_bind, note]
      exact issue
    rw [stopSession, peek_then, if_neg ready.2, op_bind, engine]
    rfl
  obtain ⟨w, passes3, b3⟩ := tick_passes (s := { v with eng.pendStop := true, port.stopIssued := true })
    (b.guardSilent silent)
  have busy : v.port.busy = true := b.busy
  have held : State.stopHeld { v with eng.pendStop := true, port.stopIssued := true } = true := by
    simp [State.stopHeld, busy, eng, known]
  obtain ⟨eng3, trace3⟩ := b3.engOfHeld held
  have suffix := b3.suffix.trans b.suffix
  have unoffered1 : Unoffered u := tick_unoffered (s := s.running) passes1 quiet offers
  have unoffered2 : Unoffered v := tick_unoffered passes2 (quiet.suffix b1.suffix) unoffered1
  have unoffered : Unoffered w := tick_unoffered passes3 (quiet.suffix b.suffix) unoffered2
  refine ⟨_, sesCommand_answers ready body passes3, responded_run 0#8 w, ?_, suffix, trace3.trans trace⟩
  exact ⟨by rw [respond_cfg, b3.cfg]; exact b.cfg ▸ hb, by rw [respond_ses, b3.ses]; exact b.ses ▸ ready.2,
    by rw [respond_eng, eng3]; exact eng ▸ free, by rw [respond_eng, eng3],
    by rw [respond_eng, eng3]; exact eng ▸ known, rfl, unoffered⟩

end

/-- Settles O59: a wait that is answered ends with the command performed (`Served`); a pending STOP is performed by the
engine's next step (`AwaitsStop`). -/
theorem responsiveEngineNeverTimesOut : Obligations.ResponsiveEngineNeverTimesOut := by
  unfold Obligations.ResponsiveEngineNeverTimesOut
  refine ⟨fun i s ready hb wf silent free known ⟨waits, _⟩ command => ?_,
    fun s ready hb silent free stop known noByte noWord quiet ⟨_, left⟩ => ?_⟩
  · have issuable {cmd : EngineCmd} (h : cmd = .start ∨ (s.eng.pendStop = false ∧ s.eng.phase ≠ .idle)) :
        Issuable cmd s.running := ⟨hb, ready.2, rfl, free, known, h⟩
    have answered {answer : Bool} (h : sesAnswered s.running answer = true) : answer = true :=
      (sesAnswered_ready (s := s.running) ready answer).symm.trans h
    obtain ⟨mode, address, rfl⟩ | ⟨stop, inside, ⟨data, rfl⟩ | rfl | rfl⟩ := command
    · obtain ⟨code, u, runs, served, phase⟩ := startSession_served (issuable (.inl rfl)) wf silent (answered waits)
      exact sesCommand_served ready silent ⟨code, u, runs, served, fun _ _ => ne_timeout wf.2.2 phase⟩
    · obtain ⟨code, u, runs, served, phase⟩ :=
        writeSession_served (issuable (.inr ⟨stop, inside⟩)) wf silent (answered waits)
      exact sesCommand_served ready silent ⟨code, u, runs, served, fun _ _ => ne_timeout wf.2.2 phase⟩
    · obtain ⟨code, u, runs, served⟩ :=
        readSession_served (issuable (.inr ⟨stop, inside⟩)) wf silent (answered waits)
      exact sesCommand_served ready silent ⟨code, u, runs, served, fun notAck => absurd rfl notAck⟩
    · obtain ⟨code, u, runs, served⟩ :=
        readSession_served (issuable (.inr ⟨stop, inside⟩)) wf silent (answered waits)
      exact sesCommand_served ready silent ⟨code, u, runs, served, fun _ notNack => absurd rfl notNack⟩
  · obtain ⟨t, ends, responded, awaits, suffix, trace⟩ :=
      sesStop_awaitsStop ready hb silent free stop known ⟨noByte, noWord⟩ quiet
    have silent' : Move.guard ∉ t.inputs := fun fired => silent (suffix.subset fired)
    have steps : 1 ≤ t.inputs.countP Move.isEngine := by
      have later : t.answeredLater = true := by simpa only [leftAnswered, ends] using left
      have due : t.stepsDue ≤ t.inputs.countP Move.isEngine := by
        simpa [State.answeredLater, silent'] using later
      have enabled : t.stopEnabled = true := by simp [State.stopEnabled, awaits.configured, awaits.pendStop]
      have one : 1 ≤ t.stepsDue := by simp [State.stepsDue, enabled]
      exact one.trans due
    obtain ⟨n, u, run, idle, trace'⟩ := awaits.runEnds silent' (Undelivered.suffix quiet suffix) steps
    rw [withInputs_self rfl] at run
    exact ⟨t, n, u, ends, responded, run, idle, by rw [trace', trace]⟩

end Sys2Proof.Machine

/-! ## The session's commands: configuration, and their ends (42_session.md rules R210 to R220) -/

namespace Sys2Proof.Machine

section
variable {s t : State}

/-- A point before a line, the guard silent: the other agents move, and with no move left nothing does. -/
structure Passed (s t : State) : Prop extends Between s t where
  alone : s.inputs = [] → t = s

theorem tick_passed (silent : GuardSilent s) : ∃ t, tick s = .ok () t ∧ Passed s t := by
  obtain ⟨t, passes, b⟩ := tick_passes silent
  refine ⟨t, passes, { b with alone := fun alone => ?_ }⟩
  have runs := (Runs.tick s).alone
  rw [withInputs_self alone, passes] at runs
  injection runs

/-! ### `SES_CONFIGURE` -/

/-- The sequencer wrote the driver's and the session's registers, now `d` and `x`, while the other agents moved. -/
structure Configured (s : State) (d : Driver) (x : Session) (t : State) : Prop where
  cfg : t.cfg = s.cfg
  frm : t.frm = s.frm
  drv : t.drv = d
  ses : t.ses = x
  suffix : t.inputs <:+ s.inputs
  silent : EngineSilent s → EngineSilent t ∧ SameEngine s t

theorem Configured.refl (s : State) : Configured s s.drv s.ses s :=
  ⟨rfl, rfl, rfl, rfl, List.suffix_refl _, fun still => ⟨still, rfl, rfl⟩⟩

section
variable {u : State} {d e : Driver} {x : Session}

theorem Configured.guardSilent (h : Configured s d x t) (silent : GuardSilent s) : GuardSilent t :=
  fun fired => silent (h.suffix.subset fired)

theorem Configured.wrote (h : Configured s d x u) (w : Wrote u e t) : Configured s e x t where
  cfg := w.cfg.trans h.cfg
  frm := w.frm.trans h.frm
  drv := w.drv
  ses := w.ses.trans h.ses
  suffix := w.suffix.trans h.suffix
  silent still := by
    obtain ⟨still', eng, trace⟩ := h.silent still
    obtain ⟨eng', trace'⟩ := w.silent still'
    exact ⟨w.engineSilent still', eng'.trans eng, trace'.trans trace⟩

theorem Configured.between (h : Configured s d x u) (b : Between u t) : Configured s d x t := by
  have w := h.wrote (show Wrote u u.drv t from b)
  rwa [h.drv] at w

/-- A line that writes the session's registers. -/
theorem Configured.line (h : Configured s d x u) (silent : GuardSilent s) (f : Session → Session) :
    ∃ t, Machine.line (fun s => { s with ses := f s.ses }) u = .ok () t ∧ Configured s d (f x) t := by
  obtain ⟨v, passes, b⟩ := tick_passes (h.guardSilent silent)
  have k := h.between b
  exact ⟨_, line_passes passes _, k.cfg, k.frm, k.drv, congrArg f k.ses, k.suffix, k.silent⟩

end

/-- A configured session refuses the configuration at once. -/
theorem configureSession_configured (div bits : Byte) (configured : s.ses.clkdiv ≠ 0#8) :
    configureSession div bits s = .ok 0#8 s := by
  rw [configureSession, peek_then, if_pos configured]
  rfl

/-- An unconfigured session takes it (rule R211). It comes to no wait. -/
theorem configureSession_unconfigured (div bits : Byte) (silent : GuardSilent s) (z : s.ses.clkdiv = 0#8) :
    ∃ t, configureSession div bits s = .ok 1#8 t ∧
      Configured s (if s.cfg.backend = .bb ∧ div ≠ 0#8 then Driver.configured else s.drv)
        { s.ses with clkdiv := div, opt := s.ses.opt ||| bits.extractLsb' 0 2 } t := by
  obtain ⟨u, first, ku⟩ := (Configured.refl s).line silent fun x => { x with clkdiv := div }
  obtain ⟨v, second, kv⟩ := ku.line silent fun x => { x with opt := x.opt ||| bits.extractLsb' 0 2 }
  have lines : configureSession div bits s =
      ((if s.cfg.backend = .bb ∧ div ≠ 0#8 then configureBody else pure ()) >>= fun _ => pure 1#8 : Op Byte) v := by
    rw [configureSession, peek_then, if_neg (not_not.mpr z), op_bind, first]
    show (Machine.line _ >>= _) u = _
    rw [op_bind, second]
    show (if _ then _ else _ : Op Byte) v = _
    split <;> rfl
  rw [lines]
  by_cases driver : s.cfg.backend = .bb ∧ div ≠ 0#8
  · obtain ⟨_, t, runs, w⟩ := (configureBody_ends v).completesWaitless .configureBody (kv.guardSilent silent)
    rw [if_pos driver, if_pos driver, op_bind, runs]
    exact ⟨t, rfl, kv.wrote w⟩
  · rw [if_neg driver, if_neg driver]
    exact ⟨v, rfl, kv⟩

/-- `SES_CONFIGURE` is answered in every state of the framer (30_encoding.md rule R97). -/
theorem execSesConfigure_answers {div bits code : Byte} {u : State} {d : Driver} {x : Session} (silent : GuardSilent s)
    (runs : configureSession div bits s.running = .ok code u) (k : Configured s.running d x u) :
    ∃ t, exec (.sesConfigure div bits) s = .next t ∧ Responded code 0#2 t ∧ Configured s d x t := by
  obtain ⟨v, passes, b⟩ := tick_passes (k.guardSilent silent)
  refine ⟨_, ?_, responded_run code v, { k.between b with }⟩
  show runOp (configureSession div bits >>= fun code => respond code false) s = _
  rw [runOp, op_bind, runs]
  exact congrArg outcomeOf (line_passes passes _)

end

/-- Settles O32: configured, the operation is its response; unconfigured, two lines and `configure()`, none of them a
wait. -/
theorem sesConfigureOnce : Obligations.SesConfigureOnce := by
  unfold Obligations.SesConfigureOnce
  intro div bits s silent
  refine ⟨fun z => ?_, fun configured => ?_⟩
  · obtain ⟨u, runs, k⟩ := configureSession_unconfigured (s := s.running) div bits silent z
    obtain ⟨t, ends, responded, k'⟩ := execSesConfigure_answers silent runs k
    exact ⟨t, ends, responded, k'.cfg, k'.frm, k'.ses, k'.drv, fun still => (k'.silent still).2⟩
  · obtain ⟨t, ends, responded, k⟩ :=
      execSesConfigure_answers silent (configureSession_configured (s := s.running) div bits configured) (.refl _)
    exact ⟨t, ends, responded, ⟨k.cfg, k.drv, k.ses, k.frm⟩, fun still => (k.silent still).2⟩

/-! ### The configuration is kept -/

/-- A configured session keeps `CLKDIV` and `OPT`. -/
def ConfigKept (s t : State) : Prop :=
  s.ses.clkdiv ≠ 0#8 → t.ses.clkdiv = s.ses.clkdiv ∧ t.ses.opt = s.ses.opt

section
variable {s t : State}

theorem ConfigKept.of_ses (h : t.ses = s.ses) : ConfigKept s t := fun _ => by rw [h]; exact ⟨rfl, rfl⟩

theorem SessionDone.configKept (h : SessionDone s t) : ConfigKept s t := fun _ => ⟨h.clkdiv, h.opt⟩

theorem Received.configKept {f : Framer} (h : Received s f t) : ConfigKept s t := by
  obtain ⟨-, clkdiv, opt, -⟩ := h.kept
  exact fun _ => ⟨clkdiv, opt⟩

theorem Answered.ses {code : Byte} {notcfg : Bool} {refusal : Option RefuseReason}
    (a : Answered s code notcfg refusal t) : t.ses = s.ses := a.same.1.2.2.1

/-- The bit-bang commands do not write the session's registers. -/
theorem bbCommand_configKept {needsConfig legal : Bool} {body : Op Byte}
    (k : s.cfg.backend = .bb → legal = true → Ends body s fun _ u => ∃ d, Wrote s d u) :
    Ends (bbCommand needsConfig legal body) s fun _ t => ConfigKept s t := by
  refine (bbCommand_ends (Q := fun _ u => u.ses = s.ses) fun hb hl =>
    (k hb hl).mono fun _ _ ⟨_, w⟩ => ⟨w.later, w.ses⟩).mono ?_
  rintro _ t (⟨_, -, answered⟩ | ⟨-, _, u, same, answered⟩)
  · exact .of_ses answered.ses
  · exact .of_ses (answered.ses.trans same)

theorem sesCommand_configKept {body : Op Byte}
    (k : ∀ u, Ends body u fun c t => SessionRan u t ∧ (u.ses.clkdiv = 0#8 → c = 0#8 ∧ t = u)) :
    Ends (sesCommand body) s.running fun _ t => ConfigKept s t :=
  (sesCommand_done (Q := fun _ => True) fun u => (k u).mono fun _ _ q => ⟨q.1, q.2, trivial⟩).mono
    fun _ _ ⟨done, _⟩ => done.configKept

/-- A configured session's `SES_CONFIGURE` writes no register of the session (rule R211). -/
theorem execSesConfigure_configKept (div bits : Byte) (s : State) :
    Ends (configureSession div bits >>= fun code => respond code false) s fun _ t => ConfigKept s t := by
  by_cases z : s.ses.clkdiv = 0#8
  · refine Ends.bind ((Proceeds.configureSession div bits s).mono fun code u later => ⟨later, ?_⟩)
    exact (respond_ends code false u).mono fun _ _ _ configured => absurd z configured
  · have rejected : Ends (configureSession div bits) s fun _ u => u = s := by
      rw [Ends, configureSession_configured div bits z]
    refine Ends.bind (rejected.mono fun code u same => ⟨same ▸ Later.refl s, ?_⟩)
    exact (respond_ends code false u).mono fun _ _ answered => .of_ses (same ▸ answered.ses)

/-- Every operation that goes on keeps the configuration, or the guard's reset cut it off. -/
theorem exec_configKept (i : Instr) (hst : exec i s = .next t) : ConfigKept s t ∨ WasReset s t := by
  cases i with
  | bbConfigure =>
    exact runOp_next_cases (bbCommand_configKept fun _ _ =>
      Ends.bind ((configureBody_ends _).mono fun _ _ w => ⟨w.later, Ends.pure ⟨_, w⟩⟩)) hst
  | bbStart =>
    exact runOp_next_cases (bbCommand_configKept fun hb _ =>
      Ends.bind ((startBody_ends hb).mono fun _ _ w => ⟨w.later, Ends.pure ⟨_, w⟩⟩)) hst
  | bbStop =>
    exact runOp_next_cases (bbCommand_configKept fun hb _ =>
      Ends.bind ((stopBody_ends hb).mono fun _ _ w => ⟨w.later, Ends.pure ⟨_, w⟩⟩)) hst
  | bbPutbyte data =>
    exact runOp_next_cases (bbCommand_configKept fun hb _ =>
      (putByteBody_ends data hb).mono fun _ _ w => ⟨_, w.2⟩) hst
  | bbGetbyte last =>
    exact runOp_next_cases (bbCommand_configKept fun hb _ =>
      (getByteBody_ends last hb).mono fun _ _ w => ⟨_, w.2⟩) hst
  | bbTransfer cw =>
    exact runOp_next_cases (bbCommand_configKept fun hb hc => (transfer_ends hb hc).mono fun _ _ w => ⟨_, w.2⟩) hst
  | sesConfigure div bits => exact runOp_next_cases (execSesConfigure_configKept div bits s.running) hst
  | sesStart mode address => exact runOp_next_cases (sesCommand_configKept (startSession_ran address mode)) hst
  | sesWrite data => exact runOp_next_cases (sesCommand_configKept (writeSession_ran data)) hst
  | sesReadAck => exact runOp_next_cases (sesCommand_configKept (readSession_ran .rxAck)) hst
  | sesReadNack => exact runOp_next_cases (sesCommand_configKept (readSession_ran .rxNack)) hst
  | sesStop =>
    exact runOp_next_cases (sesCommand_configKept fun u => (stopSession_ran u).mono fun _ _ ⟨zero, ran, same⟩ =>
      ⟨ran, fun z => ⟨zero, same z⟩⟩) hst
  | rxAddr b => exact (execRxAddr_next_cases b hst).imp_left fun ⟨_, r⟩ => r.configKept
  | rxLenHi b => exact (execRxLenHi_next_cases b hst).imp_left fun ⟨_, r⟩ => r.configKept
  | rxLenLo b => exact (execRxLenLo_next_cases b hst).imp_left fun ⟨_, r⟩ => r.configKept
  | rxPayload b => exact (execRxPayload_next_cases b hst).imp_left fun ⟨_, r⟩ => r.configKept

theorem step_configKept (hst : step s = .next t) : ConfigKept s t ∨ WasReset s t := by
  obtain ⟨l, ⟨m, rfl⟩ | turn⟩ := step_next_cases hst
  · exact (apply_moved_or_reset m { s with inputs := l }).imp_left fun moved => .of_ses moved.ses
  · rcases sequencerTurn_next_cases turn with rfl | ⟨i, p, e⟩ | ⟨r, p, e⟩
    · exact .inl (.of_ses rfl)
    · have kept := exec_configKept i e
      exact kept
    · have kept := runOp_next_cases ((refuse_ends r _).mono fun _ _ answered => ConfigKept.of_ses answered.ses) e
      exact kept

end

/-- Settles O33: no move writes the session's registers, and no operation of a configured session writes these two. -/
theorem configurationIsKeptUntilReset : Obligations.ConfigurationIsKeptUntilReset := by
  unfold Obligations.ConfigurationIsKeptUntilReset
  intro s t configured hst
  exact (step_configKept hst).imp_left fun kept => kept configured

/-! ### An unconfigured session -/

/-- One of the five session commands but `SES_CONFIGURE`. -/
abbrev UsesSession (i : Instr) : Prop :=
  (∃ mode address, i = .sesStart mode address) ∨ (∃ data, i = .sesWrite data) ∨ i = .sesReadAck ∨
    i = .sesReadNack ∨ i = .sesStop

/-- What the five have in common: their bodies run behind the same check, do nothing where the session is unconfigured,
and leave what `SessionRan` says. -/
structure SessionCommand (i : Instr) (body : Op Byte) : Prop where
  exec : ∀ s, exec i s = runOp (sesCommand body) s
  unconfigured : ∀ s : State, s.ses.clkdiv = 0#8 → body s = .ok 0#8 s
  ran : ∀ s, Ends body s fun c t =>
    SessionRan s t ∧ (s.ses.clkdiv = 0#8 → c = 0#8 ∧ t = s) ∧ (i = .sesStop → c = 0#8)

theorem UsesSession.command {i : Instr} (h : UsesSession i) : ∃ body, SessionCommand i body := by
  obtain ⟨mode, address, rfl⟩ | ⟨data, rfl⟩ | rfl | rfl | rfl := h
  · refine ⟨startSession address mode, fun _ => rfl, fun s z => ?_, fun s => ?_⟩
    · rw [startSession, peek_then, if_pos z]; rfl
    · exact (startSession_ran address mode s).mono fun _ _ ⟨ran, z⟩ => ⟨ran, z, nofun⟩
  · refine ⟨writeSession data, fun _ => rfl, fun s z => ?_, fun s => ?_⟩
    · rw [writeSession, peek_then, if_pos z]; rfl
    · exact (writeSession_ran data s).mono fun _ _ ⟨ran, z⟩ => ⟨ran, z, nofun⟩
  · refine ⟨readSession .rxAck, fun _ => rfl, fun s z => ?_, fun s => ?_⟩
    · rw [readSession, peek_then, if_pos z]; rfl
    · exact (readSession_ran .rxAck s).mono fun _ _ ⟨ran, z⟩ => ⟨ran, z, nofun⟩
  · refine ⟨readSession .rxNack, fun _ => rfl, fun s z => ?_, fun s => ?_⟩
    · rw [readSession, peek_then, if_pos z]; rfl
    · exact (readSession_ran .rxNack s).mono fun _ _ ⟨ran, z⟩ => ⟨ran, z, nofun⟩
  · refine ⟨stopSession, fun _ => rfl, fun s z => ?_, fun s => ?_⟩
    · rw [stopSession, peek_then, if_pos z]; rfl
    · exact (stopSession_ran s).mono fun _ _ ⟨zero, ran, z⟩ => ⟨ran, fun e => ⟨zero, z e⟩, fun _ => zero⟩

theorem respFlagsOf_notcfg : respFlagsOf true false = 1#2 := by decide

/-- Settles O34: the body is left at once, and the response is all that comes. -/
theorem unconfiguredSessionDoesNothing : Obligations.UnconfiguredSessionDoesNothing := by
  unfold Obligations.UnconfiguredSessionDoesNothing
  intro i s command z cursor silent
  obtain ⟨body, session⟩ := UsesSession.command command
  obtain ⟨t, passes, p⟩ := tick_passed (s := s.running) silent
  have runs : exec i s = .next (t.respond 0#8 true none) := by
    rw [session.exec, runOp, sesCommand, peek_then]
    simp only [cursor, z, ne_eq, not_true_eq_false, if_false, op_bind,
      session.unconfigured s.running z, respond, line_passes passes, decide_true]
    rfl
  exact ⟨_, runs, ⟨rfl, respFlagsOf_notcfg, rfl, rfl, rfl⟩, ⟨p.cfg, p.drv, p.ses, p.frm⟩, p.engOfUnconfigured z,
    fun alone => (congrArg State.bus (p.alone alone) :)⟩

/-! ### A configured session -/

/-- Settles O35: what every body ends in (`SessionRan`), and the response. -/
theorem sessionCommandsComplete : Obligations.SessionCommandsComplete := by
  unfold Obligations.SessionCommandsComplete
  intro i s command ⟨cursor, configured⟩ silent responsive
  obtain ⟨body, session⟩ := UsesSession.command command
  obtain ⟨t, ends, done, ⟨refused, -⟩ | ⟨-, code, u, stop, -, answered⟩⟩ :=
    runOp_completes (sesCommand_done (s := s) session.ran) silent responsive
  · exact absurd cursor refused
  · obtain ⟨respCode, respFlags, respValid, refusal, busy⟩ := answered.port
    have flags : respFlagsOf (decide (s.ses.clkdiv = 0#8)) false = 0#2 := by
      rw [decide_eq_false configured, respFlagsOf_run]
    exact ⟨code, t, (session.exec s).trans ends,
      ⟨respCode, respFlags.trans flags, respValid, refusal, busy⟩, done.frm,
      ⟨done.cfg, done.clkdiv, done.opt, done.hw, done.bb⟩, stop⟩

end Sys2Proof.Machine

/-! ## The session on the byte engine (42_session.md rules R212 to R218; 41_engine_status.md rules R174 to R192) -/

namespace Sys2Proof.Machine

/-! ### The codes a byte ends with -/

theorem addressCode_eq (c : Codes) (v : Byte) (nack : Bool) :
    addressCode c v nack =
      if v.getLsbD 0 then (if nack then c.mrSlaNack else c.mrSlaAck)
      else (if nack then c.mtSlaNack else c.mtSlaAck) := by
  unfold addressCode
  cases v.getLsbD 0 <;> cases nack <;> rfl

/-- How a byte sent ended, as the encoder codes it: the first after a START by its direction bit (rules R182, R183). -/
def sentCode (c : Codes) (p : Phase) (v : Byte) (o : TxOutcome) : Byte :=
  if o = .lost then c.arbLost
  else if p = .started then addressCode c v (decide (o = .nack))
  else if o = .nack then c.mtDataNack else c.mtDataAck

/-- The phase it leads to (rules R182, R183). -/
def sentPhase (p : Phase) (v : Byte) (o : TxOutcome) : Phase :=
  if o = .lost then .idle else if p = .started ∧ v.getLsbD 0 = true then .mr else .mt

/-- The event it is traced as (rule R177). -/
def sentEvent (v : Byte) (o : TxOutcome) : Event := if o = .lost then .lost else .byte v (decide (o = .nack))

/-- The code of a byte received (rule R184). -/
def receivedCode (c : Codes) (nack : Bool) : Byte := if nack then c.mrDataNack else c.mrDataAck

theorem sentCode_phaseCode (c : Codes) (p : Phase) (v : Byte) (o : TxOutcome) : sentCode c p v o ∈ c.phaseCodes := by
  have address := addressCode_phaseCode c v (decide (o = .nack))
  unfold sentCode
  split_ifs
  · simp [Codes.phaseCodes]
  · exact address
  · simp [Codes.phaseCodes]
  · simp [Codes.phaseCodes]

section
variable {c : Codes} {p : Phase} (known : p ≠ .unknown)
include known

/-- The code of a START (rule R181). -/
theorem encoderTable_startCode :
    encoderTable c p .start = some (if p = .idle then c.start else c.repStart, .started) := by
  cases p with
  | unknown => exact absurd rfl known
  | idle | started | mt | mr => rfl

variable (inside : p ≠ .idle)
include inside

/-- Inside a transaction a byte that was not lost has a row. -/
theorem encoderTable_tx (v : Byte) (nack : Bool) :
    encoderTable c p (.tx v nack) =
      some (sentCode c p v (if nack then .nack else .ack), sentPhase p v (if nack then .nack else .ack)) := by
  cases p with
  | unknown => exact absurd rfl known
  | idle => exact absurd rfl inside
  | started => cases nack <;> simp [encoderTable, sentCode, sentPhase, addressPhase]
  | mt | mr => cases nack <;> rfl

theorem encoderTable_lost (v : Byte) : encoderTable c p .txLost = some (sentCode c p v .lost, .idle) := by
  cases p with
  | unknown => exact absurd rfl known
  | idle => exact absurd rfl inside
  | started | mt | mr => rfl

theorem encoderTable_rx (nack : Bool) : encoderTable c p (.rx nack) = some (receivedCode c nack, .mr) := by
  cases p with
  | unknown => exact absurd rfl known
  | idle => exact absurd rfl inside
  | started | mt | mr => rfl

end

/-- Of the codes a byte sent can end with, the two of an acknowledged data byte alone are success (30_encoding.md rules
R111, R112). -/
theorem dataOk_eq_false {c : Codes} (wf : c.wf) {x : Byte}
    (h : x = c.noInfo ∨ x = c.arbLost ∨ x = c.mtDataNack ∨ ∃ v nack, x = addressCode c v nack) :
    dataOk c x = false := by
  obtain ⟨-, distinct, -⟩ := wf
  simp only [Codes.phaseCodes, List.nodup_cons, List.mem_cons, List.not_mem_nil, not_or, or_false] at distinct
  suffices other : x ≠ c.mtDataAck ∧ x ≠ c.mrDataAck by simp [dataOk, other]
  obtain rfl | rfl | rfl | ⟨v, nack, rfl⟩ := h
  · grind
  · grind
  · grind
  · cases nack <;> cases bit : v.getLsbD 0 <;> simp only [addressCode, bit] <;> grind

/-- The result of `SES_WRITE` by the code its byte ended with (42_session.md rules R214, R215). -/
def writeResult (c : Codes) (st : Byte) : Byte := if dataOk c st then 0#8 else st

theorem writeResult_sent {c : Codes} (wf : c.wf) (p : Phase) (v : Byte) (o : TxOutcome) :
    writeResult c (sentCode c p v o) =
      if o = .lost then c.arbLost
      else if p = .started then addressCode c v (decide (o = .nack))
      else if o = .nack then c.mtDataNack else 0#8 := by
  have fails {x : Byte} (h : x = c.noInfo ∨ x = c.arbLost ∨ x = c.mtDataNack ∨ ∃ v nack, x = addressCode c v nack) :
      writeResult c x = x := by simp [writeResult, dataOk_eq_false wf h]
  unfold sentCode
  split_ifs
  · exact fails (.inr (.inl rfl))
  · exact fails (.inr (.inr (.inr ⟨v, _, rfl⟩)))
  · exact fails (.inr (.inr (.inl rfl)))
  · simp [writeResult, dataOk]

/-! ### A command answered by the engine -/

/-- On the byte engine: the engine's registers are now `e`, the poll counter is `k`, and these events were emitted;
nothing else of the core changed. -/
structure EngineRan (s : State) (k : Nat) (e : Engine) (events : List Event) (t : State) : Prop where
  cfg : t.cfg = s.cfg
  drv : t.drv = s.drv
  frm : t.frm = s.frm
  ses : t.ses = { s.ses with waitcnt := k }
  eng : t.eng = e
  trace : t.bus.trace = s.bus.trace ++ events
  issued : t.port.stopIssued = s.port.stopIssued

/-- The command is in flight, and `k` polls have found `INT = 0` (rules R171, R190). -/
abbrev State.awaiting (cmd : EngineCmd) (k : Nat) (s : State) : State :=
  { s with eng := { s.eng with int := false, ecmd := some cmd }, ses := { s.ses with waitcnt := k } }

/-- The state in which the engine has answered the command at the poll after `k` that found `INT = 0`. -/
abbrev State.answered (cmd : EngineCmd) (k : Nat) (d : EngineDraw) (s : State) : State :=
  (s.awaiting cmd k).engineAct d

section
variable {s t u : State} {cmd : EngineCmd} {k : Nat} {e : Engine} {events : List Event}

/-- A free engine does nothing more, whoever else moves. -/
theorem EngineRan.between (h : EngineRan s k e events t) (free : t.engineEnabled = false) (b : Between t u) :
    EngineRan s k e events u where
  cfg := b.cfg.trans h.cfg
  drv := b.drv.trans h.drv
  frm := b.frm.trans h.frm
  ses := b.ses.trans h.ses
  eng := (b.engOfDisabled free).1.trans h.eng
  trace := (b.engOfDisabled free).2.trans h.trace
  issued := b.issued.trans h.issued

theorem EngineRan.trans {k' : Nat} {e' : Engine} {events' : List Event} (h : EngineRan s k e events t)
    (g : EngineRan t k' e' events' u) : EngineRan s k' e' (events ++ events') u where
  cfg := g.cfg.trans h.cfg
  drv := g.drv.trans h.drv
  frm := g.frm.trans h.frm
  ses := by rw [g.ses, h.ses]
  eng := g.eng
  trace := by rw [g.trace, h.trace, List.append_assoc]
  issued := g.issued.trans h.issued

theorem Issuable.awaiting (h : Issuable cmd s) (k : Nat) : Waiting (s.awaiting cmd k) where
  backend := h.backend
  phase := h.phase
  int := rfl
  enabled := by simpa [State.commandEnabled, h.configured, and_comm] using h.enabled
  unissued := h.unissued

theorem Issuable.performed (h : Issuable cmd s) (stop : s.eng.pendStop = false) (k : Nat) (d : EngineDraw) :
    Performed (s.answered cmd k d) :=
  (h.awaiting k).perform stop d

theorem Issuable.engineRan (h : Issuable cmd s) (k : Nat) (d : EngineDraw) (eng : (s.answered cmd k d).eng = e)
    (trace : (s.answered cmd k d).bus.trace = s.bus.trace ++ events) : EngineRan s k e events (s.answered cmd k d) :=
  have moved := engineAct_moved d (h.awaiting k).engineActs
  ⟨moved.cfg, moved.drv, moved.frm, moved.ses, eng, trace, moved.issued⟩

/-- A START answered (rules R176, R181). -/
theorem answered_start (h : Issuable .start s) (stop : s.eng.pendStop = false) (k : Nat) (d : EngineDraw) :
    EngineRan s k
      { s.eng with
        code := codeFieldOf (if s.eng.phase = .idle then s.cfg.codes.start else s.cfg.codes.repStart)
        phase := .started, int := true }
      [if s.eng.phase = .idle then .start else .rstart] (s.answered .start k d) := by
  have row := encoderTable_startCode (c := s.cfg.codes) h.phase
  have performs : s.answered .start k d = (s.awaiting .start k).performStart :=
    engineAct_command (s := s.awaiting .start k) d h.phase stop rfl
  simp only [State.performStart] at performs
  rw [encodeStatus_of_table ((s.awaiting .start k).emit _) row] at performs
  refine h.engineRan k d ?_ ?_
  · rw [performs, ← h.ecmd]; rfl
  · rw [performs]; rfl

/-- A byte answered that was sent (rules R177, R182, R183). -/
theorem answered_tx (h : Issuable .tx s) (k : Nat) (d : EngineDraw) :
    EngineRan s k
      { s.eng with
        code := codeFieldOf (sentCode s.cfg.codes s.eng.phase s.eng.data d.tx)
        phase := sentPhase s.eng.phase s.eng.data d.tx, int := true }
      [sentEvent s.eng.data d.tx] (s.answered .tx k d) := by
  obtain ⟨stop, inside⟩ := h.enabled.resolve_left nofun
  have performs : s.answered .tx k d = (s.awaiting .tx k).performTx d.tx :=
    engineAct_command (s := s.awaiting .tx k) d h.phase stop rfl
  have ack := encoderTable_tx (c := s.cfg.codes) h.phase inside s.eng.data
  have lost := encoderTable_lost (c := s.cfg.codes) h.phase inside s.eng.data
  simp only [State.performTx] at performs
  cases o : d.tx <;> rw [o] at performs <;> simp only at performs
  · rw [encodeStatus_of_table ((s.awaiting .tx k).emit _) (ack false)] at performs
    refine h.engineRan k d ?_ ?_
    · rw [performs, ← h.ecmd]; rfl
    · rw [performs]; rfl
  · rw [encodeStatus_of_table ((s.awaiting .tx k).emit _) (ack true)] at performs
    refine h.engineRan k d ?_ ?_
    · rw [performs, ← h.ecmd]; rfl
    · rw [performs]; rfl
  · rw [encodeStatus_of_table ((s.awaiting .tx k).releaseEngine.emit _) lost] at performs
    refine h.engineRan k d ?_ ?_
    · rw [performs, ← h.ecmd]; rfl
    · rw [performs]; rfl

/-- The command that receives a byte and sends this acknowledge bit (42_session.md rules R216, R217). -/
def readCmd (nack : Bool) : EngineCmd := if nack then .rxNack else .rxAck

theorem exec_read (nack : Bool) (s : State) :
    exec (if nack then .sesReadNack else .sesReadAck) s = runOp (sesCommand (readSession (readCmd nack))) s := by
  cases nack <;> rfl

/-- A byte answered that was received (rules R178, R184). -/
theorem answered_rx {nack : Bool} (h : Issuable (readCmd nack) s) (k : Nat) (d : EngineDraw) :
    EngineRan s k
      { s.eng with
        data := d.rx, code := codeFieldOf (receivedCode s.cfg.codes nack), phase := .mr, int := true }
      [.byte d.rx nack] (s.answered (readCmd nack) k d) := by
  obtain ⟨stop, inside⟩ := h.enabled.resolve_left (by cases nack <;> nofun)
  have performs : s.answered (readCmd nack) k d = (s.awaiting (readCmd nack) k).performRx nack d.rx := by
    have act := engineAct_command (s := s.awaiting (readCmd nack) k) d h.phase stop rfl
    cases nack <;> exact act
  have row := encoderTable_rx (c := s.cfg.codes) h.phase inside nack
  simp only [State.performRx] at performs
  rw [encodeStatus_of_table (({ s.awaiting (readCmd nack) k with eng.data := d.rx } : State).emit _) row] at performs
  refine h.engineRan k d ?_ ?_
  · rw [performs, ← h.ecmd]; rfl
  · rw [performs]; rfl

/-! ### From the issue of a command to its answer -/

/-- One poll (rule R190). -/
theorem pollInt_passes (n : Nat) (passes : tick s = .ok () t) :
    pollInt (n + 1) s =
      if t.eng.int = false ∧ t.ses.waitcnt < t.cfg.waitBudget then
        pollInt n { t with ses.waitcnt := t.ses.waitcnt + 1 }
      else .ok () t := by
  rw [pollInt, op_bind, readLine_passes passes]
  simp only [id]
  split <;> rfl

theorem pollInt_takesMoves (n : Nat) : TakesMoves (pollInt (n + 1)) := TakesMoves.bind (TakesMoves.readLine id)

/-- A turn of the sequencer in a busy-wait is a poll that finds `INT = 0`. -/
theorem pollInt_turn (n : Nat) (l : List Move) (int : s.eng.int = false) (below : s.ses.waitcnt < s.cfg.waitBudget) :
    pollInt (n + 1) (s.withInputs (.seq :: l)) =
      pollInt n (({ s with ses.waitcnt := s.ses.waitcnt + 1 } : State).withInputs l) := by
  have passes : tick (s.withInputs (.seq :: l)) = .ok () (s.withInputs l) := (Runs.tick s).turns l
  rw [pollInt_passes n passes, if_pos ⟨int, below⟩]

theorem pollInt_turns {k n : Nat} {d : EngineDraw} {l : List Move} (hk : k < n)
    (int : s.eng.int = false) (below : s.ses.waitcnt + k ≤ s.cfg.waitBudget) :
    pollInt n (s.withInputs (polled k d ++ l)) =
      pollInt (n - k)
        ((({ s with ses.waitcnt := s.ses.waitcnt + k } : State).apply (.engine d)).withInputs l) := by
  induction k generalizing s n with
  | zero =>
    obtain ⟨n, rfl⟩ := Nat.exists_eq_add_one.mpr hk
    exact pollInt_takesMoves n s (.engine d) l nofun (by simp [fires])
  | succ k ih =>
    obtain ⟨n, rfl⟩ := Nat.exists_eq_add_one.mpr (Nat.zero_lt_of_lt hk)
    show pollInt (n + 1) (s.withInputs (.seq :: (polled k d ++ l))) = _
    rw [pollInt_turn n _ int (by omega),
      ih (s := { s with ses.waitcnt := s.ses.waitcnt + 1 }) (by omega) int
        (by show s.ses.waitcnt + 1 + k ≤ s.cfg.waitBudget; omega),
      Nat.add_sub_add_right]
    simp only [Nat.add_assoc, Nat.add_comm 1 k]

/-- On a free engine the command is issued without a step off the table (rule R171). -/
theorem engineIssue_runs (free : s.eng.ecmd = none) :
    Runs (engineIssue cmd) 3 s () { s with eng := { s.eng with int := false, ecmd := some cmd } } := by
  have note := Runs.line plainWrite_noteInFlight s
  rw [noteInFlight_free free] at note
  have clear := Runs.line (f := fun s => { s with eng.int := false }) (fun _ _ => rfl) s
  have issue := Runs.line (f := fun s => { s with eng.ecmd := some cmd }) (fun _ _ => rfl) { s with eng.int := false }
  unfold engineIssue
  exact note.bind (k := 2) (clear.bind (k := 1) issue)

theorem issueAndClear_runs (free : s.eng.ecmd = none) : Runs (issueAndClear cmd) 4 s () (s.awaiting cmd 0) :=
  (engineIssue_runs free).bind (k := 1) (Runs.line (f := fun s => { s with ses.waitcnt := 0 }) (fun _ _ => rfl) _)

/-- The poll that finds `INT = 1`, and the test after it (rules R190, R192). -/
theorem engineDo_answered {d : EngineDraw} {l : List Move} (h : Issuable cmd s) (hk : k ≤ s.cfg.waitBudget)
    (poll : tick ((s.answered cmd k d).withInputs l) = .ok () u) (test : tick u = .ok () t) (int : u.eng.int = true)
    (int' : t.eng.int = true) :
    engineDo cmd (s.withInputs (turns 4 ++ (polled k d ++ l))) = .ok t.statusSeen t := by
  have acts := apply_engine_acts d (h.awaiting k).engineActs
  obtain ⟨n, more⟩ : ∃ n, s.cfg.waitBudget + 1 - k = n + 1 := ⟨s.cfg.waitBudget - k, by omega⟩
  have polls : pollInt (s.cfg.waitBudget + 1) ((s.awaiting cmd 0).withInputs (polled k d ++ l)) = .ok () u := by
    rw [pollInt_turns (s := s.awaiting cmd 0) (by omega) rfl (by simpa using hk)]
    simp only [Nat.zero_add, acts, more]
    rw [pollInt_passes n poll]
    simp [int]
  refine (engineDo_hw (s := s.withInputs (turns 4 ++ (polled k d ++ l))) cmd h.backend).trans ?_
  rw [engineDoHw_eq, (issueAndClear_runs h.ecmd).then, awaitReply, peek_then, op_bind, polls]
  show (readLine id >>= _) u = _
  rw [op_bind, readLine_passes test]
  simp only [id, int', if_true]
  rfl

/-- On turns of the sequencer: two, for the poll and the test. -/
theorem engineDo_polled (h : Issuable cmd s) (stop : s.eng.pendStop = false) (hk : k ≤ s.cfg.waitBudget)
    (d : EngineDraw) (l : List Move) :
    engineDo cmd (s.withInputs (turns 4 ++ (polled k d ++ (turns 2 ++ l)))) =
      .ok (s.answered cmd k d).statusSeen ((s.answered cmd k d).withInputs l) := by
  have int := (h.performed stop k d).int
  exact engineDo_answered h hk ((Runs.tick _).turns (turns 1 ++ l)) ((Runs.tick _).turns l) int int

/-- Whatever the other agents do from the engine's answer on. -/
theorem engineDo_polled_between (h : Issuable cmd s) (stop : s.eng.pendStop = false) (hk : k ≤ s.cfg.waitBudget)
    (d : EngineDraw) {l : List Move} (silent : Move.guard ∉ l) :
    ∃ t, engineDo cmd (s.withInputs (turns 4 ++ (polled k d ++ l))) = .ok (s.answered cmd k d).statusSeen t ∧
      Between ((s.answered cmd k d).withInputs l) t := by
  have done := h.performed stop k d
  have still : ((s.answered cmd k d).withInputs l).engineEnabled = false := done.disabled
  obtain ⟨u, poll, b⟩ := tick_passes (s := (s.answered cmd k d).withInputs l) silent
  obtain ⟨t, test, b'⟩ := tick_passes (b.guardSilent silent)
  have both := b.trans b'
  have engU := (b.engOfDisabled still).1
  have engT := (both.engOfDisabled still).1
  have runs := engineDo_answered h hk poll test (by rw [engU]; exact done.int) (by rw [engT]; exact done.int)
  have seen : t.statusSeen = (s.answered cmd k d).statusSeen := by
    simp [State.statusSeen, State.statReg, engT, both.ses]
  exact ⟨t, seen ▸ runs, both⟩

end

/-! ### `SES_WRITE` and the reads -/

section
variable {s t : State} {k : Nat} {e : Engine} {events : List Event}

/-- What the session sees after a command the engine encoded (rule R192). -/
theorem EngineRan.seen {x : Byte} (h : EngineRan s k e events t) (wf : s.cfg.codes.wf)
    (phase : x ∈ s.cfg.codes.phaseCodes) (code : e.code = codeFieldOf x) : t.statusSeen = x :=
  statusSeen_phaseCode (by rw [h.cfg]; exact wf) (by rw [h.cfg]; exact phase) (by rw [h.eng, code])

/-- `SES_WRITE` loads `DATA` in its first line (rule R214). -/
theorem writeSession_loads (data : Byte) (n : Nat) (l : List Move) (configured : s.ses.clkdiv ≠ 0#8) :
    writeSession data (s.withInputs (turns (1 + n) ++ l)) =
      (engineDo .tx >>= fun st => pure (writeResult s.cfg.codes st))
        (({ s with eng.data := data } : State).withInputs (turns n ++ l)) := by
  rw [writeSession, peek_then, if_neg configured, turns_add, List.append_assoc,
    (Runs.line (f := fun s => { s with eng.data := data }) (fun _ _ => rfl) s).then]
  rfl

/-- The engine's registers after a byte sent (rules R177, R182, R183). -/
abbrev Engine.sent (c : Codes) (data : Byte) (o : TxOutcome) (e : Engine) : Engine :=
  { e with
    data := data, code := codeFieldOf (sentCode c e.phase data o), phase := sentPhase e.phase data o, int := true }

/-- `SES_WRITE` answered by the engine in time, whatever comes after the answer. -/
theorem writeSession_polled (h : Issuable .tx s) (wf : s.cfg.codes.wf) (hk : k ≤ s.cfg.waitBudget) (data : Byte)
    (d : EngineDraw) {l : List Move} (silent : Move.guard ∉ l) :
    ∃ t, writeSession data (s.withInputs (turns 5 ++ (polled k d ++ l))) =
        .ok (writeResult s.cfg.codes (sentCode s.cfg.codes s.eng.phase data d.tx)) t ∧
      EngineRan s k (s.eng.sent s.cfg.codes data d.tx) [sentEvent data d.tx] t ∧ Performed t ∧ GuardSilent t := by
  have loaded : Issuable .tx { s with eng.data := data } := h.congr rfl rfl rfl rfl rfl rfl
  obtain ⟨stop, -⟩ := h.enabled.resolve_left nofun
  have done := loaded.performed stop k d
  have ran := answered_tx loaded k d
  have seen := ran.seen wf (sentCode_phaseCode s.cfg.codes s.eng.phase data d.tx) rfl
  obtain ⟨t, runs, b⟩ := engineDo_polled_between loaded stop hk d silent
  have ran' : EngineRan s k (s.eng.sent s.cfg.codes data d.tx) [sentEvent data d.tx] _ := { ran with }
  refine ⟨t, ?_, EngineRan.between (t := State.withInputs _ l) { ran' with } done.disabled b,
    done.of_eng (b.engOfDisabled done.disabled).1, b.guardSilent silent⟩
  rw [show 5 = 1 + 4 from rfl, writeSession_loads data 4 _ h.configured, op_bind, runs, seen]
  rfl

end

/-- A command on the byte engine starts from a free engine (rule R190). -/
theorem EngineFree.issuable {s : State} {cmd : EngineCmd} (free : EngineFree s)
    (h : cmd = .start ∨ s.eng.phase ≠ .idle) : Issuable cmd s.running := by
  obtain ⟨backend, configured, ecmd, stop, known⟩ := free
  exact ⟨backend, configured, rfl, ecmd, known, h.imp_right fun inside => ⟨stop, inside⟩⟩

/-- The response to a session command whose body the engine has answered. -/
theorem sesCommand_engineRan {s u : State} {body : Op Byte} {code : Byte} {k : Nat} {e : Engine} {events : List Event}
    (ready : SessionReady s) (runs : body s.running = .ok code u) (ran : EngineRan s.running k e events u)
    (done : Performed u) (silent : GuardSilent u) :
    ∃ t, runOp (sesCommand body) s = .next t ∧ Responded code 0#2 t ∧ t.frm = s.frm ∧ t.drv = s.drv ∧
      t.ses = { s.ses with waitcnt := k } ∧ t.eng = e ∧ t.bus.trace = s.bus.trace ++ events := by
  obtain ⟨v, passes, b⟩ := tick_passes silent
  have ran' := ran.between done.disabled b
  exact ⟨_, sesCommand_answers ready runs passes, responded_run code v, ran'.frm, ran'.drv, ran'.ses, ran'.eng,
    ran'.trace⟩

/-- Settles O36: five lines to the first poll, and from the engine's answer on its registers are left alone. -/
theorem sesWriteOnTheEngine : Obligations.SesWriteOnTheEngine := by
  unfold Obligations.SesWriteOnTheEngine
  intro data k d rest s ready free silent wf hk inputs inside c nack address code stat phase
  have silent' : Move.guard ∉ rest := fun fired => silent (by rw [inputs]; simp [fired])
  have issuable : Issuable .tx s.running := free.issuable (.inr inside)
  obtain ⟨u, runs, ran, done, quiet⟩ := writeSession_polled issuable wf hk data d silent'
  rw [withInputs_self (by rw [← List.append_assoc]; exact inputs)] at runs
  obtain ⟨t, ends, responded, frm, drv, ses, eng, trace⟩ := sesCommand_engineRan ready runs ran done quiet
  have codes : code = writeResult c (sentCode c s.eng.phase data d.tx) := by
    rw [writeResult_sent wf]
    simp only [code, address, nack, c, addressCode_eq, decide_eq_true_eq]
  have stats : stat = sentCode c s.eng.phase data d.tx := by
    simp only [stat, address, nack, sentCode, addressCode_eq, decide_eq_true_eq]
  rw [codes, stats]
  exact ⟨t, ends, responded, frm, drv, ses, eng, trace⟩

/-- Settles O38: four lines to the first poll, and `DATA` is the byte received. -/
theorem sesReadOnTheEngine : Obligations.SesReadOnTheEngine := by
  unfold Obligations.SesReadOnTheEngine
  intro nack k d rest s ready free silent hk inputs inside stat
  have silent' : Move.guard ∉ rest := fun fired => silent (by rw [inputs]; simp [fired])
  have issuable : Issuable (readCmd nack) s.running := free.issuable (.inr inside)
  have stop : s.running.eng.pendStop = false := free.2.2.2.1
  have done := issuable.performed stop k d
  obtain ⟨u, runs, b⟩ := engineDo_polled_between issuable stop hk d silent'
  rw [withInputs_self (by rw [← List.append_assoc]; exact inputs)] at runs
  obtain ⟨v, passes, b'⟩ := tick_passes (b.guardSilent silent')
  have ran := EngineRan.between (t := State.withInputs _ rest) { answered_rx issuable k d with } done.disabled
    (b.trans b')
  have body : readSession (readCmd nack) s.running = .ok d.rx v := by
    rw [readSession, peek_then, if_neg ready.2, op_bind, runs]
    show readLine _ u = _
    rw [readLine_passes passes, ran.eng]
  rw [exec_read]
  exact sesCommand_engineRan ready body ran (done.of_eng ((b.trans b').engOfDisabled done.disabled).1)
    ((b.trans b').guardSilent silent')

end Sys2Proof.Machine

/-! ## A START and a STOP of the session on the byte engine (42_session.md rules R212, R213, R218; 20_memory.md rule
R81) -/

namespace Sys2Proof.Machine

/-! ### `SES_START` on a free engine -/

theorem addressByte_direction (address : Byte) (mode : Mode) :
    (addressByte address mode).getLsbD 0 = decide (mode = .read) := by
  rw [← Mode.bit_eq_decide, addressByte, BitVec.getLsbD_shiftConcat]
  simp

/-- The code of an address byte by the mode asked for (30_encoding.md rule R112). -/
theorem addressCode_addressByte (c : Codes) (address : Byte) (mode : Mode) (nack : Bool) :
    addressCode c (addressByte address mode) nack =
      if nack then (if mode = .read then c.mrSlaNack else c.mtSlaNack) else addressAck c mode := by
  rw [addressCode_eq, addressByte_direction]
  cases mode <;> cases nack <;> rfl

/-- How the address byte after a START ends, by the mode asked for (rules R182, R177). -/
theorem sentCode_addressByte (c : Codes) (address : Byte) (mode : Mode) (o : TxOutcome) :
    sentCode c .started (addressByte address mode) o =
      if o = .lost then c.arbLost
      else if o = .nack then (if mode = .read then c.mrSlaNack else c.mtSlaNack) else addressAck c mode := by
  simp only [sentCode, if_true, addressCode_addressByte, decide_eq_true_eq]

theorem sentPhase_addressByte (address : Byte) (mode : Mode) (o : TxOutcome) :
    sentPhase .started (addressByte address mode) o =
      if o = .lost then .idle else if mode = .read then .mr else .mt := by
  rw [sentPhase, addressByte_direction]
  simp

/-- The answer of `SES_START` by the result of its address byte (42_session.md rule R212). -/
def startResult (c : Codes) (mode : Mode) (r : Byte) : Byte := if r = 0#8 ∨ r = addressAck c mode then 0#8 else r

theorem startResult_ack (c : Codes) (mode : Mode) : startResult c mode (addressAck c mode) = 0#8 := by
  simp [startResult]

/-- A code of a bus phase that is not the address acknowledge is the answer unchanged (42_session.md rule R213). -/
theorem startResult_other {c : Codes} (wf : c.wf) {mode : Mode} {x : Byte} (phase : x ∈ c.phaseCodes)
    (other : x ≠ addressAck c mode) : startResult c mode x = x := by
  have nonzero := (wf.1 x (by simp [phase])).1
  simp [startResult, nonzero, other]

theorem ne_addressAck {c : Codes} (wf : c.wf) (mode : Mode) {x : Byte}
    (h : x = c.arbLost ∨ x = c.mrSlaNack ∨ x = c.mtSlaNack) : x ≠ addressAck c mode := by
  obtain ⟨-, distinct, -⟩ := wf
  simp only [Codes.phaseCodes, List.nodup_cons, List.mem_cons, List.not_mem_nil, not_or, or_false] at distinct
  cases mode <;> simp only [addressAck] <;> grind

/-- The answer to an address byte sent after a START (42_session.md rules R212, R213). -/
theorem startResult_sent {c : Codes} (wf : c.wf) (address : Byte) (mode : Mode) (o : TxOutcome) :
    startResult c mode (writeResult c (sentCode c .started (addressByte address mode) o)) =
      if o = .lost then c.arbLost
      else if o = .nack then (if mode = .read then c.mrSlaNack else c.mtSlaNack) else 0#8 := by
  rw [writeResult_sent wf]
  simp only [if_true, addressCode_addressByte, decide_eq_true_eq]
  split_ifs
  · exact startResult_other wf (by simp [Codes.phaseCodes]) (ne_addressAck wf mode (.inl rfl))
  · exact startResult_other wf (by simp [Codes.phaseCodes]) (ne_addressAck wf mode (.inr (.inl rfl)))
  · exact startResult_other wf (by simp [Codes.phaseCodes]) (ne_addressAck wf mode (.inr (.inr rfl)))
  · exact startResult_ack c mode

theorem startOk_started (c : Codes) (idle : Prop) [Decidable idle] :
    startOk c (if idle then c.start else c.repStart) = true := by
  split <;> simp [startOk]

section
variable {s : State} {k k' : Nat}

/-- `SES_START` answered by the engine in time, the START and then the address byte. -/
theorem startSession_polled (h : Issuable .start s) (stop : s.eng.pendStop = false) (wf : s.cfg.codes.wf)
    (hk : k ≤ s.cfg.waitBudget) (hk' : k' ≤ s.cfg.waitBudget) (address : Byte) (mode : Mode) (d d' : EngineDraw)
    {l : List Move} (silent : Move.guard ∉ l) :
    ∃ t, startSession address mode (s.withInputs (turns 4 ++ (polled k d ++ (turns 7 ++ (polled k' d' ++ l))))) =
        .ok (startResult s.cfg.codes mode
          (writeResult s.cfg.codes (sentCode s.cfg.codes .started (addressByte address mode) d'.tx))) t ∧
      EngineRan s k' (({ s.eng with phase := .started } : Engine).sent s.cfg.codes (addressByte address mode) d'.tx)
        [if s.eng.phase = .idle then .start else .rstart, sentEvent (addressByte address mode) d'.tx] t ∧
      Performed t ∧ GuardSilent t := by
  have ran := answered_start h stop k d
  have seen := ran.seen wf (x := if s.eng.phase = .idle then s.cfg.codes.start else s.cfg.codes.repStart)
    (by split <;> simp [Codes.phaseCodes]) rfl
  have starts := engineDo_polled h stop hk d (turns 5 ++ (polled k' d' ++ l))
  rw [seen] at starts
  have issuable : Issuable .tx (s.answered .start k d) :=
    ⟨by rw [ran.cfg]; exact h.backend, by rw [ran.ses]; exact h.configured, ran.issued.trans h.unissued,
      by rw [ran.eng]; exact h.ecmd, by rw [ran.eng]; nofun, .inr (by rw [ran.eng]; exact ⟨stop, nofun⟩)⟩
  obtain ⟨t, writes, ran', done, quiet⟩ := writeSession_polled (k := k') issuable (by rw [ran.cfg]; exact wf)
    (by rw [ran.cfg]; exact hk') (addressByte address mode) d' silent
  simp only [ran.cfg, ran.eng] at writes ran'
  exact ⟨t, startSession_addressed h.configured starts (startOk_started _ _) writes, ran.trans ran', done, quiet⟩

end

/-! ### A STOP performed meanwhile (20_memory.md rule R81; 41_engine_status.md rule R179) -/

/-- The pending STOP performed (rules R179, R185). -/
abbrev State.stopPerformed (s : State) : State :=
  { s with bus.trace := s.bus.trace ++ [.stop], eng.pendStop := false, eng.phase := .idle,
           eng.code := codeFieldOf s.cfg.codes.noInfo }

/-- A STOP of an earlier operation is pending: the engine's next step performs it. -/
structure StopPending (s : State) : Prop where
  backend : s.cfg.backend = .hw
  configured : s.ses.clkdiv ≠ 0#8
  unissued : s.port.stopIssued = false
  phase : s.eng.phase ≠ .unknown
  pendStop : s.eng.pendStop = true

theorem StopPending.apply {s : State} (h : StopPending s) (d : EngineDraw) : s.apply (.engine d) = s.stopPerformed := by
  rw [apply_engine_acts d (engineActs_stop h.backend h.configured h.pendStop (.inr h.unissued)),
    engineAct_stop d h.phase h.pendStop]

/-- Before one of its first `b` lines the engine performs the pending STOP: it comes to the same as if it had done so
before the operation. -/
def StopEarlier {α : Type} (x : Op α) (b : Nat) (s : State) : Prop :=
  ∀ (d : EngineDraw) (m : Nat) (l : List Move), m < b →
    x (s.withInputs (turns m ++ .engine d :: l)) = x (s.stopPerformed.withInputs (turns m ++ l))

section
variable {α β : Type} {s t : State}

/-- Before the first line. -/
theorem StopPending.first {x : Op α} (h : StopPending s) (moves : TakesMoves x) : StopEarlier x 1 s := by
  intro d m l hm
  obtain rfl : m = 0 := by omega
  show x (s.withInputs (.engine d :: l)) = x (s.stopPerformed.withInputs l)
  rw [moves s (.engine d) l nofun (by simp [fires]), h.apply]

theorem StopEarlier.bind {x : Op α} {f : α → Op β} {j b : Nat} {a : α} (h : StopEarlier x j s) (runs : Runs x j s a t)
    (runs' : Runs x j s.stopPerformed a t.stopPerformed) (k : StopEarlier (f a) b t) :
    StopEarlier (x >>= f) (j + b) s := by
  intro d m l hm
  by_cases before : m < j
  · rw [op_bind, op_bind, h d m l before]
  · obtain ⟨n, rfl⟩ := Nat.exists_eq_add_of_le (Nat.le_of_not_lt before)
    rw [turns_add, List.append_assoc, List.append_assoc, runs.then, runs'.then]
    exact k d n l (by omega)

theorem StopEarlier.bindSame {x : Op α} {b : Nat} (h : StopEarlier x b s) (f : α → Op β) :
    StopEarlier (x >>= f) b s := by
  intro d m l hm
  rw [op_bind, op_bind, h d m l hm]

end

section
variable {s : State}

/-- A poll that finds `INT = 0` counts, whether the STOP was performed or not (rule R190). -/
theorem pollInt_stopEarlier (h : StopPending s) (int : s.eng.int = false) {b n : Nat} (hn : b ≤ n)
    (below : s.ses.waitcnt + b ≤ s.cfg.waitBudget + 1) : StopEarlier (pollInt n) b s := by
  intro d m l hm
  induction m generalizing s b n with
  | zero =>
    obtain ⟨n, rfl⟩ := Nat.exists_eq_add_one.mpr (Nat.zero_lt_of_lt (hm.trans_le hn))
    exact h.first (pollInt_takesMoves n) d 0 l (by omega)
  | succ m ih =>
    obtain ⟨n, rfl⟩ := Nat.exists_eq_add_one.mpr (Nat.zero_lt_of_lt (hm.trans_le hn))
    have short : s.ses.waitcnt < s.cfg.waitBudget := by omega
    show pollInt (n + 1) (s.withInputs (.seq :: (turns m ++ .engine d :: l))) =
      pollInt (n + 1) (s.stopPerformed.withInputs (.seq :: (turns m ++ l)))
    rw [pollInt_turn n _ int short, pollInt_turn (s := s.stopPerformed) n _ int short]
    exact ih (s := { s with ses.waitcnt := s.ses.waitcnt + 1 }) { h with } int (b := m + 1) (by omega)
      (by show s.ses.waitcnt + 1 + (m + 1) ≤ s.cfg.waitBudget + 1; omega) (by omega)

theorem awaitReply_stopEarlier (h : StopPending s) (int : s.eng.int = false) (zero : s.ses.waitcnt = 0) :
    StopEarlier awaitReply (s.cfg.waitBudget + 1) s := by
  intro d m l hm
  rw [awaitReply, peek_then, peek_then]
  exact (pollInt_stopEarlier h int (n := s.cfg.waitBudget + 1) (Nat.le_refl _) (by omega)).bindSame _ d m l hm

theorem engineIssue_stopEarlier (h : StopPending s) (free : s.eng.ecmd = none) (cmd : EngineCmd) :
    StopEarlier (engineIssue cmd) 3 s := by
  have note := Runs.line plainWrite_noteInFlight s
  have note' := Runs.line plainWrite_noteInFlight s.stopPerformed
  rw [noteInFlight_free free] at note
  rw [noteInFlight_free (t := s.stopPerformed) free] at note'
  have clear (u : State) := Runs.line (f := fun s => { s with eng.int := false }) (fun _ _ => rfl) u
  have cleared : StopPending { s with eng.int := false } := { h with }
  unfold engineIssue
  refine (h.first (TakesMoves.line _)).bind (b := 2) note note' ?_
  refine (h.first (TakesMoves.line _)).bind (b := 1) (clear s) (clear s.stopPerformed) ?_
  exact cleared.first (TakesMoves.line _)

/-- From the issue of a START on: up to the last poll before the engine's own step for it. -/
theorem engineDo_stopEarlier (h : StopPending s) (free : s.eng.ecmd = none) (cmd : EngineCmd) :
    StopEarlier (engineDo cmd) (4 + (s.cfg.waitBudget + 1)) s := by
  have issued : StopPending { s with eng := { s.eng with int := false, ecmd := some cmd } } := { h with }
  have issue := (engineIssue_stopEarlier h free cmd).bind (b := 1) (engineIssue_runs free)
    (engineIssue_runs (s := s.stopPerformed) free) (f := fun _ => line fun s => { s with ses.waitcnt := 0 })
    (issued.first (TakesMoves.line _))
  have wait := awaitReply_stopEarlier (s := s.awaiting cmd 0) { h with } rfl rfl
  have whole := StopEarlier.bind (x := issueAndClear cmd) (f := fun _ => awaitReply) issue (issueAndClear_runs free)
    (issueAndClear_runs (s := s.stopPerformed) free) wait
  intro d m l hm
  refine (engineDo_hw (s := s.withInputs (turns m ++ .engine d :: l)) cmd h.backend).trans ?_
  refine Eq.trans ?_ (engineDo_hw (s := s.stopPerformed.withInputs (turns m ++ l)) cmd h.backend).symm
  rw [engineDoHw_eq]
  exact whole d m l hm

theorem startSession_stopEarlier (h : StopPending s) (free : s.eng.ecmd = none) (address : Byte) (mode : Mode) :
    StopEarlier (startSession address mode) (4 + (s.cfg.waitBudget + 1)) s := by
  intro d m l hm
  rw [startSession, peek_then, peek_then, if_neg h.configured]
  exact (engineDo_stopEarlier h free .start).bindSame _ d m l hm

end

section
variable {s u : State} {k k' n : Nat} {d d' : EngineDraw} {rest : List Move} {events : List Event}

/-- `SES_START` that runs as from `u`, a state with a free engine that differs in what the engine did. -/
theorem sesStart_answered (ready : SessionReady s) (ran : EngineRan s.running n u.eng events u)
    (ecmd : u.eng.ecmd = none) (stop : u.eng.pendStop = false) (known : u.eng.phase ≠ .unknown)
    (backend : s.cfg.backend = .hw) (wf : s.cfg.codes.wf) (hk : k ≤ s.cfg.waitBudget) (hk' : k' ≤ s.cfg.waitBudget)
    (silent : Move.guard ∉ rest) {address : Byte} {mode : Mode}
    (same : startSession address mode s.running =
      startSession address mode (u.withInputs (turns 4 ++ (polled k d ++ (turns 7 ++ (polled k' d' ++ rest)))))) :
    ∃ t, exec (.sesStart mode address) s = .next t ∧
      Responded (startResult s.cfg.codes mode
        (writeResult s.cfg.codes (sentCode s.cfg.codes .started (addressByte address mode) d'.tx))) 0#2 t ∧
      t.frm = s.frm ∧ t.drv = s.drv ∧ t.ses = { s.ses with waitcnt := k' } ∧
      t.eng = ({ u.eng with phase := .started } : Engine).sent s.cfg.codes (addressByte address mode) d'.tx ∧
      t.bus.trace = s.bus.trace ++ (events ++
        [if u.eng.phase = .idle then .start else .rstart, sentEvent (addressByte address mode) d'.tx]) := by
  have cfg : u.cfg = s.cfg := ran.cfg
  have issuable : Issuable .start u := ⟨by rw [cfg]; exact backend, by rw [ran.ses]; exact ready.2, ran.issued, ecmd,
    known, .inl rfl⟩
  obtain ⟨v, runs, ran', done, quiet⟩ := startSession_polled (k := k) (k' := k') issuable stop (by rw [cfg]; exact wf)
    (by rw [cfg]; exact hk) (by rw [cfg]; exact hk') address mode d d' silent
  rw [cfg] at runs ran'
  exact sesCommand_engineRan ready (same.trans runs) (ran.trans ran') done quiet

end

/-- Settles O37: a START and an address byte answered in time; a STOP performed before the START's step leaves a free
engine on the free bus. -/
theorem sesStartOnTheEngine : Obligations.SesStartOnTheEngine := by
  unfold Obligations.SesStartOnTheEngine
  intro mode address k' d' rest s ready silent wf hk' c lost nack code started
  have codes : startResult c mode (writeResult c (sentCode c .started (addressByte address mode) d'.tx)) = code := by
    rw [startResult_sent wf]
    simp only [code, lost, nack, c, decide_eq_true_eq]
  have phases : sentPhase .started (addressByte address mode) d'.tx =
      if lost then .idle else if mode = .read then .mr else .mt := by
    rw [sentPhase_addressByte]
    simp only [lost, decide_eq_true_eq]
  have traced : sentEvent (addressByte address mode) d'.tx =
      if lost then .lost else .byte (addressByte address mode) nack := by
    simp only [sentEvent, lost, nack, decide_eq_true_eq]
  refine ⟨fun k d free hk inputs => ?_, fun m n stop d backend ecmd pending known enough inTime inputs => ?_⟩
  · obtain ⟨backend, -, ecmd, noStop, known⟩ := free
    have silent' : Move.guard ∉ rest := fun fired => silent (by rw [inputs]; simp [fired])
    have ran : EngineRan s.running s.ses.waitcnt s.running.eng [] s.running :=
      ⟨rfl, rfl, rfl, rfl, rfl, (List.append_nil _).symm, rfl⟩
    obtain ⟨t, ends, responded, frm, drv, ses, eng, trace⟩ := sesStart_answered (d := d) (d' := d') ready ran ecmd
      noStop known backend wf hk hk' silent' (address := address) (mode := mode)
      (by rw [withInputs_self]; simpa using inputs)
    rw [codes] at responded
    rw [traced] at trace
    exact ⟨t, ends, responded, frm, drv, ses, by rw [eng], by rw [eng]; exact ecmd, by rw [eng]; exact noStop,
      by rw [eng]; exact phases, by simpa using trace⟩
  · have silent' : Move.guard ∉ rest := fun fired => silent (by rw [inputs]; simp [fired])
    have pend : StopPending s.running := ⟨backend, ready.2, rfl, known, pending⟩
    have ran : EngineRan s.running s.ses.waitcnt s.running.stopPerformed.eng [.stop] s.running.stopPerformed :=
      ⟨rfl, rfl, rfl, rfl, rfl, rfl, rfl⟩
    obtain ⟨k, count⟩ := Nat.exists_eq_add_of_le enough
    have same := startSession_stopEarlier pend ecmd address mode stop m
      (turns n ++ .engine d :: (turns 7 ++ (polled k' d' ++ rest))) (show m < 4 + (s.cfg.waitBudget + 1) by omega)
    rw [← List.append_assoc (turns m) (turns n), ← turns_add, count, turns_add, withInputs_self
      (by rw [show s.running.inputs = _ from inputs]; simp [polled])] at same
    obtain ⟨t, ends, responded, frm, drv, ses, eng, trace⟩ := sesStart_answered (k := k) (d := d) (d' := d') ready ran
      ecmd rfl nofun backend wf (by omega) hk' silent' (by rw [same]; simp [polled])
    rw [codes] at responded
    rw [traced] at trace
    exact ⟨t, ends, responded, frm, drv, ses, by rw [eng], by rw [eng]; exact ecmd, by rw [eng],
      by rw [eng]; exact phases, by simpa using trace⟩

/-! ### `SES_STOP` -/

section
variable {s u v : State}

/-- The STOP issued: pending, and this operation's own (rules R81, R171). -/
abbrev State.stopIssue (s : State) : State := { s with eng.pendStop := true, port.stopIssued := true }

/-- `EngineStop()` on a free engine is two lines (rules R171, R194). -/
theorem stopSession_issues (configured : s.ses.clkdiv ≠ 0#8) (hb : s.cfg.backend = .hw) (passes : tick s = .ok () u)
    (free : u.eng.ecmd = none) (passes' : tick u = .ok () v) : stopSession s = .ok 0#8 v.stopIssue := by
  have engine : engineStop s = .ok () v.stopIssue := by
    rw [engineStop, peek_then, hb]
    show (line State.noteInFlight >>= _) s = _
    rw [op_bind, line_passes passes State.noteInFlight, noteInFlight_free free]
    exact line_passes passes' State.stopIssue
  rw [stopSession, peek_then, if_neg configured, op_bind, engine]
  rfl

/-- Until the STOP is issued an earlier one may be performed, and nothing else comes of the engine. -/
theorem stopSession_pending (h : Issuable .start s) (silent : GuardSilent s) :
    ∃ v, stopSession s = .ok 0#8 v.stopIssue ∧ Between s v ∧ v.eng.phase ≠ .unknown := by
  have keeps := issuable_movesKeep .start s.eng.int
  obtain ⟨u, passes, b⟩ := tick_passes silent
  obtain ⟨-, issuable, int⟩ := (keeps.tick ⟨h, rfl⟩).of_ok passes
  obtain ⟨v, passes', b'⟩ := tick_passes (b.guardSilent silent)
  obtain ⟨-, issuable', -⟩ := (keeps.tick ⟨issuable, int⟩).of_ok passes'
  exact ⟨v, stopSession_issues h.configured h.backend passes issuable.ecmd passes', b.trans b', issuable'.phase⟩

end

/-- Settles O39: the STOP issued is held to the operation's end, and then the engine's first step is its own. -/
theorem sesStopOnTheEngineIsPending : Obligations.SesStopOnTheEngineIsPending := by
  unfold Obligations.SesStopOnTheEngineIsPending
  intro d s ready hb silent free known
  obtain ⟨v, runs, b, phase⟩ := stopSession_pending (s := s.running) ⟨hb, ready.2, rfl, free, known, .inl rfl⟩ silent
  obtain ⟨w, passes, b'⟩ := tick_passes (s := v.stopIssue) (b.guardSilent silent)
  have held : v.stopIssue.stopHeld = true := by simp [State.stopHeld, show v.port.busy = true from b.busy, phase]
  obtain ⟨eng, trace⟩ := b'.engOfHeld held
  have cfg : w.cfg = s.cfg := b'.cfg.trans b.cfg
  have ses : w.ses = s.ses := b'.ses.trans b.ses
  have performs : (w.respond 0#8 false none).apply (.engine d) = (w.respond 0#8 false none).stopPerformed :=
    StopPending.apply ⟨by rw [respond_cfg, cfg]; exact hb, by rw [respond_ses, ses]; exact ready.2, rfl,
      by rw [respond_eng, eng]; exact phase, by rw [respond_eng, eng]⟩ d
  refine ⟨_, sesCommand_answers ready runs passes, responded_run 0#8 w,
    ⟨cfg, b'.drv.trans b.drv, ses, b'.frm.trans b.frm⟩, by rw [respond_eng, eng], by rw [performs], by rw [performs],
    fun quiet => ?_⟩
  have still : v.eng = s.eng ∧ v.bus.trace = s.bus.trace :=
    quiet.elim b.silent fun none => b.engOfDisabled (engineEnabled_free free none known)
  exact ⟨by rw [respond_eng, eng]; exact congrArg (fun e : Engine => { e with pendStop := true }) still.1,
    trace.trans still.2⟩

end Sys2Proof.Machine

/-! ## The session on the bit-bang driver (42_session.md rules R212 to R218; 41_engine_status.md rules R191 to R199) -/

namespace Sys2Proof.Machine

/-! ### Lines that write the engine's registers -/

/-- With `BACKEND = BB` the sequencer wrote the engine's registers, now `e`, and no other register of the core; with no
move left the bus is as it was. -/
structure EngineWrote (s : State) (e : Engine) (t : State) : Prop where
  cfg : t.cfg = s.cfg
  drv : t.drv = s.drv
  ses : t.ses = s.ses
  frm : t.frm = s.frm
  eng : t.eng = e
  suffix : t.inputs <:+ s.inputs
  alone : s.inputs = [] → t.bus = s.bus

theorem EngineWrote.refl (s : State) : EngineWrote s s.eng s :=
  ⟨rfl, rfl, rfl, rfl, rfl, List.suffix_refl _, fun _ => rfl⟩

/-- A code that `STAT` shows whole is what the session sees (rule R192; 30_encoding.md rule R111). -/
theorem statusSeen_code {t : State} {x : Byte} (wf : t.cfg.codes.wf)
    (code : x = t.cfg.codes.noInfo ∨ x ∈ t.cfg.codes.phaseCodes)
    (h : t.eng.code = codeFieldOf x) : t.statusSeen = x := by
  rw [State.statusSeen, State.statReg, h]
  exact codeField_view _ (wf.1 x (by simp [code])).2

section
variable {s t : State} {e : Engine}

theorem EngineWrote.guardSilent (h : EngineWrote s e t) (silent : GuardSilent s) : GuardSilent t :=
  fun fired => silent (h.suffix.subset fired)

variable (h : EngineWrote s e t) (hb : s.cfg.backend = .bb) (silent : GuardSilent s)
include h hb silent

theorem EngineWrote.tick : ∃ u, Machine.tick t = .ok () u ∧ EngineWrote s e u := by
  obtain ⟨u, passes, p⟩ := tick_passed (h.guardSilent silent)
  refine ⟨u, passes, p.cfg.trans h.cfg, p.drv.trans h.drv, p.ses.trans h.ses, p.frm.trans h.frm,
    (p.engOfBb (h.cfg ▸ hb)).1.trans h.eng, p.suffix.trans h.suffix, fun alone => ?_⟩
  have left : t.inputs = [] := List.suffix_nil.mp (alone ▸ h.suffix)
  rw [p.alone left, h.alone alone]

/-- A line that writes them. -/
theorem EngineWrote.line {f : State → State} (e' : Engine)
    (writes : ∀ u : State, u.cfg = s.cfg → u.eng = e → f u = { u with eng := e' }) :
    ∃ u, Machine.line f t = .ok () u ∧ EngineWrote s e' u := by
  obtain ⟨u, passes, k⟩ := h.tick hb silent
  refine ⟨f u, line_passes passes f, ?_⟩
  rw [writes u k.cfg k.eng]
  exact { k with eng := rfl }

/-- A line that encodes an event of the table (rule R180). -/
theorem EngineWrote.encodes {event : BusEvent} {code : Byte} {next : Phase}
    (row : encoderTable s.cfg.codes e.phase event = some (code, next)) :
    ∃ u, Machine.line (State.encodeStatus event) t = .ok () u ∧
      EngineWrote s { e with code := codeFieldOf code, phase := next } u :=
  h.line hb silent _ fun u cfg eng => by
    rw [← cfg, ← eng] at row
    rw [encodeStatus_of_table u row, eng]

theorem EngineWrote.reads {α : Type} (f : State → α) :
    ∃ u, readLine f t = .ok (f u) u ∧ EngineWrote s e u := by
  obtain ⟨u, passes, k⟩ := h.tick hb silent
  exact ⟨u, readLine_passes passes f, k⟩

/-- The response to a session command on the bit-bang driver. -/
theorem EngineWrote.answers {s₀ : State} {body : Op Byte} {code : Byte} (ready : SessionReady s₀)
    (runs : body s₀.running = .ok code t) :
    ∃ u, runOp (sesCommand body) s₀ = .next u ∧ Responded code 0#2 u ∧ EngineWrote s e u := by
  obtain ⟨v, passes, k⟩ := h.tick hb silent
  exact ⟨_, sesCommand_answers ready runs passes, responded_run code v, { k with }⟩

end

/-- `EngineDo(cmd)` is the adapter's operation and a line that reads the status (rules R191, R192). -/
theorem engineDo_bb {s : State} (cmd : EngineCmd) (hb : s.cfg.backend = .bb) :
    engineDo cmd s = (adapterOp cmd >>= fun _ => readLine State.statusSeen) s := by
  rw [engineDo, peek_then, hb]

/-! ### A byte sent -/

theorem Waitless.pure {α : Type} (a : α) : Waitless (Pure.pure a : Op α) := fun _ _ => nofun

theorem Waitless.tick : Waitless Machine.tick := fun s t hang => by
  have line : Machine.line id s = .error .hang t := by rw [Machine.line, op_bind, hang]
  exact Waitless.line id s t line

theorem Waitless.readLine {α : Type} (f : State → α) : Waitless (Machine.readLine f) :=
  Waitless.tick.bind fun _ _ _ => nofun

theorem Waitless.transferTail (n : Nat) : Waitless (Machine.transferTail n) := by
  unfold Machine.transferTail
  exact Waitless.tick.bind fun _ => (Waitless.readLine _).bind fun _ => (Waitless.line _).bind fun _ =>
    (Waitless.line _).bind fun _ => .pure _

/-- How the byte ends by the level of its acknowledge bit (40_bus_driver.md rule R140). -/
def ackOutcome (low : Bool) : TxOutcome := if low then .ack else .nack

section
variable {s : State} (hb : s.cfg.backend = .bb) (free : s.bus.envSclLow = false)
include hb free

/-- `putByte` with a slave that answers the acknowledge bit, whatever the other agents do from its sample on: no wait is
left. -/
theorem putByteBody_acked (data : Byte) (low : Bool) {l : List Move} (silent : Move.guard ∉ l) :
    ∃ v, putByteBody data (s.withInputs (turns 82 ++ .envSda low :: (turns 11 ++ l))) =
        .ok (if low then 1#8 else 0#8) v ∧
      Wrote (s.withInputs (turns 82 ++ .envSda low :: (turns 11 ++ l))) s.drv.afterTransfer v ∧ GuardSilent v := by
  obtain ⟨u, head, driven⟩ := putByteBody_goesOn data (Driven.start hb free)
  have slave := driven.slave low
  obtain ⟨x, loop, last⟩ := transferLoop_driven (d := Driver.loading _ cw1Bit) 0 (slave.loading cw1Bit) rfl rfl
  obtain ⟨r, v, tail, value, later⟩ := (transferTail_returns (u.apply (.envSda low)).cfg.tLow
    (x.withInputs l)).completesWaitless (.transferTail _) silent
  have answer : transfer cw1Bit (u.withInputs (.envSda low :: (turns 11 ++ l))) = .ok r v := by
    rw [transfer_slaveMove, show turns 11 ++ l = turns 2 ++ (turns 9 ++ l) from rfl, (transfer_goesOn cw1Bit _).turns]
    exact (loop.then _ l).trans tail
  have runs : putByteBody data (s.withInputs (turns 82 ++ .envSda low :: (turns 11 ++ l))) = .ok (ackResult r) v := by
    rw [head.turns, op_bind, answer]
    rfl
  have bit : ackResult r = if low then 1#8 else 0#8 := by
    rw [value, last.drv]
    exact ackResult_sampled low
  have hb' : (s.withInputs (turns 82 ++ .envSda low :: (turns 11 ++ l))).cfg.backend = .bb := hb
  exact ⟨v, bit ▸ runs, (Ends.of_ok (putByteBody_ends data hb') runs).2,
    fun fired => silent (later.suffix.subset fired)⟩

end

/-- The engine's registers after a byte sent through the driver (rules R182, R183, R197): `INT` is not the adapter's. -/
abbrev Engine.encodedTx (c : Codes) (data : Byte) (o : TxOutcome) (e : Engine) : Engine :=
  { e with data := data, code := codeFieldOf (sentCode c e.phase data o), phase := sentPhase e.phase data o }

section
variable {s v : State}

/-- `EngineDo(E_TX)` in a transaction, where the driver has sent the byte (rule R197). -/
theorem engineDo_tx_sent (hb : s.cfg.backend = .bb) (known : s.eng.phase ≠ .unknown) (inside : s.eng.phase ≠ .idle)
    (wf : s.cfg.codes.wf) {low : Bool} {d : Driver}
    (sent : putByteBody s.eng.data s = .ok (if low then 1#8 else 0#8) v) (w : Wrote s d v) (silent : GuardSilent v) :
    ∃ t, engineDo .tx s = .ok (sentCode s.cfg.codes s.eng.phase s.eng.data (ackOutcome low)) t ∧
      EngineWrote v (s.eng.encodedTx s.cfg.codes s.eng.data (ackOutcome low)) t := by
  have cfg : v.cfg = s.cfg := w.cfg
  have hb' : v.cfg.backend = .bb := cfg ▸ hb
  have eng : v.eng = s.eng := (w.engOfBb hb).1
  have nack : ((if low then 1#8 else 0#8 : Byte) != 1#8) = !low := by cases low <;> rfl
  have outcome : (if (!low) = true then TxOutcome.nack else .ack) = ackOutcome low := by cases low <;> rfl
  have row := encoderTable_tx (c := s.cfg.codes) known inside s.eng.data !low
  rw [outcome] at row
  obtain ⟨u, encodes, k⟩ := (EngineWrote.refl v).encodes hb' silent (by rw [cfg, eng]; exact row)
  obtain ⟨t, reads, k'⟩ := k.reads hb' silent State.statusSeen
  have seen : t.statusSeen = sentCode s.cfg.codes s.eng.phase s.eng.data (ackOutcome low) :=
    statusSeen_phaseCode (by rw [k'.cfg, cfg]; exact wf) (by rw [k'.cfg, cfg]; exact sentCode_phaseCode ..)
      (by rw [k'.eng])
  refine ⟨t, ?_, { k' with eng := by rw [k'.eng, eng] }⟩
  have tx : adapterOp .tx s = .ok () u := by
    show (if s.eng.phase = .idle then _ else _ : Op Unit) s = _
    rw [if_neg inside, op_bind, sent]
    show line (State.encodeStatus (.tx s.eng.data ((if low then 1#8 else 0#8 : Byte) != 1#8))) v = _
    rw [nack]
    exact encodes
  rw [engineDo_bb .tx hb, op_bind, tx, ← seen]
  exact reads

/-- `SES_WRITE` in a transaction, a slave answering the acknowledge bit: `v` is where the driver has sent the byte. -/
theorem writeSession_sent (configured : s.ses.clkdiv ≠ 0#8) (hb : s.cfg.backend = .bb) (free : s.bus.envSclLow = false)
    (known : s.eng.phase ≠ .unknown) (inside : s.eng.phase ≠ .idle) (wf : s.cfg.codes.wf) (data : Byte) (low : Bool)
    {l : List Move} (silent : Move.guard ∉ l) :
    ∃ v t, writeSession data (s.withInputs (turns 83 ++ .envSda low :: (turns 11 ++ l))) =
        .ok (writeResult s.cfg.codes (sentCode s.cfg.codes s.eng.phase data (ackOutcome low))) t ∧
      putByteBody data (({ s with eng.data := data } : State).withInputs (turns 82 ++ .envSda low :: (turns 11 ++ l))) =
        .ok (if low then 1#8 else 0#8) v ∧
      (v.cfg = s.cfg ∧ v.drv = s.drv.afterTransfer ∧ v.ses = s.ses ∧ v.frm = s.frm) ∧ GuardSilent v ∧
      EngineWrote v (s.eng.encodedTx s.cfg.codes data (ackOutcome low)) t := by
  obtain ⟨v, sent, w, quiet⟩ := putByteBody_acked (s := { s with eng.data := data }) hb free data low silent
  obtain ⟨t, runs, k⟩ := engineDo_tx_sent
    (s := State.withInputs { s with eng.data := data } (turns 82 ++ .envSda low :: (turns 11 ++ l)))
    hb known inside wf sent w quiet
  refine ⟨v, t, ?_, sent, ⟨w.cfg, w.drv, w.ses, w.frm⟩, quiet, k⟩
  rw [show 83 = 1 + 82 from rfl, writeSession_loads data 82 _ configured, op_bind, runs]
  rfl

/-- Outside a transaction the adapter moves no line (rules R197, R198). -/
theorem engineDo_idle {cmd : EngineCmd} {e : Engine} {t : State} (hb : s.cfg.backend = .bb) (silent : GuardSilent s)
    (transfer : cmd ≠ .start) (h : EngineWrote s e t) (idle : e.phase = .idle) :
    ∃ u, engineDo cmd t = .ok u.statusSeen u ∧ EngineWrote s { e with code := codeFieldOf s.cfg.codes.noInfo } u := by
  obtain ⟨u, encodes, k⟩ := h.encodes hb silent (event := .idleXfer) (by rw [idle]; rfl)
  obtain ⟨v, reads, k'⟩ := k.reads hb silent State.statusSeen
  have here : t.eng.phase = .idle := by rw [h.eng, idle]
  have none : adapterOp cmd t = .ok () u := by
    cases cmd with
    | start => exact absurd rfl transfer
    | tx | rxAck | rxNack =>
      show (if t.eng.phase = .idle then _ else _ : Op Unit) t = _
      rw [if_pos here]
      exact encodes
  refine ⟨v, ?_, { k' with eng := by rw [k'.eng, idle] }⟩
  rw [engineDo_bb cmd (by rw [h.cfg]; exact hb), op_bind, none]
  exact reads

theorem writeSession_idle (configured : s.ses.clkdiv ≠ 0#8) (hb : s.cfg.backend = .bb) (silent : GuardSilent s)
    (idle : s.eng.phase = .idle) (wf : s.cfg.codes.wf) (data : Byte) :
    ∃ t, writeSession data s = .ok s.cfg.codes.noInfo t ∧
      EngineWrote s { s.eng with data := data, code := codeFieldOf s.cfg.codes.noInfo } t := by
  obtain ⟨u, loads, k⟩ := (EngineWrote.refl s).line hb silent (f := fun s => { s with eng.data := data })
    { s.eng with data := data } fun u _ eng => by rw [eng]
  obtain ⟨t, runs, k'⟩ := engineDo_idle (cmd := .tx) hb silent nofun k idle
  have seen : t.statusSeen = s.cfg.codes.noInfo :=
    statusSeen_code (by rw [k'.cfg]; exact wf) (.inl (by rw [k'.cfg])) (by rw [k'.eng])
  refine ⟨t, ?_, k'⟩
  rw [writeSession, peek_then, if_neg configured, op_bind, loads]
  show (engineDo .tx >>= _) u = _
  rw [op_bind, runs, seen]
  show EStateM.Result.ok (if dataOk s.cfg.codes s.cfg.codes.noInfo then 0#8 else s.cfg.codes.noInfo) t = _
  rw [dataOk_eq_false wf (.inl rfl)]
  rfl

end

/-! ### A byte on the lines -/

/-- The waveform does not look at where it began: it may begin again at a state with the same lines. -/
theorem Wave.rebase {s₀ t u : State} {d : Driver} {sda : Bool} {p : ParseState} (w : Wave s₀ d sda p t)
    (cfg : u.cfg = t.cfg) (drv : u.drv = t.drv) (bus : u.bus = t.bus) : Wave u d sda p u where
  bb := by rw [cfg]; exact w.backend
  cfg := rfl
  ses := rfl
  eng := rfl
  frm := rfl
  port := rfl
  trace := rfl
  drv := drv.trans w.drv
  envScl := by rw [bus]; exact w.envScl
  envSda := by rw [bus]; exact w.envSda
  parsed := by rw [State.parsed, bus]; exact w.parsed
  prev := w.prev

/-- A byte moved on an owned bus is traced as that byte, and leaves the bus owned. -/
theorem Wave.byte_traced {s₀ v t : State} {d : Driver} {p : ParseState} {data : Byte} {nack : Bool} {last : LineEntry}
    (w : Wave s₀ d false (p.clocks (bitsOf data ++ [nack]) last) v) (owned : p.owned = true) (bits : p.bits = [])
    (cfg : t.cfg = v.cfg) (bus : t.bus = v.bus) :
    t.busTrace = p.events ++ [.byte data nack] ∧ BusOwned t ∧ SlavesReleased t := by
  have parsed : parseLines v.bus.ltrace = _ := w.parsed.trans (clocks_byte owned bits data nack last)
  rw [← bus] at parsed
  refine ⟨?_, ?_, ?_⟩
  · rw [busTrace_bb (by rw [cfg]; exact w.backend), State.parsed, parsed]
  · rw [BusOwned, parsed]
    exact ⟨rfl, rfl⟩
  · rw [SlavesReleased, bus]
    exact ⟨w.envScl, w.envSda⟩

/-- Where the slave lets SDA go after the acknowledge bit and nothing else moves, the byte sent is traced. -/
theorem putByte_traced {s₀ s v t : State} {d : Driver} {p : ParseState} {data code : Byte} {low : Bool}
    (w : Wave s₀ d false p s) (force : d.sdaForce = false) (owned : p.owned = true) (bits : p.bits = [])
    (sent : putByteBody data (s.withInputs (turns 82 ++ .envSda low :: (turns 11 ++ [.envSda false]))) = .ok code v)
    (cfg : t.cfg = v.cfg) (alone : v.inputs = [] → t.bus = v.bus) :
    t.busTrace = p.events ++ [.byte data !low] ∧ BusOwned t ∧ SlavesReleased t := by
  obtain ⟨u, runs, w'⟩ := putByte_slaveAck data low w force
  rw [slaveAck, sent] at runs
  injection runs with _ same
  have w'' := w'.rebase (u := v) (by rw [same]) (by rw [same]) (by rw [same])
  exact w''.byte_traced owned bits cfg (alone (by rw [same]))

/-- Settles O40: in a transaction a slave's level fixes the acknowledge and the waveform the trace; outside one the
driver is not asked. -/
theorem sesWriteOnTheDriver : Obligations.SesWriteOnTheDriver := by
  unfold Obligations.SesWriteOnTheDriver
  intro data s ready hb silent wf c
  refine ⟨?_, fun idle => ?_⟩
  · intro low rest free script inside known address
    have silent' : Move.guard ∉ rest := fun fired => silent (by rw [script]; simp [fired])
    obtain ⟨v, u, runs, sent, ⟨cfg, drv, ses, frm⟩, quiet, k⟩ :=
      writeSession_sent (s := s.running) ready.2 hb free known inside wf data low silent'
    rw [withInputs_self (s := s.running) script] at runs
    obtain ⟨t, ends, responded, k'⟩ := k.answers (by rw [cfg]; exact hb) quiet ready runs
    have codes : (if s.eng.phase = .started then address else if low then 0#8 else c.mtDataNack) =
        writeResult c (sentCode c s.eng.phase data (ackOutcome low)) := by
      rw [writeResult_sent wf]
      cases low <;> simp [address, ackOutcome, addressCode_eq, c]
    have stats : (if s.eng.phase = .started then address else if low then c.mtDataAck else c.mtDataNack) =
        sentCode c s.eng.phase data (ackOutcome low) := by
      cases low <;> simp [address, ackOutcome, sentCode, addressCode_eq]
    have phases : (if s.eng.phase = .started ∧ data.getLsbD 0 = true then .mr else .mt) =
        sentPhase s.eng.phase data (ackOutcome low) := by
      cases low <;> simp [ackOutcome, sentPhase]
    rw [codes, stats, phases]
    refine ⟨t, ends, responded, k'.frm.trans frm, k'.ses.trans ses, k'.drv.trans drv, k'.eng,
      fun released traced owned ⟨_, _, force, _⟩ lets => ?_⟩
    subst lets
    have start : Wave s.running s.drv false s.parsed s.running := released.2 ▸ Wave.start hb released.1 traced
    have loaded := start.rebase (u := { s.running with eng.data := data }) rfl rfl rfl
    rw [busTrace_bb hb]
    exact putByte_traced loaded force owned.1 owned.2 sent k'.cfg k'.alone
  · obtain ⟨u, runs, k⟩ := writeSession_idle (s := s.running) ready.2 hb silent idle wf data
    obtain ⟨t, ends, responded, k'⟩ := k.answers hb silent ready runs
    exact ⟨t, ends, responded, ⟨k'.cfg, k'.drv, k'.ses, k'.frm⟩, k'.eng, k'.alone⟩

end Sys2Proof.Machine

/-! ## A START, the reads and a STOP of the session on the bit-bang driver (42_session.md rules R212, R216 to R218) -/

namespace Sys2Proof.Machine

/-! ### The START -/

/-- Two runs of one operation with no move left come to the same state. -/
theorem Runs.unique {α : Type} {x : Op α} {j k : Nat} {s t u : State} {a b : α} (h : Runs x j s a t)
    (g : Runs x k s b u) : t.withInputs [] = u.withInputs [] := by
  have same := h.alone.symm.trans g.alone
  injection same

/-- What `EngineDo(E_START)` leaves: the START on the lines and its code (rules R181, R196). -/
abbrev State.startEncoded (s : State) : State :=
  { s.started with
    eng := { s.eng with
      code := codeFieldOf (if s.eng.phase = .idle then s.cfg.codes.start else s.cfg.codes.repStart)
      phase := .started } }

section
variable {s : State}

theorem startEncoded_keeps (s : State) :
    s.startEncoded.cfg = s.cfg ∧ s.startEncoded.ses = s.ses ∧ s.startEncoded.frm = s.frm ∧
      s.startEncoded.drv = { s.drv with sclLow := true, latch := s.drv.sr.msb, sdaForce := false } ∧
      s.startEncoded.bus.envSclLow = s.bus.envSclLow := by
  simp [State.started]

variable (hb : s.cfg.backend = .bb) (free : s.bus.envSclLow = false)
include hb free

theorem engineDo_start_runs (known : s.eng.phase ≠ .unknown) (wf : s.cfg.codes.wf) :
    Runs (engineDo .start) 9 s (if s.eng.phase = .idle then s.cfg.codes.start else s.cfg.codes.repStart)
      s.startEncoded := by
  have cfg : s.started.cfg = s.cfg := (startEncoded_keeps s).1
  have eng : s.started.eng = s.eng := by simp [State.started]
  have row : encoderTable s.started.cfg.codes s.started.eng.phase .start =
      some (if s.eng.phase = .idle then s.cfg.codes.start else s.cfg.codes.repStart, .started) := by
    rw [cfg, eng]
    exact encoderTable_startCode known
  have encode := Runs.line (plainWrite_encodeStatus .start) s.started
  rw [encodeStatus_of_table s.started row, eng] at encode
  have read := Runs.readLine (f := State.statusSeen) s.startEncoded fun _ => rfl
  have seen : s.startEncoded.statusSeen = if s.eng.phase = .idle then s.cfg.codes.start else s.cfg.codes.repStart := by
    refine statusSeen_phaseCode (by rw [cfg]; exact wf) ?_ rfl
    rw [cfg]
    split <;> simp [Codes.phaseCodes]
  rw [seen] at read
  refine Runs.peek fun l => ?_
  show Runs (match s.cfg.backend with | .hw => engineDoHw .start | .bb => adapterOp .start >>= fun _ => _) 9 s _ _
  rw [hb]
  have adapter : Runs (adapterOp .start) 8 s () s.startEncoded := (startBody_runs hb free).bind (k := 1) encode
  exact adapter.bind (k := 1) read

/-- `SES_START`, a slave answering the acknowledge bit of the address byte: `v` is where the driver has sent it. -/
theorem startSession_sent (configured : s.ses.clkdiv ≠ 0#8) (known : s.eng.phase ≠ .unknown) (wf : s.cfg.codes.wf)
    (address : Byte) (mode : Mode) (low : Bool) {l : List Move} (silent : Move.guard ∉ l) :
    ∃ v t, startSession address mode (s.withInputs (turns 92 ++ .envSda low :: (turns 11 ++ l))) =
        .ok (startResult s.cfg.codes mode
          (writeResult s.cfg.codes (sentCode s.cfg.codes .started (addressByte address mode) (ackOutcome low)))) t ∧
      putByteBody (addressByte address mode)
          (({ s.startEncoded with eng.data := addressByte address mode } : State).withInputs
            (turns 82 ++ .envSda low :: (turns 11 ++ l))) = .ok (if low then 1#8 else 0#8) v ∧
      (v.cfg = s.cfg ∧ v.drv = ({ s.drv with sdaForce := false } : Driver).afterTransfer ∧ v.ses = s.ses ∧
        v.frm = s.frm) ∧ GuardSilent v ∧
      EngineWrote v
        (s.startEncoded.eng.encodedTx s.cfg.codes (addressByte address mode) (ackOutcome low)) t := by
  obtain ⟨cfg, ses, frm, drv, env⟩ := startEncoded_keeps s
  have starts := (engineDo_start_runs hb free known wf).turns (turns 83 ++ .envSda low :: (turns 11 ++ l))
  obtain ⟨v, t, writes, sent, ⟨cfg', drv', ses', frm'⟩, quiet, k⟩ := writeSession_sent (s := s.startEncoded)
    (by rw [ses]; exact configured) (by rw [cfg]; exact hb) (by rw [env]; exact free) nofun nofun
    (by rw [cfg]; exact wf) (addressByte address mode) low silent
  rw [cfg] at writes k
  refine ⟨v, t, startSession_addressed configured starts (startOk_started _ _) writes, sent,
    ⟨cfg'.trans cfg, ?_, ses'.trans ses, frm'.trans frm⟩, quiet, k⟩
  rw [drv', drv]
  rfl

end

/-- SDA falls under a high SCL (40_bus_driver.md rule R150). -/
theorem entry_start {p : ParseState} (high : p.prev = .pair true true) :
    p.entry (.pair true false) =
      { prev := .pair true false, owned := true, bits := []
        events := p.events ++ [if p.owned then .rstart else .start] } := by
  cases p
  subst high
  simp [ParseState.entry]

/-- SDA rises under a high SCL. -/
theorem entry_stop {p : ParseState} (low : p.prev = .pair true false) :
    p.entry (.pair true true) =
      { prev := .pair true true, owned := false, bits := [], events := p.events ++ [.stop] } := by
  cases p
  subst low
  simp [ParseState.entry]

/-- SCL rises on an owned bus with no byte in progress: a first bit. -/
theorem entry_firstBit {p : ParseState} (sda' : Bool) {sda : Bool} (held : p.prev = .pair false sda)
    (owned : p.owned = true) (bits : p.bits = []) :
    p.entry (.pair true sda') = { prev := .pair true sda', owned := true, bits := [sda'], events := p.events } := by
  rw [entry_rise _ _ _ held]
  simp [ParseState.pushBit, owned, bits]

section
variable {s : State} {low : Bool} {p : ParseState}

/-- At rest the core does not drive SDA (40_bus_driver.md rule R147). -/
theorem DriverAtRest.lineOf_rest (rest : DriverAtRest low s) : lineOf s.drv false = .pair (!low) true := by
  obtain ⟨-, latch, force, -, sclLow⟩ := rest
  simp [lineOf, Driver.drivesSda, latch, force, sclLow]

theorem DriverAtRest.lineOf_released (rest : DriverAtRest low s) :
    lineOf { s.drv with sclLow := false } false = .pair true true := by
  obtain ⟨-, latch, force, -, -⟩ := rest
  simp [lineOf, Driver.drivesSda, latch, force]

theorem DriverAtRest.lineOf_forced (rest : DriverAtRest low s) :
    lineOf { s.drv with sdaForce := true } false = .pair (!low) false := by
  obtain ⟨-, -, -, dirOut, sclLow⟩ := rest
  simp [lineOf, Driver.drivesSda, dirOut, sclLow]

theorem DriverAtRest.lineOf_released_forced (rest : DriverAtRest low s) :
    lineOf { s.drv with sclLow := false, sdaForce := true } false = .pair true false := by
  obtain ⟨-, -, -, dirOut, -⟩ := rest
  simp [lineOf, Driver.drivesSda, dirOut]

theorem DriverAtRest.lineOf_released_unforced (rest : DriverAtRest low s) :
    lineOf { s.drv with sclLow := false, sdaForce := false } false = .pair true true := by
  obtain ⟨-, latch, -, -, -⟩ := rest
  simp [lineOf, Driver.drivesSda, latch]

/-- A START from rest, on the free or on the owned bus (rules R143, R150). -/
theorem DriverAtRest.startParse (rest : DriverAtRest low s) (prev : p.prev = .pair (!low) true)
    (held : low = true → p.owned = true ∧ p.bits = []) :
    (p.entry (lineOf { s.drv with sclLow := false } false)).entry
        (lineOf { s.drv with sclLow := false, sdaForce := true } false) =
      { prev := .pair true false, owned := true, bits := []
        events := p.events ++ [if p.owned then .rstart else .start] } := by
  rw [rest.lineOf_released, rest.lineOf_released_forced]
  cases low with
  | false => exact (congrArg (ParseState.entry · _) (entry_same p true true prev)).trans (entry_start prev)
  | true =>
    obtain ⟨owned, bits⟩ := held rfl
    have rise := entry_firstBit true prev owned bits
    exact (entry_start (congrArg ParseState.prev rise)).trans (by rw [rise, owned])

/-- The lines after a START from rest, as the parse reads them. -/
theorem startEncoded_wave (hb : s.cfg.backend = .bb) (released : SlavesReleased s) (traced : LinesTraced s)
    (rest : DriverAtRest low s) (held : low = true → BusOwned s) :
    ∃ q, Wave s.startEncoded { s.drv with sclLow := true, latch := s.drv.sr.msb, sdaForce := false } false q
        s.startEncoded ∧
      q.owned = true ∧ q.bits = [] ∧
      q.events = s.busTrace ++ [if (parseLines s.bus.ltrace).owned then .rstart else .start] := by
  have start : Wave s s.drv false s.parsed s := released.2 ▸ Wave.start hb released.1 traced
  obtain ⟨v, runs, w⟩ := startBody_wave start
  rw [rest.startParse (start.prev.trans rest.lineOf_rest) held] at w
  have same := runs.unique (startBody_runs hb released.1)
  exact ⟨_, w.rebase (congrArg State.cfg same).symm (congrArg State.drv same).symm (congrArg State.bus same).symm, rfl,
    rfl, by rw [busTrace_bb hb]⟩

end

/-- Settles O41: START is nine lines, and then a byte is sent as the first after it. -/
theorem sesStartOnTheDriver : Obligations.SesStartOnTheDriver := by
  unfold Obligations.SesStartOnTheDriver
  intro mode address low rest s ready hb silent wf known free script c nackCode ackCode
  have silent' : Move.guard ∉ rest := fun fired => silent (by rw [script]; simp [fired])
  obtain ⟨v, u, runs, sent, ⟨cfg, drv, ses, frm⟩, quiet, k⟩ :=
    startSession_sent (s := s.running) hb free ready.2 known wf address mode low silent'
  rw [withInputs_self (s := s.running) script] at runs
  obtain ⟨t, ends, responded, k'⟩ := k.answers (by rw [cfg]; exact hb) quiet ready runs
  have codes : startResult c mode (writeResult c (sentCode c .started (addressByte address mode) (ackOutcome low))) =
      if low then 0#8 else nackCode := by
    rw [startResult_sent wf]
    cases low <;> rfl
  have stats : sentCode c .started (addressByte address mode) (ackOutcome low) = if low then ackCode else nackCode := by
    rw [sentCode_addressByte]
    cases low <;> cases mode <;> rfl
  have phases : sentPhase .started (addressByte address mode) (ackOutcome low) = if mode = .read then .mr else .mt := by
    rw [sentPhase_addressByte]
    cases low <;> rfl
  rw [codes] at responded
  refine ⟨t, ends, responded, k'.frm.trans frm, k'.ses.trans ses, k'.drv.trans drv, ?_, ?_⟩
  · rw [← stats, ← phases]
    exact k'.eng
  · intro released traced lets byte
    subst lets
    have byteTraced {held : Bool} (atRest : DriverAtRest held s) (owned : held = true → BusOwned s) :
        t.busTrace = s.busTrace ++ [if (parseLines s.bus.ltrace).owned then .rstart else .start, byte] ∧ BusOwned t ∧
          SlavesReleased t := by
      obtain ⟨q, w, own, bits, events⟩ := startEncoded_wave (s := s.running) hb released traced atRest owned
      have loaded := w.rebase (u := { s.running.startEncoded with eng.data := addressByte address mode }) rfl rfl rfl
      obtain ⟨trace, rest⟩ := putByte_traced loaded rfl own bits sent k'.cfg k'.alone
      rw [events, List.append_assoc] at trace
      exact ⟨trace, rest⟩
    refine ⟨fun atRest => byteTraced atRest nofun, fun atRest owned => ?_⟩
    have whole := byteTraced atRest fun _ => owned
    rwa [if_pos owned.1] at whole

/-! ### The reads -/

/-- `getByte` with a slave that sends the byte returns it (40_bus_driver.md rule R141). -/
theorem getByteBody_receives {s u : State} {last : Bool} {v code : Byte} {l : List Move} (hb : s.cfg.backend = .bb)
    (free : s.bus.envSclLow = false)
    (runs : getByteBody last (s.withInputs (turns 3 ++ slaveBits (bitsOf v) ++ l)) = .ok code u) : code = v := by
  have input : Driven { s.drv with dirOut := false } s.bus.envSdaLow (s.setDirOut false) :=
    (Driven.start hb free).write (setDirOut_write false) (by simp)
  obtain ⟨x, _, loop, w⟩ := transfer_sent (cw := cw8Bit) (bits := bitsOf v) (n := 7) rfl rfl input
  have value := (getByteBody_goesOn last s).turns (turns 2 ++ (slaveBits (bitsOf v) ++ l))
  rw [op_bind, loop, ← op_bind, ← List.append_assoc, ← List.append_assoc, ← turns_add, runs] at value
  have returned := (transferTail_ackAfter_returns _ last (s := x.withInputs l) w.bb).of_ok value.symm
  rw [returned]
  show x.drv.sr = v
  rw [w.drv, samplesUnder_sent rfl]
  exact foldl_bitsOf v _

/-- The engine's registers after a byte received through the driver (rules R184, R198). -/
abbrev Engine.encodedRx (c : Codes) (v : Byte) (nack : Bool) (e : Engine) : Engine :=
  { e with data := v, code := codeFieldOf (receivedCode c nack), phase := .mr }

section
variable {s v : State}

/-- A read in a transaction, where the driver has received the byte. -/
theorem readSession_received (configured : s.ses.clkdiv ≠ 0#8) (hb : s.cfg.backend = .bb)
    (known : s.eng.phase ≠ .unknown) (inside : s.eng.phase ≠ .idle) {nack : Bool} {b : Byte} {d : Driver} (received : getByteBody nack s = .ok b v)
    (w : Wrote s d v) (silent : GuardSilent v) :
    ∃ t, readSession (readCmd nack) s = .ok b t ∧ EngineWrote v (s.eng.encodedRx s.cfg.codes b nack) t := by
  have cfg : v.cfg = s.cfg := w.cfg
  have hb' : v.cfg.backend = .bb := cfg ▸ hb
  have eng : v.eng = s.eng := (w.engOfBb hb).1
  obtain ⟨x, loads, k⟩ := (EngineWrote.refl v).line hb' silent (f := fun s => { s with eng.data := b })
    { s.eng with data := b } fun u _ e => by rw [e, eng]
  obtain ⟨y, encodes, k⟩ := k.encodes hb' silent (event := .rx nack)
    (by rw [cfg]; exact encoderTable_rx known inside nack)
  obtain ⟨z, reads, k⟩ := k.reads hb' silent State.statusSeen
  obtain ⟨t, data, k⟩ := k.reads hb' silent fun s => s.eng.data
  have rx : adapterOp (readCmd nack) s = .ok () y := by
    have rx : adapterRx nack s = .ok () y := by
      show (if s.eng.phase = .idle then _ else _ : Op Unit) s = _
      rw [if_neg inside, op_bind, received]
      show (line _ >>= fun _ => line (State.encodeStatus (.rx nack))) v = _
      rw [op_bind, loads]
      exact encodes
    cases nack <;> exact rx
  have engine : engineDo (readCmd nack) s = .ok z.statusSeen z := by
    rw [engineDo_bb _ hb, op_bind, rx]
    exact reads
  refine ⟨t, ?_, k⟩
  rw [readSession, peek_then, if_neg configured, op_bind, engine]
  show readLine _ z = _
  rw [data, k.eng]

/-- A read outside a transaction leaves `DATA` and returns it (rule R198). -/
theorem readSession_idle (configured : s.ses.clkdiv ≠ 0#8) (hb : s.cfg.backend = .bb) (silent : GuardSilent s)
    (idle : s.eng.phase = .idle) (nack : Bool) :
    ∃ t, readSession (readCmd nack) s = .ok s.eng.data t ∧
      EngineWrote s { s.eng with code := codeFieldOf s.cfg.codes.noInfo } t := by
  obtain ⟨u, runs, k⟩ := engineDo_idle (cmd := readCmd nack) hb silent (by cases nack <;> nofun) (.refl s) idle
  obtain ⟨t, data, k⟩ := k.reads hb silent fun s => s.eng.data
  refine ⟨t, ?_, k⟩
  rw [readSession, peek_then, if_neg configured, op_bind, runs]
  show readLine _ u = _
  rw [data, k.eng]

/-! ### The STOP -/

/-- `SES_STOP` where the driver has put the STOP on the bus (rule R199). -/
theorem stopSession_stopped (configured : s.ses.clkdiv ≠ 0#8) (hb : s.cfg.backend = .bb)
    (known : s.eng.phase ≠ .unknown) {d : Driver} (stops : stopBody s = .ok () v) (w : Wrote s d v)
    (silent : GuardSilent v) :
    ∃ t, stopSession s = .ok 0#8 t ∧
      EngineWrote v { s.eng with code := codeFieldOf s.cfg.codes.noInfo, phase := .idle } t := by
  have cfg : v.cfg = s.cfg := w.cfg
  have eng : v.eng = s.eng := (w.engOfBb hb).1
  obtain ⟨t, encodes, k⟩ := (EngineWrote.refl v).encodes (cfg ▸ hb) silent (event := .stop)
    (by rw [cfg, eng]; exact encoderTable_stop _ known)
  refine ⟨t, ?_, { k with eng := by rw [k.eng, eng] }⟩
  have stop : engineStop s = .ok () t := by
    rw [engineStop, peek_then, hb]
    show (stopBody >>= _) s = _
    rw [op_bind, stops]
    exact encodes
  rw [stopSession, peek_then, if_neg configured, op_bind, stop]
  rfl

end

section
variable {s v t : State} {p : ParseState}

/-- The entries of a STOP from rest (rule R139). -/
abbrev Driver.stopParse (d : Driver) (p : ParseState) : ParseState :=
  ((p.entry (lineOf { d with sdaForce := true } false)).entry
    (lineOf { d with sclLow := false, sdaForce := true } false)).entry
      (lineOf { d with sclLow := false, sdaForce := false } false)

/-- A STOP from rest, on the owned bus: the rising SCL is a first bit, which is given up (rules R144, R150). -/
theorem DriverAtRest.stopParse_owned (rest : DriverAtRest true s) (prev : p.prev = .pair false true)
    (owned : p.owned = true) (bits : p.bits = []) : (s.drv.stopParse p).events = p.events ++ [.stop] := by
  have fall : p.entry (lineOf { s.drv with sdaForce := true } false) = { p with prev := .pair false false } := by
    rw [rest.lineOf_forced]
    exact entry_low _ _ _ _ prev
  have rise := entry_firstBit false (congrArg ParseState.prev fall) (by rw [fall, owned]) (by rw [fall, bits])
  rw [Driver.stopParse, rest.lineOf_released_forced, rest.lineOf_released_unforced, rise, entry_stop rfl, fall]

/-- A STOP from rest on the free bus: SDA falls and rises under a high SCL. -/
theorem DriverAtRest.stopParse_free (rest : DriverAtRest false s) (prev : p.prev = .pair true true)
    (free : p.owned = false) : (s.drv.stopParse p).events = p.events ++ [.start, .stop] := by
  have fall : lineOf { s.drv with sdaForce := true } false = .pair true false := rest.lineOf_forced
  rw [Driver.stopParse, rest.lineOf_released_forced, rest.lineOf_released_unforced, fall, entry_start prev,
    entry_same _ true false rfl, entry_stop rfl, free]
  exact List.append_assoc ..

/-- The events after a STOP that nothing interrupts. -/
theorem stop_traced (hb : s.cfg.backend = .bb) (released : SlavesReleased s) (traced : LinesTraced s)
    (alone : s.inputs = []) (stops : stopBody s = .ok () v) (cfg : t.cfg = v.cfg)
    (bus : v.inputs = [] → t.bus = v.bus) : t.busTrace = (s.drv.stopParse s.parsed).events := by
  have start : Wave s s.drv false s.parsed s := released.2 ▸ Wave.start hb released.1 traced
  obtain ⟨x, runs, w⟩ := stopBody_wave start
  have ended := runs.alone
  rw [withInputs_self alone, stops] at ended
  injection ended with _ same
  have w' := w.rebase (u := v) (by rw [same]) (by rw [same]) (by rw [same])
  rw [busTrace_bb (by rw [cfg]; exact w'.backend), State.parsed, bus (by rw [same])]
  exact congrArg ParseState.events w'.parsed

end

/-- Settles O42: in a transaction the slave's bits fix the byte and the waveform the trace; outside one the driver is
not asked; the STOP is the driver's. -/
theorem sesReadAndStopOnTheDriver : Obligations.SesReadAndStopOnTheDriver := by
  unfold Obligations.SesReadAndStopOnTheDriver
  intro nack s ready hb silent known c read
  refine ⟨fun v rest free script inside responsive => ?_, fun idle => ?_, fun responsive => ?_⟩
  · obtain ⟨b, x, received, -, w⟩ := (getByteBody_ends nack (s := s.running) hb).completes silent fun _ => responsive
    have quiet : GuardSilent x := fun fired => silent (w.suffix.subset fired)
    have value : b = v := by
      refine getByteBody_receives (s := s.running) (l := rest) (u := x) (last := nack) hb free ?_
      rw [withInputs_self (s := s.running) script]
      exact received
    subst value
    obtain ⟨u, runs, k⟩ := readSession_received (s := s.running) ready.2 hb known inside received w quiet
    obtain ⟨t, ends, responded, k'⟩ := k.answers (by rw [w.cfg]; exact hb) quiet ready runs
    refine ⟨t, (exec_read nack s).trans ends, responded, k'.frm.trans w.frm, k'.ses.trans w.ses, k'.drv.trans w.drv,
      k'.eng, fun released traced owned ⟨_, _, force, _, held⟩ lets => ?_⟩
    subst lets
    have start : Wave s.running s.drv false s.parsed s.running := released.2 ▸ Wave.start hb released.1 traced
    obtain ⟨y, whole, w'⟩ := getByte_slave nack b start held force
    rw [withInputs_self (s := s.running) script, received] at whole
    injection whole with _ same
    have w'' := w'.rebase (u := x) (by rw [same]) (by rw [same]) (by rw [same])
    rw [busTrace_bb hb]
    exact w''.byte_traced owned.1 owned.2 k'.cfg (k'.alone (by rw [same]))
  · obtain ⟨u, runs, k⟩ := readSession_idle (s := s.running) ready.2 hb silent idle nack
    obtain ⟨t, ends, responded, k'⟩ := k.answers hb silent ready runs
    exact ⟨t, (exec_read nack s).trans ends, responded, ⟨k'.cfg, k'.drv, k'.ses, k'.frm⟩, k'.eng, k'.alone⟩
  · obtain ⟨_, x, stops, w⟩ := (stopBody_ends (s := s.running) hb).completes silent fun _ => responsive
    have quiet : GuardSilent x := fun fired => silent (w.suffix.subset fired)
    obtain ⟨u, runs, k⟩ := stopSession_stopped (s := s.running) ready.2 hb known stops w quiet
    obtain ⟨t, ends, responded, k'⟩ := k.answers (by rw [w.cfg]; exact hb) quiet ready runs
    refine ⟨t, ends, responded, k'.frm.trans w.frm, k'.ses.trans w.ses, k'.drv.trans w.drv, k'.eng,
      fun released traced alone => ?_⟩
    have trace : t.busTrace = (s.drv.stopParse s.parsed).events :=
      stop_traced (s := s.running) hb released traced alone stops k'.cfg k'.alone
    have start : Wave s s.drv false s.parsed s := released.2 ▸ Wave.start hb released.1 traced
    rw [trace, busTrace_bb hb]
    exact ⟨fun atRest owned => atRest.stopParse_owned (start.prev.trans atRest.lineOf_rest) owned.1 owned.2,
      fun atRest free => atRest.stopParse_free (start.prev.trans atRest.lineOf_rest) free⟩

end Sys2Proof.Machine

/-! ## The framer's registers at the end of a received byte (43_framer.md rules R240 to R244) -/

namespace Sys2Proof.Machine

/-! ### What an operation comes to -/

/-- The operation `o` run from `s` ends in `Q`, or it stops as `StoppedFrom` says. -/
def ComesTo (s : State) (o : Host.Outcome State Fault Refusal) (Q : State → Prop) : Prop :=
  (∃ t, o = .next t ∧ Q t) ∨ (∃ t, o = .next t ∧ StoppedFrom s.running .cut t) ∨
    (∃ t, o = .fault (.busHang t) ∧ StoppedFrom s.running .hang t)

section
variable {s t : State} {o : Host.Outcome State Fault Refusal} {Q : State → Prop}

/-- Where it goes on it came to its end, or the guard's reset cut it off. -/
theorem ComesTo.next_cases (h : ComesTo s o Q) (hst : o = .next t) : Q t ∨ WasReset s t := by
  obtain ⟨u, e, ends⟩ | ⟨u, e, -, -, v, cfg, armed, -, -, reset⟩ | ⟨u, e, -⟩ := h
  · cases e.symm.trans hst
    exact .inl ends
  · cases e.symm.trans hst
    exact .inr ⟨v, armed, cfg, reset⟩
  · cases e.symm.trans hst

/-- With the guard silent and the bus responsive it comes to its end. -/
theorem ComesTo.completes (h : ComesTo s o Q) (silent : GuardSilent s)
    (responsive : s.cfg.backend = .bb → BusResponsive s) : ∃ t, o = .next t ∧ Q t := by
  obtain ends | ⟨_, -, fired, -⟩ | ⟨_, -, hb, -, -, -, stuck⟩ := h
  · exact ends
  · exact absurd fired silent
  · exact absurd (responsive hb) stuck

end

/-! ### Lines that write the framer -/

/-- The framer's registers are now `f` and nothing else is written, the other agents having moved. -/
abbrev Framed (s : State) (f : Framer) (t : State) : Prop := Passed { s with frm := f } t

section
variable {s t u : State} {f : Framer}

theorem Passed.refl (s : State) : Passed s s := { Between.refl s with alone := fun _ => rfl }

theorem Passed.trans (h : Passed s u) (k : Passed u t) : Passed s t :=
  { h.toBetween.trans k.toBetween with
    alone := fun alone => (k.alone (suffix_nil h.suffix alone)).trans (h.alone alone) }

theorem Passed.withFrm (h : Passed s t) (f : Framer) : Framed s f { t with frm := f } :=
  { cfg := h.cfg, drv := h.drv, ses := h.ses, frm := rfl, respCode := h.respCode, respFlags := h.respFlags,
    refusal := h.refusal, busy := h.busy, issued := h.issued, engOfStill := h.engOfStill, ltraceOfHw := h.ltraceOfHw,
    phaseUnknown := h.phaseUnknown, tracePrefix := h.tracePrefix, ltracePrefix := h.ltracePrefix, suffix := h.suffix,
    held := h.held, silent := h.silent, host := { h.host with }
    alone := fun alone => congrArg (fun u : State => { u with frm := f }) (h.alone alone) }

theorem Framed.refl (s : State) : Framed s s.frm s := Passed.refl s

theorem Framed.later (h : Framed s f t) : Later s t :=
  ⟨h.cfg, h.busy, h.suffix, h.held, h.tracePrefix, h.ltracePrefix, { h.host with }⟩

theorem Framed.passed (h : Framed s f u) (k : Passed u t) : Framed s f t := Passed.trans h k

theorem Framed.write (h : Framed s f u) (F : Framer → Framer) : Framed s (F f) { u with frm := F u.frm } := by
  have e : u.frm = f := h.frm
  rw [e]
  exact Passed.withFrm h (F f)

/-- Lines that write the framer, inside a received byte. -/
theorem Framed.received (h : Framed s f t) : ReceivedDone s f t :=
  { cfg := h.cfg
    frm := h.frm
    clkdiv := by rw [h.ses]
    opt := by rw [h.ses]
    respCode := h.respCode
    respFlags := h.respFlags
    refusal := h.refusal
    hw := fun b => ⟨h.drv, h.ltraceOfHw b⟩
    bb := fun b => by
      have e := h.engOfBb b
      rw [e.1, e.2, h.ses]
      exact ⟨rfl, rfl, rfl, rfl, rfl⟩
    bbPhase := fun b p => by rw [(h.engOfBb b).1]; exact p
    bbRest := fun _ p => by rw [h.drv]; exact p
    unknown := h.phaseUnknown.mpr
    wait := fun p => by rw [h.ses]; exact p
    unconfigured := fun z => ⟨h.drv, h.ses, h.engOfUnconfigured z⟩
    later := h.later }

theorem Ends.tickPassed {Q : Unit → State → Prop} (h : ∀ t, Passed s t → Q () t) : Ends Machine.tick s Q := by
  have alone : Ends Machine.tick s fun _ t => s.inputs = [] → t = s := by
    by_cases e : s.inputs = []
    · have runs := (Runs.tick s).alone
      rw [withInputs_self e] at runs
      rw [Ends, runs]
      exact fun _ => rfl
    · exact Ends.tick fun _ _ none => absurd none e
  have between : Ends Machine.tick s fun _ t => Between s t := Ends.tick fun _ b => b
  exact (between.and alone).mono fun _ t ⟨b, a⟩ => h t { b with alone := a }

/-- A line that writes the framer, then the rest. -/
theorem Ends.thenFramed {β : Type} {Q : β → State → Prop} {k : Unit → Op β} (F : Framer → Framer) (h : Framed s f u)
    (rest : ∀ t, Framed s (F f) t → Ends (k ()) t Q) :
    Ends (Machine.line (fun t => { t with frm := F t.frm }) >>= k) u Q :=
  Ends.bind (Ends.bind (Ends.tickPassed fun t b =>
    ⟨b.later, Ends.modify ⟨((Passed.withFrm b (F t.frm)).later), rest _ ((h.passed b).write F)⟩⟩))

/-- The last line of a received byte. -/
theorem Ends.idle {Q : Unit → State → Prop} (h : ∀ v, Passed u v → Q () v.idle) : Ends endReceived u Q :=
  Ends.bind (Ends.tickPassed fun v b => ⟨b.later, Ends.modify (h v b)⟩)

/-- An end that is come to is the end that the operation has. -/
theorem Ends.runs {α : Type} {x : Op α} {Q : α → State → Prop} (h : Ends x s Q) :
    Ends x s fun a t => x s = .ok a t ∧ Q a t := by
  unfold Ends at *
  cases e : x s with
  | ok a t => rw [e] at h; exact ⟨rfl, h⟩
  | error _ _ => rw [e] at h; exact h

end

theorem ComesTo.mono {s : State} {o : Host.Outcome State Fault Refusal} {P Q : State → Prop} (h : ComesTo s o P)
    (i : ∀ t, P t → Q t) : ComesTo s o Q :=
  h.imp_left fun ⟨t, e, p⟩ => ⟨t, e, i t p⟩

/-! ### The framer after each byte -/

/-- After the address byte, on which the session answered `st` (rule R240). -/
def Framer.addressed (f : Framer) (st : Byte) : Framer := { f with remaining := 0, lastSt := st, cursor := .lenHi }

/-- After the high byte of the length (rule R241). -/
def Framer.lengthStarted (f : Framer) (b : Byte) : Framer := { f with remaining := lengthHigh b, cursor := .lenLo }

/-- Once the low byte of the length has joined the high one, before its test (rule R242). -/
def Framer.lengthRead (f : Framer) (b : Byte) : Framer :=
  { f with remaining := lengthJoin f.remaining b, wdArmed := true }

/-- Once a payload byte is counted, on which the session answered `st`, before the test for the last (rule R243). -/
def Framer.forwarded (f : Framer) (st : Byte) : Framer :=
  { f with lastSt := st, wdArmed := true, remaining := f.remaining - 1 }

/-- After `CloseFrame()` (rule R244). -/
def Framer.closed (f : Framer) : Framer := { f with wdArmed := false, cursor := .awaitAddr }

/-! ### The closing of a frame -/

/-- No engine step among the moves to come, and none among those left. -/
theorem engineSilent_of_suffix {s t : State} (left : t.inputs <:+ s.inputs) (silent : EngineSilent s) :
    EngineSilent t := by
  simp only [EngineSilent, List.all_eq_true] at *
  exact fun m hm => silent m (left.subset hm)

/-- From `u` the last byte of a frame runs `CloseFrame()` (rule R244) and comes to `t`, but for `BUSY`. -/
def Closed (u t : State) : Prop := ∃ w, stopSession u = .ok 0#8 w ∧ Framed w u.frm.closed t

theorem closing_ends (u : State) :
    Ends (closeFrame >>= fun _ => endReceived) u fun _ t => ∃ v, Closed u v ∧ t = v.idle := by
  have framed : Ends closeFrame u fun _ t => Later u t ∧ Closed u t :=
    Ends.bind ((stopSession_ran u).runs.mono fun _ w ⟨stops, zero, ran, _⟩ => ⟨ran.later,
      Ends.thenFramed (fun f => { f with wdArmed := false }) (Framed.refl w) fun _ k1 =>
        Ends.bind (Ends.tickPassed fun _ p => ⟨p.later, Ends.modify (by
          have k2 := (k1.passed p).write fun f => { f with cursor := .awaitAddr }
          rw [ran.frm] at k2
          exact ⟨ran.later.trans k2.later, w, zero ▸ stops, k2⟩)⟩)⟩)
  exact Ends.bind (framed.mono fun _ t ⟨later, w, stops, k⟩ => ⟨later, Ends.idle fun v p =>
    ⟨v, ⟨w, stops, k.passed p⟩, rfl⟩⟩)

/-- The STOP of the driver (40_bus_driver.md rule R139), as `SES_STOP` runs it. -/
theorem stopSession_drv {s : State} (hb : s.cfg.backend = .bb) (configured : s.ses.clkdiv ≠ 0#8) :
    Ends stopSession s fun _ t => t.drv = { s.drv with sclLow := false, sdaForce := false } := by
  rw [stopSession]
  refine Ends.thenPeek ?_
  rw [if_neg configured]
  refine Ends.bind (((engineStop_ran s).and ?_).mono fun _ t ⟨ran, stopped⟩ => ⟨ran.later, Ends.pure stopped⟩)
  rw [engineStop]
  refine Ends.thenPeek ?_
  rw [hb]
  exact Ends.bind ((stopBody_ends hb).mono fun _ t w => ⟨w.later, Ends.line fun u b => by
    rw [encodeStatus_drv, b.drv, w.drv]⟩)

section
variable {u t : State}

theorem Closed.after {f : Framer} (h : Closed u t) (frm : u.frm = f) : ReceivedDone u f.closed t := by
  obtain ⟨w, stops, framed⟩ := h
  obtain ⟨-, ran, unconfigured⟩ := (stopSession_ran u).of_ok stops
  exact frm ▸ (ran.received unconfigured).trans framed.received

/-- On the byte engine the STOP is still pending (20_memory.md rule R81). -/
theorem Closed.pending (h : Closed u t) (hb : u.cfg.backend = .hw) (configured : u.ses.clkdiv ≠ 0#8)
    (busy : u.port.busy = true) (still : EngineSilent u ∨ t.eng.phase ≠ .unknown) : t.eng.pendStop = true := by
  obtain ⟨w, stops, framed⟩ := h
  obtain ⟨-, ran, -⟩ := (stopSession_ran u).of_ok stops
  obtain ⟨issued, pending⟩ := ((stopSession_stops u).of_ok stops).1 hb configured
  obtain silent | known := still
  · rw [(framed.silent (engineSilent_of_suffix ran.later.suffix silent)).1]
    exact pending (.inl silent)
  · have known' : w.eng.phase ≠ .unknown := fun e => known (framed.phaseUnknown.mpr e)
    have stop := pending (.inr ⟨busy, known'⟩)
    rw [(framed.engOfHeld (by simp [State.stopHeld, ran.later.busy.trans busy, issued, stop, known'])).1]
    exact stop

/-- On the driver the bus is free. -/
theorem Closed.freed (h : Closed u t) (hb : u.cfg.backend = .bb) (configured : u.ses.clkdiv ≠ 0#8)
    (known : u.eng.phase ≠ .unknown) :
    t.eng.phase = .idle ∧ t.drv = { u.drv with sclLow := false, sdaForce := false } := by
  obtain ⟨w, stops, framed⟩ := h
  obtain ⟨-, ran, -⟩ := (stopSession_ran u).of_ok stops
  have idle := ((stopSession_stops u).of_ok stops).2 hb configured known
  have drv := (stopSession_drv hb configured).of_ok stops
  rw [(framed.engOfBb (by exact ran.later.cfg ▸ hb)).1, framed.drv]
  exact ⟨idle, drv⟩

end

/-! ### The bytes -/

section
variable {s t : State}

/-- The address byte: `REMAINING` is cleared, the session starts from `w` and comes to `v` with `st`, and the framer
goes on (rule R240). -/
structure AddressRan (b : Byte) (s w : State) (st : Byte) (v x : State) : Prop where
  clears : line (fun t => { t with frm := { t.frm with remaining := 0 } }) s.running = .ok () w
  cleared : Framed s.running { s.frm with remaining := 0 } w
  starts : startSession b .write w = .ok st v
  ran : SessionRan w v
  unconfigured : w.ses.clkdiv = 0#8 → st = 0#8 ∧ v = w
  framed : Framed v (s.frm.addressed st) x

theorem AddressRan.received {b st : Byte} {w v x : State} (h : AddressRan b s w st v x) :
    Received s (s.frm.addressed st) x.idle :=
  ((h.cleared.received.trans (h.ran.received fun z => (h.unconfigured z).2)).trans h.framed.received).received

theorem rxAddr_comesTo (b : Byte) (s : State) :
    ComesTo s (exec (.rxAddr b) s) fun t => ∃ w st v x, AddressRan b s w st v x ∧ t = x.idle := by
  refine runOp_ends (Ends.bind ?_)
  refine (Ends.runs (Q := fun _ w => Framed s.running { s.frm with remaining := 0 } w) (Ends.bind (Ends.tickPassed
    fun w p => ⟨p.later, Ends.modify ((Framed.passed (Framed.refl s.running) p).write fun f =>
      { f with remaining := 0 })⟩))).mono fun _ w ⟨clears, cleared⟩ => ⟨cleared.later, ?_⟩
  refine Ends.bind ((startSession_ran b .write w).runs.mono fun st v ⟨starts, ran, unconfigured⟩ => ⟨ran.later, ?_⟩)
  refine Ends.thenFramed (fun f => { f with lastSt := st }) (Framed.refl v) fun _ k1 => ?_
  refine Ends.thenFramed (fun f => { f with cursor := .lenHi }) k1 fun _ k2 => Ends.idle fun x p => ?_
  have framed := k2.passed p
  rw [ran.frm, cleared.frm] at framed
  exact ⟨w, st, v, x, ⟨clears, cleared, starts, ran, unconfigured, framed⟩, rfl⟩

/-- The high byte of the length (rule R241). -/
theorem rxLenHi_comesTo (b : Byte) (s : State) :
    ComesTo s (exec (.rxLenHi b) s) fun t => ∃ x, Framed s.running (s.frm.lengthStarted b) x ∧ t = x.idle := by
  refine runOp_ends ?_
  refine Ends.thenFramed (fun f => { f with remaining := lengthHigh b }) (Framed.refl s.running) fun _ k1 => ?_
  refine Ends.thenFramed (fun f => { f with cursor := .lenLo }) k1 fun _ k2 => ?_
  exact Ends.idle fun x p => ⟨x, k2.passed p, rfl⟩

/-- The low byte of the length (rules R242, R246). -/
theorem rxLenLo_comesTo (b : Byte) (s : State) :
    ComesTo s (exec (.rxLenLo b) s) fun t =>
      ∃ x, (((s.frm.lengthRead b).remaining ≠ 0 ∧ Framed s.running { s.frm.lengthRead b with cursor := .fwd } x ∧
          t = x.idle) ∨
        ((s.frm.lengthRead b).remaining = 0 ∧ Framed s.running (s.frm.lengthRead b) x ∧
          ∃ v, Closed x v ∧ t = v.idle)) := by
  refine runOp_ends ?_
  refine Ends.thenFramed (fun f => { f with remaining := lengthJoin f.remaining b }) (Framed.refl s.running)
    fun _ k1 => ?_
  refine Ends.thenFramed (fun f => { f with wdArmed := true }) k1 fun u k2 => Ends.thenPeek ?_
  have frm : u.frm = s.frm.lengthRead b := k2.frm
  rw [frm]
  split
  · exact (closing_ends u).mono fun _ _ ends => ⟨u, .inr ⟨‹_›, k2, ends⟩⟩
  · refine Ends.thenFramed (fun f => { f with cursor := .fwd }) k2 fun _ k3 => ?_
    exact Ends.idle fun x p => ⟨x, .inl ⟨‹_›, k3.passed p, rfl⟩⟩

/-- A payload byte is written by the session, which comes to `v` with `st`, and counted (rule R243). -/
structure PayloadRan (b : Byte) (s : State) (st : Byte) (v x : State) : Prop where
  writes : writeSession b s.running = .ok st v
  ran : SessionRan s.running v
  unconfigured : s.ses.clkdiv = 0#8 → st = 0#8 ∧ v = s.running
  framed : Framed v (s.frm.forwarded st) x

theorem PayloadRan.done {b st : Byte} {v x : State} (h : PayloadRan b s st v x) :
    ReceivedDone s.running (s.frm.forwarded st) x :=
  (h.ran.received fun z => (h.unconfigured z).2).trans h.framed.received

/-- The byte ends there where more are to come, with `CloseFrame()` where it was the last. -/
def PayloadEnds (f : Framer) (x t : State) : Prop :=
  (f.remaining ≠ 0 ∧ t = x.idle) ∨ (f.remaining = 0 ∧ ∃ y, Closed x y ∧ t = y.idle)

/-- A payload byte (rules R243, R245). -/
theorem rxPayload_comesTo (b : Byte) (s : State) :
    ComesTo s (exec (.rxPayload b) s) fun t =>
      ∃ st v x, PayloadRan b s st v x ∧ PayloadEnds (s.frm.forwarded st) x t := by
  refine runOp_ends ?_
  refine Ends.bind ((writeSession_ran b s.running).runs.mono fun st v ⟨writes, ran, unconfigured⟩ => ⟨ran.later, ?_⟩)
  refine Ends.thenFramed (fun f => { f with lastSt := st }) (Framed.refl v) fun _ k1 => ?_
  refine Ends.thenFramed (fun f => { f with wdArmed := true }) k1 fun _ k2 => ?_
  refine Ends.thenFramed (fun f => { f with remaining := f.remaining - 1 }) k2 fun u k3 => Ends.thenPeek ?_
  rw [show v.frm = s.frm from ran.frm] at k3
  have frm : u.frm = s.frm.forwarded st := k3.frm
  rw [frm]
  split
  · exact (closing_ends u).mono fun _ _ ends => ⟨st, v, u, ⟨writes, ran, unconfigured, k3⟩, .inr ⟨‹_›, ends⟩⟩
  · exact Ends.idle fun x p => ⟨st, v, x, ⟨writes, ran, unconfigured, k3.passed p⟩, .inl ⟨‹_›, rfl⟩⟩

/-- The framer after the low byte of the length. -/
def Framer.lengthKnown (f : Framer) (b : Byte) : Framer :=
  if (f.lengthRead b).remaining = 0 then (f.lengthRead b).closed else { f.lengthRead b with cursor := .fwd }

theorem rxLenLo_received (b : Byte) (s : State) :
    ComesTo s (exec (.rxLenLo b) s) (Received s (s.frm.lengthKnown b)) := by
  refine (rxLenLo_comesTo b s).mono fun t ⟨x, ends⟩ => ?_
  rw [Framer.lengthKnown]
  obtain ⟨more, framed, rfl⟩ | ⟨zero, framed, v, closed, rfl⟩ := ends
  · rw [if_neg more]
    exact framed.received.received
  · rw [if_pos zero]
    exact (framed.received.trans (closed.after framed.frm)).received

/-- The framer after a payload byte. -/
def Framer.counted (f : Framer) (st : Byte) : Framer :=
  if (f.forwarded st).remaining = 0 then (f.forwarded st).closed else f.forwarded st

theorem PayloadRan.received {b st : Byte} {v x : State} (ran : PayloadRan b s st v x)
    (ends : PayloadEnds (s.frm.forwarded st) x t) : Received s (s.frm.counted st) t := by
  rw [Framer.counted]
  obtain ⟨more, rfl⟩ | ⟨last, y, closed, rfl⟩ := ends
  · rw [if_neg more]
    exact ran.done.received
  · rw [if_pos last]
    exact (ran.done.trans (closed.after ran.framed.frm)).received

theorem rxPayload_received (b : Byte) (s : State) :
    ComesTo s (exec (.rxPayload b) s) fun t => ∃ st, Received s (s.frm.counted st) t :=
  (rxPayload_comesTo b s).mono fun _ ⟨st, _, _, ran, ends⟩ => ⟨st, ran.received ends⟩

theorem rxAddr_received (b : Byte) (s : State) :
    ComesTo s (exec (.rxAddr b) s) fun t => ∃ st, Received s (s.frm.addressed st) t :=
  (rxAddr_comesTo b s).mono fun _ ⟨_, st, _, _, ran, e⟩ => ⟨st, e ▸ ran.received⟩

theorem rxLenHi_received (b : Byte) (s : State) :
    ComesTo s (exec (.rxLenHi b) s) (Received s (s.frm.lengthStarted b)) :=
  (rxLenHi_comesTo b s).mono fun _ ⟨_, framed, e⟩ => e ▸ framed.received.received

end

/-! ### The invariants of the framer (rule R247) -/

/-- The invariants read the framer's registers alone. -/
abbrev Framer.Inv (f : Framer) : Prop :=
  (f.cursor = .fwd → 1 ≤ f.remaining.toNat ∧ f.remaining.toNat ≤ 65535) ∧ (f.cursor = .fwd → f.wdArmed = true) ∧
    (f.cursor ≠ .fwd → f.wdArmed = false) ∧ (f.cursor = .awaitAddr → f.remaining = 0) ∧
    (f.cursor = .lenLo → f.remaining.extractLsb' 0 8 = 0#8)

/-- What the byte `b` leaves of the framer, by its cursor. -/
def Framer.Took (f : Framer) (b : Byte) (g : Framer) : Prop :=
  match f.cursor with
  | .awaitAddr => ∃ st, g = f.addressed st
  | .lenHi => g = f.lengthStarted b
  | .lenLo => g = f.lengthKnown b
  | .fwd => ∃ st, g = f.counted st

theorem lengthHigh_low (b : Byte) : (lengthHigh b).extractLsb' 0 8 = 0#8 := by
  apply BitVec.eq_of_getLsbD_eq
  intro i hi
  simp [lengthHigh, hi]

theorem closed_inv {f : Framer} (h : f.remaining = 0) : f.closed.Inv :=
  ⟨nofun, nofun, fun _ => rfl, fun _ => h, nofun⟩

theorem forwarding_inv {f : Framer} (h : f.remaining ≠ 0) (armed : f.wdArmed = true) (fwd : f.cursor = .fwd) :
    f.Inv := by
  have positive : f.remaining.toNat ≠ 0 := fun zero => h (BitVec.eq_of_toNat_eq zero)
  refine ⟨fun _ => ⟨by omega, by omega⟩, fun _ => armed, fun other => absurd fwd other, fun e => ?_, fun e => ?_⟩
  · cases fwd.symm.trans e
  · cases fwd.symm.trans e

theorem Framer.Took.inv {f g : Framer} {b : Byte} (took : f.Took b g) (inv : f.Inv) : g.Inv := by
  obtain ⟨-, -, disarmed, -, -⟩ := inv
  unfold Framer.Took at took
  split at took
  case h_1 cursor =>
    obtain ⟨st, rfl⟩ := took
    exact ⟨nofun, nofun, fun _ => disarmed (by rw [cursor]; nofun), nofun, nofun⟩
  case h_2 cursor =>
    subst took
    exact ⟨nofun, nofun, fun _ => disarmed (by rw [cursor]; nofun), nofun, fun _ => lengthHigh_low b⟩
  case h_3 cursor =>
    subst took
    unfold Framer.lengthKnown
    split
    · exact closed_inv ‹_›
    · exact forwarding_inv ‹_› rfl rfl
  case h_4 cursor =>
    obtain ⟨st, rfl⟩ := took
    unfold Framer.counted
    split
    · exact closed_inv ‹_›
    · exact forwarding_inv ‹_› rfl cursor

/-! ### Commands leave the framer -/

section
variable {s t : State}

theorem Answered.frm {code : Byte} {notcfg : Bool} {refusal : Option RefuseReason}
    (a : Answered s code notcfg refusal t) : t.frm = s.frm := by
  obtain ⟨⟨-, -, -, frm⟩, -⟩ := a.same
  exact frm

theorem bbCommand_frm {needsConfig legal : Bool} {body : Op Byte}
    (k : s.cfg.backend = .bb → legal = true → Ends body s fun _ u => ∃ d, Wrote s d u) :
    Ends (bbCommand needsConfig legal body) s fun _ t => t.frm = s.frm := by
  refine (bbCommand_ends (Q := fun _ u => u.frm = s.frm) fun hb hl =>
    (k hb hl).mono fun _ _ ⟨_, w⟩ => ⟨w.later, w.frm⟩).mono ?_
  rintro _ t (⟨_, -, answered⟩ | ⟨-, _, u, same, answered⟩)
  · exact answered.frm
  · exact answered.frm.trans same

theorem sesCommand_frm {body : Op Byte}
    (k : ∀ u, Ends body u fun c t => SessionRan u t ∧ (u.ses.clkdiv = 0#8 → c = 0#8 ∧ t = u)) :
    Ends (sesCommand body) s.running fun _ t => t.frm = s.frm :=
  (sesCommand_done (Q := fun _ => True) fun u => (k u).mono fun _ _ q => ⟨q.1, q.2, trivial⟩).mono
    fun _ _ ⟨done, _⟩ => done.frm

theorem configureSession_frm (div bits : Byte) (s : State) :
    Ends (configureSession div bits) s fun _ t => t.frm = s.frm := by
  unfold configureSession
  refine Ends.thenPeek ?_
  split
  · exact Ends.pure rfl
  · refine Ends.bind (Ends.line fun t b => ⟨b.later.trans (later_of_registers rfl rfl rfl rfl), ?_⟩)
    refine Ends.bind (Ends.line fun u c => ⟨c.later.trans (later_of_registers rfl rfl rfl rfl), ?_⟩)
    have frm : u.frm = s.frm := c.frm.trans b.frm
    split
    · exact Ends.bind ((configureBody_ends _).mono fun _ v w => ⟨w.later, Ends.pure (w.frm.trans frm)⟩)
    · exact Ends.pure frm

/-- An operation of the command port that goes on leaves the framer, or the guard's reset cut it off. -/
theorem exec_command_frm {i : Instr} {w : CmdWord} (command : encode i = .command w) (hst : exec i s = .next t) :
    t.frm = s.frm ∨ WasReset s t := by
  cases i with
  | bbConfigure =>
    exact runOp_next_cases (bbCommand_frm fun _ _ =>
      Ends.bind ((configureBody_ends _).mono fun _ _ w => ⟨w.later, Ends.pure ⟨_, w⟩⟩)) hst
  | bbStart =>
    exact runOp_next_cases (bbCommand_frm fun hb _ =>
      Ends.bind ((startBody_ends hb).mono fun _ _ w => ⟨w.later, Ends.pure ⟨_, w⟩⟩)) hst
  | bbStop =>
    exact runOp_next_cases (bbCommand_frm fun hb _ =>
      Ends.bind ((stopBody_ends hb).mono fun _ _ w => ⟨w.later, Ends.pure ⟨_, w⟩⟩)) hst
  | bbPutbyte data =>
    exact runOp_next_cases (bbCommand_frm fun hb _ => (putByteBody_ends data hb).mono fun _ _ w => ⟨_, w.2⟩) hst
  | bbGetbyte last =>
    exact runOp_next_cases (bbCommand_frm fun hb _ => (getByteBody_ends last hb).mono fun _ _ w => ⟨_, w.2⟩) hst
  | bbTransfer cw =>
    exact runOp_next_cases (bbCommand_frm fun hb hc => (transfer_ends hb hc).mono fun _ _ w => ⟨_, w.2⟩) hst
  | sesConfigure div bits =>
    refine runOp_next_cases (Q := fun t => t.frm = s.frm) (Ends.bind
      (((Proceeds.configureSession div bits s.running).and (configureSession_frm div bits s.running)).mono
        fun code u ⟨later, frm⟩ => ⟨later, ?_⟩)) hst
    exact (respond_ends code false u).mono fun _ _ answered => answered.frm.trans frm
  | sesStart mode address => exact runOp_next_cases (sesCommand_frm (startSession_ran address mode)) hst
  | sesWrite data => exact runOp_next_cases (sesCommand_frm (writeSession_ran data)) hst
  | sesReadAck => exact runOp_next_cases (sesCommand_frm (readSession_ran .rxAck)) hst
  | sesReadNack => exact runOp_next_cases (sesCommand_frm (readSession_ran .rxNack)) hst
  | sesStop =>
    exact runOp_next_cases (sesCommand_frm fun u => (stopSession_ran u).mono fun _ _ ⟨zero, ran, same⟩ =>
      ⟨ran, fun z => ⟨zero, same z⟩⟩) hst
  | rxAddr _ | rxLenHi _ | rxLenLo _ | rxPayload _ => cases command

theorem takeCommand_frm (hst : takeCommand s = .next t) : t.frm = s.frm ∨ WasReset s t := by
  unfold takeCommand at hst
  split at hst
  case h_1 i decoded =>
    have kept := exec_command_frm (encode_of_decodeCommand _ _ decoded) hst
    exact kept
  case h_2 reason _ =>
    have kept := runOp_next_cases ((refuse_ends reason _).mono fun _ _ answered => answered.frm) hst
    exact kept

/-- A received byte that runs to its end takes the framer on by its cursor. -/
theorem takeByte_frm (hst : takeByte s = .next t) : s.frm.Took s.port.rxData t.frm ∨ WasReset s t := by
  have byte (i : Instr) (e : decodeReceived s.frm.cursor s.port.rxData = i) :
      exec i { s with port.rxValid := false } = .next t := e ▸ hst
  unfold Framer.Took
  split
  case h_1 cursor =>
    exact ((rxAddr_received _ _).next_cases (byte (.rxAddr _) (by rw [cursor]; rfl))).imp_left
      fun ⟨st, received⟩ => ⟨st, received.frm⟩
  case h_2 cursor =>
    exact ((rxLenHi_received _ _).next_cases (byte (.rxLenHi _) (by rw [cursor]; rfl))).imp_left Received.frm
  case h_3 cursor =>
    exact ((rxLenLo_received _ _).next_cases (byte (.rxLenLo _) (by rw [cursor]; rfl))).imp_left Received.frm
  case h_4 cursor =>
    exact ((rxPayload_received _ _).next_cases (byte (.rxPayload _) (by rw [cursor]; rfl))).imp_left
      fun ⟨st, received⟩ => ⟨st, received.frm⟩

/-- Everything a turn of the sequencer that goes on can do to the framer. -/
theorem sequencerTurn_frm (hst : sequencerTurn s = .next t) :
    t.frm = s.frm ∨ (∃ b, s.frm.Took b t.frm) ∨ WasReset s t := by
  simp only [sequencerTurn] at hst
  split at hst
  · exact .inl (by cases hst; rfl)
  · split at hst
    · exact .inr ((takeByte_frm hst).imp_left fun took => ⟨_, took⟩)
    · split at hst
      · exact (takeCommand_frm hst).imp_right .inr
      · exact .inl (by cases hst; rfl)

theorem WasReset.framerInv (h : WasReset s t) : FramerInv t := by
  obtain ⟨u, -, -, e⟩ := h
  rw [e]
  simp [FramerInv, State.powerOn]

/-- Settles O49: a reset meets the invariants, a received byte keeps them by its cursor (`Framer.Took.inv`), and nothing
else writes the framer. -/
theorem stepKeepsTheFramerInvariants : Obligations.StepKeepsTheFramerInvariants := by
  unfold Obligations.StepKeepsTheFramerInvariants
  intro s t inv hst
  have kept (same : t.frm = s.frm) : FramerInv t := by
    rw [FramerInv, same]
    exact inv
  obtain ⟨l, ⟨m, rfl⟩ | turn⟩ := step_next_cases hst
  · obtain moved | reset := apply_moved_or_reset m { s with inputs := l }
    · exact kept moved.frm
    · exact reset.framerInv
  · obtain same | ⟨b, took⟩ | reset := sequencerTurn_frm turn
    · exact kept same
    · exact took.inv inv
    · exact reset.framerInv

end

end Sys2Proof.Machine

/-! ## The deadline guard (43_framer.md rule R250, 60_exceptions.md rule R276) -/

namespace Sys2Proof.Machine

section
variable {s : State} {rest : List Move}

theorem holdOn_cut (C : State → Bool) (armed : s.frm.wdArmed = true) :
    holdOn C (.guard :: rest) s = .error .cut { s.coreReset with inputs := rest } := by
  simp [holdOn, fires, armed]

theorem holdOn_guard_disarmed (C : State → Bool) (disarmed : s.frm.wdArmed = false) :
    holdOn C (.guard :: rest) s = holdOn C rest s := by
  simp [holdOn, fires, State.apply, State.guardMove, disarmed]

theorem step_guard_disarmed (disarmed : s.frm.wdArmed = false) (next : s.inputs = .guard :: rest) :
    step s = .next { s with inputs := rest } := by
  rw [step_of_move next nofun]
  simp [State.apply, State.guardMove, disarmed]

end

/-! ### Before the first line of an operation -/

/-- The armed guard, next to move, cuts the operation off. -/
def CutFirst {α : Type} (x : Op α) : Prop :=
  ∀ (s : State) (rest : List Move), s.frm.wdArmed = true → s.inputs = .guard :: rest →
    x s = .error .cut { s.coreReset with inputs := rest }

/-- The same of a part that may have no line at all: it then does nothing. -/
def CutOrDone {α : Type} (x : Op α) : Prop :=
  ∀ (s : State) (rest : List Move), s.frm.wdArmed = true → s.inputs = .guard :: rest →
    x s = .error .cut { s.coreReset with inputs := rest } ∨ ∃ a, x s = .ok a s

section
variable {α β : Type}

theorem CutFirst.bind {x : Op α} {f : α → Op β} (h : CutFirst x) : CutFirst (x >>= f) := fun s rest armed next => by
  rw [op_bind, h s rest armed next]

theorem CutFirst.peek {f : State → Op α} (h : ∀ s, CutFirst (f s)) : CutFirst (Machine.peek >>= f) :=
  fun s => h s s

theorem CutFirst.ite {c : Prop} [Decidable c] {x y : Op α} (h : CutFirst x) (k : CutFirst y) :
    CutFirst (if c then x else y) := by
  split <;> assumption

theorem CutFirst.tick : CutFirst Machine.tick := fun s rest armed next => by
  rw [Machine.tick, holdUntil, next]
  exact holdOn_cut _ armed

theorem CutFirst.line (f : State → State) : CutFirst (Machine.line f) := CutFirst.tick.bind

theorem CutFirst.orDone {x : Op α} (h : CutFirst x) : CutOrDone x := fun s rest armed next => .inl (h s rest armed next)

theorem CutOrDone.pure (a : α) : CutOrDone (Pure.pure a : Op α) := fun _ _ _ _ => .inr ⟨a, rfl⟩

theorem CutOrDone.peek {f : State → Op α} (h : ∀ s, CutOrDone (f s)) : CutOrDone (Machine.peek >>= f) :=
  fun s => h s s

theorem CutOrDone.ite {c : Prop} [Decidable c] {x y : Op α} (h : CutOrDone x) (k : CutOrDone y) :
    CutOrDone (if c then x else y) := by
  split <;> assumption

/-- A part that may have no line, then one that has. -/
theorem CutOrDone.then {x : Op α} {f : α → Op β} (h : CutOrDone x) (k : ∀ a, CutFirst (f a)) : CutFirst (x >>= f) := by
  intro s rest armed next
  rw [op_bind]
  obtain cut | ⟨a, done⟩ := h s rest armed next
  · rw [cut]
  · rw [done]
    exact k a s rest armed next

end

/-! ### The bodies -/

theorem CutFirst.startBody : CutFirst startBody := .peek fun _ => (CutFirst.line _).bind

theorem CutFirst.stopBody : CutFirst stopBody := .peek fun _ => (CutFirst.line _).bind

theorem CutFirst.putByteBody (data : Byte) : CutFirst (putByteBody data) := (CutFirst.line _).bind

theorem CutFirst.getByteBody (last : Bool) : CutFirst (getByteBody last) := (CutFirst.line _).bind

theorem CutFirst.transfer (cw : Byte) : CutFirst (transfer cw) := .peek fun _ => (CutFirst.line _).bind

theorem CutFirst.configureBody : CutFirst configureBody := (CutFirst.line _).bind

theorem CutFirst.adapterRx (m : Bool) : CutFirst (adapterRx m) :=
  .peek fun _ => .ite (.line _) (CutFirst.getByteBody m).bind

theorem CutFirst.adapterOp (cmd : EngineCmd) : CutFirst (adapterOp cmd) := by
  cases cmd with
  | start => exact CutFirst.startBody.bind
  | tx => exact .peek fun s => .ite (.line _) (CutFirst.putByteBody s.eng.data).bind
  | rxAck => exact .adapterRx false
  | rxNack => exact .adapterRx true

theorem CutFirst.engineDo (cmd : EngineCmd) : CutFirst (engineDo cmd) := by
  refine .peek fun s => ?_
  split
  · exact (CutFirst.line State.noteInFlight).bind.bind
  · exact (CutFirst.adapterOp cmd).bind

theorem CutFirst.engineStop : CutFirst engineStop := by
  refine .peek fun s => ?_
  split
  · exact (CutFirst.line State.noteInFlight).bind
  · exact CutFirst.stopBody.bind

theorem CutOrDone.writeSession (data : Byte) : CutOrDone (writeSession data) :=
  .peek fun _ => .ite (.pure _) (CutFirst.line _).bind.orDone

theorem CutOrDone.startSession (address : Byte) (mode : Mode) : CutOrDone (startSession address mode) :=
  .peek fun _ => .ite (.pure _) (CutFirst.engineDo _).bind.orDone

theorem CutOrDone.readSession (cmd : EngineCmd) : CutOrDone (readSession cmd) :=
  .peek fun _ => .ite (.pure _) (CutFirst.engineDo _).bind.orDone

theorem CutOrDone.stopSession : CutOrDone stopSession :=
  .peek fun _ => .ite (.pure _) CutFirst.engineStop.bind.orDone

theorem CutOrDone.configureSession (div bits : Byte) : CutOrDone (configureSession div bits) :=
  .peek fun _ => .ite (.pure _) (CutFirst.line _).bind.orDone

theorem CutFirst.bbCommand {needsConfig legal : Bool} {body : Op Byte} (h : CutFirst body) :
    CutFirst (bbCommand needsConfig legal body) :=
  .peek fun _ => .ite (.line _) <| .ite (.line _) <| .ite (.line _) <| .ite (.line _) h.bind

theorem CutFirst.sesCommand {body : Op Byte} (h : CutOrDone body) : CutFirst (sesCommand body) :=
  .peek fun _ => .ite (.line _) (h.then fun _ => .line _)

section
variable {s : State} {rest : List Move} (armed : s.frm.wdArmed = true) (next : s.inputs = .guard :: rest)
include armed next

theorem CutFirst.runOp {body : Op Unit} (h : CutFirst body) :
    runOp body s = .next { s.coreReset with inputs := rest } := by
  rw [Machine.runOp, h s.running rest armed next]
  rfl

theorem exec_cut (i : Instr) : exec i s = .next { s.coreReset with inputs := rest } := by
  cases i with
  | bbConfigure => exact (CutFirst.bbCommand CutFirst.configureBody.bind).runOp armed next
  | bbStart => exact (CutFirst.bbCommand CutFirst.startBody.bind).runOp armed next
  | bbStop => exact (CutFirst.bbCommand CutFirst.stopBody.bind).runOp armed next
  | bbPutbyte data => exact (CutFirst.bbCommand (.putByteBody data)).runOp armed next
  | bbGetbyte last => exact (CutFirst.bbCommand (.getByteBody last)).runOp armed next
  | bbTransfer cw => exact (CutFirst.bbCommand (.transfer cw)).runOp armed next
  | sesConfigure div bits =>
    exact ((CutOrDone.configureSession div bits).then fun _ => .line _).runOp armed next
  | sesStart mode address => exact (CutFirst.sesCommand (.startSession address mode)).runOp armed next
  | sesWrite data => exact (CutFirst.sesCommand (.writeSession data)).runOp armed next
  | sesReadAck => exact (CutFirst.sesCommand (.readSession .rxAck)).runOp armed next
  | sesReadNack => exact (CutFirst.sesCommand (.readSession .rxNack)).runOp armed next
  | sesStop => exact (CutFirst.sesCommand .stopSession).runOp armed next
  | rxAddr b => exact (CutFirst.line _).bind.runOp armed next
  | rxLenHi b => exact (CutFirst.line _).bind.runOp armed next
  | rxLenLo b => exact (CutFirst.line _).bind.runOp armed next
  | rxPayload b => exact ((CutOrDone.writeSession b).then fun _ => (CutFirst.line _).bind).runOp armed next

end

/-- Settles O11: every operation comes to a line before it writes anything, and there, as in every wait, the guard's
move is the armed guard's reset or nothing. -/
theorem guardCutsEveryOperation : Obligations.GuardCutsEveryOperation := by
  unfold Obligations.GuardCutsEveryOperation
  exact ⟨fun i s _ armed next => ⟨exec_cut armed next i, by rw [coreReset_port]; rfl⟩, fun C _ _ => holdOn_cut C,
    fun _ _ => step_guard_disarmed, fun C _ _ => holdOn_guard_disarmed C⟩

end Sys2Proof.Machine

/-! ## The length of a frame (43_framer.md rules R241, R242, R246) -/

namespace Sys2Proof.Machine

/-! ### The length -/

theorem lengthHigh_eq (b : Byte) : lengthHigh b = BitVec.ofNat 16 (b.toNat * 256) := by
  apply BitVec.eq_of_toNat_eq
  simp [lengthHigh, Nat.shiftLeft_eq]

theorem lengthJoin_toNat {r : BitVec 16} (b : Byte) (low : r.extractLsb' 0 8 = 0#8) :
    (lengthJoin r b).toNat = r.toNat + b.toNat := by
  have zero : r.toNat % 2 ^ 8 = 0 := by simpa using congrArg BitVec.toNat low
  have high : 2 ^ 8 * (r.toNat / 2 ^ 8) = r.toNat := by omega
  calc (lengthJoin r b).toNat = r.toNat ||| b.toNat := by
        simp only [lengthJoin, BitVec.toNat_or, BitVec.toNat_setWidth]
        rw [Nat.mod_eq_of_lt (by omega)]
    _ = 2 ^ 8 * (r.toNat / 2 ^ 8) ||| b.toNat := by rw [high]
    _ = r.toNat + b.toNat := by rw [← Nat.two_pow_add_eq_or_of_lt b.isLt, high]

section
variable {s t u x : State} {f : Framer}

/-! ### Bytes that write the framer alone -/

theorem Framed.line (h : Framed s f u) (silent : GuardSilent s) (F : Framer → Framer) :
    ∃ t, Machine.line (fun t => { t with frm := F t.frm }) u = .ok () t ∧ Framed s (F f) t := by
  obtain ⟨v, passes, p⟩ := tick_passed (h.guardSilent silent)
  exact ⟨_, line_passes passes _, (h.passed p).write F⟩

theorem Framed.idle (h : Framed s f u) (silent : GuardSilent s) :
    ∃ x, endReceived u = .ok () x.idle ∧ Framed s f x := by
  obtain ⟨x, passes, p⟩ := tick_passed (h.guardSilent silent)
  exact ⟨x, line_passes passes _, h.passed p⟩

/-- What a received byte leaves that writes the framer alone. -/
theorem Framed.leaves (h : Framed s.running f x) :
    x.idle.frm = f ∧ x.idle.drv = s.drv ∧ x.idle.ses = s.ses ∧ (EngineSilent s → SameEngine s x.idle) ∧
      SameResponse s x.idle ∧ x.idle.port.busy = false :=
  ⟨h.frm, h.drv, h.ses, h.silent, h.received.received.response, rfl⟩

theorem rxLenHi_runs (b : Byte) (silent : GuardSilent s) :
    ∃ x, exec (.rxLenHi b) s = .next x.idle ∧ Framed s.running (s.frm.lengthStarted b) x := by
  obtain ⟨u, first, k1⟩ := (Framed.refl s.running).line silent fun f => { f with remaining := lengthHigh b }
  obtain ⟨v, second, k2⟩ := k1.line silent fun f => { f with cursor := .lenLo }
  obtain ⟨x, last, k3⟩ := k2.idle silent
  refine ⟨x, ?_, k3⟩
  show runOp (Machine.line _ >>= fun _ => Machine.line _ >>= fun _ => endReceived) s = _
  simp only [runOp, op_bind, first, second, last]
  rfl

/-- The two lines with which the low byte of the length begins. -/
theorem rxLenLo_begins (b : Byte) (silent : GuardSilent s) :
    ∃ u, Framed s.running (s.frm.lengthRead b) u ∧
      exec (.rxLenLo b) s = outcomeOf ((do
        if (s.frm.lengthRead b).remaining = 0 then closeFrame else Machine.line fun s => { s with frm.cursor := .fwd }
        endReceived : Op Unit) u) := by
  obtain ⟨v, first, k1⟩ := (Framed.refl s.running).line silent fun f => { f with remaining := lengthJoin f.remaining b }
  obtain ⟨u, second, k2⟩ := k1.line silent fun f => { f with wdArmed := true }
  refine ⟨u, k2, ?_⟩
  show runOp (Machine.line _ >>= fun _ => Machine.line _ >>= fun _ => peek >>= _) s = _
  simp only [runOp, op_bind, first, second]
  rw [← show u.frm = s.frm.lengthRead b from k2.frm]
  rfl

theorem rxLenLo_runs (b : Byte) (silent : GuardSilent s) (more : (s.frm.lengthRead b).remaining ≠ 0) :
    ∃ x, exec (.rxLenLo b) s = .next x.idle ∧ Framed s.running { s.frm.lengthRead b with cursor := .fwd } x := by
  obtain ⟨u, k1, begins⟩ := rxLenLo_begins b silent
  obtain ⟨v, third, k2⟩ := k1.line silent fun f => { f with cursor := .fwd }
  obtain ⟨x, last, k3⟩ := k2.idle silent
  refine ⟨x, ?_, k3⟩
  rw [begins, if_neg more]
  simp only [op_bind, third, last]
  rfl

end

/-! ### The frame of length 0 -/

section
variable {b : Byte} {s x v : State}

theorem closed_of_zero {f : Framer} (zero : (f.lengthRead b).remaining = 0) :
    (f.lengthRead b).closed = { f with remaining := 0, wdArmed := false, cursor := .awaitAddr } := by
  simp only [Framer.closed, zero]
  rfl

/-- The STOP of a frame that closes, seen from the state its last byte was taken in. -/
theorem Closed.stop {f : Framer} (closed : Closed x v) (framed : Framed s.running f x) :
    (s.cfg.backend = .hw → s.ses.clkdiv ≠ 0#8 → EngineSilent s ∨ v.eng.phase ≠ .unknown → v.eng.pendStop = true) ∧
      (s.cfg.backend = .bb → s.ses.clkdiv ≠ 0#8 → s.eng.phase ≠ .unknown →
        v.eng.phase = .idle ∧ v.drv = { s.drv with sclLow := false, sdaForce := false }) := by
  have cfg : x.cfg = s.cfg := framed.cfg
  have ses : x.ses = s.ses := framed.ses
  have drv : x.drv = s.drv := framed.drv
  refine ⟨fun hb configured still => ?_, fun hb configured known => ?_⟩
  · exact closed.pending (cfg ▸ hb) (ses ▸ configured) framed.busy (still.imp_left framed.engineSilent)
  · have eng : x.eng = s.eng := (framed.engOfBb hb).1
    rw [← drv]
    exact closed.freed (cfg ▸ hb) (ses ▸ configured) (eng ▸ known)

end

/-- Settles O44: two lines write the framer alone, and only a length of 0 comes to `CloseFrame()` (`Closed`). -/
theorem rxLengthBytes : Obligations.RxLengthBytes := by
  unfold Obligations.RxLengthBytes
  intro b s silent
  refine ⟨?_, lengthJoin_toNat b, fun more => ?_, fun zero responsive => ?_⟩
  · obtain ⟨x, runs, framed⟩ := rxLenHi_runs b silent
    rw [Framer.lengthStarted, lengthHigh_eq] at framed
    exact ⟨_, runs, framed.leaves⟩
  · obtain ⟨x, runs, framed⟩ := rxLenLo_runs b silent more
    exact ⟨_, runs, framed.leaves⟩
  · obtain ⟨t, runs, x, ⟨more, -⟩ | ⟨-, framed, v, closed, rfl⟩⟩ := (rxLenLo_comesTo b s).completes silent responsive
    · exact absurd zero more
    · have received := (framed.received.trans (closed.after framed.frm)).received
      exact ⟨_, runs, received.frm.trans (closed_of_zero zero), received.kept, received.response, rfl,
        closed.stop framed⟩

end Sys2Proof.Machine

/-! ## The session reads nothing of the framer (43_framer.md rules R240, R243; 42_session.md rules R212, R214) -/

namespace Sys2Proof.Machine

/-- The state without the framer's registers; whether the guard is armed stays, because its move reads it. -/
def State.unframed (s : State) : State :=
  { s with frm := { cursor := .awaitAddr, remaining := 0, lastSt := 0, wdArmed := s.frm.wdArmed } }

/-- The two states differ in the framer's registers alone. -/
abbrev SameButFramer (s t : State) : Prop := s.unframed = t.unframed

/-- A write that reads nothing of the framer. -/
def IgnoresFramer (f : State → State) : Prop := ∀ u : State, f u.unframed = (f u).unframed

section
variable {s t : State}

theorem SameButFramer.read {α : Type} (f : State → α) (r : SameButFramer s t)
    (hf : ∀ u : State, f u.unframed = f u := by exact fun _ => rfl) : f s = f t :=
  (hf s).symm.trans ((congrArg f r).trans (hf t))

theorem SameButFramer.write {f : State → State} (hf : IgnoresFramer f) (r : SameButFramer s t) :
    SameButFramer (f s) (f t) :=
  (hf s).symm.trans ((congrArg f r).trans (hf t))

/-! ### The moves of the other agents -/

@[simp] theorem unframed_cfg : s.unframed.cfg = s.cfg := by cases s; rfl
@[simp] theorem unframed_drv : s.unframed.drv = s.drv := by cases s; rfl
@[simp] theorem unframed_ses : s.unframed.ses = s.ses := by cases s; rfl
@[simp] theorem unframed_eng : s.unframed.eng = s.eng := by cases s; rfl
@[simp] theorem unframed_port : s.unframed.port = s.port := by cases s; rfl
@[simp] theorem unframed_wdArmed : s.unframed.frm.wdArmed = s.frm.wdArmed := by cases s; rfl
@[simp] theorem unframed_linePair : s.unframed.linePair = s.linePair := by cases s; rfl
@[simp] theorem unframed_engineActs : s.unframed.engineActs = s.engineActs := by cases s; rfl
@[simp] theorem unframed_rxReady : s.unframed.rxReady = s.rxReady := by cases s; rfl

theorem moveLines_ignoresFramer {f : State → State} (hf : IgnoresFramer f) : IgnoresFramer (State.moveLines f) := by
  intro u
  simp only [State.moveLines, hf u, unframed_cfg, unframed_linePair]
  split <;> rfl

theorem encodeStatus_ignoresFramer (e : BusEvent) : IgnoresFramer (State.encodeStatus e) := by
  intro u
  simp only [State.encodeStatus, unframed_cfg, unframed_eng]
  split <;> rfl

/-- What the byte engine performs: an event, its status, and a write of its registers. -/
theorem perform_ignoresFramer (e : BusEvent) {g : State → State} (hg : IgnoresFramer g) (f : Engine → Engine) :
    IgnoresFramer fun u => { (g u).encodeStatus e with eng := f ((g u).encodeStatus e).eng } := by
  intro u
  simp only [hg u, encodeStatus_ignoresFramer e (g u)]
  rfl

/-- The engine's registers once a command is performed. -/
abbrev Engine.performed (e : Engine) : Engine := { e with ecmd := none, int := true }

theorem performTx_ignoresFramer (o : TxOutcome) : IgnoresFramer (State.performTx o) := by
  intro u
  cases o with
  | lost =>
    exact perform_ignoresFramer .txLost (g := fun u => u.releaseEngine.emit .lost) (fun _ => rfl) .performed u
  | ack =>
    exact perform_ignoresFramer (.tx u.eng.data false) (g := State.emit (.byte u.eng.data false)) (fun _ => rfl)
      .performed u
  | nack =>
    exact perform_ignoresFramer (.tx u.eng.data true) (g := State.emit (.byte u.eng.data true)) (fun _ => rfl)
      .performed u

theorem performRx_ignoresFramer (m : Bool) (v : Byte) : IgnoresFramer (State.performRx m v) :=
  perform_ignoresFramer (.rx m) (g := fun u => ({ u with eng.data := v } : State).emit (.byte v m)) (fun _ => rfl)
    .performed

theorem engineAct_ignoresFramer (d : EngineDraw) : IgnoresFramer (State.engineAct d) := by
  intro u
  simp only [State.engineAct, unframed_eng]
  split
  · rfl
  · split
    · exact perform_ignoresFramer .stop (g := State.emit .stop) (fun _ => rfl) (fun e => { e with pendStop := false }) u
    · split
      · exact perform_ignoresFramer .start (g := State.emit (if u.eng.phase = .idle then .start else .rstart))
          (fun _ => rfl) .performed u
      · exact performTx_ignoresFramer d.tx u
      · exact performRx_ignoresFramer false d.rx u
      · exact performRx_ignoresFramer true d.rx u
      · rfl

theorem coreReset_ignoresFramer : IgnoresFramer State.coreReset := by
  intro u
  simp only [State.coreReset, unframed_cfg]
  split <;> rfl

theorem apply_ignoresFramer (m : Move) : IgnoresFramer (State.apply m) := by
  intro u
  cases m with
  | seq | hostReads | observe => rfl
  | envScl b => exact moveLines_ignoresFramer (f := fun t => { t with bus.envSclLow := b }) (fun _ => rfl) u
  | envSda b => exact moveLines_ignoresFramer (f := fun t => { t with bus.envSdaLow := b }) (fun _ => rfl) u
  | engine d =>
    simp only [State.apply, State.engineMove, unframed_engineActs]
    split
    · exact engineAct_ignoresFramer d u
    · rfl
  | engineLines a b =>
    simp only [State.apply, State.engineLinesMove, unframed_cfg, unframed_ses]
    split <;> rfl
  | guard =>
    simp only [State.apply, State.guardMove, unframed_wdArmed]
    split
    · exact coreReset_ignoresFramer u
    · rfl
  | hostByte b =>
    simp only [State.apply, State.hostByteMove, unframed_port, unframed_rxReady]
    split <;> rfl
  | hostCommand w =>
    simp only [State.apply, State.hostCommandMove, unframed_port]
    split <;> rfl

/-! ### The lines of the session's work -/

theorem SameButFramer.holdOn {C : State → Bool} (hC : ∀ u : State, C u.unframed = C u) (l : List Move)
    (r : SameButFramer s t) : SameEnd SameButFramer (holdOn C l s) (holdOn C l t) := by
  have withInputs (l : List Move) {s t : State} (r : SameButFramer s t) :
      SameButFramer (s.withInputs l) (t.withInputs l) :=
    r.write (f := fun u => u.withInputs l) fun _ => rfl
  induction l generalizing s t with
  | nil =>
    simp only [Machine.holdOn, r.read C hC]
    split
    · exact ⟨rfl, withInputs [] r⟩
    · exact ⟨rfl, withInputs [] r⟩
  | cons m rest ih =>
    simp only [Machine.holdOn, r.read C hC, r.read (fires m)]
    split
    · split
      · exact ⟨rfl, withInputs rest r⟩
      · exact ih r
    · split
      · exact ⟨rfl, withInputs rest (r.write coreReset_ignoresFramer)⟩
      · exact ih (r.write (apply_ignoresFramer m))

end

/-- From states that differ in the framer alone it comes to the same end, that part aside. -/
def FramerBlind {α : Type} (x : Op α) : Prop := Blind SameButFramer x

section
variable {α β : Type} {x : Op α}

theorem FramerBlind.pure (a : α) : FramerBlind (Pure.pure a : Op α) := Blind.pure a

theorem FramerBlind.bind {f : α → Op β} (h : FramerBlind x) (k : ∀ a, FramerBlind (f a)) : FramerBlind (x >>= f) :=
  Blind.bind h k

theorem FramerBlind.ite {c : Prop} [Decidable c] {y : Op α} (h : FramerBlind x) (k : FramerBlind y) :
    FramerBlind (if c then x else y) := Blind.ite h k

theorem FramerBlind.hold {C : State → Bool} (hC : ∀ u : State, C u.unframed = C u) : FramerBlind (holdUntil C) :=
  fun s t r => by
    have same := r.holdOn hC s.inputs
    rw [holdUntil, holdUntil, ← r.read State.inputs]
    exact same

theorem FramerBlind.tick : FramerBlind Machine.tick := .hold fun _ => rfl

theorem FramerBlind.delay (n : Nat) : FramerBlind (Machine.delay n) := .tick

theorem FramerBlind.waitSclHigh : FramerBlind Machine.waitSclHigh := .hold fun _ => rfl

theorem FramerBlind.modify {f : State → State} (hf : IgnoresFramer f := by exact fun _ => rfl) :
    FramerBlind (modify f : Op Unit) :=
  Blind.modify fun r => r.write hf

theorem FramerBlind.line {f : State → State} (hf : IgnoresFramer f := by exact fun _ => rfl) :
    FramerBlind (Machine.line f) :=
  FramerBlind.tick.bind fun _ => .modify hf

/-- A look at the state, of which what follows depends on nothing of the framer. -/
theorem FramerBlind.peek {f : State → Op α} (k : ∀ a, FramerBlind (f a))
    (hf : ∀ u : State, f u.unframed = f u := by exact fun _ => rfl) : FramerBlind (Machine.peek >>= f) :=
  Blind.peek (fun _ _ r => r.read f hf) k

theorem FramerBlind.readLine {f : State → α} (hf : ∀ u : State, f u.unframed = f u := by exact fun _ => rfl) :
    FramerBlind (Machine.readLine f) :=
  FramerBlind.tick.bind fun _ => .peek (fun _ => .pure _) fun u => congrArg Pure.pure (hf u)

/-- A line that reads, of which what follows depends on nothing of the framer. -/
theorem FramerBlind.readThen {f : State → α} {k : α → Op β} (h : ∀ a, FramerBlind (k a))
    (hf : ∀ u : State, k (f u.unframed) = k (f u) := by exact fun _ => rfl) :
    FramerBlind (Machine.readLine f >>= k) := by
  have lines : (Machine.readLine f >>= k) = Machine.tick >>= fun _ => Machine.peek >>= fun s => k (f s) := by
    rw [Machine.readLine, ← op_bind_assoc]
    rfl
  rw [lines]
  exact FramerBlind.tick.bind fun _ => .peek (fun a => h (f a)) hf

end

theorem setSr_ignoresFramer (v : Byte) : IgnoresFramer (State.setSr v) := moveLines_ignoresFramer fun _ => rfl
theorem releaseScl_ignoresFramer : IgnoresFramer State.releaseScl := moveLines_ignoresFramer fun _ => rfl
theorem setDirOut_ignoresFramer (b : Bool) : IgnoresFramer (State.setDirOut b) := moveLines_ignoresFramer fun _ => rfl

theorem setSdaForce_ignoresFramer (b : Bool) : IgnoresFramer (State.setSdaForce b) :=
  moveLines_ignoresFramer fun _ => rfl

theorem pullScl_ignoresFramer : IgnoresFramer State.pullScl := fun u => by
  have low := moveLines_ignoresFramer (f := fun t => { t with drv.sclLow := true }) (fun _ => rfl) u
  rw [State.pullScl, low]
  exact moveLines_ignoresFramer (f := fun t => { t with drv.latch := t.drv.sr.msb }) (fun _ => rfl) _

theorem checkComplete_ignoresFramer : IgnoresFramer State.checkComplete := fun u => by
  simp only [State.checkComplete, unframed_drv]
  split <;> rfl

theorem noteInFlight_ignoresFramer : IgnoresFramer State.noteInFlight := fun u => by
  simp only [State.noteInFlight, unframed_eng]
  split <;> rfl

theorem timeOut_ignoresFramer : IgnoresFramer State.timeOut := fun u => by
  simp only [State.timeOut, unframed_eng]
  split <;> rfl

/-! ### The driver's bodies -/

theorem FramerBlind.bitCycle : FramerBlind bitCycle :=
  .peek fun _ => .bind (.delay _) fun _ => .bind (.line releaseScl_ignoresFramer) fun _ => .bind .waitSclHigh fun _ =>
    .bind .readLine fun b => .bind (.line fun u => setSr_ignoresFramer (u.drv.sr.shiftConcat b) u) fun _ =>
    .bind (.delay _) fun _ => .bind (.line pullScl_ignoresFramer) fun _ => .line

theorem FramerBlind.transferLoop (n : Nat) : FramerBlind (transferLoop n) := by
  induction n with
  | zero => exact .pure ()
  | succ n ih =>
    exact .peek fun _ => .ite (.pure ()) (.bind .bitCycle fun _ =>
      .bind (.line checkComplete_ignoresFramer) fun _ => ih)

theorem FramerBlind.transfer (cw : Byte) : FramerBlind (transfer cw) :=
  .peek fun _ => .bind .line fun _ => .bind .line fun _ => .bind (.transferLoop _) fun _ => .bind (.delay _) fun _ =>
    .bind .readLine fun r => .bind (.line (setSr_ignoresFramer _)) fun _ =>
    .bind (.line (setDirOut_ignoresFramer _)) fun _ => .pure r

theorem FramerBlind.startBody : FramerBlind startBody :=
  .peek fun _ => .bind (.line releaseScl_ignoresFramer) fun _ => .bind .waitSclHigh fun _ => .bind (.delay _) fun _ =>
    .bind (.line (setSdaForce_ignoresFramer _)) fun _ => .bind (.delay _) fun _ =>
    .bind (.line pullScl_ignoresFramer) fun _ => .line (setSdaForce_ignoresFramer _)

theorem FramerBlind.putByteBody (data : Byte) : FramerBlind (putByteBody data) :=
  .bind (.line pullScl_ignoresFramer) fun _ => .bind (.line (setDirOut_ignoresFramer _)) fun _ =>
    .bind (.line (setSr_ignoresFramer _)) fun _ => .bind (.transfer _) fun _ =>
    .bind (.line (setDirOut_ignoresFramer _)) fun _ => .bind (.transfer _) fun _ => .pure _

/-! ### The session's bodies -/

theorem FramerBlind.encode (e : BusEvent) : FramerBlind (Machine.line (State.encodeStatus e)) :=
  .line (encodeStatus_ignoresFramer e)

theorem FramerBlind.adapterStart : FramerBlind adapterStart := .bind .startBody fun _ => .encode _

theorem FramerBlind.adapterTx : FramerBlind adapterTx :=
  .peek fun s => .ite (.encode _) (.bind (.putByteBody s.eng.data) fun _ => .encode _)

theorem FramerBlind.pollInt (n : Nat) : FramerBlind (pollInt n) := by
  induction n with
  | zero => exact .pure ()
  | succ n ih => exact .readThen fun _ => .ite (.bind .modify fun _ => ih) (.pure ())

theorem FramerBlind.engineIssue (cmd : EngineCmd) : FramerBlind (engineIssue cmd) :=
  .bind (.line noteInFlight_ignoresFramer) fun _ => .bind .line fun _ => .line

theorem FramerBlind.engineDoHw (cmd : EngineCmd) : FramerBlind (engineDoHw cmd) :=
  .bind (.engineIssue cmd) fun _ => .bind .line fun _ => .peek fun _ => .bind (.pollInt _) fun _ =>
    .readThen fun _ => .ite (.pure _) (.bind (.line timeOut_ignoresFramer) fun _ => .pure _)

/-- `EngineDo(cmd)`, on the driver by an adapter that reads nothing of the framer. -/
theorem FramerBlind.engineDo {cmd : EngineCmd} (adapter : FramerBlind (adapterOp cmd)) :
    FramerBlind (engineDo cmd) := by
  refine .peek fun s => ?_
  split
  · exact .engineDoHw cmd
  · exact .bind adapter fun _ => .readLine

theorem FramerBlind.writeSession (data : Byte) : FramerBlind (writeSession data) :=
  .peek fun _ => .ite (.pure _) (.bind .line fun _ => .bind (.engineDo (cmd := .tx) .adapterTx) fun _ => .pure _)

theorem FramerBlind.startSession (address : Byte) (mode : Mode) : FramerBlind (startSession address mode) :=
  .peek fun _ => .ite (.pure _) (.bind (.engineDo (cmd := .start) .adapterStart) fun _ =>
    .ite (.bind (.writeSession _) fun _ => .pure _) (.pure _))

end Sys2Proof.Machine

/-! ## The address byte and the payload bytes of a frame (43_framer.md rules R240, R243, R244, R245) -/

namespace Sys2Proof.Machine

section
variable {s t w v x : State} {b st : Byte}

/-- A session command answers what its body returns, whatever the framer's other registers were. -/
theorem sesCommand_agrees {body : Op Byte} (blind : FramerBlind body) (same : SameButFramer w s.running)
    (cursor : s.frm.cursor = .awaitAddr) (runs : body w = .ok st v) (silent : GuardSilent v) :
    ∃ u, runOp (sesCommand body) s = .next u ∧ u.port.respCode = st ∧
      (v.inputs = [] → v.eng = u.eng ∧ v.drv = u.drv ∧ v.bus = u.bus) := by
  have ends := blind w s.running same
  rw [runs] at ends
  cases runs' : body s.running with
  | error _ _ => rw [runs'] at ends; exact ends.elim
  | ok st' v' =>
    rw [runs'] at ends
    obtain ⟨rfl, same'⟩ := ends
    have inputs : v.inputs = v'.inputs := same'.read State.inputs
    obtain ⟨y, passes, p⟩ := tick_passed (s := v') fun fired => silent (inputs ▸ fired)
    refine ⟨y.respond st (decide (s.ses.clkdiv = 0#8)) none, ?_, rfl, fun alone => ?_⟩
    · rw [runOp, sesCommand, peek_then]
      simp only [cursor, ne_eq, not_true_eq_false, if_false, op_bind, runs', respond, line_passes passes]
      rfl
    · rw [show y = v' from p.alone (inputs ▸ alone)]
      exact ⟨same'.read State.eng, same'.read State.drv, same'.read State.bus⟩

/-! ### The address byte -/

/-- The state in which the session starts on an address byte (rule R240). -/
abbrev State.cleared (s : State) : State := { s.running with frm := { s.frm with remaining := 0 } }

/-- The moves left once the first line is past, at which no other agent moves. -/
theorem AddressRan.begins (ran : AddressRan b s w st v x) {rest : List Move}
    (turn : s.inputs = [] ∧ rest = [] ∨ s.inputs = .seq :: rest) :
    w = s.cleared.withInputs rest := by
  have line := Runs.line (f := fun t => { t with frm := { t.frm with remaining := 0 } }) (fun _ _ => rfl) s.running
  have clears := ran.clears
  obtain ⟨alone, rfl⟩ | next := turn
  · have runs := line.alone
    rw [withInputs_self (by exact alone), clears] at runs
    injection runs
  · have runs := line.turns rest
    rw [withInputs_self (by exact next), clears] at runs
    injection runs

theorem AddressRan.guardSilent (ran : AddressRan b s w st v x) (silent : GuardSilent s) : GuardSilent v :=
  fun fired => silent (ran.cleared.suffix.subset (ran.ran.later.suffix.subset fired))

/-- Settles O43: the framer's lines around the session's START, which reads nothing of the framer (`FramerBlind`). -/
theorem rxAddressStartsAFrame : Obligations.RxAddressStartsAFrame := by
  unfold Obligations.RxAddressStartsAFrame
  intro b s silent responsive
  obtain ⟨_, runs, w, st, v, x, ran, rfl⟩ := (rxAddr_comesTo b s).completes silent responsive
  have received := ran.received
  refine ⟨⟨st, _, runs, received.frm, received.kept, received.response, rfl, fun z => ?_⟩, fun rest turn cursor => ?_⟩
  · obtain ⟨drv, -, same⟩ := received.unconfigured z
    exact ⟨(ran.unconfigured (by rw [ran.cleared.ses]; exact z)).1, drv, same⟩
  · have begins := ran.begins turn
    obtain ⟨u, runs', answers, agrees⟩ := sesCommand_agrees (s := { s with inputs := rest })
      (.startSession b .write) (by rw [begins]; rfl) cursor ran.starts (ran.guardSilent silent)
    refine ⟨_, u, runs, runs', ?_, fun none => ?_⟩
    · rw [answers]
      exact congrArg Framer.lastSt received.frm
    · have alone : v.inputs = [] := suffix_nil ran.ran.later.suffix (by rw [begins]; exact none)
      rw [ran.framed.alone alone]
      exact agrees alone

/-! ### A payload byte -/

/-- The driver after the adapter has sent a byte (41_engine_status.md rule R197). -/
theorem adapterTx_drv (hb : s.cfg.backend = .bb) :
    Ends adapterTx s fun _ t => t.drv = if s.eng.phase = .idle then s.drv else s.drv.afterTransfer := by
  rw [adapterTx]
  refine Ends.thenPeek ?_
  split
  · exact Ends.line fun u b => by rw [encodeStatus_drv, b.drv]
  · exact Ends.bind ((putByteBody_ends _ hb).mono fun _ u ⟨_, wrote⟩ => ⟨wrote.later, Ends.line fun y c => by
      rw [encodeStatus_drv, c.drv, wrote.drv]⟩)

theorem engineDo_tx_drv (hb : s.cfg.backend = .bb) :
    Ends (engineDo .tx) s fun _ t => t.drv = if s.eng.phase = .idle then s.drv else s.drv.afterTransfer := by
  rw [engineDo]
  refine Ends.thenPeek ?_
  rw [hb]
  exact Ends.bind (((adapterTx_ran hb).and (adapterTx_drv hb)).mono fun _ u ⟨ran, sent⟩ =>
    ⟨ran.later, Ends.readLine fun _ b => b.drv.trans sent⟩)

/-- The driver after `SES_WRITE` (42_session.md rule R214). -/
theorem writeSession_drv (data : Byte) (hb : s.cfg.backend = .bb) (configured : s.ses.clkdiv ≠ 0#8) :
    Ends (writeSession data) s fun _ t => t.drv = if s.eng.phase = .idle then s.drv else s.drv.afterTransfer := by
  rw [writeSession]
  refine Ends.thenPeek ?_
  rw [if_neg configured]
  refine Ends.bind (Ends.line fun t b => ⟨b.later.trans (later_of_registers rfl rfl rfl rfl), ?_⟩)
  refine Ends.bind (((engineDo_ran .tx _).and (engineDo_tx_drv (by exact b.cfg ▸ hb))).mono fun _ u ⟨ran, sent⟩ =>
    ⟨ran.later, Ends.pure ?_⟩)
  have phase : t.eng.phase = s.eng.phase := congrArg Engine.phase (b.engOfBb hb).1
  rw [← b.drv, ← phase]
  exact sent

theorem forwarded_last {f : Framer} : (f.forwarded st).remaining = 0 ↔ f.remaining = 1#16 := by
  show f.remaining - 1 = 0 ↔ _
  constructor <;> intro h <;> bv_omega

theorem closed_of_last {f : Framer} (last : (f.forwarded st).remaining = 0) :
    (f.forwarded st).closed = { lastSt := st, wdArmed := false, remaining := 0, cursor := .awaitAddr } := by
  simp only [Framer.closed, last]
  rfl

theorem PayloadRan.inputs (ran : PayloadRan b s st v x) : v.inputs <:+ s.inputs := ran.ran.later.suffix

/-- The STOP of the last payload byte, seen from the state the byte was taken in. -/
theorem PayloadRan.stop (ran : PayloadRan b s st v x) {y : State} (closed : Closed x y) :
    (s.cfg.backend = .hw → s.ses.clkdiv ≠ 0#8 → EngineSilent s ∨ y.eng.phase ≠ .unknown → y.eng.pendStop = true) ∧
      (s.cfg.backend = .bb → s.ses.clkdiv ≠ 0#8 → s.eng.phase ≠ .unknown →
        y.eng.phase = .idle ∧
          y.drv = { (if s.eng.phase = .idle then s.drv else s.drv.afterTransfer) with
            sclLow := false, sdaForce := false }) := by
  have done := ran.done
  refine ⟨fun hb configured still => ?_, fun hb configured known => ?_⟩
  · exact closed.pending (done.cfg ▸ hb) (done.clkdiv ▸ configured) done.later.busy
      (still.imp_left (engineSilent_of_suffix done.later.suffix))
  · have written : v.drv = _ := (writeSession_drv (s := s.running) b hb configured).of_ok ran.writes
    have driver : x.drv = _ := ran.framed.drv.trans written
    obtain ⟨idle, drv⟩ := closed.freed (done.cfg ▸ hb) (done.clkdiv ▸ configured) (done.bbPhase hb known)
    exact ⟨idle, by rw [drv, driver]⟩

/-- Settles O45: the session's work and the framer's lines, then `CloseFrame()` (`Closed`) after the last byte alone. -/
theorem rxPayloadForwardsAByte : Obligations.RxPayloadForwardsAByte := by
  unfold Obligations.RxPayloadForwardsAByte
  intro b s silent responsive
  obtain ⟨t, runs, st, v, x, ran, ends⟩ := (rxPayload_comesTo b s).completes silent responsive
  have received := ran.received ends
  have lastSt : t.frm.lastSt = st := by
    rw [received.frm, Framer.counted]
    split <;> rfl
  refine ⟨⟨st, t, runs, received.kept, received.response, received.busy, fun z => ?_, fun more => ?_,
    fun last => ?_⟩, ?_⟩
  · obtain ⟨drv, -, same⟩ := received.unconfigured z
    exact ⟨(ran.unconfigured z).1, drv, same⟩
  · rw [received.frm, Framer.counted, if_neg (mt forwarded_last.mp more)]
    rfl
  · have zero := forwarded_last (st := st).mpr last
    obtain ⟨more, -⟩ | ⟨-, y, closed, rfl⟩ := ends
    · exact absurd zero more
    · have stop := ran.stop closed
      rw [received.frm, Framer.counted, if_pos zero]
      exact ⟨closed_of_last zero, stop⟩
  · obtain ⟨u, runs', answers, agrees⟩ := sesCommand_agrees (w := s.running)
      (s := { s with frm.cursor := .awaitAddr }) (.writeSession b) rfl rfl ran.writes
      fun fired => silent (ran.inputs.subset fired)
    refine ⟨t, u, runs, runs', lastSt.trans answers.symm, fun alone more => ?_⟩
    obtain ⟨-, rfl⟩ | ⟨last, -⟩ := ends
    · have none : v.inputs = [] := suffix_nil ran.inputs alone
      rw [ran.framed.alone none]
      exact agrees none
    · exact absurd (forwarded_last.mp last) more

end

end Sys2Proof.Machine

/-! ## The end of a frame (43_framer.md rules R243, R249) -/

namespace Sys2Proof.Machine

theorem sclHeldAfter_unmoved {l : List Move} (low : Bool) (unmoved : ∀ b, Move.envScl b ∉ l) :
    sclHeldAfter low l = low := by
  induction l generalizing low with
  | nil => rfl
  | cons m rest ih =>
    have tail := ih low fun b here => unmoved b (List.mem_cons_of_mem m here)
    cases m with
    | envScl b => exact absurd List.mem_cons_self (unmoved b)
    | seq | envSda _ | engine _ | engineLines _ _ | guard | hostByte _ | hostCommand _ | hostReads | observe =>
      exact tail

section
variable {s t : State} {i : Instr} {moves : List Move} {rest : List (Instr × List Move)}

theorem runReceived_cons (h : exec i { s with inputs := moves } = .next t) :
    runReceived ((i, moves) :: rest) s = runReceived rest t := by
  rw [runReceived, h]

/-- Nothing stops a byte: the guard is silent, and the environment does not hold SCL. -/
abbrev Undisturbed (s : State) (moves : List Move) : Prop :=
  Move.guard ∉ moves ∧ (s.cfg.backend = .bb → s.bus.envSclLow = false ∧ ∀ low, Move.envScl low ∉ moves)

theorem Undisturbed.busResponsive (h : Undisturbed s moves) (hb : s.cfg.backend = .bb) :
    BusResponsive { s with inputs := moves } :=
  have ⟨released, unmoved⟩ := h.2 hb
  (sclHeldAfter_unmoved _ unmoved).trans released

/-- The environment still does not hold SCL. -/
theorem Undisturbed.released {f : Framer} (h : Undisturbed s moves) (r : Received { s with inputs := moves } f t)
    (hb : s.cfg.backend = .bb) : t.bus.envSclLow = false := by
  have unmoved : ∀ low, Move.envScl low ∉ t.inputs := fun low here => (h.2 hb).2 low (r.suffix.subset here)
  rw [← sclHeldAfter_unmoved t.bus.envSclLow unmoved]
  exact r.held.trans (h.busResponsive hb)

/-- A payload byte runs to its end. -/
theorem rxPayload_completes (b : Byte) (h : Undisturbed s moves) :
    ∃ st t, exec (.rxPayload b) { s with inputs := moves } = .next t ∧
      Received { s with inputs := moves } (s.frm.counted st) t := by
  obtain ⟨t, runs, st, received⟩ := (rxPayload_received b { s with inputs := moves }).completes h.1 h.busResponsive
  exact ⟨st, t, runs, received⟩

end

theorem counted_more {f : Framer} (st : Byte) (more : 2 ≤ f.remaining.toNat) :
    f.counted st = f.forwarded st ∧ (f.forwarded st).remaining.toNat = f.remaining.toNat - 1 := by
  have positive : f.remaining ≠ 1#16 := fun e => by simp [e] at more
  refine ⟨if_neg (mt forwarded_last.mp positive), ?_⟩
  show (f.remaining - 1).toNat = _
  bv_omega

theorem counted_last {f : Framer} (st : Byte) (last : f.remaining.toNat = 1) :
    f.counted st = { lastSt := st, wdArmed := false, remaining := 0, cursor := .awaitAddr } := by
  have zero := (forwarded_last (f := f) (st := st)).mpr (BitVec.eq_of_toNat_eq last)
  rw [Framer.counted, if_pos zero, closed_of_last zero]

/-- Any number of the bytes still to come. -/
theorem payload_counts {payload : List (Byte × List Move)} {s : State} (fwd : s.frm.cursor = .fwd)
    (armed : s.frm.wdArmed = true) (positive : 1 ≤ s.frm.remaining.toNat)
    (fits : payload.length ≤ s.frm.remaining.toNat) (undisturbed : ∀ x ∈ payload, Undisturbed s x.2) :
    ∃ t, runReceived (payload.map fun x => (.rxPayload x.1, x.2)) s = .next t ∧
      (payload.length < s.frm.remaining.toNat → t.frm.cursor = .fwd ∧ t.frm.wdArmed = true ∧
        t.frm.remaining.toNat = s.frm.remaining.toNat - payload.length) ∧
      (payload.length = s.frm.remaining.toNat →
        t.frm.cursor = .awaitAddr ∧ t.frm.wdArmed = false ∧ t.frm.remaining = 0) := by
  induction payload generalizing s with
  | nil => exact ⟨s, rfl, fun _ => ⟨fwd, armed, rfl⟩, fun none => absurd none (by simpa using Nat.ne_of_lt positive)⟩
  | cons x rest ih =>
    have first := undisturbed x List.mem_cons_self
    obtain ⟨st, u, runs, received⟩ := rxPayload_completes x.1 first
    simp only [List.length_cons, List.map_cons, runReceived_cons runs] at fits ⊢
    by_cases more : 2 ≤ s.frm.remaining.toNat
    · obtain ⟨counted, left⟩ := counted_more st more
      rw [← counted, ← received.frm] at left
      have frm : u.frm = s.frm.forwarded st := received.frm.trans counted
      have calm : ∀ y ∈ rest, Undisturbed u y.2 := fun y hy =>
        have ⟨silent, free⟩ := undisturbed y (List.mem_cons_of_mem x hy)
        ⟨silent, fun hb =>
          have hb' : s.cfg.backend = .bb := received.kept.1 ▸ hb
          ⟨first.released received hb', (free hb').2⟩⟩
      obtain ⟨t, runs', forwarding, closed⟩ := ih (by rw [frm]; exact fwd) (by rw [frm]; rfl) (by omega) (by omega) calm
      refine ⟨t, runs', fun short => ?_, fun all => closed (by omega)⟩
      obtain ⟨cursor, armed', left'⟩ := forwarding (by omega)
      exact ⟨cursor, armed', by omega⟩
    · have last : s.frm.remaining.toNat = 1 := by omega
      obtain rfl : rest = [] := List.length_eq_zero_iff.mp (by omega)
      have frm := received.frm.trans (counted_last st last)
      refine ⟨u, rfl, fun short => absurd short (by simp [last]), fun _ => ?_⟩
      rw [frm]
      exact ⟨rfl, rfl, rfl⟩

/-- Settles O46: each byte counts one of those to come (`counted_more`, `counted_last`), whatever it is answered. -/
theorem frameEndsAfterItsLength : Obligations.FrameEndsAfterItsLength := by
  unfold Obligations.FrameEndsAfterItsLength
  intro payload s fwd armed some fits silent free
  exact payload_counts fwd armed (some.trans fits) fits fun x hx =>
    ⟨silent x hx, fun hb => ⟨(free hb).1, (free hb).2 x hx⟩⟩

end Sys2Proof.Machine

/-! ## A frame of any length as one transaction (43_framer.md rules R246, R248) -/

namespace Sys2Proof.Machine

theorem lengthJoin_bytes (length : BitVec 16) :
    lengthJoin (lengthHigh (length.extractLsb' 8 8)) (length.extractLsb' 0 8) = length := by
  apply BitVec.eq_of_toNat_eq
  rw [lengthJoin_toNat _ (lengthHigh_low _), lengthHigh_eq]
  simp only [BitVec.toNat_ofNat, BitVec.extractLsb'_toNat]
  omega

/-- The address byte of a frame writes: its direction bit is 0 (rule R240). -/
theorem addressByte_write (address : Byte) : addressByte address .write = address <<< 1 := by
  obtain ⟨layout, -⟩ := addressByteLayout address .write
  exact layout.trans BitVec.or_zero

/-- A frame of the back end's in progress: between its bytes `Sending` holds of the events traced so far, and the STOP
of `CloseFrame()` leaves `Sent`. -/
structure OneTransaction (Sending Sent : List Event → State → Prop) : Prop where
  congr : ∀ {events s t}, Sending events s → t.cfg = s.cfg → t.ses = s.ses → t.eng = s.eng → t.drv = s.drv →
    t.bus = s.bus → Sending events t
  released : ∀ {events s}, Sending events s → s.cfg.backend = .bb → s.bus.envSclLow = false
  closes : ∀ {events s t}, Sending events s → s.port.busy = true → s.port.stopIssued = false → s.inputs = [] →
    Closed s t → Sent events t.idle

/-- The payload byte `b` on these moves is traced as `event`, and goes on or closes the frame as it is counted. -/
def SendsByte (Sending Sent : List Event → State → Prop) (b : Byte) (moves : List Move) (event : Event) : Prop :=
  ∀ events s, Sending events s → ∃ st t, exec (.rxPayload b) { s with inputs := moves } = .next t ∧
    t.frm = s.frm.counted st ∧ ((s.frm.forwarded st).remaining ≠ 0 → Sending (events ++ [event]) t) ∧
    ((s.frm.forwarded st).remaining = 0 → Sent (events ++ [event]) t)

/-- The framer waits for a frame. -/
abbrev Framer.Waits (f : Framer) : Prop := f.cursor = .awaitAddr ∧ f.wdArmed = false ∧ f.remaining = 0

section
variable {Sending Sent : List Event → State → Prop} {α : Type} {byte : α → Byte} {moves : α → List Move}
  {event : α → Event} {events : List Event} {s : State}

/-- The payload, in order, with as many bytes as `REMAINING` counts. -/
theorem payload_sent {x : α} {payload : List α}
    (sends : ∀ y ∈ x :: payload, SendsByte Sending Sent (byte y) (moves y) (event y)) (sending : Sending events s)
    (counted : s.frm.remaining.toNat = payload.length + 1) :
    ∃ t, runReceived ((x :: payload).map fun y => (.rxPayload (byte y), moves y)) s = .next t ∧ t.frm.Waits ∧
      Sent (events ++ (x :: payload).map event) t := by
  induction payload generalizing x events s with
  | nil =>
    obtain ⟨st, t, runs, frm, -, last⟩ := sends x List.mem_cons_self events s sending
    have frm' : t.frm = _ := frm.trans (counted_last st counted)
    refine ⟨t, runReceived_cons runs, ?_, last (forwarded_last.mpr (BitVec.eq_of_toNat_eq counted))⟩
    rw [frm']
    exact ⟨rfl, rfl, rfl⟩
  | cons y rest ih =>
    obtain ⟨st, u, runs, frm, more, -⟩ := sends x List.mem_cons_self events s sending
    rw [List.length_cons] at counted
    obtain ⟨forwarded, left⟩ := counted_more (f := s.frm) st (by omega)
    have going := more fun zero => by simp [zero] at left; omega
    rw [forwarded] at frm
    obtain ⟨t, runs', waits, sent⟩ := ih (fun z hz => sends z (List.mem_cons_of_mem x hz)) going
      (by rw [frm, left]; omega)
    refine ⟨t, (runReceived_cons runs).trans runs', waits, ?_⟩
    rwa [List.append_assoc] at sent

theorem OneTransaction.framed (one : OneTransaction Sending Sent) (sending : Sending events s) {f : Framer} {x : State}
    (framed : Framed (State.running { s with inputs := [] }) f x) : Sending events x := by
  rw [framed.alone rfl]
  exact one.congr sending rfl rfl rfl rfl rfl

/-- A payload byte that was sent ends where it was, or with the STOP. -/
theorem OneTransaction.ends (one : OneTransaction Sending Sent) {f : Framer} {x t : State} (sending : Sending events x)
    (closes : ∀ y, Closed x y → Sent events y.idle) (ends : PayloadEnds f x t) :
    (f.remaining ≠ 0 → Sending events t) ∧ (f.remaining = 0 → Sent events t) := by
  obtain ⟨more, rfl⟩ | ⟨zero, y, closed, rfl⟩ := ends
  · exact ⟨fun _ => one.congr sending rfl rfl rfl rfl rfl, fun zero => absurd zero more⟩
  · exact ⟨fun more => absurd zero more, fun _ => closes y closed⟩

/-- The length bytes and the payload, from the end of the address byte. -/
theorem OneTransaction.fromLength (one : OneTransaction Sending Sent) {payload : List α}
    (fits : payload.length ≤ 65535) (sends : ∀ y ∈ payload, SendsByte Sending Sent (byte y) (moves y) (event y))
    (sending : Sending events s) :
    let length := BitVec.ofNat 16 payload.length
    ∃ t, runReceived ((.rxLenHi (length.extractLsb' 8 8), []) :: (.rxLenLo (length.extractLsb' 0 8), []) ::
        payload.map fun y => (.rxPayload (byte y), moves y)) s = .next t ∧ t.frm.Waits ∧
      Sent (events ++ payload.map event) t := by
  intro length
  obtain ⟨u, high, framed⟩ := rxLenHi_runs (s := { s with inputs := [] }) (length.extractLsb' 8 8) nofun
  have going : Sending events u.idle := one.congr (one.framed sending framed) rfl rfl rfl rfl rfl
  have joined : (u.idle.frm.lengthRead (length.extractLsb' 0 8)).remaining = length := by
    rw [show u.idle.frm = _ from framed.frm]
    exact lengthJoin_bytes length
  rw [runReceived_cons high]
  cases payload with
  | nil =>
    have silent : GuardSilent { u.idle with inputs := [] } := nofun
    obtain ⟨_, low, x, ⟨more, -⟩ | ⟨zero, framed', y, closed, rfl⟩⟩ :=
      (rxLenLo_comesTo (length.extractLsb' 0 8) { u.idle with inputs := [] }).completes silent
        (one.released (s := u.idle) going)
    · exact absurd joined more
    · have frm := (closed.after framed'.frm).frm
      rw [closed_of_zero zero] at frm
      have alone := framed'.alone rfl
      refine ⟨_, runReceived_cons low, ?_, ?_⟩
      · rw [show y.idle.frm = _ from frm]
        exact ⟨rfl, rfl, rfl⟩
      · rw [List.map_nil, List.append_nil]
        exact one.closes (one.framed going framed') framed'.busy framed'.issued (by rw [alone]) closed
  | cons p rest =>
    have nat : length.toNat = rest.length + 1 := by
      simp only [length, List.length_cons, BitVec.toNat_ofNat] at fits ⊢
      omega
    obtain ⟨x, low, framed'⟩ := rxLenLo_runs (s := { u.idle with inputs := [] }) (length.extractLsb' 0 8) nofun
      (fun zero => by simp [joined.symm.trans zero] at nat)
    obtain ⟨t, runs, ends⟩ := payload_sent sends (one.congr (one.framed going framed') rfl rfl rfl rfl rfl)
      (s := x.idle) (by rw [show x.idle.frm = _ from framed'.frm]; exact (congrArg _ joined).trans nat)
    exact ⟨t, (runReceived_cons low).trans runs, ends⟩

end

end Sys2Proof.Machine

/-! ## A frame on the byte engine (43_framer.md rule R248; 20_memory.md rule R81) -/

namespace Sys2Proof.Machine

/-- A frame is in progress on the byte engine: the engine is free, in the transmitter's data phase. -/
structure EngineSending (c : Params) (events : List Event) (s : State) : Prop where
  cfg : s.cfg = c
  free : EngineFree s
  phase : s.eng.phase = .mt
  trace : s.bus.trace = events

/-- The frame is sent, but for the STOP. -/
structure EngineSent (events : List Event) (s : State) : Prop where
  stop : StopPending s
  trace : s.bus.trace = events

section
variable {c : Params} {events : List Event} {s u v x t : State} {f : Framer} {e : Engine} {k : Nat}

theorem EngineRan.sending (ran : EngineRan s k e events v) (done : Performed v) (hb : s.cfg.backend = .hw)
    (configured : s.ses.clkdiv ≠ 0#8) (phase : e.phase = .mt) :
    EngineSending s.cfg (s.bus.trace ++ events) v where
  cfg := ran.cfg
  free := ⟨by rw [ran.cfg]; exact hb, by rw [ran.ses]; exact configured, done.ecmd, done.pendStop, done.phase⟩
  phase := by rw [ran.eng]; exact phase
  trace := ran.trace

theorem EngineSending.framed (h : EngineSending c events v) (framed : Framed v f x) : EngineSending c events x := by
  obtain ⟨backend, configured, ecmd, stop, known⟩ := h.free
  obtain ⟨eng, trace⟩ := framed.engOfDisabled (engineEnabled_free ecmd stop known)
  have cfg : x.cfg = v.cfg := framed.cfg
  have ses : x.ses = v.ses := framed.ses
  have eng' : x.eng = v.eng := eng
  refine ⟨cfg.trans h.cfg, ?_, eng' ▸ h.phase, trace.trans h.trace⟩
  rw [EngineFree, cfg, ses, eng']
  exact h.free

/-- The STOP of a frame that closes: the engine's next step performs it. -/
theorem EngineSending.closes (h : EngineSending c events x) (busy : x.port.busy = true)
    (unissued : x.port.stopIssued = false) (silent : GuardSilent x) (closed : Closed x t) :
    EngineSent events t.idle := by
  obtain ⟨backend, configured, ecmd, stop, known⟩ := h.free
  obtain ⟨w, stops, framed⟩ := closed
  obtain ⟨v, runs, b, phase⟩ := stopSession_pending ⟨backend, configured, unissued, ecmd, known, .inl rfl⟩ silent
  rw [stops] at runs
  injection runs with _ state
  subst state
  have held : v.stopIssue.stopHeld = true := by simp [State.stopHeld, b.busy.trans busy, phase]
  obtain ⟨eng, trace⟩ := framed.engOfHeld held
  have cfg : t.cfg = x.cfg := framed.cfg.trans b.cfg
  have ses : t.ses = x.ses := framed.ses.trans b.ses
  have eng' : t.eng = v.stopIssue.eng := eng
  have quiet := (b.engOfDisabled (engineEnabled_free ecmd stop known)).2
  exact ⟨⟨by rw [cfg]; exact backend, by rw [ses]; exact configured, rfl, by rw [eng']; exact phase, by rw [eng']⟩,
    (trace.trans quiet).trans h.trace⟩

/-- A byte that was not lost. -/
theorem sentEvent_kept {o : TxOutcome} (kept : o ≠ .lost) (b : Byte) :
    sentEvent b o = .byte b (decide (o = .nack)) := if_neg kept

theorem oneTransactionOnTheEngine (c : Params) : OneTransaction (EngineSending c) EngineSent where
  congr := fun {events s t} h cfg ses eng drv bus => by
    refine ⟨cfg.trans h.cfg, ?_, eng ▸ h.phase, bus ▸ h.trace⟩
    rw [EngineFree, cfg, ses, eng]
    exact h.free
  released := fun h hb => nomatch h.free.1.symm.trans hb
  closes := fun h busy unissued alone closed => h.closes busy unissued (by rw [GuardSilent, alone]; nofun) closed

/-- A payload byte that the engine answers in time and that is not lost (rule R243). -/
theorem sendsByte_onTheEngine {d : EngineDraw} (wf : c.codes.wf) (hk : k ≤ c.waitBudget) (kept : d.tx ≠ .lost)
    (b : Byte) :
    SendsByte (EngineSending c) EngineSent b (turns 5 ++ polled k d) (.byte b (decide (d.tx = .nack))) := by
  intro events s sending
  obtain rfl := sending.cfg
  have silent : Move.guard ∉ turns 5 ++ polled k d := by simp [polled, turns]
  have backend := sending.free.1
  obtain ⟨t, runs, st, v, x, ran, ends⟩ :=
    (rxPayload_comesTo b { s with inputs := turns 5 ++ polled k d }).completes silent
      fun hb => nomatch backend.symm.trans hb
  obtain ⟨u, writes, engine, done, -⟩ := writeSession_polled (l := [])
    (sending.free.issuable (cmd := .tx) (.inr (by rw [sending.phase]; nofun))) wf hk b d nofun
  rw [List.append_nil] at writes
  have same := ran.writes.symm.trans writes
  injection same with _ state
  subst state
  have phase : sentPhase s.eng.phase b d.tx = .mt := by simp [sentPhase, kept, sending.phase]
  have sent := (engine.sending done backend sending.free.2.1 phase).framed ran.framed
  rw [sentEvent_kept kept, show s.running.bus.trace = events from sending.trace] at sent
  exact ⟨st, t, runs, (ran.received ends).frm, (oneTransactionOnTheEngine s.cfg).ends sent (fun _ closed =>
    sent.closes ran.done.later.busy (ran.framed.issued.trans engine.issued)
      (fun fired => silent (ran.done.later.suffix.subset fired)) closed) ends⟩

/-- The START and the address byte, both answered in time (rule R240). -/
theorem rxAddr_onTheEngine {k' : Nat} {d d' : EngineDraw} (free : EngineFree s) (idle : s.eng.phase = .idle)
    (wf : s.cfg.codes.wf) (hk : k ≤ s.cfg.waitBudget) (hk' : k' ≤ s.cfg.waitBudget) (kept : d'.tx ≠ .lost)
    (address : Byte) :
    ∃ t, exec (.rxAddr address) { s with inputs := turns 5 ++ polled k d ++ turns 7 ++ polled k' d' } = .next t ∧
      EngineSending s.cfg (s.bus.trace ++ [.start, .byte (address <<< 1) (decide (d'.tx = .nack))]) t := by
  have silent : Move.guard ∉ turns 5 ++ polled k d ++ turns 7 ++ polled k' d' := by simp [polled, turns]
  obtain ⟨_, runs, w, st, v, x, ran, rfl⟩ :=
    (rxAddr_comesTo address { s with inputs := _ }).completes silent fun hb => nomatch free.1.symm.trans hb
  have begins := ran.begins (rest := turns 4 ++ polled k d ++ turns 7 ++ polled k' d') (.inr rfl)
  obtain ⟨u, starts, engine, done, -⟩ := startSession_polled (l := []) (d := d) (d' := d') (s := s.cleared)
    ((free.issuable (cmd := .start) (.inl rfl)).congr rfl rfl rfl rfl rfl rfl) free.2.2.2.1 wf hk hk' address .write
    nofun
  have same := ran.starts
  rw [begins] at same
  simp only [List.append_nil, ← List.append_assoc] at starts
  have same := same.symm.trans starts
  injection same with _ state
  subst state
  have phase := sentPhase_addressByte address .write d'.tx
  rw [if_neg kept] at phase
  have sent := (engine.sending done free.1 free.2.1 phase).framed ran.framed
  rw [sentEvent_kept kept, addressByte_write, show (if s.eng.phase = .idle then Event.start else .rstart) = .start from
    if_pos idle] at sent
  exact ⟨_, runs, (oneTransactionOnTheEngine s.cfg).congr sent rfl rfl rfl rfl rfl⟩

end

/-- Settles O47: every byte is one the engine answers in time (`rxAddr_onTheEngine`, `sendsByte_onTheEngine`), between
them the engine is free, and the STOP of `CloseFrame()` stays pending to the end. -/
theorem frameIsOneTransactionOnTheEngine : Obligations.FrameIsOneTransactionOnTheEngine := by
  unfold Obligations.FrameIsOneTransactionOnTheEngine
  intro address payload k k' d d' stop s free idle cursor disarmed wf fits hk hk' kept inTime length answer
  obtain ⟨u, addressed, sending⟩ := rxAddr_onTheEngine (d := d) free idle wf hk hk' kept address
  obtain ⟨t, runs, ⟨waits, off, none⟩, sent⟩ := (oneTransactionOnTheEngine s.cfg).fromLength fits
    (fun x hx => sendsByte_onTheEngine wf (inTime x hx).1 (inTime x hx).2 x.1) sending
  have busTrace {y : State} (hb : y.cfg.backend = .hw) : y.busTrace = y.bus.trace := by rw [State.busTrace, hb]
  refine ⟨t, (runReceived_cons addressed).trans runs, waits, off, none, ?_, ?_⟩
  · rw [busTrace sent.stop.backend, busTrace free.1, sent.trace]
  · rw [sent.stop.apply, busTrace sent.stop.backend, busTrace (by exact sent.stop.backend)]

end Sys2Proof.Machine

/-! ## A frame on the bit-bang driver (43_framer.md rule R248; 40_bus_driver.md rule R150) -/

namespace Sys2Proof.Machine

/-- A frame is in progress on the driver: it rests on the owned bus, in the transmitter's data phase, and the parse of
the lines has seen `events`. -/
structure DriverSending (c : Params) (events : List Event) (s : State) : Prop where
  cfg : s.cfg = c
  configured : s.ses.clkdiv ≠ 0#8
  phase : s.eng.phase = .mt
  atRest : DriverAtRest true s
  lines : Wave s s.drv false s.parsed s
  owned : BusOwned s
  trace : s.busTrace = events

/-- The frame is sent, the STOP with it. -/
structure DriverSent (events : List Event) (s : State) : Prop where
  phase : s.eng.phase = .idle
  trace : s.busTrace = events ++ [.stop]

section
variable {c : Params} {events : List Event} {s u v t : State} {low : Bool}

theorem DriverSending.released (h : DriverSending c events s) : SlavesReleased s := ⟨h.lines.envScl, h.lines.envSda⟩

/-- The moves of a slave that answers the acknowledge bit stop nothing. -/
theorem undisturbed_slaveAck (free : s.bus.envSclLow = false) (n : Nat) (low : Bool) :
    Undisturbed s (turns n ++ slaveAck low) :=
  ⟨by simp [turns, slaveAck], fun _ => ⟨free, by simp [turns, slaveAck]⟩⟩

/-- A byte sent on the owned bus, the slave answering its acknowledge bit, leaves the driver at rest on it. -/
theorem DriverSending.ofByte {s₀ : State} {d : Driver} {p : ParseState} {data code : Byte} {e : Engine}
    (w : Wave s₀ d false p s) (force : d.sdaForce = false) (owned : p.owned = true) (bits : p.bits = [])
    (sent : putByteBody data (s.withInputs (turns 82 ++ slaveAck low)) = .ok code v) (k : EngineWrote v e t)
    (configured : s₀.ses.clkdiv ≠ 0#8) (phase : e.phase = .mt) :
    DriverSending s₀.cfg (p.events ++ [.byte data !low]) t ∧ t.inputs = [] := by
  obtain ⟨u, runs, w'⟩ := putByte_slaveAck data low w force
  rw [sent] at runs
  injection runs with _ state
  subst state
  have bus : t.bus = u.bus := k.alone rfl
  have w'' := w'.rebase (u := t) k.cfg k.drv bus
  obtain ⟨trace, own, -⟩ := w'.byte_traced owned bits k.cfg bus
  have cfg : t.cfg = s₀.cfg := k.cfg.trans w'.cfg
  have ses : t.ses = s₀.ses := k.ses.trans w'.ses
  refine ⟨⟨cfg, by rw [ses]; exact configured, by rw [k.eng]; exact phase, ?_, w''.congr w''.drv.symm w''.parsed.symm,
    own, trace⟩, suffix_nil k.suffix rfl⟩
  rw [DriverAtRest, w''.drv]
  exact ⟨rfl, rfl, force, rfl, rfl⟩

theorem DriverSending.congr (h : DriverSending c events s) (cfg : t.cfg = s.cfg) (ses : t.ses = s.ses)
    (eng : t.eng = s.eng) (drv : t.drv = s.drv) (bus : t.bus = s.bus) : DriverSending c events t := by
  have w := h.lines.rebase cfg drv bus
  refine ⟨cfg.trans h.cfg, by rw [ses]; exact h.configured, by rw [eng]; exact h.phase, ?_,
    w.congr w.drv.symm w.parsed.symm, ?_, ?_⟩
  · rw [DriverAtRest, drv]
    exact h.atRest
  · rw [BusOwned, bus]
    exact h.owned
  · rw [State.busTrace, cfg, bus]
    exact h.trace

/-- The STOP of a frame that closes, on the lines (rules R139, R199). -/
theorem DriverSending.closes (h : DriverSending c events s) (alone : s.inputs = []) (closed : Closed s t) :
    DriverSent events t.idle := by
  have hb := h.lines.backend
  have silent : GuardSilent s := by rw [GuardSilent, alone]; nofun
  obtain ⟨_, v, stops, wrote⟩ := (stopBody_ends hb).completes silent fun _ => by
    rw [BusResponsive, alone]
    exact h.lines.envScl
  obtain ⟨u, runs, k⟩ := stopSession_stopped h.configured hb (by rw [h.phase]; nofun) stops wrote
    fun fired => silent (wrote.suffix.subset fired)
  obtain ⟨w, stops', framed⟩ := closed
  rw [stops'] at runs
  injection runs with _ state
  subst state
  have quiet : w.inputs = [] := suffix_nil k.suffix (suffix_nil wrote.suffix alone)
  have trace := stop_traced hb h.released h.lines.traced alone stops k.cfg k.alone
  rw [h.atRest.stopParse_owned (h.lines.prev.trans h.atRest.lineOf_rest) h.owned.1 h.owned.2, ← busTrace_bb hb,
    h.trace] at trace
  rw [framed.alone quiet]
  exact ⟨congrArg Engine.phase k.eng, trace⟩

theorem oneTransactionOnTheDriver (c : Params) : OneTransaction (DriverSending c) DriverSent where
  congr := DriverSending.congr
  released h _ := h.lines.envScl
  closes h _ _ alone closed := h.closes alone closed

/-- A payload byte (rule R243). -/
theorem sendsByte_onTheDriver (wf : c.codes.wf) (b : Byte) (low : Bool) :
    SendsByte (DriverSending c) DriverSent b (turns 83 ++ slaveAck low) (.byte b !low) := by
  intro events s sending
  obtain rfl := sending.cfg
  have calm := undisturbed_slaveAck sending.lines.envScl 83 low
  obtain ⟨t, runs, st, v, x, ran, ends⟩ :=
    (rxPayload_comesTo b { s with inputs := turns 83 ++ slaveAck low }).completes calm.1 calm.busResponsive
  obtain ⟨w, u, writes, sent, -, -, k⟩ := writeSession_sent (s := s.running) sending.configured sending.lines.backend
    sending.lines.envScl (by rw [sending.phase]; nofun) (by rw [sending.phase]; nofun) wf b low
    (l := [.envSda false]) (by simp)
  have same := ran.writes.symm.trans writes
  injection same with _ state
  subst state
  have phase : sentPhase s.eng.phase b (ackOutcome low) = .mt := by
    rw [sending.phase]
    cases low <;> rfl
  obtain ⟨-, -, force, -⟩ := sending.atRest
  obtain ⟨sent, alone⟩ := DriverSending.ofByte
    (sending.lines.rebase (u := { s.running with eng.data := b }) rfl rfl rfl) force sending.owned.1 sending.owned.2
    sent k sending.configured phase
  rw [← busTrace_bb sending.lines.backend, sending.trace] at sent
  have framed := ran.framed.alone alone
  have sent' : DriverSending s.cfg (events ++ [.byte b !low]) x := by
    rw [framed]
    exact sent.congr rfl rfl rfl rfl rfl
  exact ⟨st, t, runs, (ran.received ends).frm, (oneTransactionOnTheDriver s.cfg).ends sent'
    (fun _ => sent'.closes (by rw [framed]; exact alone)) ends⟩

/-- The START and the address byte (rule R240). -/
theorem rxAddr_onTheDriver (hb : s.cfg.backend = .bb) (configured : s.ses.clkdiv ≠ 0#8) (idle : s.eng.phase = .idle)
    (wf : s.cfg.codes.wf) (rest : DriverAtRest false s) (released : SlavesReleased s) (traced : LinesTraced s)
    (free : (parseLines s.bus.ltrace).owned = false) (address : Byte) (low : Bool) :
    ∃ t, exec (.rxAddr address) { s with inputs := turns 93 ++ slaveAck low } = .next t ∧
      DriverSending s.cfg (s.busTrace ++ [.start, .byte (address <<< 1) !low]) t := by
  have calm := undisturbed_slaveAck released.1 93 low
  obtain ⟨_, runs, w, st, v, x, ran, rfl⟩ :=
    (rxAddr_comesTo address { s with inputs := turns 93 ++ slaveAck low }).completes calm.1 calm.busResponsive
  have begins := ran.begins (rest := turns 92 ++ slaveAck low) (.inr rfl)
  obtain ⟨z, u, starts, sent, -, -, k⟩ := startSession_sent (s := s.cleared) hb released.1 configured
    (by rw [idle]; nofun) wf address .write low (l := [.envSda false]) (by simp)
  have same := ran.starts
  rw [begins] at same
  have same := same.symm.trans starts
  injection same with _ state
  subst state
  have phase := sentPhase_addressByte address .write (ackOutcome low)
  rw [if_neg (by cases low <;> nofun)] at phase
  obtain ⟨q, wave, own, bits, trace⟩ := startEncoded_wave (s := s.cleared) hb released traced rest nofun
  obtain ⟨keepsCfg, keepsSes, -⟩ := startEncoded_keeps s.cleared
  obtain ⟨sent, alone⟩ := DriverSending.ofByte
    (wave.rebase (u := { s.cleared.startEncoded with eng.data := addressByte address .write }) rfl rfl rfl) rfl own
    bits sent k (by rw [keepsSes]; exact configured) phase
  rw [trace, free, keepsCfg, addressByte_write, List.append_assoc] at sent
  refine ⟨_, runs, ?_⟩
  rw [ran.framed.alone alone]
  exact sent.congr rfl rfl rfl rfl rfl

end

/-- Settles O48: every byte leaves the driver at rest on the owned bus (`DriverSending.ofByte`), from where the STOP is
traced as one. -/
theorem frameIsOneTransactionOnTheDriver : Obligations.FrameIsOneTransactionOnTheDriver := by
  unfold Obligations.FrameIsOneTransactionOnTheDriver
  intro address ack payload s hb configured idle cursor disarmed wf rest released traced free fits length
  obtain ⟨u, addressed, sending⟩ := rxAddr_onTheDriver hb configured idle wf rest released traced free address ack
  obtain ⟨t, runs, ⟨waits, off, none⟩, sent⟩ := (oneTransactionOnTheDriver s.cfg).fromLength fits
    (fun x _ => sendsByte_onTheDriver wf x.1 x.2) sending
  exact ⟨t, (runReceived_cons addressed).trans runs, waits, off, none, sent.phase, sent.trace⟩

end Sys2Proof.Machine

/-! ## The end of every operation (60_exceptions.md rules R275, R280, R284; 30_encoding.md rules R93 to R97, R120) -/

namespace Sys2Proof.Machine

/-! ### The refusals of a decoded command -/

/-- A session command other than `SES_CONFIGURE` is refused during a frame alone (30_encoding.md rule R97). -/
def sesRefusal (s : State) : Option RefuseReason :=
  if s.frm.cursor ≠ .awaitAddr then some .frameInProgress else none

/-- The reason a decoded operation is refused for (rule R275, orders 3 to 6). -/
def commandRefusal (i : Instr) (s : State) : Option RefuseReason :=
  match i with
  | .bbConfigure => bbRefusal false true s
  | .bbTransfer cw => bbRefusal true (controlWordOk cw) s
  | .bbStart | .bbStop | .bbPutbyte _ | .bbGetbyte _ => bbRefusal true true s
  | .sesStart _ _ | .sesWrite _ | .sesReadAck | .sesReadNack | .sesStop => sesRefusal s
  | .sesConfigure _ _ | .rxAddr _ | .rxLenHi _ | .rxLenLo _ | .rxPayload _ => none

/-- A word that does not decode is refused for its opcode or its reserved bits, before any other reason. -/
theorem refusalOf_undecodable {w : CmdWord} {reason : RefuseReason} (h : decodeCommand w = .error reason) (s : State) :
    refusalOf w s = some reason := by
  obtain ⟨bits, e⟩ | ⟨mask, i, bits, e⟩ := decodeCommand_cases w
  · cases e.symm.trans h
    simp only [refusalOf, bits]
  · obtain ⟨reserved, rfl⟩ := checkReserved_error.mp (e.symm.trans h)
    simp only [refusalOf, bits]
    exact if_pos (by simpa using reserved)

/-- Past the decoder each operation's own reasons are left, in the order of the rule. -/
theorem refusalOf_decoded {w : CmdWord} {i : Instr} (h : decodeCommand w = .ok i) (s : State) :
    refusalOf w s = commandRefusal i s := by
  obtain ⟨mask, bits, clear⟩ : ∃ mask, reservedBits (opField w) = some mask ∧ w &&& mask = 0 := by
    obtain ⟨-, e⟩ | ⟨mask, j, bits, e⟩ := decodeCommand_cases w
    · cases e.symm.trans h
    · obtain ⟨reserved, -⟩ := checkReserved_ok.mp (e.symm.trans h)
      exact ⟨mask, bits, by simpa using reserved⟩
  have encoded := decodeCommand_eq_ok_iff.mp h
  simp only [refusalOf, bits, clear]
  cases i with
  | bbConfigure | bbStart | bbStop | bbPutbyte _ | bbGetbyte _ | bbTransfer _ =>
    cases encoded
    simp [commandRefusal, bbRefusal]
  | sesStart _ _ | sesWrite _ | sesReadAck | sesReadNack | sesStop =>
    cases encoded
    simp [commandRefusal, sesRefusal]
  | sesConfigure _ _ =>
    cases encoded
    simp [commandRefusal]
  | rxAddr _ | rxLenHi _ | rxLenLo _ | rxPayload _ => cases encoded

theorem bbCommand_refused {needsConfig legal : Bool} {body : Op Byte} {s : State} {reason : RefuseReason}
    (h : bbRefusal needsConfig legal s = some reason) : bbCommand needsConfig legal body s = refuse reason s := by
  rw [bbCommand, peek_then]
  unfold bbRefusal at h
  split_ifs at h ⊢ <;> cases h <;> rfl

theorem sesCommand_refused {body : Op Byte} {s : State} {reason : RefuseReason} (h : sesRefusal s = some reason) :
    sesCommand body s = refuse reason s := by
  rw [sesCommand, peek_then]
  unfold sesRefusal at h
  split_ifs at h ⊢
  cases h
  rfl

/-- A refused operation runs `refuse` alone. -/
theorem exec_refused {i : Instr} {s : State} {reason : RefuseReason} (h : commandRefusal i s = some reason) :
    exec i s = runOp (refuse reason) s := by
  have bb {needsConfig legal : Bool} {body : Op Byte} (h : bbRefusal needsConfig legal s = some reason) :
      runOp (bbCommand needsConfig legal body) s = runOp (refuse reason) s :=
    congrArg outcomeOf (bbCommand_refused (s := s.running) h)
  have ses {body : Op Byte} (h : sesRefusal s = some reason) :
      runOp (sesCommand body) s = runOp (refuse reason) s :=
    congrArg outcomeOf (sesCommand_refused (s := s.running) h)
  cases i with
  | bbConfigure | bbStart | bbStop | bbPutbyte _ | bbGetbyte _ | bbTransfer _ => exact bb h
  | sesStart _ _ | sesWrite _ | sesReadAck | sesReadNack | sesStop => exact ses h
  | sesConfigure _ _ | rxAddr _ | rxLenHi _ | rxLenLo _ | rxPayload _ => cases h

/-! ### The response of a command -/

/-- The operation ran its body, if any, and answered: refused for the reason given, or not refused. -/
def Responds (refusal : Option RefuseReason) (s t : State) : Prop :=
  ∃ u code notcfg, Later s.running u ∧ Answered u code notcfg refusal t

theorem respFlagsOf_notRefused (notcfg : Bool) : (respFlagsOf notcfg false).getLsbD 1 = false := by
  cases notcfg <;> rfl

theorem bbCommand_responds {needsConfig legal : Bool} {body : Op Byte} {s : State}
    (h : s.running.cfg.backend = .bb → legal = true → Ends body s.running fun _ t => Later s.running t) :
    ComesTo s (runOp (bbCommand needsConfig legal body) s) (Responds (bbRefusal needsConfig legal s) s) := by
  refine runOp_ends ((bbCommand_ends (s := s.running) (Q := fun _ t => Later s.running t) fun hb hl =>
    (h hb hl).mono fun _ _ later => ⟨later, later⟩).mono ?_)
  rintro _ t (⟨reason, refused, answered⟩ | ⟨accepted, code, u, later, answered⟩)
  · rw [show bbRefusal needsConfig legal s = some reason from refused]
    exact ⟨s.running, 0#8, false, .refl _, answered⟩
  · rw [show bbRefusal needsConfig legal s = none from accepted]
    exact ⟨u, code, false, later, answered⟩

theorem sesCommand_responds {body : Op Byte} {s : State} (h : Proceeds body) :
    ComesTo s (runOp (sesCommand body) s) (Responds (sesRefusal s) s) := by
  refine runOp_ends ((sesCommand_ends (Q := fun _ t => Later s.running t) ((h s.running).mono fun _ _ later =>
    ⟨later, later⟩)).mono ?_)
  rintro _ t (⟨frame, answered⟩ | ⟨cursor, code, u, later, answered⟩)
  · rw [sesRefusal, if_pos frame]
    exact ⟨s.running, 0#8, false, .refl _, answered⟩
  · rw [sesRefusal, if_neg (not_not.mpr cursor)]
    exact ⟨u, code, _, later, answered⟩

/-- A body of the driver that is run for the response 0. -/
theorem Ends.answerZero {x : Op Unit} {s : State} {d : Driver} (h : Ends x s fun _ t => Wrote s d t) :
    Ends (do x; Pure.pure 0#8 : Op Byte) s fun _ t => Later s t :=
  Ends.bind (h.mono fun _ _ w => ⟨w.later, Ends.pure w.later⟩)

/-- Every operation of the command port responds, or it stops. -/
theorem exec_responds {i : Instr} {w : CmdWord} (command : encode i = .command w) (s : State) :
    ComesTo s (exec i s) (Responds (commandRefusal i s) s) := by
  cases i with
  | bbConfigure => exact bbCommand_responds fun _ _ => (configureBody_ends _).answerZero
  | bbStart => exact bbCommand_responds fun hb _ => (startBody_ends hb).answerZero
  | bbStop => exact bbCommand_responds fun hb _ => (stopBody_ends hb).answerZero
  | bbPutbyte data => exact bbCommand_responds fun hb _ => (putByteBody_ends data hb).mono fun _ _ ⟨_, w⟩ => w.later
  | bbGetbyte last => exact bbCommand_responds fun hb _ => (getByteBody_ends last hb).mono fun _ _ ⟨_, w⟩ => w.later
  | bbTransfer cw => exact bbCommand_responds fun hb legal => (transfer_ends hb legal).mono fun _ _ ⟨_, w⟩ => w.later
  | sesConfigure div bits =>
    exact runOp_ends (Ends.bind ((Proceeds.configureSession div bits s.running).mono fun code u later =>
      ⟨later, (respond_ends code false u).mono fun _ _ answered => ⟨u, code, false, later, answered⟩⟩))
  | sesStart mode address =>
    exact sesCommand_responds fun u => (startSession_ran address mode u).mono fun _ _ ⟨ran, _⟩ => ran.later
  | sesWrite data => exact sesCommand_responds fun u => (writeSession_ran data u).mono fun _ _ ⟨ran, _⟩ => ran.later
  | sesReadAck => exact sesCommand_responds fun u => (readSession_ran .rxAck u).mono fun _ _ ⟨ran, _⟩ => ran.later
  | sesReadNack => exact sesCommand_responds fun u => (readSession_ran .rxNack u).mono fun _ _ ⟨ran, _⟩ => ran.later
  | sesStop => exact sesCommand_responds .stopSession
  | rxAddr _ | rxLenHi _ | rxLenLo _ | rxPayload _ => cases command

/-- A decoded operation that is not refused comes to its response, with the guard silent and the bus responsive. -/
theorem exec_accepted {i : Instr} {w : CmdWord} {s : State} (decoded : decodeCommand w = .ok i)
    (accepted : commandRefusal i s = none) (silent : GuardSilent s)
    (responsive : s.cfg.backend = .bb → BusResponsive s) :
    ∃ t, exec i s = .next t ∧ t.port.refusal = none ∧ t.port.respFlags.getLsbD 1 = false ∧ t.port.respValid = true ∧
      t.port.busy = false ∧ PortsKept s t := by
  obtain ⟨t, ends, u, code, notcfg, later, answered⟩ :=
    (exec_responds (decodeCommand_eq_ok_iff.mp decoded) s).completes silent responsive
  rw [accepted] at answered
  obtain ⟨-, flags, valid, refusal, busy⟩ := answered.port
  exact ⟨t, ends, refusal, flags ▸ respFlagsOf_notRefused notcfg, valid, busy, answered.ports later⟩

/-- Every received byte runs to its end, or it stops. -/
theorem exec_received (c : Cursor) (b : Byte) (s : State) :
    ComesTo s (exec (decodeReceived c b) s) fun t => ∃ f, Received s f t := by
  cases c with
  | awaitAddr => exact (rxAddr_received b s).mono fun _ ⟨_, h⟩ => ⟨_, h⟩
  | lenHi => exact (rxLenHi_received b s).mono fun _ h => ⟨_, h⟩
  | lenLo => exact (rxLenLo_received b s).mono fun _ h => ⟨_, h⟩
  | fwd => exact (rxPayload_received b s).mono fun _ ⟨_, h⟩ => ⟨_, h⟩

/-- Settles O8: a word that does not decode is refused for its bits, a decoded one as `commandRefusal` says, and what is
not refused comes to its response. -/
theorem refusalsAreExactlyTheSixReasons : Obligations.RefusalsAreExactlyTheSixReasons := by
  unfold Obligations.RefusalsAreExactlyTheSixReasons
  refine ⟨fun w s offered silent => ?_, fun b s offered silent responsive => ?_⟩
  · have ⟨_, _, _, word⟩ := offered
    cases decoded : decodeCommand w with
    | error reason =>
      rw [refusalOf_undecodable decoded]
      refine ⟨fun _ e => ?_, nofun⟩
      cases e
      obtain ⟨-, -, refused⟩ := undecodableWordsAreRefused w
      exact refused s reason offered silent decoded
    | ok i =>
      have turn : sequencerTurn s = exec i { s with port.cmdValid := false } := by
        simp only [sequencerTurn_command offered, takeCommand, word, decoded]
      have refusal : refusalOf w s = commandRefusal i { s with port.cmdValid := false } := refusalOf_decoded decoded _
      rw [turn, refusal]
      refine ⟨fun reason refused => ?_, fun accepted responsive => ?_⟩
      · rw [exec_refused refused]
        exact refuse_refusedWith reason silent
      · exact exec_accepted decoded accepted silent responsive
  · rw [sequencerTurn_byte offered]
    obtain ⟨t, ends, f, received⟩ :=
      (exec_received s.frm.cursor s.port.rxData { s with port.rxValid := false }).completes silent responsive
    exact ⟨t, ends, received.response, received.busy, received.ports⟩

end Sys2Proof.Machine

/-! ## Only a clock held low stops the machine (60_exceptions.md rule R284) -/

namespace Sys2Proof.Machine

/-! ### Where an operation hangs the core has released SCL -/

/-- Wherever the operation hangs, the core does not drive SCL low. -/
def HangsReleased {α : Type} (x : Op α) : Prop := ∀ s t, x s = .error .hang t → t.drv.sclLow = false

section
variable {α β : Type}

theorem Waitless.released {x : Op α} (h : Waitless x) : HangsReleased x := fun s t hang => absurd hang (h s t)

theorem HangsReleased.pure (a : α) : HangsReleased (Pure.pure a : Op α) := (Waitless.pure a).released

theorem HangsReleased.bind {x : Op α} {f : α → Op β} (h : HangsReleased x) (k : ∀ a, HangsReleased (f a)) :
    HangsReleased (x >>= f) := by
  intro s t
  rw [op_bind]
  cases hx : x s with
  | ok a u => exact k a u t
  | error e u =>
    intro hang
    cases hang
    exact h s t hx

theorem HangsReleased.peek {f : State → Op α} (h : ∀ s, HangsReleased (f s)) : HangsReleased (Machine.peek >>= f) :=
  fun s => h s s

theorem HangsReleased.ite {c : Prop} [Decidable c] {x y : Op α} (h : HangsReleased x) (k : HangsReleased y) :
    HangsReleased (if c then x else y) := by
  split <;> assumption

theorem HangsReleased.tick : HangsReleased Machine.tick := Waitless.tick.released

theorem HangsReleased.line (f : State → State) : HangsReleased (Machine.line f) := (Waitless.line f).released

theorem HangsReleased.readLine (f : State → α) : HangsReleased (Machine.readLine f) := (Waitless.readLine f).released

/-- A line, then the rest. -/
theorem HangsReleased.thenLine {f : State → State} {k : Unit → Op α} (h : HangsReleased (k ())) :
    HangsReleased (Machine.line f >>= k) := (HangsReleased.line f).bind fun _ => h

theorem waitSclHigh_hangs {s t : State} (hang : waitSclHigh s = .error .hang t) : t.drv = s.drv := by
  obtain ⟨u, -, ⟨moved, -, -, -, ⟨passes, -⟩ | ⟨stuck, -⟩⟩ | ⟨cut, -⟩⟩ :=
    holdOn_cases (C := State.sclLine) (fun _ _ => rfl) s.inputs s
  · exact nomatch passes.symm.trans hang
  · cases stuck.symm.trans hang
    exact moved.drv
  · exact nomatch cut.symm.trans hang

theorem HangsReleased.wait {f : Unit → Op α} (h : HangsReleased (f ())) {s t : State} (released : s.drv.sclLow = false)
    (hang : (waitSclHigh >>= f) s = .error .hang t) : t.drv.sclLow = false := by
  rw [op_bind] at hang
  cases waits : waitSclHigh s with
  | ok _ u =>
    rw [waits] at hang
    exact h u t hang
  | error e u =>
    rw [waits] at hang
    cases hang
    rw [waitSclHigh_hangs waits, released]

/-- Every wait for SCL comes after the line that releases it (40_bus_driver.md rules R136, R138, R139). -/
theorem HangsReleased.releaseThenWait {f : Unit → Op α} (h : HangsReleased (f ())) :
    HangsReleased (Machine.line State.releaseScl >>= fun _ => waitSclHigh >>= f) := by
  intro s t hang
  rw [op_bind] at hang
  cases releases : Machine.line State.releaseScl s with
  | ok _ u =>
    rw [releases] at hang
    have wrote : Ends (Machine.line State.releaseScl) s fun _ u => u.drv.sclLow = false :=
      Ends.line fun v _ => by rw [releaseScl_write.drv]
    exact h.wait (wrote.of_ok releases) hang
  | error e u =>
    rw [releases] at hang
    cases hang
    exact HangsReleased.line _ s t releases

end

/-! ### The bodies -/

theorem HangsReleased.bitCycle : HangsReleased bitCycle :=
  .peek fun _ => .bind .tick fun _ => .releaseThenWait <| .bind (.readLine _) fun _ => .thenLine <| .bind .tick fun _ =>
    .thenLine <| .line _

theorem HangsReleased.transferLoop (n : Nat) : HangsReleased (transferLoop n) := by
  induction n with
  | zero => exact .pure ()
  | succ n more => exact .peek fun _ => .ite (.pure ()) (.bind .bitCycle fun _ => .thenLine more)

theorem HangsReleased.transfer (cw : Byte) : HangsReleased (transfer cw) := by
  rw [transfer_eq]
  exact .peek fun _ => .thenLine <| .thenLine <| .bind (.transferLoop _) fun _ => (Waitless.transferTail _).released

theorem HangsReleased.startBody : HangsReleased startBody :=
  .peek fun _ => .releaseThenWait <| .bind .tick fun _ => .thenLine <| .bind .tick fun _ => .thenLine <| .line _

theorem HangsReleased.stopBody : HangsReleased stopBody :=
  .peek fun _ => .thenLine <| .releaseThenWait <| .bind .tick fun _ => .thenLine .tick

theorem HangsReleased.putByteBody (data : Byte) : HangsReleased (putByteBody data) :=
  .thenLine <| .thenLine <| .thenLine <| .bind (.transfer _) fun _ => .thenLine <| .bind (.transfer _) fun _ => .pure _

theorem HangsReleased.getByteBody (last : Bool) : HangsReleased (getByteBody last) :=
  .thenLine <| .bind (.transfer _) fun b => .thenLine <| .bind (.transfer _) fun _ => .pure b

theorem HangsReleased.adapterRx (m : Bool) : HangsReleased (adapterRx m) :=
  .peek fun _ => .ite (.line _) <| .bind (.getByteBody m) fun _ => .thenLine (.line _)

theorem HangsReleased.adapterOp (cmd : EngineCmd) : HangsReleased (adapterOp cmd) := by
  cases cmd with
  | start => exact .bind .startBody fun _ => .line _
  | tx => exact .peek fun s => .ite (.line _) (.bind (.putByteBody s.eng.data) fun _ => .line _)
  | rxAck => exact .adapterRx false
  | rxNack => exact .adapterRx true

/-- The busy-wait is bounded: it comes to no wait for SCL (41_engine_status.md rule R190). -/
theorem HangsReleased.pollInt (n : Nat) : HangsReleased (pollInt n) := by
  induction n with
  | zero => exact .pure ()
  | succ n more => exact .bind (.readLine id) fun _ => .ite (.bind (fun _ _ => nofun) fun _ => more) (.pure ())

theorem HangsReleased.engineDoHw (cmd : EngineCmd) : HangsReleased (engineDoHw cmd) :=
  .bind (.thenLine <| .thenLine <| .line _) fun _ => .thenLine <| .peek fun _ => .bind (.pollInt _) fun _ =>
    .bind (.readLine id) fun _ => .ite (.pure _) (.thenLine <| .pure _)

theorem HangsReleased.engineDo (cmd : EngineCmd) : HangsReleased (engineDo cmd) := by
  refine .peek fun s => ?_
  split
  · exact .engineDoHw cmd
  · exact .bind (.adapterOp cmd) fun _ => .readLine _

theorem HangsReleased.engineStop : HangsReleased engineStop := by
  refine .peek fun s => ?_
  split
  · exact .thenLine <| .line _
  · exact .bind .stopBody fun _ => .line _

theorem HangsReleased.writeSession (data : Byte) : HangsReleased (writeSession data) :=
  .peek fun _ => .ite (.pure _) (.thenLine <| .bind (.engineDo _) fun _ => .pure _)

theorem HangsReleased.startSession (address : Byte) (mode : Mode) : HangsReleased (startSession address mode) :=
  .peek fun _ => .ite (.pure _) <| .bind (.engineDo _) fun _ =>
    .ite (.bind (.writeSession _) fun _ => .pure _) (.pure _)

theorem HangsReleased.readSession (cmd : EngineCmd) : HangsReleased (readSession cmd) :=
  .peek fun _ => .ite (.pure _) (.bind (.engineDo _) fun _ => .readLine _)

theorem HangsReleased.stopSession : HangsReleased stopSession :=
  .peek fun _ => .ite (.pure _) (.bind .engineStop fun _ => .pure _)

theorem HangsReleased.configureSession (div bits : Byte) : HangsReleased (configureSession div bits) :=
  .peek fun _ => .ite (.pure _) <| .thenLine <| .thenLine <|
    .ite (.bind Waitless.configureBody.released fun _ => .pure _) (.pure _)

theorem HangsReleased.closeFrame : HangsReleased closeFrame :=
  .bind .stopSession fun _ => .thenLine <| .line _

theorem HangsReleased.bbCommand {needsConfig legal : Bool} {body : Op Byte} (h : HangsReleased body) :
    HangsReleased (bbCommand needsConfig legal body) :=
  .peek fun _ => .ite (.line _) <| .ite (.line _) <| .ite (.line _) <| .ite (.line _) (h.bind fun _ => .line _)

theorem HangsReleased.sesCommand {body : Op Byte} (h : HangsReleased body) : HangsReleased (sesCommand body) :=
  .peek fun _ => .ite (.line _) (h.bind fun _ => .line _)

theorem HangsReleased.runOp {body : Op Unit} {s t : State} (h : HangsReleased body)
    (hang : runOp body s = .fault (.busHang t)) : t.drv.sclLow = false := by
  rw [Machine.runOp] at hang
  cases ends : body s.running with
  | ok _ u => simp [ends, outcomeOf] at hang
  | error e u =>
    cases e with
    | cut => simp [ends, outcomeOf] at hang
    | hang =>
      rw [ends] at hang
      cases hang
      exact h s.running t ends

theorem exec_hangsReleased {i : Instr} {s t : State} (hang : exec i s = .fault (.busHang t)) :
    t.drv.sclLow = false := by
  cases i with
  | bbConfigure => exact (HangsReleased.bbCommand (.bind Waitless.configureBody.released fun _ => .pure _)).runOp hang
  | bbStart => exact (HangsReleased.bbCommand (.bind .startBody fun _ => .pure _)).runOp hang
  | bbStop => exact (HangsReleased.bbCommand (.bind .stopBody fun _ => .pure _)).runOp hang
  | bbPutbyte data => exact (HangsReleased.bbCommand (.putByteBody data)).runOp hang
  | bbGetbyte last => exact (HangsReleased.bbCommand (.getByteBody last)).runOp hang
  | bbTransfer cw => exact (HangsReleased.bbCommand (.transfer cw)).runOp hang
  | sesConfigure div bits => exact (HangsReleased.bind (.configureSession div bits) fun _ => .line _).runOp hang
  | sesStart mode address => exact (HangsReleased.sesCommand (.startSession address mode)).runOp hang
  | sesWrite data => exact (HangsReleased.sesCommand (.writeSession data)).runOp hang
  | sesReadAck => exact (HangsReleased.sesCommand (.readSession .rxAck)).runOp hang
  | sesReadNack => exact (HangsReleased.sesCommand (.readSession .rxNack)).runOp hang
  | sesStop => exact (HangsReleased.sesCommand .stopSession).runOp hang
  | rxAddr b =>
    refine HangsReleased.runOp ?_ hang
    exact .thenLine <| .bind (.startSession b .write) fun _ => .thenLine <| .thenLine <| .line _
  | rxLenHi b =>
    refine HangsReleased.runOp ?_ hang
    exact .thenLine <| .thenLine <| .line _
  | rxLenLo b =>
    refine HangsReleased.runOp ?_ hang
    exact .thenLine <| .thenLine <| .peek fun _ => .ite (.bind .closeFrame fun _ => .line _) (.thenLine <| .line _)
  | rxPayload b =>
    refine HangsReleased.runOp ?_ hang
    exact .bind (.writeSession b) fun _ => .thenLine <| .thenLine <| .thenLine <| .peek fun _ =>
      .ite (.bind .closeFrame fun _ => .line _) (.line _)

/-! ### The sequencer's turn and the step -/

/-- The machine goes on, or it hangs with the sequencer busy, no move left and SCL low, which the core does not hold. -/
def GoesOnOrHangs (s : State) (o : Host.Outcome State Fault Refusal) : Prop :=
  (∃ t, o = .next t) ∨
    ∃ t, o = .fault (.busHang t) ∧ s.cfg.backend = .bb ∧ t.port.busy = true ∧ t.inputs = [] ∧ t.sclLine = false ∧
      t.drv.sclLow = false

theorem ComesTo.goesOnOrHangs {s : State} {o : Host.Outcome State Fault Refusal} {Q : State → Prop} (h : ComesTo s o Q)
    (released : ∀ t, o = .fault (.busHang t) → t.drv.sclLow = false) : GoesOnOrHangs s o := by
  obtain ⟨t, e, -⟩ | ⟨t, e, -⟩ | ⟨t, e, bb, alone, low, busy, -⟩ := h
  · exact .inl ⟨t, e⟩
  · exact .inl ⟨t, e⟩
  · exact .inr ⟨t, e, bb, busy, alone, low, released t e⟩

theorem exec_goesOnOrHangs (i : Instr) (s : State) : GoesOnOrHangs s (exec i s) := by
  cases wire : encode i with
  | command w => exact (exec_responds wire s).goesOnOrHangs fun _ => exec_hangsReleased
  | received c b =>
    have decoded : decodeReceived c b = i := Except.ok.inj ((decodesExactlyTheEncodings _ _).mpr wire)
    exact decoded ▸ (exec_received c b s).goesOnOrHangs fun _ => exec_hangsReleased

theorem sequencerTurn_goesOnOrHangs (s : State) : GoesOnOrHangs s (sequencerTurn s) := by
  unfold sequencerTurn
  split
  · exact .inl ⟨s, rfl⟩
  split
  · exact exec_goesOnOrHangs _ { s with port.rxValid := false }
  split
  · unfold takeCommand
    split
    · exact exec_goesOnOrHangs _ { s with port.cmdValid := false }
    · exact ComesTo.goesOnOrHangs (s := { s with port.cmdValid := false }) (runOp_ends (refuse_ends _ _))
        fun _ => (HangsReleased.line _).runOp
  · exact .inl ⟨s, rfl⟩

theorem step_goesOnOrHangs (s : State) : GoesOnOrHangs s (step s) := by
  cases moves : s.inputs with
  | nil =>
    rw [step_of_no_inputs moves]
    exact sequencerTurn_goesOnOrHangs s
  | cons m rest =>
    by_cases seq : m = .seq
    · rw [step_of_seq (seq ▸ moves)]
      exact sequencerTurn_goesOnOrHangs { s with inputs := rest }
    · exact .inl ⟨_, step_of_move moves seq⟩

/-- Settles O57: a hang comes after the core has released SCL, so that it is the environment that holds the line low. -/
theorem onlyAHeldClockStopsTheMachine : Obligations.OnlyAHeldClockStopsTheMachine := by
  unfold Obligations.OnlyAHeldClockStopsTheMachine
  intro s
  refine (step_goesOnOrHangs s).imp_right fun ⟨t, hang, bb, busy, alone, low, released⟩ => ?_
  have kept := (tracesExtend_keptByWrites s).step s (.refl s)
  rw [hang] at kept
  have cfg : t.cfg = s.cfg := kept.cfg
  have held : t.bus.envSclLow = true := by
    simpa [State.sclLine, State.coreSclLow, cfg, bb, released] using low
  exact ⟨t, hang, bb, cfg, busy, low, held, alone⟩

end Sys2Proof.Machine

/-! ## A clock held low for good (60_exceptions.md rule R284; 40_bus_driver.md rule R134) -/

namespace Sys2Proof.Machine

theorem tick_alone {s : State} (alone : s.inputs = []) : tick s = .ok () s := by
  have runs := (Runs.tick s).alone
  rwa [withInputs_self alone] at runs

/-- The environment holds SCL low, and nobody has a move left. -/
structure ClockHeld (s : State) : Prop where
  alone : s.inputs = []
  held : s.bus.envSclLow = true

/-- Where the clock is held, the operation stops in a wait: SCL is low, nobody has a move left, and the ports are as
they were. -/
def HangsOnHeldClock {α : Type} (x : Op α) : Prop :=
  ∀ s, ClockHeld s → ∃ t, x s = .error .hang t ∧ t.inputs = [] ∧ t.sclLine = false ∧ t.port = s.port

section
variable {α β : Type}

theorem HangsOnHeldClock.bind {x : Op α} {f : α → Op β} (h : HangsOnHeldClock x) : HangsOnHeldClock (x >>= f) := by
  intro s clock
  obtain ⟨t, hang, stuck⟩ := h s clock
  exact ⟨t, by rw [op_bind, hang], stuck⟩

theorem HangsOnHeldClock.peek {f : State → Op α} (h : ∀ s, HangsOnHeldClock (f s)) :
    HangsOnHeldClock (Machine.peek >>= f) := fun s => h s s

theorem HangsOnHeldClock.wait : HangsOnHeldClock waitSclHigh := by
  intro s ⟨alone, held⟩
  have low : s.sclLine = false := by simp [State.sclLine, held]
  exact ⟨{ s with inputs := [] }, by simp [waitSclHigh, holdUntil, alone, holdOn, low], rfl, low, rfl⟩

theorem HangsOnHeldClock.afterTick {f : Unit → Op α} (h : HangsOnHeldClock (f ())) :
    HangsOnHeldClock (tick >>= f) := by
  intro s clock
  rw [op_bind, tick_alone clock.alone]
  exact h s clock

/-- Before the wait the driver's registers may be written: no write lets the environment's clock go. -/
theorem HangsOnHeldClock.afterWrite {w : State → State} {F : Driver → Driver} {f : Unit → Op α}
    (write : DriverWrite w F) (h : HangsOnHeldClock (f ())) : HangsOnHeldClock (line w >>= f) := by
  intro s clock
  obtain ⟨t, hang, alone, low, port⟩ :=
    h (w s) ⟨(write.inputs s).trans clock.alone, (write.env s).trans clock.held⟩
  refine ⟨t, ?_, alone, low, port.trans (write.port s)⟩
  rw [op_bind, line_passes (tick_alone clock.alone)]
  exact hang

end

theorem HangsOnHeldClock.startBody : HangsOnHeldClock startBody :=
  .peek fun _ => .afterWrite releaseScl_write HangsOnHeldClock.wait.bind

theorem HangsOnHeldClock.stopBody : HangsOnHeldClock stopBody :=
  .peek fun _ => .afterWrite (setSdaForce_write true) <| .afterWrite releaseScl_write HangsOnHeldClock.wait.bind

theorem HangsOnHeldClock.sampleSda : HangsOnHeldClock sampleSda :=
  .afterTick <| .afterWrite releaseScl_write HangsOnHeldClock.wait.bind

theorem HangsOnHeldClock.firstSample (cw : Byte) : HangsOnHeldClock (firstSample cw) :=
  .afterWrite (plain_write fun d => { d with bitcnt := controlBits cw }) <|
    .afterWrite (plain_write fun d => { d with tc := false }) .sampleSda

/-- A transfer waits in its first bit cycle: a legal control word has one. -/
theorem HangsOnHeldClock.transfer {cw : Byte} (legal : controlWordOk cw = true) : HangsOnHeldClock (transfer cw) := by
  intro s
  obtain ⟨n, bits⟩ : ∃ n, (controlBits cw).toNat = n + 1 := by
    simp only [controlWordOk, Bool.and_eq_true, decide_eq_true_eq] at legal
    exact ⟨(controlBits cw).toNat - 1, by omega⟩
  rw [transfer_eq_sampled bits]
  exact (HangsOnHeldClock.firstSample cw).bind s

theorem HangsOnHeldClock.putByteBody (data : Byte) : HangsOnHeldClock (putByteBody data) :=
  .afterWrite pullScl_write <| .afterWrite (setDirOut_write true) <| .afterWrite (setSr_write data)
    (HangsOnHeldClock.transfer controlWordOk_named.1).bind

theorem HangsOnHeldClock.getByteBody (last : Bool) : HangsOnHeldClock (getByteBody last) :=
  .afterWrite (setDirOut_write false) (HangsOnHeldClock.transfer controlWordOk_named.1).bind

theorem HangsOnHeldClock.bbCommand {body : Op Byte} {s : State} (h : HangsOnHeldClock body) (ready : DriverReady s)
    (clock : ClockHeld s) :
    ∃ t, runOp (bbCommand true true body) s = .fault (.busHang t) ∧ t.inputs = [] ∧ t.sclLine = false ∧
      t.port = s.running.port := by
  obtain ⟨t, hang, stuck⟩ := h s.running ⟨clock.alone, clock.held⟩
  refine ⟨t, ?_, stuck⟩
  rw [runOp, bbCommand_accepted (s := s.running) ready.accepted, op_bind, hang]
  rfl

/-- Settles O58: each of the bodies comes to `WaitSclHigh` over writes of the driver's registers alone, and there
`BUSY = 1` keeps the sequencer from any later operation. -/
theorem heldClockHangsTheDriver : Obligations.HeldClockHangsTheDriver := by
  unfold Obligations.HeldClockHangsTheDriver
  intro i s driver ready held alone
  have hangs : ∃ t, exec i s = .fault (.busHang t) ∧ t.inputs = [] ∧ t.sclLine = false ∧ t.port = s.running.port := by
    obtain rfl | rfl | ⟨data, rfl⟩ | ⟨last, rfl⟩ | ⟨cw, legal, rfl⟩ := driver
    · exact HangsOnHeldClock.startBody.bind.bbCommand ready ⟨alone, held⟩
    · exact HangsOnHeldClock.stopBody.bind.bbCommand ready ⟨alone, held⟩
    · exact (HangsOnHeldClock.putByteBody data).bbCommand ready ⟨alone, held⟩
    · exact (HangsOnHeldClock.getByteBody last).bbCommand ready ⟨alone, held⟩
    · rw [exec, execBbTransfer, legal]
      exact (HangsOnHeldClock.transfer legal).bbCommand ready ⟨alone, held⟩
  obtain ⟨t, fault, stuck, low, port⟩ := hangs
  have busy : t.port.busy = true := by rw [port]
  refine ⟨t, fault, busy, by simp [State.rxReady, busy], low, by rw [port], ?_⟩
  rw [step_of_no_inputs stuck, sequencerTurn_waits (.inl busy)]

end Sys2Proof.Machine

/-! ## Reset and power-on (70_reset_and_hazards.md rules R300, R301) -/

namespace Sys2Proof.Machine

/-! ### The reset and the bus (rule R301) -/

theorem coreReset_coreSclLow (s : State) : s.coreReset.coreSclLow = false := by
  cases hb : s.cfg.backend <;> simp [State.coreSclLow, State.powerOn, hb]

theorem coreReset_coreSdaLow (s : State) : s.coreReset.coreSdaLow = false := by
  cases hb : s.cfg.backend <;> simp [State.coreSdaLow, State.powerOn, hb]

/-- The pair is that of the lines after the release. -/
theorem coreReset_ltrace_bb {s : State} (hb : s.cfg.backend = .bb) :
    s.coreReset.bus.ltrace = s.bus.ltrace ++ [.resetMark, s.coreReset.linePair] := by
  simp only [State.coreReset, hb, releaseEngine_ltrace]
  rfl

/-- Settles O10: both drives are released, and what the reset traces is appended. -/
theorem resetReleasesTheBus : Obligations.ResetReleasesTheBus := by
  unfold Obligations.ResetReleasesTheBus
  intro s
  exact ⟨coreReset_coreSclLow s, coreReset_coreSdaLow s, coreReset_envSclLow s, coreReset_envSdaLow s,
    by rw [coreReset_eng]; rfl, coreReset_busTrace s, coreReset_ltrace_bb⟩

/-! ### The reset values (rule R300) -/

/-- Every register of the core is as at power-on with the parameters `p`. -/
structure AtReset (p : Params) (t : State) : Prop where
  cfg : t.cfg = p
  drv : t.drv = (State.powerOn p).drv
  ses : t.ses = (State.powerOn p).ses
  eng : t.eng = (State.powerOn p).eng
  frm : t.frm = (State.powerOn p).frm
  port : t.port = (State.powerOn p).port

theorem powerOn_atReset (p : Params) : AtReset p (State.powerOn p) := ⟨rfl, rfl, rfl, rfl, rfl, rfl⟩

theorem coreReset_atReset (s : State) : AtReset s.cfg s.coreReset :=
  ⟨coreReset_cfg s, coreReset_drv s, coreReset_ses s, coreReset_eng s, coreReset_frm s, coreReset_port s⟩

/-- The five bits of a code, in their place in `STAT` (10_state.md rule R31). -/
theorem codeFieldOf_append_zeros (c : Byte) : codeFieldOf c ++ 0#1 ++ 0#2 = c &&& 0xF8#8 := by
  revert c
  decide

theorem AtReset.statReg {p : Params} {t : State} (h : AtReset p t) : t.statReg = p.codes.noInfo &&& 0xF8#8 := by
  rw [State.statReg, h.eng, h.ses]
  exact codeFieldOf_append_zeros _

/-- A reset by the armed guard is the reset of the core (43_framer.md rule R250). -/
theorem apply_guard_armed {s : State} (armed : s.frm.wdArmed = true) : s.apply .guard = s.coreReset := if_pos armed

/-- Settles O9: power-on and the guard's reset leave the same registers (`AtReset`), and the reset only appends to the
traces. -/
theorem resetValues : Obligations.ResetValues := by
  unfold Obligations.ResetValues
  refine ⟨fun t s p reset => ?_, fun p => ⟨rfl, rfl, ?_⟩, fun s armed => ⟨apply_guard_armed armed, ?_⟩⟩
  · have h : AtReset p t := by
      obtain rfl | ⟨rfl, rfl⟩ := reset
      · exact powerOn_atReset p
      · exact coreReset_atReset s
    refine ⟨h.cfg, h.drv, h.ses, h.statReg, ?_⟩
    rw [h.eng, h.frm, h.port]
    exact ⟨rfl, rfl, rfl, rfl, rfl, rfl, rfl, rfl, rfl, rfl, rfl, rfl⟩
  · cases hb : p.backend <;> simp [State.busTrace, State.powerOn, parseLines, ParseState.init, hb]
  · obtain ⟨-, trace, ltrace⟩ := coreReset_tracesExtend s
    exact ⟨coreReset_busTrace s ▸ List.prefix_append _ _, trace, ltrace⟩

/-! ### The invariants at power-on -/

/-- The core drives neither line at power-on, nor does the environment (log entry 12). -/
theorem powerOn_linePair (p : Params) : (State.powerOn p).linePair = .pair true true := by
  cases hb : p.backend <;>
    simp [State.linePair, State.sclLine, State.sdaLine, State.coreSclLow, State.coreSdaLow, State.powerOn, hb]

/-- The parse of the empty `LTRACE` begins at the free lines (40_bus_driver.md rule R150). -/
theorem powerOn_linesTraced (p : Params) : LinesTraced (State.powerOn p) := fun _ => (powerOn_linePair p).symm

theorem powerOn_absentUnitInv (p : Params) : AbsentUnitInv (State.powerOn p) :=
  ⟨fun _ => ⟨rfl, rfl⟩, fun _ => ⟨rfl, rfl, rfl, nofun, rfl, rfl⟩⟩

theorem powerOn_quiescent (p : Params) : Quiescent (State.powerOn p) := ⟨rfl, rfl, rfl, fun _ => ⟨rfl, rfl⟩, rfl⟩

/-- Settles O53: the framer waits for an address, the driver and the session are unconfigured, and nothing is traced or
offered. -/
theorem resetMeetsTheInvariants : Obligations.ResetMeetsTheInvariants := by
  unfold Obligations.ResetMeetsTheInvariants
  intro p
  have framer : FramerInv (State.powerOn p) := ⟨nofun, nofun, fun _ => rfl, fun _ => rfl, nofun⟩
  have driver : DriverInv (State.powerOn p) := driverInv_iff.mpr fun _ => .inr ⟨rfl, rfl⟩
  have session : SessionInv (State.powerOn p) := ⟨fun _ => ⟨rfl, rfl, rfl⟩, Nat.zero_le _, rfl⟩
  exact ⟨framer, driver, powerOn_absentUnitInv p, session, powerOn_linesTraced p, powerOn_quiescent p⟩

end Sys2Proof.Machine

/-! ## The first run (70_reset_and_hazards.md rules R318, R319; 42_session.md rule R211) -/

namespace Sys2Proof.Machine

/-! ### `configure()` on lines the core does not drive (40_bus_driver.md rule R137) -/

/-- The driver drives neither line (10_state.md rule R50). -/
def Driver.Released (d : Driver) : Prop := d.sclLow = false ∧ d.drivesSda = false

/-- A latch at 1 drives no line that was not driven. -/
theorem Driver.Released.latched {d : Driver} (h : d.Released) : ({ d with latch := true } : Driver).Released := by
  obtain ⟨scl, sda⟩ := h
  simp only [Driver.drivesSda, Bool.and_eq_false_iff, Bool.or_eq_false_iff] at sda
  refine ⟨scl, ?_⟩
  obtain dir | ⟨force, -⟩ := sda
  · simp [Driver.drivesSda, dir]
  · simp [Driver.drivesSda, force]

section
variable {s : State}

/-- A write before and after which the driver drives neither line moves none. -/
theorem moveLines_released {F : Driver → Driver} (before : s.drv.Released) (after : (F s.drv).Released) :
    (s.moveLines fun t => { t with drv := F t.drv }) = { s with drv := F s.drv } := by
  obtain ⟨scl, sda⟩ := before
  obtain ⟨scl', sda'⟩ := after
  simp only [Driver.drivesSda] at sda sda'
  have same : ({ s with drv := F s.drv } : State).linePair = s.linePair := by
    cases hb : s.cfg.backend <;>
      simp [State.linePair, State.sclLine, State.sdaLine, State.coreSclLow, State.coreSdaLow, hb, scl, sda, scl', sda']
  simp [State.moveLines, same]

theorem Runs.released (s : State) (F : Driver → Driver) {d : Driver} (before : d.Released) (after : (F d).Released) :
    Runs (Machine.line fun s => s.moveLines fun t => { t with drv := F t.drv }) 1 { s with drv := d } ()
      { s with drv := F d } := by
  have moved := Runs.line (plainWrite_moveLines (f := fun t => { t with drv := F t.drv }) fun _ _ => rfl)
    { s with drv := d }
  rwa [moveLines_released (s := { s with drv := d }) before after] at moved

/-- Eight lines, and the driver's registers alone are written: no line moves. -/
theorem configureBody_released (released : s.drv.Released) :
    Runs configureBody 8 s () { s with drv := Driver.configured } := by
  let d : Driver := { s.drv with sclLow := false }
  have freed : d.Released := ⟨rfl, released.2⟩
  have filled : ({ d with sr := 0xFF#8 } : Driver).Released := freed
  have unforced : ({ d with sr := 0xFF#8, latch := true, sdaForce := false } : Driver).Released :=
    ⟨rfl, Bool.and_false _⟩
  refine (Runs.released s (fun d => { d with sclLow := false }) released freed).bind (k := 7) ?_
  refine (Runs.released s (fun d => { d with sr := 0xFF#8, latch := if d.sclLow then (0xFF#8).msb else d.latch })
    freed filled).bind (k := 6) ?_
  refine (Runs.released s (fun d => { d with latch := true }) filled filled.latched).bind (k := 5) ?_
  refine (Runs.released s (fun d => { d with sdaForce := false }) filled.latched unforced).bind (k := 4) ?_
  refine (Runs.released s (fun d => { d with dirOut := true }) unforced ⟨rfl, rfl⟩).bind (k := 3) ?_
  refine (Runs.line (fun _ _ => rfl) _).bind (k := 2) ?_
  refine (Runs.line (fun _ _ => rfl) _).bind (k := 1) ?_
  exact Runs.line (fun _ _ => rfl) _

/-! ### `SES_CONFIGURE` where nothing else moves -/

/-- The state with the session and, with `BACKEND = BB`, the driver configured (42_session.md rule R211). -/
def State.configuredWith (div bits : Byte) (s : State) : State :=
  { s with
    ses := { s.ses with clkdiv := div, opt := s.ses.opt ||| bits.extractLsb' 0 2 }
    drv := if s.cfg.backend = .bb then Driver.configured else s.drv }

/-- Two lines, and the eight of `configure()` where there is a driver. -/
theorem configureSession_released {div bits : Byte} (z : s.ses.clkdiv = 0#8) (nonzero : div ≠ 0#8)
    (released : s.drv.Released) :
    ∃ k, Runs (configureSession div bits) k s 1#8 (s.configuredWith div bits) := by
  let x : State := { s with ses := { s.ses with clkdiv := div, opt := s.ses.opt ||| bits.extractLsb' 0 2 } }
  obtain ⟨k, rest⟩ : ∃ k, Runs (if s.cfg.backend = .bb ∧ div ≠ 0#8 then configureBody >>= fun _ => pure 1#8
      else pure 1#8 : Op Byte) k x 1#8 (s.configuredWith div bits) := by
    by_cases bb : s.cfg.backend = .bb
    · simp only [State.configuredWith, bb, nonzero, if_true, ne_eq, not_false_eq_true, and_self]
      exact ⟨_, (configureBody_released (s := x) released).bind (Runs.pure 1#8 _)⟩
    · simp only [State.configuredWith, bb, if_false, false_and]
      exact ⟨0, Runs.pure 1#8 x⟩
  exact ⟨_, Runs.peek fun _ => Runs.congr
    ((Runs.line (fun _ _ => rfl) s).bind ((Runs.line (fun _ _ => rfl) _).bind rest)) (if_neg (not_not.mpr z))⟩

/-- With no move left the operation is its body and the response. -/
theorem execSesConfigure_alone {div bits : Byte} (z : s.ses.clkdiv = 0#8) (nonzero : div ≠ 0#8)
    (released : s.drv.Released) :
    exec (.sesConfigure div bits) (s.withInputs []) =
      .next (((s.configuredWith div bits).respond 1#8 false none).withInputs []) := by
  obtain ⟨k, runs⟩ := configureSession_released (s := s.running) (bits := bits) z nonzero released
  have all := runs.bind (f := fun code => respond code false) (Runs.line (fun _ _ => rfl) _)
  exact congrArg outcomeOf all.alone

end

/-! ### The run from `CleanEntry` -/

section
variable (p : Params) (div bits : Byte)

/-- `CleanEntry` with the host's word to come (rule R318). -/
abbrev firstRun : State := (State.cleanEntry p).withInputs [.hostCommand (commandWord 0x10 div bits)]

/-- `CleanEntry` with the word taken, which `CMD` keeps (log entry 2). -/
abbrev wordTaken : State := { State.cleanEntry p with port.cmd := commandWord 0x10 div bits }

/-- The word delivered, and not yet taken. -/
abbrev firstWord : State := { wordTaken p div bits with port.cmdValid := true }

theorem step_firstRun : step (firstRun p div bits) = .next (firstWord p div bits) :=
  step_of_move (m := .hostCommand _) rfl nofun

/-- `OPT` is 0 at power-on, so that it takes `bits[1:0]`. -/
theorem configured_eq_respond :
    State.configured p div bits =
      ((wordTaken p div bits).configuredWith div bits).respond 1#8 false none := by
  cases hb : p.backend <;> simp [State.configured, State.configuredWith, State.respond, State.powerOn, hb] <;> rfl

theorem step_firstWord (nonzero : div ≠ 0#8) :
    step (firstWord p div bits) = .next (State.configured p div bits) := by
  have taken := stepRunsTheDecodedCommand (.sesConfigure div bits) _ (firstWord p div bits) [] rfl
    ⟨rfl, rfl, rfl, rfl⟩ (.inl ⟨rfl, rfl⟩)
  rw [taken, configured_eq_respond]
  exact execSesConfigure_alone (s := wordTaken p div bits) rfl nonzero ⟨rfl, rfl⟩

end

/-- Settles O60: the host's delivery, then the operation it offers, during which no other agent has a move. -/
theorem configuredEndsTheFirstRun : Obligations.ConfiguredEndsTheFirstRun := by
  unfold Obligations.ConfiguredEndsTheFirstRun
  intro p div bits nonzero
  have ended : RunEnds 0 (State.configured p div bits) (State.configured p div bits) :=
    ⟨rfl, ⟨rfl, rfl, rfl, fun _ => ⟨rfl, rfl⟩, rfl⟩, fun m _ hm => absurd hm m.not_lt_zero⟩
  have delivered : ¬ Quiescent (firstWord p div bits) := fun ⟨_, _, taken, _⟩ => nomatch taken
  have toCome : ¬ Quiescent (firstRun p div bits) := fun ⟨_, _, _, _, nothing⟩ => nomatch nothing
  refine ⟨.next (step_firstRun p div bits) toCome (.next (step_firstWord p div bits nonzero) delivered ended), ?_⟩
  cases hb : p.backend <;> simp [State.configured, State.powerOn, Driver.configured, hb]

end Sys2Proof.Machine
